-- ==== Sys2Proof/Word.lean ====
section
/-! DEFINITION. The word types of the 4C18's links and tables: bytes, wrapping counters, poses and sparse tables.
A quantity is a bit vector only where the manual wraps it or treats it as bits on a line (order tags, release
numbers, report and tracker sequence numbers, bytes); counts, indexes and moments are `Nat`, positions `Int`. -/

namespace Sys2Proof

/-- One byte of any of the three serial links. -/
abbrev Byte := BitVec 8

/-- A 16-bit wrapping number: a report sequence number (R195) or a tracker sequence number (R101). -/
abbrev Word16 := BitVec 16

/-- A pose: x, y and z in 0.1 mm in the site frame, yaw in 0.01 degree (00_scope.md, Coordinates). -/
structure Pose where
  x : Int
  y : Int
  z : Int
  yaw : Int
  deriving DecidableEq, Repr, Inhabited

/-- A sparse table: pairs of a number and its record, numbers strictly rising; a number that is not listed
has the table's unlisted value (a VACANT slot, an absent order, a stock of 0). -/
abbrev Table (α : Type) := List (Nat × α)

end Sys2Proof
end

