-- ==== Sys2Proof/Config.lean ====
section
/-! DEFINITION. What is fixed for the part: its sizes, limits and times as the manual gives them, and the free
values, constants without a body that stand where the manual states no result. -/

namespace Sys2Proof.Config

/-- Slots of the Plan Table (R1). -/
def planSlots : Nat := 1024
/-- The highest course the part can release (R13). -/
def nativeCeiling : Nat := 96
/-- Places of the reject bin (R88). -/
def binPlaces : Nat := 24
/-- Commands the command queue holds (R191). -/
def commandPlaces : Nat := 4
/-- Messages the outbound queue holds (R194). -/
def outboundPlaces : Nat := 32
/-- Reports the outbound queue holds at most (R194). -/
def reportPlaces : Nat := 28
/-- The top of a health value or threshold (R177). -/
def attrTop : Nat := 999999
/-- The top of an error or loss counter (R190, R194, R55, R106). -/
def counterTop : Nat := 65535
/-- The bounds of a releasable reach, in 0.1 mm: 4.0 m and 25.0 m (R41). -/
def reachLow : Nat := 40000
def reachHigh : Nat := 250000

/-- The times below are in ms. The press limit (R59). -/
def pressLimit : Nat := 2500
/-- The press lockout after a cutoff (R136). -/
def pressLockout : Nat := 3000
/-- The wait for a measuring frame (R136). -/
def measuringWait : Nat := 200
/-- The lock-hold timer (R132). -/
def lockHoldLimit : Nat := 5000
/-- The point limit of the calibration routine (R150). -/
def pointLimit : Nat := 10000
/-- A hold window (R112). -/
def holdWindow : Nat := 20
/-- The longest gap between two bytes of a host frame that is no error (R190). -/
def hostGap : Nat := 20

/-- FREE VALUE (log entry 3): the 32-bit field sent for a signed quantity that does not fit 32 bits. -/
opaque overflow32 : Int → BitVec 32
/-- FREE VALUE (log entry 3): the 16-bit field sent for a signed quantity that does not fit 16 bits. -/
opaque overflow16 : Int → BitVec 16
/-- FREE VALUE (log entry 4): the quotient of R121 at a reach of 0, which the manual does not state. -/
opaque zeroReachQuotient : Int → Int

end Sys2Proof.Config
end

