-- ==== Sys2Proof/Syntax.lean ====
section
/-! DEFINITION. The commands of the block: one constructor of `Instr` per row of spec/opcode_table.json.
A host command row carries the command's tag and payload bytes as the host frame brings them (R205); a completion
row carries the completion's tag and, for a FAULT, its code byte (R55); a timer row says that the timer runs out. -/

namespace Sys2Proof

/-- The units whose FAULT or TIMEOUT can be a head jam (R64). -/
inductive HeadUnit where
  | boom | gripper | press | chute
  deriving DecidableEq, Repr

/-- The steps of the part, as spec/opcode_table.json lists them. -/
inductive Instr where
  /-- POWER_ON (R174), with the levels of the two rate straps (R188). -/
  | powerOn (strap0 strap1 : Bool)
  /-- HARD_RESET (R174), with the levels of the two rate straps (R188). -/
  | hardReset (strap0 strap1 : Bool)
  /-- HOST_FRAME (R189): bytes of the host line, coming one after another without a gap. -/
  | hostFrame (bytes : List Byte)
  /-- HOST_GAP (R190): more than 20 ms pass, and then these bytes come, without a gap. -/
  | hostGap (bytes : List Byte)
  /-- MESSAGE_SENT (R194): the last byte of the oldest outbound message has been sent. -/
  | messageSent
  /-- UNKNOWN_COMMAND (R192): a command whose kind is no command kind. -/
  | unknownCommand (kind tag : Byte) (payload : List Byte)
  | idq (tag : Byte) (payload : List Byte)
  | stq (tag : Byte) (payload : List Byte)
  | cfq (tag : Byte) (payload : List Byte)
  | cfg (tag : Byte) (payload : List Byte)
  | rst (tag : Byte) (payload : List Byte)
  | part (tag : Byte) (payload : List Byte)
  | cls (tag : Byte) (payload : List Byte)
  | lane (tag : Byte) (payload : List Byte)
  | ceilq (tag : Byte) (payload : List Byte)
  | ceilSet (tag : Byte) (payload : List Byte)
  | ceilFreeze (tag : Byte) (payload : List Byte)
  | pap (tag : Byte) (payload : List Byte)
  | pld (tag : Byte) (payload : List Byte)
  | prd (tag : Byte) (payload : List Byte)
  | mark (tag : Byte) (payload : List Byte)
  | rearm (tag : Byte) (payload : List Byte)
  | adv (tag : Byte) (payload : List Byte)
  | go (tag : Byte) (payload : List Byte)
  | halt (tag : Byte) (payload : List Byte)
  | abort (tag : Byte) (payload : List Byte)
  | clear (tag : Byte) (payload : List Byte)
  | accept (tag : Byte) (payload : List Byte)
  | stow (tag : Byte) (payload : List Byte)
  | bin (tag : Byte) (payload : List Byte)
  | calStart (tag : Byte) (payload : List Byte)
  | calCancel (tag : Byte) (payload : List Byte)
  | hlthRead (tag : Byte) (payload : List Byte)
  | hlthStatus (tag : Byte) (payload : List Byte)
  | hlthThresh (tag : Byte) (payload : List Byte)
  | hlthReset (tag : Byte) (payload : List Byte)
  | loadDone (tag : Byte)
  | loadEmpty (tag : Byte)
  | loadFault (tag code : Byte)
  | cutDone (tag : Byte)
  | cutFault (tag code : Byte)
  | glueDone (tag : Byte)
  | glueFault (tag code : Byte)
  /-- MOVE_DONE of XFERb (R80). -/
  | moveDone (b : Fin 9) (tag : Byte)
  /-- MOVE_FAULT of XFERb (R95). -/
  | moveFault (b : Fin 9) (tag code : Byte)
  | takeDone (tag : Byte)
  | takeSlip (tag : Byte)
  | approachDone (tag : Byte)
  | trimDone (tag : Byte)
  | trimFault (tag code : Byte)
  | pressDone (tag : Byte)
  /-- PRESS_LIMIT (R59): the press limit of the PRESS order in flight runs out. -/
  | pressLimit
  | openDone (tag : Byte)
  | retractDone (tag : Byte)
  | dumpDone (tag : Byte)
  /-- HEAD_JAM (R64): a FAULT from a unit that serves the head. -/
  | headJam (unit : HeadUnit) (tag code : Byte)
  | deployDone (tag : Byte)
  | deployFault (tag code : Byte)
  | foldDone (tag : Byte)
  | foldFault (tag code : Byte)
  | calSlewDone (tag : Byte)
  | calSlewFault (tag code : Byte)
  /-- STALE_COMPLETION (R55): bytes of loop receive. -/
  | staleCompletion (bytes : List Byte)
  /-- ORDER_ECHO (R55): bytes of loop receive. -/
  | orderEcho (bytes : List Byte)
  /-- ORDER_TIMEOUT (R57): the timeout of the order in flight at the unit runs out. -/
  | orderTimeout (unit : Fin 17)
  /-- GLUE_DEADLINE (R84): the deadline of the carrier in the berth is reached. -/
  | glueDeadline (berth : Fin 10)
  | gustTimer
  | lockHoldTimer
  | measuringTimer
  | pressLockout
  | pointLimit
  /-- TRACKER_FRAME (R106): bytes of the tracker line that complete a frame. -/
  | trackerFrame (bytes : List Byte)
  /-- TRACKER_BYTE (R103): one byte of the tracker line. -/
  | trackerByte (b : Byte)
  | holdWindowEnd
  deriving DecidableEq, Repr

end Sys2Proof
end

