-- ==== Sys2Proof/Machine/Bytes.lean ====
section
/-! DEFINITION. Byte order, signed fields and the checks of the three links (R102, R189, R204), and the two frame
shapes the part sends: host frames and loop order frames. -/

namespace Sys2Proof.Machine

/-- A byte of the low eight bits of a number. -/
def byte (n : Nat) : Byte := BitVec.ofNat 8 n

/-- A flag byte: 1 for set, 0 for clear (R206). -/
def flagByte (b : Bool) : Byte := if b then 1 else 0

/-- A number in `k` bytes, low byte first (R204). -/
def le : Nat → Nat → List Byte
  | 0, _ => []
  | k + 1, n => byte n :: le k (n / 256)

/-- The number that bytes spell, low byte first (R204). -/
def unle : List Byte → Nat
  | [] => 0
  | b :: bs => b.toNat + 256 * unle bs

/-- The two's complement value of an unsigned `bits`-bit number (R204). -/
def signedOf (bits n : Nat) : Int := if n < 2 ^ (bits - 1) then (n : Int) else (n : Int) - 2 ^ bits

/-- A signed quantity in 4 bytes; a quantity that does not fit has no stated field (log entry 3). -/
def le32s (v : Int) : List Byte :=
  if -2147483648 ≤ v ∧ v ≤ 2147483647 then le 4 (v % 4294967296).toNat else le 4 (Config.overflow32 v).toNat

/-- A signed quantity in 2 bytes; a quantity that does not fit has no stated field (log entry 3). -/
def le16s (v : Int) : List Byte :=
  if -32768 ≤ v ∧ v ≤ 32767 then le 2 (v % 65536).toNat else le 2 (Config.overflow16 v).toNat

/-- A course that may be absent, in 16 bits: FFFFh for absent (R204, R206). -/
def leCourse (c : Option Nat) : List Byte := le 2 (c.getD 0xFFFF)

/-- A set of numbers as bits, number n at bit n (R206). -/
def bitSet (ns : List Nat) : Nat := ns.foldl (fun acc n => acc ||| (1 <<< n)) 0

/-- One bit of the CRC-16 with polynomial x^16 + x^12 + x^5 + 1, most significant bit first (R189). -/
def crc16Shift (r : BitVec 16) : BitVec 16 := if r.msb then (r <<< 1) ^^^ 0x1021#16 else r <<< 1

/-- Takes one byte into the CRC-16 (R189). -/
def crc16Byte (r : BitVec 16) (b : Byte) : BitVec 16 :=
  let r := r ^^^ (b.zeroExtend 16 <<< 8)
  crc16Shift (crc16Shift (crc16Shift (crc16Shift (crc16Shift (crc16Shift (crc16Shift (crc16Shift r)))))))

/-- The CRC-16 of a host frame or a loop frame: the register starts at FFFFh (R189). -/
def crc16 (bs : List Byte) : Nat := (bs.foldl crc16Byte 0xFFFF#16).toNat

/-- One bit of the CRC-8 with polynomial x^8 + x^2 + x + 1, most significant bit first (R102). -/
def crc8Shift (r : BitVec 8) : BitVec 8 := if r.msb then (r <<< 1) ^^^ 0x07#8 else r <<< 1

/-- Takes one byte into the CRC-8 (R102). -/
def crc8Byte (r : BitVec 8) (b : Byte) : BitVec 8 :=
  let r := r ^^^ b
  crc8Shift (crc8Shift (crc8Shift (crc8Shift (crc8Shift (crc8Shift (crc8Shift (crc8Shift r)))))))

/-- The CRC-8 of a tracker frame's content: the register starts at 0 (R102). -/
def crc8 (bs : List Byte) : Byte := bs.foldl crc8Byte 0#8

/-- A host frame (R204): A5h, the length, the kind, the tag, the payload and the check. -/
def hostFrameBytes (kind tag : Byte) (payload : List Byte) : List Byte :=
  let body := le 2 (payload.length + 2) ++ kind :: tag :: payload
  0xA5#8 :: body ++ le 2 (crc16 body)

/-- A loop order frame (R205): C3h, unit, kind, tag, parameter length, parameters and the check. -/
def loopFrameBytes (unit kind : Nat) (tag : Byte) (params : List Byte) : List Byte :=
  let body := byte unit :: byte kind :: tag :: byte params.length :: params
  0xC3#8 :: body ++ le 2 (crc16 body)

/-- A loop completion frame (R205), as a unit sends it: 3Ch, unit, tag, result, fault code and the check. -/
def completionBytes (unit tag result code : Byte) : List Byte :=
  let body := [unit, tag, result, code]
  0x3C#8 :: body ++ le 2 (crc16 body)

/-- STOP: an order frame with unit FFh, kind 40h, tag 0 and no parameters (R205). -/
def stopFrame : List Byte := loopFrameBytes 0xFF 0x40 0 []

/-- LIFT: an order frame with unit 15, kind 41h, tag 0 and no parameters (R205). -/
def liftFrame : List Byte := loopFrameBytes 15 0x41 0 []

/-- Splits bytes into complete items of `n` bytes; bytes left at the end are discarded (R192). -/
def completeItems (n : Nat) (bs : List Byte) : List (List Byte) :=
  (List.range (bs.length / n)).map fun i => (bs.drop (i * n)).take n

/-- The slots of a report in groups of at most 64 (R25, R28). -/
def groupsOf64 (ns : List Nat) : List (List Nat) :=
  (List.range ((ns.length + 63) / 64)).map fun i => (ns.drop (i * 64)).take 64

end Sys2Proof.Machine
end

