-- ==== Sys2Proof/Machine/State.lean ====
section
/-! DEFINITION. The state of the 4C18 as plain data, block by block (00_scope.md, Block diagram), the reasons a step
can stop, and the state right after power-on of a freshly built part. -/

namespace Sys2Proof.Machine

/-! ### Plan Store (01_the_plan_table.md) -/

inductive Region where
  | lead | run | tail
  deriving DecidableEq, Repr

/-- A lay direction: LAY_DIR and the direction latches (R31). -/
inductive Dir where
  | asc | desc
  deriving DecidableEq, Repr

/-- The state of an entry (R3). A VACANT slot is one the plan does not list. -/
inductive EntryState where
  | planned | inTrain | placed | skipped | waived | faulted
  deriving DecidableEq, Repr

structure Marks where
  hold : Bool
  skip : Bool
  inspect : Bool
  deriving DecidableEq, Repr, Inhabited

/-- An as-laid offset (R6). -/
structure Offset where
  dx : Int
  dy : Int
  dz : Int
  dyaw : Int
  deriving DecidableEq, Repr, Inhabited

/-- The outcome of a placement (R3, R6); also the cycle outcome of the head (06_head_cycle_and_pose_correction.md). -/
structure LaidOutcome where
  unverified : Bool
  pressCut : Bool
  outOfTolerance : Bool
  offset : Option Offset
  deriving DecidableEq, Repr, Inhabited

/-- The entry record of an occupied slot (R3). -/
structure Entry where
  station : Nat
  course : Nat
  seq : Nat
  cls : Nat
  target : Pose
  cut : Option Nat
  bearers : List Nat
  marks : Marks
  state : EntryState
  rejects : Nat
  outcome : Option LaidOutcome
  deriving DecidableEq, Repr

/-- A class record (R8). -/
structure ClassRecord where
  length : Nat
  width : Nat
  height : Nat
  lane : Nat
  glue : Nat
  cuttable : Bool
  defined : Bool
  deriving DecidableEq, Repr

/-- A class that nothing has written: undefined, every field 0 (R8). -/
def ClassRecord.blank : ClassRecord := ⟨0, 0, 0, 0, 0, false, false⟩

structure Pls where
  lead : Nat
  run : Nat
  tail : Nat
  plan : Table Entry
  ringHead : Nat
  ringCount : Nat
  classes : Table ClassRecord
  stocks : Table Nat
  ceiling : Nat
  frozen : Bool
  /-- The persistent ceiling: absent, or the value (R17). -/
  storedCeiling : Option Nat
  latches : Table Dir
  deriving DecidableEq, Repr

/-! ### Run Control (08_operating_modes_and_holds.md) -/

inductive Mode where
  | idle | laying | holding | draining | aborted | stowing | stowed
  deriving DecidableEq, Repr

inductive Hold where
  | jam | binFull | link | inspect | glue | press
  deriving DecidableEq, Repr

/-- The hold-reason set (R162). -/
structure HoldSet where
  jam : Bool
  binFull : Bool
  link : Bool
  inspect : Bool
  glue : Bool
  press : Bool
  deriving DecidableEq, Repr

structure Rcu where
  mode : Mode
  deploy : Bool
  holds : HoldSet
  inspects : List Nat
  haltPending : Bool
  stranded : List Nat
  station : Nat
  baseX : Int
  baseY : Int
  baseZ : Int
  /-- The previous-command marker: no kind, or the kind byte of the command taken before (R14). -/
  marker : Option Byte
  deriving DecidableEq, Repr

/-! ### Release Selector (02_release_selection.md) -/

structure Rsl where
  active : Option Nat
  lookahead : Bool
  stall : Bool
  starved : List Nat
  deriving DecidableEq, Repr

/-! ### Station Loop Interface (03_the_station_loop.md) -/

inductive SlewRate where
  | full | reduced
  deriving DecidableEq, Repr

/-- An order with its parameters (R52). -/
inductive Order where
  | load (lane : Nat)
  | cut (length : Nat)
  | glue (pattern : Nat)
  | move
  | slew (pose : Pose) (rate : SlewRate)
  | deploy
  | fold
  | trim (dx dy dz dyaw : Int)
  | take
  | openGrip
  | press
  | dump
  deriving DecidableEq, Repr

/-- The block that asked for an order (R53). -/
inductive Requester where
  | rsl | btc | hsq | dfu | rcu
  deriving DecidableEq, Repr

/-- An in-flight record (R54). -/
structure InFlight where
  order : Order
  tag : Byte
  requester : Requester
  sentAt : Nat
  deriving DecidableEq, Repr

inductive BoomRequest where
  | deploy | fold
  deriving DecidableEq, Repr

structure Sli where
  inFlight : Table InFlight
  tags : Table Byte
  boomWaiting : Option BoomRequest
  stale : Nat
  /-- The bytes of the loop frame that is coming in, empty between frames (R55). -/
  rx : List Byte
  deriving DecidableEq, Repr

/-! ### Boom Train Controller (04_the_boom_train.md) -/

inductive Phase where
  | arriving | working | ready | leaving
  deriving DecidableEq, Repr

/-- A condemned reason (R85). -/
inductive Reason where
  | workFault | expired | orphan | settleFault | gripFault
  deriving DecidableEq, Repr

/-- A carrier record (R69). Its berth is the number it is listed under in the train. -/
structure Carrier where
  release : Byte
  slot : Nat
  phase : Phase
  deadline : Option Nat
  expired : Bool
  condemned : Option Reason
  deriving DecidableEq, Repr

structure Btc where
  train : Table Carrier
  releases : Byte
  bin : Nat
  deriving DecidableEq, Repr

/-! ### Tracker Receiver (05_the_tracker_link.md) -/

inductive Framing where
  | hunt | collect | discard
  deriving DecidableEq, Repr

structure Trk where
  framing : Framing
  /-- The decoded bytes of the frame in COLLECT; their number is the byte position. -/
  buffer : List Byte
  /-- The frame sense: set for COMPLEMENTED. -/
  complemented : Bool
  idleRun : Nat
  /-- The polarity latch: set for INVERTED. -/
  inverted : Bool
  polarityRun : Nat
  locked : Bool
  acquired : Nat
  expected : Option Word16
  /-- The hold-window timer: stopped, or the moment the window started. -/
  window : Option Nat
  windowCount : Nat
  frameErrors : Nat
  falseStarts : Nat
  deriving DecidableEq, Repr

/-! ### Head Sequencer (06_head_cycle_and_pose_correction.md) -/

inductive HeadState where
  | vacant | gripping | approaching | settling | gustHold | lockHold | readyToPress | pressing | measuring
  | releasing | retracting | dumping
  deriving DecidableEq, Repr

/-- What the head was told of its carrier (R118, R133). -/
structure HeadCarrier where
  release : Byte
  slot : Nat
  condemned : Option Reason
  expired : Bool
  deriving DecidableEq, Repr

/-- The values latched at an entry to SETTLING (R123). -/
structure SettleLatch where
  target : Nat
  posTol : Nat
  yawTol : Nat
  deriving DecidableEq, Repr

structure Hsq where
  head : HeadState
  carrier : Option HeadCarrier
  orderSent : Bool
  dumpPending : Bool
  atReceive : Bool
  settleCount : Nat
  latch : Option SettleLatch
  gustRun : Nat
  /-- The gust timer: stopped, or the moment it started and its limit in ms. -/
  gustTimer : Option (Nat × Nat)
  gustCount : Nat
  gustReduced : Bool
  lockHoldTimer : Option Nat
  measuringTimer : Option Nat
  lockout : Option Nat
  outcome : LaidOutcome
  deriving DecidableEq, Repr

/-! ### Deflection Unit (07_boom_deflection_calibration.md) -/

/-- A point of a deflection table (R145). -/
structure Point where
  dz : Int
  dr : Int
  deriving DecidableEq, Repr, Inhabited

inductive CalState where
  | none
  | running (k : Nat)
  | suspended (k : Nat)
  | done
  | failed
  deriving DecidableEq, Repr

inductive PointPhase where
  | due | slewing | sampling
  deriving DecidableEq, Repr

inductive Outstanding where
  | none | current | abandoned
  deriving DecidableEq, Repr

inductive CalCause where
  | slewFault | lockLost | pointLimit
  deriving DecidableEq, Repr

/-- A position taken into the sample run (R150). -/
structure Sample where
  x : Int
  y : Int
  z : Int
  deriving DecidableEq, Repr

structure Dfu where
  /-- The active table; a point that is not listed is (0, 0). -/
  active : Table Point
  valid : Bool
  /-- The pending table; a point that is not listed is absent. -/
  pendingPoints : Table Point
  cal : CalState
  phase : PointPhase
  attempt : Nat
  samples : List Sample
  limitTimer : Option Nat
  slew : Outstanding
  cause : Option CalCause
  /-- The pose of the last calibration slew sent, against which its point is measured (R149, R150). -/
  pointPose : Pose
  deriving DecidableEq, Repr

/-! ### Health Monitor (09_health_attributes.md) -/

inductive Attr where
  | gripCycles | sawCuts | glueFaults | pressCutoffs | jams | lockLosses | rejects
  deriving DecidableEq, Repr

structure AttrRecord where
  value : Nat
  threshold : Nat
  crossed : Bool
  deriving DecidableEq, Repr

/-- One record per wear count, in number order (R177). -/
structure Attrs (α : Type) where
  gripCycles : α
  sawCuts : α
  glueFaults : α
  pressCutoffs : α
  jams : α
  lockLosses : α
  rejects : α
  deriving DecidableEq, Repr

/-- A saved value and threshold (R186). -/
structure SavedAttr where
  value : Nat
  threshold : Nat
  deriving DecidableEq, Repr

structure Hmn where
  live : Attrs AttrRecord
  /-- The health part of the persistent store (R186). -/
  stored : Attrs SavedAttr
  deriving DecidableEq, Repr

/-! ### Site Command Port (10_host_link_and_message_formats.md) -/

inductive RxState where
  | hunt | length | body | check
  deriving DecidableEq, Repr

/-- A command of the command queue (R191). -/
structure HostCommand where
  kind : Byte
  tag : Byte
  payload : List Byte
  deriving DecidableEq, Repr

/-- The status at the head of a reply (R193). -/
inductive Status where
  | ok | busy | mode | range | sum | slot | state | bearer | cls | full | unresolved | held | notCalibrated
  | frozen | sequence | worn | unknown
  deriving DecidableEq, Repr

inductive ModeCause where
  | hold (h : Hold)
  | go | deploy | deployFault | halt | drained | station | abort | clear | stow | fold | foldFault | reset
  deriving DecidableEq, Repr

inductive RateCause where
  | gusts | courseEnd | adv | cfg
  deriving DecidableEq, Repr

inductive HealthCause where
  | count | thresh | load
  deriving DecidableEq, Repr

/-- A blocking reason (R48). -/
inductive Block where
  | ceiling | hold | region | bearer | stock | sawWorn | reach
  deriving DecidableEq, Repr

/-- A report, with the fields its rule gives it (R204 to R206). -/
inductive Report where
  | placed (outcomes : List (Nat × LaidOutcome))
  | rejected (slot : Nat) (release : Byte) (reason : Option Reason) (expired : Bool) (rejects : Nat)
  | faulted (slot : Nat)
  | skipped (slots : List Nat)
  | waived (slots : List Nat)
  | mode (mode previous : Mode) (deploy : Bool) (cause : ModeCause) (holds : HoldSet) (haltPending : Bool)
      (stranded : List Nat)
  | lock (lost : Bool) (sequence : Word16) (windowCount : Nat) (inverted : Bool)
  | starved (lane stock slot : Nat)
  | stalled (station : Nat) (active : Option Nat) (planned faulted : Nat) (blocked : List Nat) (lanes : List Nat)
  | rate (on : Bool) (cause : RateCause) (active : Option Nat) (gustCount : Nat)
  | course (station course placed skipped flagged : Nat)
  | station (station placed skipped : Nat)
  | calDone (points : List Point)
  | calFailed (k : Nat) (cause : Option CalCause)
  | health (attr : Attr) (value threshold : Nat) (cause : HealthCause)
  deriving DecidableEq, Repr

/-- A message of the outbound queue: a reply, with its results as they are laid out (R206), or a report. -/
inductive Message where
  | reply (kind tag : Byte) (status : Status) (results : List Byte)
  | report (sequence : Word16) (body : Report)
  deriving DecidableEq, Repr

inductive RateSetting where
  | auto | full | reduced
  deriving DecidableEq, Repr

/-- The eleven configuration items (R200). -/
structure ConfigItems where
  layDir : Dir
  alternate : Bool
  tolPos : Nat
  tolYaw : Nat
  settleCount : Nat
  openTime : Nat
  gustLimit : Nat
  qualityFloor : Nat
  rate : RateSetting
  batch : Nat
  keep : Bool
  deriving DecidableEq, Repr

structure Scp where
  rx : RxState
  /-- The bytes of the host frame in progress after its A5h. -/
  rxBytes : List Byte
  /-- The moment of the last byte of the frame in progress: the start of the gap timer. -/
  rxLast : Nat
  commands : List HostCommand
  outbound : List Message
  sequence : Word16
  batch : List (Nat × LaidOutcome)
  frameErrors : Nat
  lost : Nat
  config : ConfigItems
  /-- The latched bit rate in bit/s. -/
  bitRate : Nat
  deriving DecidableEq, Repr

/-! ### The part -/

/-- Why a step stops with a fault. No step of the part does: the manual gives every step an effect in every state,
so the type has no constructor. Safe: a claim that no step faults is a claim about the model's totality only. -/
inductive Fault : Type
  deriving DecidableEq, Repr

/-- Why a step is refused. -/
inductive Refusal where
  /-- A row of the table that has no meaning yet. Raised by an arm of `exec` alone; safe, since nothing runs. -/
  | notModelled (mnemonic : String)
  deriving DecidableEq, Repr

/-- Everything the manual gives the part; then the model's own: the clock (log entry 1), what has been sent on the
two lines the part drives (log entry 2), and the queue of steps that wait to be taken. -/
structure State where
  pls : Pls
  rcu : Rcu
  rsl : Rsl
  sli : Sli
  btc : Btc
  trk : Trk
  hsq : Hsq
  dfu : Dfu
  hmn : Hmn
  scp : Scp
  /-- The moment, in ms. -/
  now : Nat
  /-- The bytes sent on the host line, oldest first. -/
  hostTx : List Byte
  /-- The bytes put on loop transmit, oldest first. -/
  loopTx : List Byte
  /-- The steps that wait to be taken, first in, first out. -/
  pending : List Instr
  deriving DecidableEq, Repr

/-- The configuration items at their defaults (R200). -/
def ConfigItems.defaults : ConfigItems :=
  { layDir := .asc, alternate := true, tolPos := 15, tolYaw := 10, settleCount := 5, openTime := 90, gustLimit := 8,
    qualityFloor := 40, rate := .auto, batch := 1, keep := false }

/-- The default threshold of each wear count (R177). -/
def Attrs.defaultThresholds : Attrs Nat := ⟨200000, 4000, 20, 10, 50, 500, 300⟩

/-- What the persistent store holds in a part that has never been saved (R186). -/
def Attrs.neverSaved : Attrs SavedAttr :=
  ⟨⟨0, 200000⟩, ⟨0, 4000⟩, ⟨0, 20⟩, ⟨0, 10⟩, ⟨0, 50⟩, ⟨0, 500⟩, ⟨0, 300⟩⟩

/-- The empty hold-reason set. -/
def HoldSet.none : HoldSet := ⟨false, false, false, false, false, false⟩

/-- An outcome with no flags and no offset (R118). -/
def LaidOutcome.clear : LaidOutcome := ⟨false, false, false, .none⟩

/-- The Plan Store after power-on (R32), with the persistent ceiling it finds. -/
def Pls.reset (stored : Option Nat) : Pls :=
  { lead := 64, run := 896, tail := 64, plan := [], ringHead := 0, ringCount := 0, classes := [], stocks := [],
    ceiling := stored.getD Config.nativeCeiling, frozen := false, storedCeiling := stored, latches := [] }

/-- Run Control after power-on (R174, R176, R30, R14). -/
def Rcu.reset : Rcu :=
  { mode := .idle, deploy := false, holds := .none, inspects := [], haltPending := false, stranded := [],
    station := 0, baseX := 0, baseY := 0, baseZ := 0, marker := .none }

/-- The Release Selector after power-on (R51). -/
def Rsl.reset : Rsl := { active := .none, lookahead := false, stall := false, starved := [] }

/-- The Station Loop Interface after power-on (R67). -/
def Sli.reset : Sli := { inFlight := [], tags := [], boomWaiting := .none, stale := 0, rx := [] }

/-- The Boom Train Controller after power-on (R99). -/
def Btc.reset : Btc := { train := [], releases := 0, bin := 0 }

/-- The Tracker Receiver after power-on (R116). -/
def Trk.reset : Trk :=
  { framing := .hunt, buffer := [], complemented := false, idleRun := 0, inverted := false, polarityRun := 0,
    locked := false, acquired := 0, expected := .none, window := .none, windowCount := 0, frameErrors := 0,
    falseStarts := 0 }

/-- The Head Sequencer after power-on (R144). -/
def Hsq.reset : Hsq :=
  { head := .vacant, carrier := .none, orderSent := false, dumpPending := false, atReceive := false, settleCount := 0,
    latch := .none, gustRun := 0, gustTimer := .none, gustCount := 0, gustReduced := false, lockHoldTimer := .none,
    measuringTimer := .none, lockout := .none, outcome := .clear }

/-- The Deflection Unit after power-on (R157). -/
def Dfu.reset : Dfu :=
  { active := [], valid := false, pendingPoints := [], cal := .none, phase := .due, attempt := 1, samples := [],
    limitTimer := .none, slew := .none, cause := .none, pointPose := ⟨0, 0, 0, 0⟩ }

/-- The live record loaded from a saved one, its crossed flag clear (R187). -/
def AttrRecord.loaded (s : SavedAttr) : AttrRecord := ⟨s.value, s.threshold, false⟩

/-- The live wear counts loaded from the store, before they are evaluated (R187). -/
def Attrs.loaded (s : Attrs SavedAttr) : Attrs AttrRecord :=
  ⟨.loaded s.gripCycles, .loaded s.sawCuts, .loaded s.glueFaults, .loaded s.pressCutoffs, .loaded s.jams,
    .loaded s.lockLosses, .loaded s.rejects⟩

/-- The Site Command Port after power-on (R203), with the bit rate it latches. -/
def Scp.reset (bitRate : Nat) : Scp :=
  { rx := .hunt, rxBytes := [], rxLast := 0, commands := [], outbound := [], sequence := 0, batch := [],
    frameErrors := 0, lost := 0, config := .defaults, bitRate := bitRate }

/-- A freshly built part right after its first power-on, both rate straps low (log entry 5): its store has never been
saved (R17, R186), so no wear count is crossed at the loading; STOP has been sent (R174). -/
def State.reset : State :=
  { pls := .reset .none, rcu := .reset, rsl := .reset, sli := .reset, btc := .reset, trk := .reset, hsq := .reset,
    dfu := .reset, hmn := ⟨.loaded .neverSaved, .neverSaved⟩, scp := .reset 115200, now := 0, hostTx := [],
    loopTx := stopFrame, pending := [] }

end Sys2Proof.Machine
end

