-- ==== Sys2Proof/Machine/Table.lean ====
section
/-! DEFINITION. Reading and writing the sparse tables and number sets of State, in their one canonical form:
numbers strictly rising, and nothing listed that reads as the unlisted value. -/

namespace Sys2Proof.Machine

/-- The record listed under `n`. -/
def Table.read {α : Type} : Table α → Nat → Option α
  | [], _ => none
  | (k, v) :: t, n => if n = k then some v else Table.read t n

/-- Lists `v` under `n`, in its place in the rising order. -/
def Table.write {α : Type} : Table α → Nat → α → Table α
  | [], n, v => [(n, v)]
  | (k, w) :: t, n, v =>
    if n < k then (n, v) :: (k, w) :: t
    else if n = k then (n, v) :: t
    else (k, w) :: Table.write t n v

/-- Takes `n` off the table. -/
def Table.strike {α : Type} : Table α → Nat → Table α
  | [], _ => []
  | (k, w) :: t, n => if n = k then Table.strike t n else (k, w) :: Table.strike t n

/-- Reads a table whose unlisted value is `d`. -/
def Table.readD {α : Type} (t : Table α) (n : Nat) (d : α) : α := (Table.read t n).getD d

/-- Writes a table whose unlisted value is `d`: writing `d` takes the entry off. -/
def Table.writeD {α : Type} [DecidableEq α] (t : Table α) (n : Nat) (v d : α) : Table α :=
  if v = d then Table.strike t n else Table.write t n v

/-- The numbers are strictly rising. -/
def Table.rising {α : Type} : Table α → Bool
  | [] => true
  | (k, _) :: t => t.all (fun p => k < p.1) && Table.rising t

/-- Adds a number to a set kept as a rising list. -/
def setAdd : List Nat → Nat → List Nat
  | [], n => [n]
  | k :: t, n => if n < k then n :: k :: t else if n = k then k :: t else k :: setAdd t n

/-- Takes a number out of a set. -/
def setDrop (s : List Nat) (n : Nat) : List Nat := s.filter (· != n)

end Sys2Proof.Machine
end

