-- ==== Sys2Proof/Machine/Layout.lean ====
section
/-! DEFINITION. The message layouts of R204 to R206: enumeration codes, the entry record, the reports, the loop orders,
and the bytes of an outbound message. -/

namespace Sys2Proof.Machine

/-! ### Enumerations -/

def Region.code : Region → Nat
  | .lead => 0 | .run => 1 | .tail => 2

def Dir.code : Dir → Nat
  | .asc => 0 | .desc => 1

def EntryState.code : EntryState → Nat
  | .planned => 1 | .inTrain => 2 | .placed => 3 | .skipped => 4 | .waived => 5 | .faulted => 6

def Mode.code : Mode → Nat
  | .idle => 0 | .laying => 1 | .holding => 2 | .draining => 3 | .aborted => 4 | .stowing => 5 | .stowed => 6

def Hold.code : Hold → Nat
  | .jam => 0 | .binFull => 1 | .link => 2 | .inspect => 3 | .glue => 4 | .press => 5

/-- The hold-reason set as a byte (R205). -/
def HoldSet.code (h : HoldSet) : Nat :=
  h.jam.toNat + 2 * h.binFull.toNat + 4 * h.link.toNat + 8 * h.inspect.toNat + 16 * h.glue.toNat + 32 * h.press.toNat

def Reason.code : Option Reason → Nat
  | .none => 0 | some .workFault => 1 | some .expired => 2 | some .orphan => 3 | some .settleFault => 4
  | some .gripFault => 5

def Status.code : Status → Nat
  | .ok => 0x00 | .busy => 0x01 | .mode => 0x02 | .range => 0x03 | .sum => 0x04 | .slot => 0x05 | .state => 0x06
  | .bearer => 0x07 | .cls => 0x08 | .full => 0x09 | .unresolved => 0x0A | .held => 0x0B | .notCalibrated => 0x0C
  | .frozen => 0x0D | .sequence => 0x0E | .worn => 0x0F | .unknown => 0x10

def HeadState.code : HeadState → Nat
  | .vacant => 0 | .gripping => 1 | .approaching => 2 | .settling => 3 | .gustHold => 4 | .lockHold => 5
  | .readyToPress => 6 | .pressing => 7 | .measuring => 8 | .releasing => 9 | .retracting => 10 | .dumping => 11

def CalState.code : CalState → Nat
  | .none => 0 | .running _ => 1 | .suspended _ => 2 | .done => 3 | .failed => 4

def PointPhase.code : PointPhase → Nat
  | .due => 0 | .slewing => 1 | .sampling => 2

def CalCause.code : Option CalCause → Nat
  | .none => 0 | some .slewFault => 1 | some .lockLost => 2 | some .pointLimit => 3

def ModeCause.code : ModeCause → Nat
  | .hold h => h.code
  | .go => 6 | .deploy => 7 | .deployFault => 8 | .halt => 9 | .drained => 10 | .station => 11 | .abort => 12
  | .clear => 13 | .stow => 14 | .fold => 15 | .foldFault => 16 | .reset => 17

def RateCause.code : RateCause → Nat
  | .gusts => 0 | .courseEnd => 1 | .adv => 2 | .cfg => 3

def RateSetting.code : RateSetting → Nat
  | .auto => 0 | .full => 1 | .reduced => 2

def HealthCause.code : HealthCause → Nat
  | .count => 0 | .thresh => 1 | .load => 2

/-- The number of a wear count (R177). -/
def Attr.number : Attr → Nat
  | .gripCycles => 1 | .sawCuts => 2 | .glueFaults => 3 | .pressCutoffs => 4 | .jams => 5 | .lockLosses => 6
  | .rejects => 7

/-- The wear count a number names (R177). -/
def Attr.ofNumber : Nat → Option Attr
  | 1 => some .gripCycles | 2 => some .sawCuts | 3 => some .glueFaults | 4 => some .pressCutoffs | 5 => some .jams
  | 6 => some .lockLosses | 7 => some .rejects | _ => .none

/-- Whether a wear count is prefailure (R177). -/
def Attr.prefailure : Attr → Bool
  | .sawCuts | .glueFaults | .pressCutoffs => true
  | .gripCycles | .jams | .lockLosses | .rejects => false

/-! ### Records -/

/-- The as-laid offset: dx, dy, dz in 4 bytes each, dyaw in 2 (R205). -/
def Offset.bytes (o : Offset) : List Byte := le32s o.dx ++ le32s o.dy ++ le32s o.dz ++ le16s o.dyaw

/-- The outcome byte (R205). -/
def LaidOutcome.flags (o : LaidOutcome) : Nat :=
  o.unverified.toNat + 2 * o.pressCut.toNat + 4 * o.outOfTolerance.toNat + 64 * o.offset.isSome.toNat + 128

/-- Whether an outcome has any flag set (R46). -/
def LaidOutcome.flagged (o : LaidOutcome) : Bool := o.unverified || o.pressCut || o.outOfTolerance

def Marks.code (m : Marks) : Nat := m.hold.toNat + 2 * m.skip.toNat + 4 * m.inspect.toNat

/-- The marks in a mark byte; bits not named are ignored (R204, R205). -/
def Marks.ofByte (n : Nat) : Marks := ⟨n.testBit 0, n.testBit 1, n.testBit 2⟩

def poseBytes (p : Pose) : List Byte := le32s p.x ++ le32s p.y ++ le32s p.z ++ le16s p.yaw

/-- The 46 bytes of an entry record (R205). -/
def Entry.bytes (e : Entry) : List Byte :=
  [byte e.station, byte e.course] ++ le 2 e.seq ++ [byte e.cls] ++ poseBytes e.target ++ le 2 (e.cut.getD 0)
    ++ [byte e.bearers.length] ++ le 2 (e.bearers.getD 0 0) ++ le 2 (e.bearers.getD 1 0) ++ le 2 (e.bearers.getD 2 0)
    ++ [byte e.marks.code, byte e.state.code, byte e.rejects]
    ++ match e.outcome with
       | .none => List.replicate 15 0
       | some o =>
         byte o.flags :: match o.offset with
           | .none => List.replicate 14 0
           | some d => d.bytes

/-- The 46 bytes of a VACANT slot: state 0 and every other byte 0 (R205). -/
def vacantBytes : List Byte := List.replicate 46 0

/-! ### Reports -/

/-- The kind byte of a report (R205). -/
def Report.kind : Report → Byte
  | .placed .. => 0x80 | .rejected .. => 0x81 | .faulted .. => 0x82 | .skipped .. => 0x83 | .waived .. => 0x84
  | .mode .. => 0x85 | .lock .. => 0x86 | .starved .. => 0x87 | .stalled .. => 0x88 | .rate .. => 0x89
  | .course .. => 0x8A | .station .. => 0x8B | .calDone .. => 0x8C | .calFailed .. => 0x8C | .health .. => 0x8D

/-- One outcome of a PLACED report (R205). -/
def placedBytes (o : Nat × LaidOutcome) : List Byte :=
  le 2 o.1 ++ byte o.2.flags :: match o.2.offset with
    | .none => []
    | some d => d.bytes

/-- The fields of a report after its sequence number (R205, R206). -/
def Report.fields : Report → List Byte
  | .placed os => byte os.length :: os.flatMap placedBytes
  | .rejected slot release reason expired rejects =>
    le 2 slot ++ [release, byte (Reason.code reason), flagByte expired, byte rejects]
  | .faulted slot => le 2 slot
  | .skipped slots => byte slots.length :: slots.flatMap (le 2)
  | .waived slots => byte slots.length :: slots.flatMap (le 2)
  | .mode m p d c h halt stranded =>
    [byte m.code, byte p.code, flagByte d, byte c.code, byte h.code, flagByte halt] ++ le 2 (bitSet stranded)
  | .lock lost seq w inv => [flagByte lost] ++ le 2 seq.toNat ++ [byte w, flagByte inv]
  | .starved lane stock slot => byte lane :: le 2 stock ++ le 2 slot
  | .stalled st active nPlanned nFaulted blocked lanes =>
    byte st :: leCourse active ++ le 2 nPlanned ++ le 2 nFaulted ++ blocked.flatMap (le 2) ++ [byte (bitSet lanes)]
  | .rate on c active g => [flagByte on, byte c.code] ++ leCourse active ++ [byte g]
  | .course st c p sk fl => [byte st, byte c] ++ le 2 p ++ le 2 sk ++ le 2 fl
  | .station st p sk => byte st :: le 2 p ++ le 2 sk
  | .calDone pts => 0 :: pts.flatMap fun p => le32s p.dz ++ le32s p.dr
  | .calFailed k c => [1, byte k, byte (CalCause.code c)]
  | .health a v t c => [byte a.number, flagByte a.prefailure] ++ le 4 v ++ le 4 t ++ [byte c.code]

/-- The bytes of an outbound message on the host line: a report carries tag 00h (R204). -/
def Message.bytes : Message → List Byte
  | .reply kind tag status results => hostFrameBytes kind tag (byte status.code :: results)
  | .report seq r => hostFrameBytes r.kind 0 (le 2 seq.toNat ++ r.fields)

/-- Whether a message is a report (R194). -/
def Message.isReport : Message → Bool
  | .report .. => true
  | .reply .. => false

/-! ### Orders -/

/-- The kind byte of an order (R205). -/
def Order.kind : Order → Nat
  | .load _ => 1 | .cut _ => 2 | .glue _ => 3 | .move => 4 | .slew _ _ => 5 | .deploy => 6 | .fold => 7
  | .trim .. => 8 | .take => 9 | .openGrip => 10 | .press => 11 | .dump => 12

def SlewRate.code : SlewRate → Nat
  | .full => 0 | .reduced => 1

/-- The parameters of an order (R205). -/
def Order.params : Order → List Byte
  | .load lane => [byte lane]
  | .cut length => le 2 length
  | .glue pattern => [byte pattern]
  | .slew pose rate => poseBytes pose ++ [byte rate.code]
  | .trim dx dy dz dyaw => le16s dx ++ le16s dy ++ le16s dz ++ le16s dyaw
  | .move | .deploy | .fold | .take | .openGrip | .press | .dump => []

/-- The bytes of an order on the ring (R205). -/
def Order.frame (unit : Nat) (o : Order) (tag : Byte) : List Byte := loopFrameBytes unit o.kind tag o.params

/-- The timeout of an order kind in ms; PRESS has none (R57). -/
def Order.timeout : Order → Option Nat
  | .load _ => some 8000
  | .cut _ => some 12000
  | .glue _ => some 6000
  | .move => some 4000
  | .slew _ _ => some 15000
  | .deploy => some 60000
  | .fold => some 60000
  | .trim .. => some 500
  | .take => some 3000
  | .openGrip => some 2000
  | .press => .none
  | .dump => some 6000

/-! ### Units (R52) -/

def pickUnit : Nat := 0
def sawUnit : Nat := 1
def glueUnit : Nat := 2
/-- The unit XFERb, which moves the carrier in berth b to berth b+1. -/
def xferUnit (b : Nat) : Nat := 3 + b
def boomUnit : Nat := 12
def wristUnit : Nat := 13
def gripperUnit : Nat := 14
def pressUnit : Nat := 15
def chuteUnit : Nat := 16

end Sys2Proof.Machine

namespace Sys2Proof

/-- The unit number of a unit that serves the head (R52). -/
def HeadUnit.number : HeadUnit → Nat
  | .boom => Machine.boomUnit
  | .gripper => Machine.gripperUnit
  | .press => Machine.pressUnit
  | .chute => Machine.chuteUnit

end Sys2Proof
end

