-- ==== Sys2Proof/Machine/Operands.lean ====
section
/-! DEFINITION. The operand forms: how the fields of a command's payload are read (R192, R204, R205). -/

namespace Sys2Proof.Machine

/-- The byte at a place of a payload. -/
def byteAt (p : List Byte) (i : Nat) : Nat := (p.getD i 0).toNat

/-- A 16-bit unsigned field. -/
def u16At (p : List Byte) (i : Nat) : Nat := unle ((p.drop i).take 2)

/-- A 32-bit unsigned field. -/
def u32At (p : List Byte) (i : Nat) : Nat := unle ((p.drop i).take 4)

/-- A 16-bit signed field. -/
def s16At (p : List Byte) (i : Nat) : Int := signedOf 16 (u16At p i)

/-- A 32-bit signed field. -/
def s32At (p : List Byte) (i : Nat) : Int := signedOf 32 (u32At p i)

/-- A flag byte: its bit 0, the bits not named being ignored on receipt (R204). -/
def flagAt (p : List Byte) (i : Nat) : Bool := (byteAt p i).testBit 0

/-- The planned fields of an entry, as PAP and PLD carry them in 29 bytes (R205). -/
structure EntryFields where
  station : Nat
  course : Nat
  seq : Nat
  cls : Nat
  target : Pose
  cut : Option Nat
  bearerCount : Nat
  bearers : List Nat
  marks : Marks
  deriving DecidableEq, Repr

/-- A length field that is 0 for absent (R205). -/
def lengthOf (n : Nat) : Option Nat := if n = 0 then none else some n

/-- The entry fields in 29 bytes; bearer slots past the count are ignored (R205). -/
def EntryFields.ofBytes (p : List Byte) : EntryFields :=
  { station := byteAt p 0
    course := byteAt p 1
    seq := u16At p 2
    cls := byteAt p 4
    target := ⟨s32At p 5, s32At p 9, s32At p 13, s16At p 17⟩
    cut := lengthOf (u16At p 19)
    bearerCount := byteAt p 21
    bearers := [u16At p 22, u16At p 24, u16At p 26].take (byteAt p 21)
    marks := .ofByte (byteAt p 28) }

/-- The entry written from the fields of a load (R19). -/
def EntryFields.entry (f : EntryFields) : Entry :=
  { station := f.station, course := f.course, seq := f.seq, cls := f.cls, target := f.target, cut := f.cut,
    bearers := f.bearers, marks := f.marks, state := if f.marks.skip then .skipped else .planned, rejects := 0,
    outcome := none }

/-- A class record in 10 bytes (R205). -/
def ClassRecord.ofBytes (p : List Byte) : ClassRecord :=
  { length := u16At p 0, width := u16At p 2, height := u16At p 4, lane := byteAt p 6, glue := byteAt p 7,
    cuttable := flagAt p 8, defined := flagAt p 9 }

/-- The functions of MARK (R23, R205). -/
inductive MarkFunction where
  | write | set | clear | toggle
  deriving DecidableEq, Repr

def MarkFunction.ofByte (n : Nat) : Option MarkFunction :=
  match n with
  | 0 => some .write | 1 => some .set | 2 => some .clear | 3 => some .toggle | _ => none

/-- A lay direction by its code (R206). -/
def Dir.ofCode (n : Nat) : Option Dir :=
  match n with
  | 0 => some .asc | 1 => some .desc | _ => none

/-- A RATE setting by its code (R206). -/
def RateSetting.ofCode (n : Nat) : Option RateSetting :=
  match n with
  | 0 => some .auto | 1 => some .full | 2 => some .reduced | _ => none

/-- The value of an off and on item of CFG. A value above 1 is outside the item's range of off and on and so refused
with RANGE (R200), where R204 has the unnamed bits of a flag byte ignored: which of the two rules holds for the value of
CFG the spec leaves open (DESIGN CHOICE, log entry 15). -/
def switchOf (n : Nat) : Option Bool :=
  match n with
  | 0 => some false | 1 => some true | _ => none

end Sys2Proof.Machine
end

