-- ==== Sys2Proof/Machine/Ops.lean ====
section
/-! DEFINITION. The shared operations. A step of the part is one event (R56): `Ev` is the state inside an event with
the tests the event has prompted, which run once its changes are all made (R43, R79, R168). Below stand the one
update per block, the outbound queue (R194 to R196), the orders of the Station Loop (R54, R60) and the saves. -/

namespace Sys2Proof.Machine

/-- The state inside an event. The five flags are not state of the part: they are clear before and after each step. -/
structure Ev extends State where
  /-- A selection has been prompted (R43). -/
  selDue : Bool
  /-- The transfer test has been prompted (R79). -/
  xferDue : Bool
  /-- Run Control's test for the end of draining has been prompted (R168). -/
  drainDue : Bool
  /-- The head's press conditions are to be tested again (R128). -/
  retestDue : Bool
  /-- A command taken from the command queue waits for its reply (R194). -/
  replyDue : Bool

/-- The start of an event. -/
def Ev.start (s : State) : Ev :=
  { toState := s, selDue := false, xferDue := false, drainDue := false, retestDue := false, replyDue := false }

/-! ### One update per block -/

def Ev.onPls (f : Pls → Pls) (e : Ev) : Ev := { e with pls := f e.pls }
def Ev.onRcu (f : Rcu → Rcu) (e : Ev) : Ev := { e with rcu := f e.rcu }
def Ev.onRsl (f : Rsl → Rsl) (e : Ev) : Ev := { e with rsl := f e.rsl }
def Ev.onSli (f : Sli → Sli) (e : Ev) : Ev := { e with sli := f e.sli }
def Ev.onBtc (f : Btc → Btc) (e : Ev) : Ev := { e with btc := f e.btc }
def Ev.onTrk (f : Trk → Trk) (e : Ev) : Ev := { e with trk := f e.trk }
def Ev.onHsq (f : Hsq → Hsq) (e : Ev) : Ev := { e with hsq := f e.hsq }
def Ev.onDfu (f : Dfu → Dfu) (e : Ev) : Ev := { e with dfu := f e.dfu }
def Ev.onHmn (f : Hmn → Hmn) (e : Ev) : Ev := { e with hmn := f e.hmn }
def Ev.onScp (f : Scp → Scp) (e : Ev) : Ev := { e with scp := f e.scp }
/-- Puts bytes on loop transmit. -/
def Ev.onLoopTx (bytes : List Byte) (e : Ev) : Ev := { e with loopTx := e.loopTx ++ bytes }
/-- Puts bytes on the host line. -/
def Ev.onHostTx (bytes : List Byte) (e : Ev) : Ev := { e with hostTx := e.hostTx ++ bytes }
/-- Brings the clock to a moment, never back. -/
def Ev.until (moment : Nat) (e : Ev) : Ev := { e with now := max e.now moment }
def Ev.promptSel (e : Ev) : Ev := { e with selDue := true }
def Ev.promptXfer (e : Ev) : Ev := { e with xferDue := true }
def Ev.promptDrain (e : Ev) : Ev := { e with drainDue := true }
def Ev.promptRetest (e : Ev) : Ev := { e with retestDue := true }

/-! ### Small readings of State -/

/-- LAYING or DRAINING: the modes in which transfers, work and head orders are made (R159). -/
def State.running (s : State) : Bool := s.rcu.mode == .laying || s.rcu.mode == .draining

/-- IDLE with the deploy interval clear (R159). -/
def State.settledIdle (s : State) : Bool := s.rcu.mode == .idle && !s.rcu.deploy

/-- The order in flight at a unit. -/
def State.flight (s : State) (unit : Nat) : Option InFlight := Table.read s.sli.inFlight unit

/-- The unit has no order in flight. -/
def State.unitFree (s : State) (unit : Nat) : Bool := (s.flight unit).isNone

/-- The carrier in a berth. -/
def State.carrierAt (s : State) (b : Nat) : Option Carrier := Table.read s.btc.train b

/-- The entry in a slot; none for a VACANT slot. -/
def State.entryAt (s : State) (slot : Nat) : Option Entry := Table.read s.pls.plan slot

/-- The class record of a class number. -/
def State.classAt (s : State) (c : Nat) : ClassRecord := Table.readD s.pls.classes c .blank

/-- The stock of a lane (R11). -/
def State.stockOf (s : State) (lane : Nat) : Nat := Table.readD s.pls.stocks lane 0

/-- The tag counter of a unit (R54). -/
def State.tagOf (s : State) (unit : Nat) : Byte := Table.readD s.sli.tags unit 0

/-- Reduced rate in force (R139). -/
def State.reducedRate (s : State) : Bool :=
  match s.scp.config.rate with
  | .auto => s.hsq.gustReduced
  | .reduced => true
  | .full => false

/-- The saw-worn flag: it follows the crossed flag of SAW_CUTS (R181). -/
def State.sawWorn (s : State) : Bool := s.hmn.live.sawCuts.crossed

/-- A berth is reserved when the carrier in the berth below is LEAVING (R68, R78). -/
def State.reserved (s : State) (b : Nat) : Bool :=
  match b with
  | 0 => false
  | a + 1 =>
    match s.carrierAt a with
    | some c => c.phase == .leaving
    | none => false

/-- The train is empty: no carrier record in any berth, and the head is VACANT (R47). -/
def State.trainEmpty (s : State) : Bool := s.btc.train.isEmpty && s.hsq.head == .vacant

/-- A counter that stops at 65535. -/
def satUp (n : Nat) : Nat := if n < Config.counterTop then n + 1 else n

/-! ### The outbound queue -/

/-- A report finds a place: fewer than 28 reports and fewer than 32 messages, and fewer than 31 while a reply is
due (R194). -/
def Scp.reportRoom (replyDue : Bool) (p : Scp) : Bool :=
  p.outbound.length < Config.outboundPlaces
    && (p.outbound.filter Message.isReport).length < Config.reportPlaces
    && (!replyDue || p.outbound.length < Config.outboundPlaces - 1)

/-- Raises a report: it takes its sequence number, queued or dropped (R194, R195). -/
def Scp.raise (replyDue : Bool) (r : Report) (p : Scp) : Scp :=
  if p.reportRoom replyDue then
    { p with outbound := p.outbound ++ [.report p.sequence r], sequence := p.sequence + 1 }
  else { p with lost := satUp p.lost, sequence := p.sequence + 1 }

/-- Queues a reply (R194). -/
def Scp.pushReply (kind tag : Byte) (st : Status) (results : List Byte) (p : Scp) : Scp :=
  if p.outbound.length < Config.outboundPlaces then { p with outbound := p.outbound ++ [.reply kind tag st results] }
  else p

/-- Flushes the pending PLACED batch: one report with every outcome, or nothing (R196). -/
def Scp.flush (replyDue : Bool) (p : Scp) : Scp :=
  if p.batch.isEmpty then p else { Scp.raise replyDue (.placed p.batch) p with batch := [] }

/-- Hands over the outcome of a placement (R196, R197). -/
def Scp.handOver (replyDue : Bool) (slot : Nat) (o : LaidOutcome) (p : Scp) : Scp :=
  let p := { p with batch := p.batch ++ [(slot, o)] }
  if p.config.batch ≤ p.batch.length then p.flush replyDue else p

def Ev.report (r : Report) (e : Ev) : Ev := e.onScp (Scp.raise e.replyDue r)

/-- Raises reports in order. -/
def Ev.reports (rs : List Report) (e : Ev) : Ev := rs.foldl (fun e r => e.report r) e

def Ev.flush (e : Ev) : Ev := e.onScp (Scp.flush e.replyDue)

/-- Queues the reply of a command taken; the previous-command marker then holds its kind (R14, R193). -/
def Ev.reply (c : HostCommand) (st : Status) (results : List Byte) (e : Ev) : Ev :=
  { (e.onScp (Scp.pushReply c.kind c.tag st results)).onRcu (fun r => { r with marker := some c.kind }) with
    replyDue := false }

/-- Queues a MODE report of the mode as it now stands (R161), for an event that changes the hold-reason set no more once
the report is queued. -/
def Ev.modeReport (cause : ModeCause) (previous : Mode) (e : Ev) : Ev :=
  e.report (.mode e.rcu.mode previous e.rcu.deploy cause e.rcu.holds e.rcu.haltPending e.rcu.stranded)

/-- Makes a change and queues a RATE report where it turns reduced rate on or off (R140). -/
def Ev.withRate (cause : RateCause) (f : Ev → Ev) (e : Ev) : Ev :=
  let t := f e
  if t.reducedRate = e.reducedRate then t
  else t.report (.rate t.reducedRate cause t.rsl.active t.hsq.gustCount)

/-! ### Orders -/

/-- Fills the unit's record and raises its tag counter (R54). -/
def Sli.launch (unit : Nat) (o : Order) (req : Requester) (now : Nat) (l : Sli) : Sli :=
  let tag := Table.readD l.tags unit 0
  { l with inFlight := Table.write l.inFlight unit ⟨o, tag, req, now⟩, tags := Table.writeD l.tags unit (tag + 1) 0 }

/-- Sends an order: record, tag, and the frame on the ring (R54). -/
def Ev.send (unit : Nat) (o : Order) (req : Requester) (e : Ev) : Ev :=
  (e.onSli (Sli.launch unit o req e.now)).onLoopTx (o.frame unit (e.tagOf unit))

/-- STOP: every record and the BOOM waiting request are cleared, every tag counter kept (R60). -/
def Ev.stop (e : Ev) : Ev :=
  (e.onSli fun l => { l with inFlight := [], boomWaiting := none }).onLoopTx stopFrame

/-- Clears the head's at-receive-pose flag (R119). -/
def Ev.leaveReceive (e : Ev) : Ev := e.onHsq fun h => { h with atReceive := false }

/-- The order a BOOM request stands for. -/
def BoomRequest.order : BoomRequest → Order
  | .deploy => .deploy
  | .fold => .fold

/-- Sends DEPLOY or FOLD; the sending clears the at-receive-pose flag (R119, R164, R172). -/
def Ev.sendBoom (r : BoomRequest) (e : Ev) : Ev := (e.send boomUnit r.order .rcu).leaveReceive

/-- Run Control asks for DEPLOY or FOLD, which waits behind a calibration slew in flight (R53). -/
def Ev.askBoom (r : BoomRequest) (e : Ev) : Ev :=
  if e.unitFree boomUnit then e.sendBoom r else e.onSli fun l => { l with boomWaiting := some r }

/-- After an ending at BOOM the waiting request is sent and cleared (R53, R56). -/
def Ev.sendWaiting (e : Ev) : Ev :=
  match e.sli.boomWaiting with
  | none => e
  | some r => if e.unitFree boomUnit then (e.onSli fun l => { l with boomWaiting := none }).sendBoom r else e

/-- A completion that is not taken is counted (R55). -/
def Ev.countStale (e : Ev) : Ev := e.onSli fun l => { l with stale := satUp l.stale }

end Sys2Proof.Machine
end

