-- ==== Sys2Proof/Machine/Flags.lean ====
section
/-! DEFINITION. The hold-reason set and its effect on the mode (R162), the wear counts and their crossed flags (R177 to
R187), and the stranding of a berth at a jam (R92). -/

namespace Sys2Proof.Machine

/-! ### The hold-reason set -/

def HoldSet.has (s : HoldSet) : Hold → Bool
  | .jam => s.jam | .binFull => s.binFull | .link => s.link | .inspect => s.inspect | .glue => s.glue
  | .press => s.press

def HoldSet.put (s : HoldSet) (h : Hold) (v : Bool) : HoldSet :=
  match h with
  | .jam => { s with jam := v }
  | .binFull => { s with binFull := v }
  | .link => { s with link := v }
  | .inspect => { s with inspect := v }
  | .glue => { s with glue := v }
  | .press => { s with press := v }

/-- Appends a slot to the inspect list when it is not in it (R162). -/
def addInspect (slot : Option Nat) (l : List Nat) : List Nat :=
  match slot with
  | none => l
  | some n => if l.contains n then l else l ++ [n]

/-- A claim that raises a hold reason, with the slot an INSPECT claim names (R162). In LAYING and DRAINING the mode
becomes HOLDING, which stops the gust and lock-hold timers (R141); then the batch is flushed and a MODE report
queued. In HOLDING the reason joins the set. In the other modes nothing changes. -/
def Ev.raiseHold (h : Hold) (slot : Option Nat) (e : Ev) : Ev :=
  match e.rcu.mode with
  | .laying | .draining =>
    let previous := e.rcu.mode
    let e := e.onRcu fun r =>
      { r with mode := .holding, holds := r.holds.put h true, inspects := addInspect slot r.inspects,
               haltPending := r.haltPending || r.mode == .draining }
    let e := e.onHsq fun q => { q with gustTimer := none, lockHoldTimer := none }
    e.flush.modeReport (.hold h) previous
  | .holding => e.onRcu fun r => { r with holds := r.holds.put h true, inspects := addInspect slot r.inspects }
  | .idle | .aborted | .stowing | .stowed => e

/-- Takes a reason out of the set; the mode stays (R161). -/
def Ev.dropHold (h : Hold) (e : Ev) : Ev := e.onRcu fun r => { r with holds := r.holds.put h false }

/-! ### The wear counts -/

def Attrs.read {α : Type} (t : Attrs α) : Attr → α
  | .gripCycles => t.gripCycles | .sawCuts => t.sawCuts | .glueFaults => t.glueFaults
  | .pressCutoffs => t.pressCutoffs | .jams => t.jams | .lockLosses => t.lockLosses | .rejects => t.rejects

def Attrs.write {α : Type} (t : Attrs α) (a : Attr) (v : α) : Attrs α :=
  match a with
  | .gripCycles => { t with gripCycles := v }
  | .sawCuts => { t with sawCuts := v }
  | .glueFaults => { t with glueFaults := v }
  | .pressCutoffs => { t with pressCutoffs := v }
  | .jams => { t with jams := v }
  | .lockLosses => { t with lockLosses := v }
  | .rejects => { t with rejects := v }

/-- The wear counts in number order (R177). -/
def Attr.all : List Attr := [.gripCycles, .sawCuts, .glueFaults, .pressCutoffs, .jams, .lockLosses, .rejects]

/-- Crossed: a threshold that is not 0, and a value at or above it (R179). -/
def AttrRecord.atThreshold (r : AttrRecord) : Bool := r.threshold != 0 && r.threshold ≤ r.value

/-- Rewrites one live record. -/
def Ev.onAttr (a : Attr) (f : AttrRecord → AttrRecord) (e : Ev) : Ev :=
  e.onHmn fun m => { m with live := m.live.write a (f (m.live.read a)) }

/-- The effect of a newly crossed count: GLUE_FAULTS and PRESS_CUTOFFS claim their hold reason (R182); SAW_CUTS sets
the saw-worn flag, which is its crossed flag (R181). -/
def Ev.crossEffect (a : Attr) (e : Ev) : Ev :=
  match a with
  | .glueFaults => e.raiseHold .glue none
  | .pressCutoffs => e.raiseHold .press none
  | .gripCycles | .sawCuts | .jams | .lockLosses | .rejects => e

/-- The removal of a crossed count's effect (R181, R182). -/
def Ev.uncrossEffect (a : Attr) (e : Ev) : Ev :=
  match a with
  | .glueFaults => e.dropHold .glue
  | .pressCutoffs => e.dropHold .press
  | .sawCuts => e.promptSel
  | .gripCycles | .jams | .lockLosses | .rejects => e

/-- Evaluates a crossed flag (R179, R180). -/
def Ev.evaluate (a : Attr) (cause : HealthCause) (e : Ev) : Ev :=
  let r := e.hmn.live.read a
  match r.crossed, r.atThreshold with
  | false, true =>
    ((e.onAttr a fun r => { r with crossed := true }).crossEffect a).report (.health a r.value r.threshold cause)
  | true, false => (e.onAttr a fun r => { r with crossed := false }).uncrossEffect a
  | false, false => e
  | true, true => e

/-- Counts a wear event; a value at 999999 and its flag stay (R177, R178). -/
def Ev.countWear (a : Attr) (e : Ev) : Ev :=
  if (e.hmn.live.read a).value < Config.attrTop then
    (e.onAttr a fun r => { r with value := r.value + 1 }).evaluate a .count
  else e

/-- What a save keeps of a live record (R186). -/
def AttrRecord.saved (r : AttrRecord) : SavedAttr := ⟨r.value, r.threshold⟩

def Attrs.saved (t : Attrs AttrRecord) : Attrs SavedAttr :=
  ⟨t.gripCycles.saved, t.sawCuts.saved, t.glueFaults.saved, t.pressCutoffs.saved, t.jams.saved, t.lockLosses.saved,
    t.rejects.saved⟩

/-- Saves the fourteen live numbers to the persistent store (R186). -/
def Ev.saveHealth (e : Ev) : Ev := e.onHmn fun m => { m with stored := m.live.saved }

/-- The crossed prefailure counts among some counts. -/
def State.crossedOf (s : State) (as : List Attr) : List Attr := as.filter fun a => (s.hmn.live.read a).crossed

/-- A set of wear counts as a byte, count n at bit n - 1 (R206). -/
def attrSetByte (as : List Attr) : Byte := byte (bitSet (as.map fun a => a.number - 1))

/-! ### Jams -/

/-- A jam's stranding: the berth joins the stranded set, JAM is raised, and JAMS is counted (R92, R178). -/
def Ev.strand (b : Nat) (e : Ev) : Ev :=
  ((e.onRcu fun r => { r with stranded := setAdd r.stranded b }).raiseHold .jam none).countWear .jams

end Sys2Proof.Machine
end

