-- ==== Sys2Proof/Machine/Plan.lean ====
section
/-! DEFINITION. The Plan Store's readings and claims that other blocks use: regions and the Run ring (R1), counts over
the current station, and the change of an entry with the tests it prompts (R4, R43, R128). -/

namespace Sys2Proof.Machine

/-- The region of a slot in the partition in force (R1). -/
def Pls.region (p : Pls) (slot : Nat) : Region :=
  if slot < p.lead then .lead else if slot < p.lead + p.run then .run else .tail

/-- The slot of a ring position (R1). -/
def Pls.ringSlot (p : Pls) (position : Nat) : Nat := p.lead + (p.ringHead + position) % p.run

/-- A Run slot is inside the ring when its position, counted from the head, is below the count (R1). -/
def Pls.insideRing (p : Pls) (slot : Nat) : Bool :=
  p.region slot == .run && (slot - p.lead + p.run - p.ringHead) % p.run < p.ringCount

/-- PLACED, SKIPPED and WAIVED are the resolved states (R3). -/
def EntryState.resolved : EntryState → Bool
  | .placed | .skipped | .waived => true
  | .planned | .inTrain | .faulted => false

/-- PLANNED or FAULTED. -/
def EntryState.open : EntryState → Bool
  | .planned | .faulted => true
  | .inTrain | .placed | .skipped | .waived => false

/-- The entries of the current station that satisfy a test, with their slots. -/
def State.stationEntries (s : State) (f : Entry → Bool) : Table Entry :=
  s.pls.plan.filter fun p => p.2.station == s.rcu.station && f p.2

/-- How many entries of the current station satisfy a test. -/
def State.countStation (s : State) (f : Entry → Bool) : Nat := (s.stationEntries f).length

/-- The entry of the carrier in the head. -/
def State.headEntry (s : State) : Option Entry :=
  match s.hsq.carrier with
  | none => none
  | some c => s.entryAt c.slot

/-- The head waits READY_TO_PRESS for this slot, as a bearer of its entry (R128). -/
def State.headWaitsFor (s : State) (slot : Nat) : Bool :=
  s.hsq.head == .readyToPress && match s.headEntry with
    | none => false
    | some en => en.bearers.contains slot

/-- What a change of an entry's state prompts: a selection at the current station (R43), and the head's retest when
the entry is a bearer it waits for (R128). -/
def Ev.noteChange (slot station : Nat) (e : Ev) : Ev :=
  let e := if station = e.rcu.station then e.promptSel else e
  if e.headWaitsFor slot then e.promptRetest else e

/-- A claim that changes the state of the entry in a slot. -/
def Ev.changeEntry (slot : Nat) (f : Entry → Entry) (e : Ev) : Ev :=
  match e.entryAt slot with
  | none => e
  | some en => (e.onPls fun p => { p with plan := Table.write p.plan slot (f en) }).noteChange slot en.station

end Sys2Proof.Machine
end

