-- ==== Sys2Proof/Machine/Course.lean ====
section
/-! DEFINITION. The active course, the lookahead and the direction latches (R33 to R36), and the end of a course (R46). -/

namespace Sys2Proof.Machine

/-- PLANNED, IN_TRAIN or FAULTED: the states that keep a course active (R33). -/
def EntryState.unfinished : EntryState → Bool
  | .planned | .inTrain | .faulted => true
  | .placed | .skipped | .waived => false

/-- The lower of a course found so far and another. -/
def lowerCourse (found : Option Nat) (c : Nat) : Option Nat :=
  match found with
  | none => some c
  | some d => some (min d c)

/-- The lowest course among the unfinished entries of the current station, or absent (R33). -/
def State.lowestCourse (s : State) : Option Nat :=
  (s.stationEntries fun en => en.state.unfinished).foldl (fun acc p => lowerCourse acc p.2.course) none

/-- The active course is present and below 255, and none of its entries at the current station is PLANNED (R35). -/
def State.lookaheadOpen (s : State) : Bool :=
  match s.rsl.active with
  | none => false
  | some a => a < 255 && s.countStation (fun en => en.course == a && en.state == .planned) == 0

def Dir.opposite : Dir → Dir
  | .asc => .desc
  | .desc => .asc

/-- The direction a course's latch takes from the settings in force (R36). -/
def ConfigItems.direction (c : ConfigItems) (course : Nat) : Dir :=
  if c.alternate && course % 2 == 1 then c.layDir.opposite else c.layDir

/-- Sets the direction latch of a candidate course when it is absent (R36). -/
def Ev.setLatch (course : Nat) (e : Ev) : Ev :=
  match Table.read e.pls.latches course with
  | some _ => e
  | none => e.onPls fun p => { p with latches := Table.write p.latches course (e.scp.config.direction course) }

/-- Recomputes the lookahead flag; an open lookahead course is a candidate course, so its latch is set (R35, R36). -/
def Ev.refreshLookahead (e : Ev) : Ev :=
  let e := e.onRsl fun r => { r with lookahead := e.lookaheadOpen }
  match e.rsl.active with
  | none => e
  | some a => if e.rsl.lookahead then e.setLatch (a + 1) else e

/-- A finished course: flush, COURSE report, and the head's notice that it is complete, which ends reduced rate
turned on by gusts (R46, R139). -/
def Ev.finishCourse (c : Nat) (e : Ev) : Ev :=
  let e := e.flush
  let e := e.report (.course e.rcu.station c
    (e.countStation fun en => en.course == c && en.state == .placed)
    (e.countStation fun en => en.course == c && en.state == .skipped)
    (e.countStation fun en => en.course == c && en.state == .placed && match en.outcome with
      | none => false
      | some o => o.flagged))
  e.withRate .courseEnd fun e => e.onHsq fun h => { h with gustReduced := false }

/-- The active course rises from `c`: to a higher course, or to absent (R34). -/
def risesFrom (c : Nat) : Option Nat → Bool
  | none => true
  | some d => c < d

/-- Who has the active course recomputed: an event, ADV, which finishes no course and whose recomputation counts as a
change (R30, R139), or a soft reset, which sends no COURSE report (R51). -/
inductive Refresh where
  | event | adv | reset
  deriving DecidableEq, Repr

/-- Recomputes the active course and applies to a change of it the effects of R34: the finished course, the latch of
the new one, the lookahead, the head's notice, and a selection. -/
def Ev.refreshCourse (by_ : Refresh) (e : Ev) : Ev :=
  let old := e.rsl.active
  let new := e.lowestCourse
  let e := e.onRsl fun r => { r with active := new }
  let changed := old != new || by_ == Refresh.adv
  let e := match old with
    | some c => if by_ == Refresh.event && old != new && risesFrom c new then e.finishCourse c else e
    | none => e
  let e := match new with
    | some c => e.setLatch c
    | none => e
  let e := e.refreshLookahead
  if changed then (e.onHsq fun h => { h with gustCount := 0 }).promptSel else e

end Sys2Proof.Machine
end

