-- ==== Sys2Proof/Machine/Claims.lean ====
section
/-! DEFINITION. The claims on the Boom Train Controller: the removal of a carrier (R91), condemnation and the orphan
cascade (R85, R86). -/

namespace Sys2Proof.Machine

/-- Rewrites the carrier record in a berth. -/
def Ev.onCarrier (b : Nat) (f : Carrier → Carrier) (e : Ev) : Ev :=
  match e.carrierAt b with
  | none => e
  | some c => e.onBtc fun t => { t with train := Table.write t.train b (f c) }

/-- Takes the record in a berth out of the train. A freed berth 0 prompts a selection (R43), any freed berth the
transfer test (R79), and a carrier that leaves the train the test for the end of draining (R168). -/
def Ev.dropCarrier (b : Nat) (e : Ev) : Ev :=
  ((e.onBtc fun t => { t with train := Table.strike t.train b }).promptXfer).promptDrain.promptSel

/-- A removal: the record goes, and the entry is PLANNED again, its reject count and marks unchanged (R91). -/
def Ev.removeCarrier (b : Nat) (e : Ev) : Ev :=
  match e.carrierAt b with
  | none => e
  | some c => (e.dropCarrier b).changeEntry c.slot fun en => { en with state := .planned }

/-- A first condemnation: an ARRIVING carrier becomes READY, its work no longer due (R71, R86). -/
def Carrier.condemn (reason : Reason) (c : Carrier) : Carrier :=
  { c with condemned := some reason, phase := if c.phase = .arriving then .ready else c.phase }

/-- Condemns the carrier in a berth with its first reason; one that becomes READY prompts the transfer test (R79). -/
def Ev.sentence (b : Nat) (reason : Reason) (e : Ev) : Ev :=
  match e.carrierAt b with
  | none => e
  | some c =>
    let e := e.onCarrier b (Carrier.condemn reason)
    if c.phase = .arriving then e.promptXfer else e

/-- The entry in a slot names one of some slots as a bearer. -/
def State.namesAny (s : State) (slot : Nat) (bearers : List Nat) : Bool :=
  match s.entryAt slot with
  | none => false
  | some en => en.bearers.any bearers.contains

/-- The orphan cascade, walked once from the berth below `n` down to berth 0: an uncondemned carrier whose entry names a
fallen slot is condemned ORPHAN, and its slot is a fallen one for the berths behind it. Every walk of R86 goes to
lower berths, so one walk that carries the fallen slots along condemns what they condemn together. -/
def Ev.orphans : Nat → List Nat → Ev → Ev
  | 0, _, e => e
  | b + 1, fallen, e =>
    match e.carrierAt b with
    | none => Ev.orphans b fallen e
    | some c =>
      if c.condemned.isNone && e.namesAny c.slot fallen then
        Ev.orphans b (c.slot :: fallen) (e.sentence b .orphan)
      else Ev.orphans b fallen e

/-- A claim that condemns the carrier in a berth: the first one sets the reason and runs the cascade (R85, R86); the
Head Sequencer's copy of the carrier at berth 9 holds the reason too (R87). -/
def Ev.condemn (b : Nat) (reason : Reason) (e : Ev) : Ev :=
  match e.carrierAt b with
  | none => e
  | some c =>
    if c.condemned.isSome then e
    else
      let e := e.sentence b reason
      let e := if b = 9 then
          e.onHsq fun h => { h with carrier := h.carrier.map fun k => { k with condemned := some reason } }
        else e
      e.orphans b [c.slot]

/-- A removal with its cascade (R91, R86); the course state is read again, since the entry has left IN_TRAIN. -/
def Ev.removeAndCascade (b : Nat) (e : Ev) : Ev :=
  match e.carrierAt b with
  | none => e
  | some c => ((e.removeCarrier b).orphans b [c.slot]).refreshCourse .event

/-- The berths that hold a carrier or a reservation (R97). -/
def State.heldBerths (s : State) : List Nat :=
  (List.range 10).filter fun b => (s.carrierAt b).isSome || s.reserved b

/-- ABORT and a soft reset: every berth that holds a carrier or a reservation is stranded, and every carrier removed,
its entry PLANNED again, with no cascade, no JAM and no count (R97, R169, R173). -/
def Ev.dropTrain (e : Ev) : Ev :=
  let held := e.heldBerths
  let e := (List.range 10).foldl (fun e b => e.removeCarrier b) e
  e.onRcu fun r => { r with stranded := held.foldl setAdd r.stranded }

end Sys2Proof.Machine
end

