-- ==== Sys2Proof/Machine/Deflection.lean ====
section
/-! DEFINITION. The Deflection Unit: the correction it gives the head (R145, R146), and the calibration routine (R147 to
R157). -/

namespace Sys2Proof.Machine

/-! ### Exact arithmetic -/

/-- The bits of the integer square root of `n`, from bit `k - 1` down, added to the part `r` found so far. -/
def rootBits (n : Nat) : Nat → Nat → Nat
  | 0, r => r
  | k + 1, r => if (r + 2 ^ k) * (r + 2 ^ k) ≤ n then rootBits n k (r + 2 ^ k) else rootBits n k r

/-- The integer square root, rounded down (R146). -/
def isqrt (n : Nat) : Nat := rootBits n (n.log2 / 2 + 1) 0

/-- `a / b` rounded to the nearest unit, halves away from zero (R121, R146, R150). -/
def roundDiv (a : Int) (b : Nat) : Int :=
  let q : Nat := (2 * a.natAbs + b) / (2 * b)
  if a < 0 then -(q : Int) else (q : Int)

/-- The squared horizontal distance of a target from the truck base (R41, R146). -/
def State.reachSquared (s : State) (target : Pose) : Nat :=
  ((target.x - s.rcu.baseX) * (target.x - s.rcu.baseX) + (target.y - s.rcu.baseY) * (target.y - s.rcu.baseY)).toNat

/-- The reach of point `k` in 0.1 mm. -/
def pointReach (k : Nat) : Nat := 40000 + 30000 * k

/-- Point `k` of the active table; a point that is not listed is (0, 0). -/
def Dfu.point (d : Dfu) (k : Nat) : Point := Table.readD d.active k ⟨0, 0⟩

/-- One value read from the table at a reach (R146). -/
def interpolate (value : Nat → Int) (r : Nat) : Int :=
  if r ≤ 40000 then value 0
  else if 250000 ≤ r then value 7
  else
    let k := (r - 40000) / 30000
    roundDiv (value k * 30000 + (value (k + 1) - value k) * ((r : Int) - (pointReach k : Nat))) 30000

/-- The correction at a reach; 0 while the table valid flag is clear (R145, R146). -/
def Dfu.correction (d : Dfu) (r : Nat) : Point :=
  if d.valid then ⟨interpolate (fun k => (d.point k).dz) r, interpolate (fun k => (d.point k).dr) r⟩ else ⟨0, 0⟩

/-! ### The routine -/

/-- The pose of point `k` from the base in force (R149). -/
def State.calPose (s : State) (k : Nat) : Pose :=
  ⟨s.rcu.baseX + (pointReach k : Nat), s.rcu.baseY, s.rcu.baseZ + 15000, 0⟩

/-- In phase DUE the point's slew is sent as soon as BOOM is free (R149). -/
def Ev.calSlew (e : Ev) : Ev :=
  match e.dfu.cal with
  | .running k =>
    if e.dfu.phase = .due ∧ e.unitFree boomUnit = true then
      let pose := e.calPose k
      let e := (e.send boomUnit (.slew pose .full) .dfu).leaveReceive
      e.onDfu fun d => { d with phase := .slewing, slew := .current, pointPose := pose }
    else e
  | .none | .suspended _ | .done | .failed => e

/-- Starts point `k` at attempt 1 (R148, R150, R155). -/
def Ev.startPoint (k : Nat) (e : Ev) : Ev :=
  (e.onDfu fun d => { d with cal := .running k, attempt := 1, phase := .due }).calSlew

/-- A failed attempt at point `k` (R151). -/
def Ev.failAttempt (k : Nat) (cause : CalCause) (e : Ev) : Ev :=
  let e := e.onDfu fun d => { d with cause := some cause, limitTimer := none, samples := [], slew := .none }
  if e.dfu.attempt < 3 then (e.onDfu fun d => { d with attempt := d.attempt + 1, phase := .due }).calSlew
  else (e.onDfu fun d => { d with pendingPoints := [], cal := .failed }).report (.calFailed k (some cause))

/-- A value fits the sample run: with it added, the run spans no more than 5 units (R150). -/
def spansAtMost5 (vs : List Int) : Bool := vs.all fun a => vs.all fun b => a - b ≤ 5

/-- The run with a frame added, or the frame alone where the run would spread too far (R150). -/
def extendRun (run : List Sample) (p : Sample) : List Sample :=
  let run' := run ++ [p]
  if spansAtMost5 (run'.map (·.x)) && spansAtMost5 (run'.map (·.y)) && spansAtMost5 (run'.map (·.z)) then run' else [p]

/-- The mean of eight values, rounded to the nearest unit, halves away from zero (R150). -/
def meanOf (vs : List Int) : Int := roundDiv vs.sum vs.length

/-- The eight points of a table (R152). -/
def Dfu.points (d : Dfu) : List Point := (List.range 8).map d.point

/-- The active table made of the pending points: a point that is (0, 0) is not listed. -/
def swapPoints (pts : Table Point) : Table Point := pts.filter fun p => p.2 != ⟨0, 0⟩

/-- Records point `k` from a full run and moves the routine on (R150, R152). -/
def Ev.recordPoint (k : Nat) (run : List Sample) (e : Ev) : Ev :=
  let p : Point := ⟨meanOf (run.map (·.z)) - e.dfu.pointPose.z, meanOf (run.map (·.x)) - e.dfu.pointPose.x⟩
  let e := e.onDfu fun d =>
    { d with pendingPoints := Table.write d.pendingPoints k p, limitTimer := none, samples := [] }
  if k < 7 then e.startPoint (k + 1)
  else
    let e := e.onDfu fun d =>
      { d with active := swapPoints d.pendingPoints, valid := true, pendingPoints := [], cal := .done }
    e.report (.calDone e.dfu.points)

/-- A frame offered to the Deflection Unit: taken in SAMPLING alone (R113, R150). -/
def Ev.offerToDfu (p : Pose) (e : Ev) : Ev :=
  match e.dfu.cal with
  | .running k =>
    if e.dfu.phase = .sampling then
      let run := extendRun e.dfu.samples ⟨p.x, p.y, p.z⟩
      if 8 ≤ run.length then e.recordPoint k run else e.onDfu fun d => { d with samples := run }
    else e
  | .none | .suspended _ | .done | .failed => e

/-- An attempt that fails in SAMPLING: lock lost, or the point limit (R151). -/
def Ev.failSampling (cause : CalCause) (e : Ev) : Ev :=
  match e.dfu.cal with
  | .running k => if e.dfu.phase = .sampling then e.failAttempt k cause else e
  | .none | .suspended _ | .done | .failed => e

/-- The DONE of a calibration slew, by the outstanding slew (R150, R153). -/
def Ev.calSlewDone (e : Ev) : Ev :=
  match e.dfu.slew with
  | .current =>
    e.onDfu fun d => { d with slew := .none, phase := .sampling, samples := [], limitTimer := some e.now }
  | .abandoned => (e.onDfu fun d => { d with slew := .none }).calSlew
  | .none => e

/-- The FAULT or TIMEOUT of a calibration slew, by the outstanding slew (R151, R153). -/
def Ev.calSlewFault (e : Ev) : Ev :=
  match e.dfu.slew with
  | .current =>
    match e.dfu.cal with
    | .running k => e.failAttempt k .slewFault
    | .none | .suspended _ | .done | .failed => e.onDfu fun d => { d with slew := .none }
  | .abandoned => (e.onDfu fun d => { d with slew := .none }).calSlew
  | .none => e

/-- A CURRENT slew becomes ABANDONED (R154, R156). -/
def Outstanding.abandon : Outstanding → Outstanding
  | .current => .abandoned
  | .abandoned => .abandoned
  | .none => .none

/-- CAL start (R148): the pending table is emptied and the routine enters RUNNING(0). -/
def Ev.calStart (e : Ev) : Ev := (e.onDfu fun d => { d with pendingPoints := [], cause := none }).startPoint 0

/-- CAL CANCEL (R156). -/
def Dfu.cancel (d : Dfu) : Dfu :=
  { d with pendingPoints := [], samples := [], limitTimer := none, cause := none, cal := .none, slew := d.slew.abandon }

/-- An accepted GO suspends a RUNNING routine (R154). -/
def Dfu.suspend (d : Dfu) : Dfu :=
  match d.cal with
  | .running k =>
    { d with cal := .suspended k, pendingPoints := Table.strike d.pendingPoints k, samples := [], limitTimer := none,
             slew := d.slew.abandon }
  | .none | .suspended _ | .done | .failed => d

/-- An entry into settled IDLE resumes a SUSPENDED routine (R155). -/
def Ev.calResume (e : Ev) : Ev :=
  match e.dfu.cal with
  | .suspended k => e.startPoint k
  | .none | .running _ | .done | .failed => e

/-- STOW (R157): the run is discarded and the active table is no longer valid. -/
def Dfu.stow (d : Dfu) : Dfu :=
  { d with valid := false, pendingPoints := [], cal := .none, samples := [], limitTimer := none, cause := none,
           slew := if d.slew = .current then .abandoned else .none }

/-- A soft reset (R157): the run is discarded, the active table and its valid flag are kept. -/
def Dfu.softReset (d : Dfu) : Dfu :=
  { d with pendingPoints := [], cal := .none, samples := [], limitTimer := none, cause := none, slew := .none }

end Sys2Proof.Machine
end

