-- ==== Sys2Proof/Machine/Head.lean ====
section
/-! DEFINITION. The Head Sequencer: the laying cycle, its holds, the dump and the head jam
(06_head_cycle_and_pose_correction.md). -/

namespace Sys2Proof.Machine

/-! ### Head orders -/

/-- A head order is in flight: a TAKE, OPEN, TRIM, PRESS, DUMP, or a SLEW the head asked for. -/
def State.headBusy (s : State) : Bool :=
  [boomUnit, wristUnit, gripperUnit, pressUnit, chuteUnit].any fun u =>
    match s.flight u with
    | none => false
    | some r => r.requester == .hsq

/-- Enters a head state whose order has not been sent yet. -/
def Ev.enterHead (st : HeadState) (e : Ev) : Ev := e.onHsq fun h => { h with head := st, orderSent := false }

/-- Sends the order that belongs to the head state: only in LAYING or DRAINING (R141), and only to a free unit (R53). -/
def Ev.sendHead (unit : Nat) (o : Order) (e : Ev) : Ev :=
  if e.running && e.unitFree unit then (e.send unit o .hsq).onHsq fun h => { h with orderSent := true } else e

/-- The rate of a SLEW sent now (R139). -/
def State.slewRate (s : State) : SlewRate := if s.reducedRate then .reduced else .full

/-- The receive pose from the base in force (R119). -/
def State.receivePose (s : State) : Pose := ⟨s.rcu.baseX + 40000, s.rcu.baseY, s.rcu.baseZ + 20000, 0⟩

/-- The approach pose of a target (R121). -/
def approachPose (target : Pose) : Pose := { target with z := target.z + 300 }

/-- A quotient of R121, rounded; at a reach of 0 the manual states none (log entry 4). -/
def leadQuotient (product : Int) (reach : Nat) : Int :=
  if reach = 0 then Config.zeroReachQuotient product else roundDiv product reach

/-- The pose an approach SLEW orders: the approach pose corrected by the deflection feedforward (R121). -/
def State.orderedPose (s : State) (target : Pose) : Pose :=
  let r := isqrt (s.reachSquared target)
  let c := s.dfu.correction r
  { x := target.x - leadQuotient (c.dr * (target.x - s.rcu.baseX)) r
    y := target.y - leadQuotient (c.dr * (target.y - s.rcu.baseY)) r
    z := target.z + 300 - c.dz
    yaw := target.yaw }

/-! ### Entries to states -/

/-- GRIPPING, with its TAKE (R120). -/
def Ev.enterGripping (e : Ev) : Ev := (e.enterHead .gripping).sendHead gripperUnit .take

/-- Sends the approach SLEW of the carrier in the head (R121); the sending clears the at-receive-pose flag (R119). -/
def Ev.sendApproach (e : Ev) : Ev :=
  match e.headEntry with
  | none => e
  | some en =>
    if e.running && e.unitFree boomUnit then
      (e.sendHead boomUnit (.slew (e.orderedPose en.target) e.slewRate)).leaveReceive
    else e

/-- APPROACHING, with its SLEW (R121). -/
def Ev.enterApproaching (e : Ev) : Ev := (e.enterHead .approaching).sendApproach

/-- Sends the SLEW to the receive pose at the rate in force (R138). -/
def Ev.sendRetract (e : Ev) : Ev := e.sendHead boomUnit (.slew e.receivePose e.slewRate)

/-- RETRACTING, with its SLEW (R138). -/
def Ev.enterRetracting (e : Ev) : Ev := (e.enterHead .retracting).sendRetract

/-- RELEASING, with its OPEN (R137). -/
def Ev.enterReleasing (e : Ev) : Ev := (e.enterHead .releasing).sendHead gripperUnit .openGrip

/-- The values an entry to SETTLING latches (R123). -/
def State.settleLatch (s : State) : SettleLatch :=
  let c := s.scp.config
  ⟨if s.reducedRate then 2 * c.settleCount else c.settleCount, c.tolPos, c.tolYaw⟩

/-- SETTLING (R123). -/
def Ev.enterSettling (e : Ev) : Ev :=
  let latch := e.settleLatch
  (e.enterHead .settling).onHsq fun h =>
    { h with latch := some latch, settleCount := 0, gustTimer := none, lockHoldTimer := none }

/-- LOCK_HOLD; its timer runs in LAYING and DRAINING alone (R131, R132). R131 gives the settle count and the gust run of 0 for
a lock lost; at the entries of R122 and R142 they are DEDUCED, safe (log entry 13). -/
def Ev.enterLockHold (e : Ev) : Ev :=
  let timer := if e.running then some e.now else none
  (e.enterHead .lockHold).onHsq fun h =>
    { h with settleCount := 0, gustRun := 0, gustTimer := none, lockHoldTimer := timer }

/-- A gust counted: at 3 the gust-reduced flag is set (R129, R139), with a RATE report where that changes the rate. -/
def Ev.countGust (e : Ev) : Ev :=
  e.withRate .gusts fun e => e.onHsq fun h =>
    let n := min 255 (h.gustCount + 1)
    { h with gustCount := n, gustReduced := h.gustReduced || 3 ≤ n }

/-- GUST_HOLD, by a frame outside the envelope or by a TRIM that failed (R129); its timer runs in LAYING and DRAINING
alone (R141). The settle count of 0 is DEDUCED, safe (log entry 13). -/
def Ev.enterGustHold (byFrame : Bool) (e : Ev) : Ev :=
  let timer := if e.running then some (e.now, e.scp.config.gustLimit * 1000) else none
  let e := (e.enterHead .gustHold).onHsq fun h => { h with settleCount := 0, gustRun := 0, gustTimer := timer }
  if byFrame then e.countGust else e

/-- The bin claim: made with the head in DUMPING, no head order in flight, in LAYING or DRAINING (R88, R134). -/
def Ev.binClaim (e : Ev) : Ev :=
  if e.running && e.hsq.head == .dumping && !e.headBusy then
    if e.btc.bin < Config.binPlaces then e.sendHead chuteUnit .dump else e.raiseHold .binFull none
  else e

/-- The bin claim of an entry into LAYING or DRAINING is refused: the head is in DUMPING, no head order is in flight, and
the bin count stands at 24 (R88, R142). -/
def State.binRefuses (s : State) : Bool :=
  s.hsq.head == .dumping && !s.headBusy && Config.binPlaces ≤ s.btc.bin

/-- DUMPING, with the bin claim (R134). DESIGN CHOICE, safe (log entry 31): dump pending is cleared here, where what it
waited for is done; no rule says when (R133). -/
def Ev.enterDumping (e : Ev) : Ev :=
  ((e.enterHead .dumping).onHsq fun h =>
    { h with dumpPending := false, gustTimer := none, lockHoldTimer := none }).binClaim

/-- VACANT at the receive pose, with the notices of R119. -/
def Ev.vacantAtReceive (e : Ev) : Ev :=
  ((e.enterHead .vacant).onHsq fun h => { h with atReceive := true }).promptXfer.promptSel.promptDrain

/-! ### The take-over and the carrier's fate -/

/-- The head takes over the carrier that has arrived in berth 9 (R77, R118). -/
def Ev.takeOver (c : Carrier) (e : Ev) : Ev :=
  let e := e.onHsq fun h =>
    { h with carrier := some ⟨c.release, c.slot, c.condemned, c.expired⟩, dumpPending := false, outcome := .clear,
             atReceive := false }
  if c.condemned.isSome then e.enterDumping else e.enterGripping

/-- The notice of a condemnation the head has not claimed itself (R87, R133). -/
def Ev.headCondemned (e : Ev) : Ev :=
  match e.hsq.head with
  | .gripping | .approaching | .settling | .lockHold | .gustHold | .readyToPress =>
    if e.headBusy then e.onHsq fun h => { h with dumpPending := true } else e.enterDumping
  | .vacant | .pressing | .measuring | .releasing | .retracting | .dumping => e

/-- The deadline of the carrier in a berth is reached (R84). -/
def Ev.expire (b : Nat) (e : Ev) : Ev :=
  match e.carrierAt b with
  | none => e
  | some c =>
    let e := e.onCarrier b fun c => { c with expired := true, deadline := none }
    let e := if b = 9 then
        e.onHsq fun h => { h with carrier := h.carrier.map fun k => { k with expired := true } }
      else e
    if c.condemned.isSome then e
    else
      let e := e.condemn b .expired
      if b = 9 then e.headCondemned else e

/-- A head jam (R64, R96): the carrier is removed, the head is VACANT off the receive pose, berth 9 is stranded. DESIGN
CHOICE, safe (log entry 32): settle count, gust run and cycle outcome are cleared and the timers stopped too, of which no
rule speaks. -/
def Ev.headJam (e : Ev) : Ev :=
  let e := e.onHsq fun h =>
    { h with head := .vacant, carrier := none, orderSent := false, dumpPending := false, atReceive := false,
             settleCount := 0, gustRun := 0, gustTimer := none, lockHoldTimer := none, measuringTimer := none,
             outcome := .clear }
  (e.removeAndCascade 9).strand 9

/-! ### Residuals and frames -/

/-- A yaw difference wrapped into -18000 to 17999 (R124). -/
def wrapYaw (d : Int) : Int := (d + 18000) % 36000 - 18000

/-- A measured pose minus a reference pose (R124). -/
def residual (p reference : Pose) : Offset :=
  ⟨p.x - reference.x, p.y - reference.y, p.z - reference.z, wrapYaw (p.yaw - reference.yaw)⟩

/-- Within a position and a yaw tolerance, both ends included (R124). -/
def Offset.within (o : Offset) (pos yaw : Nat) : Bool :=
  o.dx.natAbs ≤ pos && o.dy.natAbs ≤ pos && o.dz.natAbs ≤ pos && o.dyaw.natAbs ≤ yaw

/-- Within the envelope (R124). -/
def Offset.inEnvelope (o : Offset) : Bool :=
  o.dx.natAbs ≤ 400 && o.dy.natAbs ≤ 400 && o.dz.natAbs ≤ 200 && o.dyaw.natAbs ≤ 300

/-- Every bearer of the entry in the head is PLACED or SKIPPED (R127). -/
def State.bearersLaid (s : State) : Bool :=
  match s.headEntry with
  | none => false
  | some en => en.bearers.all fun slot =>
    match s.entryAt slot with
    | none => false
    | some b => b.state == .placed || b.state == .skipped

/-- The conditions of R127 but for the lockout and the bearers. -/
def State.pressReady (s : State) : Bool :=
  s.trk.locked && s.running
    && (match s.hsq.latch with
        | none => false
        | some l => l.target ≤ s.hsq.settleCount)
    && match s.hsq.carrier with
       | none => false
       | some c => c.condemned.isNone && !c.expired

/-- All the conditions of R127. -/
def State.pressAllowed (s : State) : Bool := s.pressReady && s.hsq.lockout.isNone && s.bearersLaid

/-- PRESSING: the deadline is dropped and PRESS is sent in one claim (R83, R135). -/
def Ev.enterPressing (e : Ev) : Ev :=
  ((e.onCarrier 9 fun c => { c with deadline := none }).enterHead .pressing).sendHead pressUnit .press

/-- The press decision at the settle target (R127). -/
def Ev.pressDecision (e : Ev) : Ev :=
  if e.pressAllowed then e.enterPressing
  else if e.pressReady then e.enterHead .readyToPress
  else e

/-- The retest of READY_TO_PRESS (R128). -/
def Ev.retestPress (e : Ev) : Ev :=
  if e.hsq.head == .readyToPress && e.pressAllowed then e.enterPressing else e

/-- A TRIM of the negatives of a residual; the settle count starts again (R125). Whether a TRIM is "the order that
belongs to the head state" is left open by R117 and R141: the order-sent flag is not set by it (DESIGN CHOICE, log
entry 27). -/
def Ev.trim (o : Offset) (e : Ev) : Ev :=
  ((e.onHsq fun h => { h with settleCount := 0 }).send wristUnit (.trim (-o.dx) (-o.dy) (-o.dz) (-o.dyaw)) .hsq)

/-- A frame evaluated in SETTLING (R125). -/
def Ev.settle (o : Offset) (e : Ev) : Ev :=
  match e.hsq.latch with
  | none => e
  | some l =>
    if !o.inEnvelope then e.enterGustHold true
    else if o.within l.posTol l.yawTol then
      let e := e.onHsq fun h => { h with settleCount := h.settleCount + 1 }
      if l.target ≤ e.hsq.settleCount then e.pressDecision else e
    else e.trim o

/-- A frame evaluated in GUST_HOLD (R129). -/
def Ev.rideGust (o : Offset) (e : Ev) : Ev :=
  if o.inEnvelope then
    let e := e.onHsq fun h => { h with gustRun := h.gustRun + 1 }
    if 3 ≤ e.hsq.gustRun then e.enterSettling else e
  else e.onHsq fun h => { h with gustRun := 0 }

/-- A frame evaluated in READY_TO_PRESS (R128). -/
def Ev.waitPress (o : Offset) (e : Ev) : Ev :=
  match e.hsq.latch with
  | none => e
  | some l =>
    if !o.inEnvelope then e.enterGustHold true
    else if o.within l.posTol l.yawTol then e
    else e.enterSettling.trim o

/-- The frame a measurement takes (R136): offset, flags, and RELEASING. -/
def Ev.measure (o : Offset) (e : Ev) : Ev :=
  let out := match e.hsq.latch with
    | none => false
    | some l => !o.within (2 * l.posTol) (2 * l.yawTol)
  (e.onHsq fun h =>
    { h with measuringTimer := none
             outcome := { h.outcome with unverified := false, offset := some o
                                         outOfTolerance := h.outcome.outOfTolerance || out } }).enterReleasing

/-- A frame offered to the head: taken in SETTLING (unless a TRIM is in flight), GUST_HOLD and READY_TO_PRESS in LAYING
and DRAINING, and in MEASURING in any mode (R113, R125, R141). -/
def Ev.offerToHead (p : Pose) (e : Ev) : Ev :=
  match e.headEntry with
  | none => e
  | some en =>
    let o := residual p (approachPose en.target)
    match e.hsq.head with
    | .settling => if e.running && e.unitFree wristUnit then e.settle o else e
    | .gustHold => if e.running then e.rideGust o else e
    | .readyToPress => if e.running then e.waitPress o else e
    | .measuring => e.measure (residual p en.target)
    | .vacant | .gripping | .approaching | .lockHold | .pressing | .releasing | .retracting | .dumping => e

/-! ### Lock notices -/

/-- The notice of lock lost (R131, R141). -/
def Ev.headLockLost (e : Ev) : Ev :=
  match e.hsq.head with
  | .settling | .gustHold | .readyToPress => if e.running then e.enterLockHold else e
  | .pressing => e.onHsq fun h => { h with outcome := { h.outcome with unverified := true } }
  | .vacant | .gripping | .approaching | .lockHold | .measuring | .releasing | .retracting | .dumping => e

/-- The notice of lock gained (R132, R141). -/
def Ev.headLockGained (e : Ev) : Ev :=
  match e.hsq.head with
  | .lockHold => if e.running then e.enterSettling else e
  | .vacant | .gripping | .approaching | .settling | .gustHold | .readyToPress | .pressing | .measuring | .releasing
  | .retracting | .dumping => e

/-! ### Endings of the head's orders -/

/-- TAKE DONE (R120); the grip is counted after the head has gone on (R178). -/
def Ev.takeEnd (e : Ev) : Ev :=
  (if e.hsq.dumpPending then e.enterDumping else e.enterApproaching).countWear .gripCycles

/-- TAKE FAULT SLIP (R120). -/
def Ev.slipEnd (e : Ev) : Ev := (e.condemn 9 .gripFault).enterDumping

/-- The settle phase: SETTLING under lock, LOCK_HOLD without (R122, R142). -/
def Ev.settlePhase (e : Ev) : Ev := if e.trk.locked then e.enterSettling else e.enterLockHold

/-- The DONE of the approach SLEW (R122). -/
def Ev.approachEnd (e : Ev) : Ev := if e.hsq.dumpPending then e.enterDumping else e.settlePhase

/-- The ending of a TRIM (R126). -/
def Ev.trimEnd (failed : Bool) (e : Ev) : Ev :=
  if e.hsq.head == .dumping then e
  else if e.hsq.dumpPending then e.enterDumping
  else if failed && e.hsq.head == .settling then e.enterGustHold false
  else e

/-- The brick is pressed: INSPECT decides between MEASURING and RELEASING (R136). -/
def Ev.afterPress (e : Ev) : Ev :=
  let inspected := match e.headEntry with
    | none => false
    | some en => en.marks.inspect
  if inspected then (e.enterHead .measuring).onHsq fun h => { h with measuringTimer := some e.now }
  else e.enterReleasing

/-- PRESS ended by CUTOFF (R136); the cutoff is counted after the head has gone on (R178, log entry 11). -/
def Ev.pressCutoff (e : Ev) : Ev :=
  ((e.onHsq fun h => { h with outcome := { h.outcome with pressCut := true }, lockout := some e.now }).afterPress).countWear
    .pressCutoffs

/-- OPEN DONE: the placement (R137, R81). -/
def Ev.openEnd (e : Ev) : Ev :=
  match e.hsq.carrier with
  | none => e.enterRetracting
  | some c =>
    let o := e.hsq.outcome
    let e := e.onScp (Scp.handOver e.replyDue c.slot o)
    let e := (e.dropCarrier 9).changeEntry c.slot fun en => { en with state := .placed, outcome := some o }
    let e := (e.onHsq fun h => { h with carrier := none }).refreshCourse .event
    let e := if o.outOfTolerance then e.raiseHold .inspect (some c.slot) else e
    e.enterRetracting

/-- The entry of a dumped carrier, claimed back (R5, R25, R89). -/
def Entry.dumped (reason : Option Reason) (en : Entry) : Entry :=
  if en.marks.skip then { en with state := .skipped }
  else
    let n := if reason = some .orphan then en.rejects else en.rejects + 1
    { en with rejects := n, state := if 3 ≤ n then .faulted else .planned }

/-- The report that follows REJECTED (R4, R89). -/
def Entry.dumpReport (slot : Nat) (en : Entry) : List Report :=
  match en.state with
  | .skipped => [.skipped [slot]]
  | .faulted => [.faulted slot]
  | .planned | .inTrain | .placed | .waived => []

/-- DUMP DONE (R89, R134). -/
def Ev.dumpEnd (e : Ev) : Ev :=
  match e.carrierAt 9 with
  | none => e.vacantAtReceive
  | some c =>
    let e := (e.dropCarrier 9).onBtc fun t => { t with bin := t.bin + 1 }
    let e := e.changeEntry c.slot (Entry.dumped c.condemned)
    let e := match e.entryAt c.slot with
      | none => e
      | some en =>
        e.reports (.rejected c.slot c.release c.condemned c.expired en.rejects :: en.dumpReport c.slot)
    let e := (e.refreshCourse .event).countWear .rejects
    (e.onHsq fun h => { h with carrier := none }).vacantAtReceive

/-! ### Resumption -/

/-- The mode enters LAYING or DRAINING: the head resumes by its state (R142, R119). -/
def Ev.headResume (e : Ev) : Ev :=
  match e.hsq.head with
  | .vacant => if e.hsq.atReceive then e else e.enterRetracting
  | .gripping => if e.hsq.orderSent then e else e.sendHead gripperUnit .take
  | .approaching => if e.hsq.orderSent then e else e.sendApproach
  | .releasing => if e.hsq.orderSent then e else e.sendHead gripperUnit .openGrip
  | .retracting => if e.hsq.orderSent then e else e.sendRetract
  | .settling | .gustHold | .readyToPress | .lockHold => e.settlePhase
  | .dumping => e.binClaim
  | .pressing | .measuring => e

end Sys2Proof.Machine
end

