-- ==== Sys2Proof/Machine/Train.lean ====
section
/-! DEFINITION. The Boom Train Controller: work at SAW and GLUE, transfers, and the endings of the berth units' orders
(04_the_boom_train.md, R63). -/

namespace Sys2Proof.Machine

/-- Makes the carrier in a berth READY, which prompts the transfer test (R71, R79). -/
def Ev.makeReady (b : Nat) (e : Ev) : Ev := (e.onCarrier b fun c => { c with phase := .ready }).promptXfer

/-- The work order due for a carrier: CUT at berth 1 where its entry has a cut length, GLUE at berth 2, none for a
condemned carrier (R73, R75). -/
def State.workDue (s : State) (b : Nat) (c : Carrier) : Option Order :=
  if c.condemned.isSome then none
  else
    match s.entryAt c.slot with
    | none => none
    | some en =>
      if b = 1 then en.cut.map Order.cut
      else if b = 2 then some (.glue (s.classAt en.cls).glue)
      else none

/-- The unit that works at berth 1 or 2. -/
def workUnit (b : Nat) : Nat := if b = 1 then sawUnit else glueUnit

/-- Sends the work due for a carrier at SAW or GLUE and makes it WORKING; one without work is READY, and one whose work
cannot start is ARRIVING (R73, R75). -/
def Ev.startWork (b : Nat) (c : Carrier) (e : Ev) : Ev :=
  match e.workDue b c with
  | none => e.makeReady b
  | some o =>
    if e.running && e.unitFree (workUnit b) then
      (e.onCarrier b fun c => { c with phase := .working }).send (workUnit b) o .btc
    else e.onCarrier b fun c => { c with phase := .arriving }

/-- A carrier takes up its new berth (R73, R75, R77). -/
def Ev.arrive (b : Nat) (c : Carrier) (e : Ev) : Ev :=
  if b = 1 ∨ b = 2 then e.startWork b c
  else if b = 9 then (e.onCarrier 9 fun c => { c with phase := .working }).takeOver c
  else e.makeReady b

/-- The work due for a carrier left ARRIVING when the mode enters LAYING or DRAINING (R73, R75, R166). -/
def Ev.resumeWork (b : Nat) (e : Ev) : Ev :=
  match e.carrierAt b with
  | none => e
  | some c => if c.phase = .arriving then e.startWork b c else e

/-- The transfer condition (R78). -/
def State.transferable (s : State) (b : Nat) : Bool :=
  (match s.carrierAt b with
   | none => false
   | some c => c.phase == .ready)
    && s.running
    && (s.carrierAt (b + 1)).isNone
    && !s.rcu.stranded.contains (b + 1)
    && s.unitFree (xferUnit b)
    && (b != 8 || (s.hsq.head == .vacant && s.hsq.atReceive))

/-- Transfers the carrier in a berth when its condition holds: MOVE is sent, the carrier is LEAVING and so reserves the
next berth (R78). -/
def Ev.transfer (b : Nat) (e : Ev) : Ev :=
  if e.transferable b then (e.onCarrier b fun c => { c with phase := .leaving }).send (xferUnit b) .move .btc else e

/-- The transfer test, for every berth (R79). Which of several MOVEs of one test is sent first the spec leaves open: the
model goes from berth 8 down to berth 0 (DESIGN CHOICE, log entry 26). -/
def Ev.runTransfers (e : Ev) : Ev := (List.range 9).foldl (fun e i => e.transfer (8 - i)) e

/-! ### Endings -/

/-- The moment a carrier glued now must be pressed by (R82). -/
def State.glueMoment (s : State) : Nat := s.now + s.scp.config.openTime * 1000

/-- LOAD DONE (R72). -/
def Ev.loadEnd (e : Ev) : Ev := (e.makeReady 0).promptSel

/-- LOAD FAULT EMPTY (R93). -/
def Ev.loadEmptyEnd (lane : Nat) (e : Ev) : Ev :=
  ((e.onPls fun p => { p with stocks := Table.strike p.stocks lane }).removeAndCascade 0).promptSel

/-- LOAD FAULT with another code, and TIMEOUT (R94). -/
def Ev.loadJam (e : Ev) : Ev := ((e.removeAndCascade 0).strand 0).promptSel

/-- CUT DONE (R74). -/
def Ev.cutEnd (e : Ev) : Ev := (e.makeReady 1).countWear .sawCuts

/-- CUT FAULT and TIMEOUT (R74). -/
def Ev.cutFail (e : Ev) : Ev := (e.makeReady 1).condemn 1 .workFault

/-- GLUE DONE (R76, R82). -/
def Ev.glueEnd (e : Ev) : Ev :=
  let moment := e.glueMoment
  (e.makeReady 2).onCarrier 2 fun c => { c with deadline := some moment }

/-- GLUE FAULT and TIMEOUT (R76). -/
def Ev.glueFail (e : Ev) : Ev := ((e.makeReady 2).condemn 2 .workFault).countWear .glueFaults

/-- MOVE DONE from XFERb (R80). -/
def Ev.moveEnd (b : Nat) (e : Ev) : Ev :=
  match e.carrierAt b with
  | none => e
  | some c =>
    let e := (e.onBtc fun t => { t with train := Table.write (Table.strike t.train b) (b + 1) c }).promptXfer
    let e := if b = 0 then e.promptSel else e
    e.arrive (b + 1) c

/-- MOVE FAULT from XFERb, and TIMEOUT (R95): the reservation goes with the carrier, and berth b is stranded. -/
def Ev.moveJam (b : Nat) (e : Ev) : Ev := (e.removeAndCascade b).strand b

end Sys2Proof.Machine
end

