-- ==== Sys2Proof/Machine/Selection.lean ====
section
/-! DEFINITION. The Release Selector: the candidates in lay order, eligibility, the release, the standstill reports and
the end of a station (02_release_selection.md). -/

namespace Sys2Proof.Machine

/-! ### Candidates in lay order -/

/-- A candidate: PLANNED, of the current station, in the active course or the open lookahead course (R35, R37). -/
def State.isCandidate (s : State) (en : Entry) : Bool :=
  en.state == .planned && en.station == s.rcu.station
    && match s.rsl.active with
       | none => false
       | some a => en.course == a || (s.rsl.lookahead && en.course == a + 1)

/-- The direction of a course's Run entries (R36). -/
def State.direction (s : State) (course : Nat) : Dir :=
  Table.readD s.pls.latches course (s.scp.config.direction course)

/-- The place of a candidate in the lay order, compared from the left: course, region, seq, slot (R37). -/
def State.layKey (s : State) (p : Nat × Entry) : List Int :=
  let r := s.pls.region p.1
  let seq : Int := if r = .run ∧ s.direction p.2.course = .desc then -(p.2.seq : Int) else p.2.seq
  [(p.2.course : Int), (r.code : Int), seq, (p.1 : Int)]

/-- Lexicographic order on keys of one length. -/
def keyBefore : List Int → List Int → Bool
  | a :: as, b :: bs => a < b || (a == b && keyBefore as bs)
  | _, _ => false

/-- Puts a candidate into its place. -/
def State.layInsert (s : State) (p : Nat × Entry) : Table Entry → Table Entry
  | [] => [p]
  | q :: qs => if keyBefore (s.layKey p) (s.layKey q) then p :: q :: qs else q :: s.layInsert p qs

/-- The candidates in lay order (R37). -/
def State.candidates (s : State) : Table Entry :=
  (s.pls.plan.filter fun p => s.isCandidate p.2).foldr s.layInsert []

/-! ### Conditions -/

/-- A PLANNED entry of the current station stands in a course and a region. -/
def State.plannedIn (s : State) (course : Nat) (r : Region) : Bool :=
  s.pls.plan.any fun p =>
    p.2.state == .planned && p.2.station == s.rcu.station && p.2.course == course && s.pls.region p.1 == r

/-- The region gate (R38). -/
def State.gateOpen (s : State) (slot course : Nat) : Bool :=
  match s.pls.region slot with
  | .lead => true
  | .run => !s.plannedIn course .lead
  | .tail => !s.plannedIn course .lead && !s.plannedIn course .run

/-- A bearer slot meets the bearer condition (R40). -/
def State.bearerMet (s : State) (slot : Nat) : Bool :=
  match s.entryAt slot with
  | none => false
  | some b =>
    match b.state with
    | .placed | .skipped => true
    | .inTrain => s.btc.train.any fun c => c.2.slot == slot && c.2.condemned.isNone
    | .planned | .waived | .faulted => false

/-- The reach is within 4.0 m to 25.0 m, by its exact square (R41). -/
def State.inReach (s : State) (target : Pose) : Bool :=
  let d := s.reachSquared target
  Config.reachLow * Config.reachLow ≤ d && d ≤ Config.reachHigh * Config.reachHigh

/-- Whether a candidate meets the condition whose failure is a blocking reason (R48). -/
def State.meets (s : State) (p : Nat × Entry) : Block → Bool
  | .ceiling => p.2.course ≤ s.pls.ceiling
  | .hold => !p.2.marks.hold
  | .region => s.gateOpen p.1 p.2.course
  | .bearer => p.2.bearers.all s.bearerMet
  | .stock => 1 ≤ s.stockOf (s.classAt p.2.cls).lane
  | .sawWorn => p.2.cut.isNone || !s.sawWorn
  | .reach => s.inReach p.2.target

/-- The blocking reasons in their order (R48). -/
def Block.all : List Block := [.ceiling, .hold, .region, .bearer, .stock, .sawWorn, .reach]

/-- The blocking reason of a candidate; none for an eligible one (R39 to R41, R48). -/
def State.blockOf (s : State) (p : Nat × Entry) : Option Block := Block.all.find? fun b => !s.meets p b

/-- Blocked by stock and by nothing else (R50). -/
def State.stockAlone (s : State) (p : Nat × Entry) : Bool :=
  Block.all.all fun b => s.meets p b == !(b == .stock)

/-! ### A selection -/

/-- The four release conditions (R42). -/
def State.mayRelease (s : State) : Bool :=
  s.rcu.mode == .laying && (s.carrierAt 0).isNone && !s.rcu.stranded.contains 0 && s.unitFree pickUnit

/-- The STARVED test (R50). -/
def Ev.starvedTest (cands : Table Entry) (e : Ev) : Ev :=
  match cands.find? fun p => !p.2.marks.hold with
  | none => e
  | some p =>
    let lane := (e.classAt p.2.cls).lane
    if e.stockAlone p && !e.rsl.starved.contains lane then
      (e.report (.starved lane (e.stockOf lane) p.1)).onRsl fun r => { r with starved := setAdd r.starved lane }
    else e

/-- A release: the entry and the stock, the carrier, LOAD; then the stall latch and the course state (R44, R70). -/
def Ev.release (slot : Nat) (en : Entry) (e : Ev) : Ev :=
  let lane := (e.classAt en.cls).lane
  let e := e.changeEntry slot fun en => { en with state := .inTrain }
  let e := e.onPls fun p => { p with stocks := Table.writeD p.stocks lane (Table.readD p.stocks lane 0 - 1) 0 }
  let e := e.onBtc fun t =>
    { t with train := Table.write t.train 0 ⟨t.releases, slot, .working, none, false, none⟩, releases := t.releases + 1 }
  let e := e.send pickUnit (.load lane) .rsl
  (e.onRsl fun r => { r with stall := false }).refreshCourse .event

/-- The STALLED report (R49). -/
def State.stalledReport (s : State) (cands : Table Entry) : Report :=
  .stalled s.rcu.station s.rsl.active
    (s.countStation fun en => en.state == .planned)
    (s.countStation fun en => en.state == .faulted)
    (Block.all.map fun b => (cands.filter fun p => s.blockOf p == some b).length)
    ((List.range 8).filter fun lane =>
      cands.any fun p => s.blockOf p == some .stock && (s.classAt p.2.cls).lane == lane)

/-- The stall test, once no candidate is eligible (R49). -/
def Ev.stallTest (cands : Table Entry) (e : Ev) : Ev :=
  if e.trainEmpty && !e.rsl.stall && e.countStation (fun en => en.state == .planned) != 0 then
    (e.report (e.stalledReport cands)).onRsl fun r => { r with stall := true }
  else e

/-- The release part of a selection (R42, steps 1 to 3). -/
def Ev.selectRelease (e : Ev) : Ev :=
  if e.mayRelease then
    let cands := e.candidates
    let e := e.starvedTest cands
    match cands.find? fun p => (e.blockOf p).isNone with
    | some p => e.release p.1 p.2
    | none => e.stallTest cands
  else e

/-! ### Entry into settled IDLE and the ends of a run -/

/-- An entry into settled IDLE (R160), from the mode before it. -/
def Ev.enterIdle (cause : ModeCause) (e : Ev) : Ev :=
  let previous := e.rcu.mode
  let e := e.onRcu fun r => { r with mode := .idle, deploy := false, haltPending := false }
  ((e.flush.saveHealth).modeReport cause previous).calResume

/-- The station is complete (R47). -/
def State.stationComplete (s : State) : Bool := s.rsl.active.isNone && s.trainEmpty

/-- The station completion test (R47, R168). -/
def Ev.stationTest (e : Ev) : Ev :=
  if e.running && e.stationComplete then
    (e.report (.station e.rcu.station (e.countStation fun en => en.state == .placed)
      (e.countStation fun en => en.state == .skipped))).enterIdle .station
  else e

/-- A selection (R42). -/
def Ev.runSelection (e : Ev) : Ev := e.selectRelease.stationTest

/-- The test for the end of draining (R168). -/
def Ev.drainTest (e : Ev) : Ev :=
  if e.rcu.mode == .draining && e.trainEmpty && e.hsq.atReceive then e.enterIdle .drained else e

/-! ### The end of an event -/

/-- Runs a test when it has been prompted. -/
def Ev.whenDue (due : Bool) (test : Ev → Ev) (e : Ev) : Ev := if due then test e else e

/-- The prompted tests, once the event's own changes are all made: the head's retest (R128), the transfers (R79), the
selection (R43), the end of draining (R168). -/
def Ev.finish (e : Ev) : Ev :=
  let e := e.whenDue e.retestDue Ev.retestPress
  let e := e.whenDue e.xferDue Ev.runTransfers
  let e := e.whenDue e.selDue Ev.runSelection
  e.whenDue e.drainDue Ev.drainTest

/-- One event: its changes, then the tests they prompt (R56). -/
def event (f : Ev → Ev) (s : State) : State := (f (Ev.start s)).finish.toState

/-- The mode has entered LAYING or DRAINING: the work due and the head; then, once these changes are made, the transfers
(R79), a selection and the test for the end of draining (R165, R166). DESIGN CHOICE, unsafe (log entry 30): of the work due,
CUT for berth 1 goes out before GLUE for berth 2. DESIGN CHOICE, unsafe (log entry 33): the head resumes before the transfer
test, so where its bin claim is refused the mode is HOLDING again and no MOVE goes out. -/
def Ev.modeEntered (e : Ev) : Ev :=
  (((e.resumeWork 1).resumeWork 2).headResume).promptXfer.promptSel.promptDrain

/-- The hold-reason set once an entry into LAYING or DRAINING has made all its changes: a refused bin claim adds BIN_FULL
(R88, R161). -/
def State.holdsOnEntry (s : State) : HoldSet := if s.binRefuses then s.rcu.holds.put .binFull true else s.rcu.holds

/-- Queues the MODE report of an entry into LAYING or DRAINING, before the entry acts: its hold-reason set is the one after
all of the event's changes (R161, R165, R166). -/
def Ev.entryReport (cause : ModeCause) (previous : Mode) (e : Ev) : Ev :=
  e.report (.mode e.rcu.mode previous e.rcu.deploy cause e.holdsOnEntry e.rcu.haltPending e.rcu.stranded)

end Sys2Proof.Machine
end

