-- ==== Sys2Proof/Machine/Loop.lean ====
section
/-! DEFINITION. The Station Loop's incoming side: how an order ends and who takes the ending (R55 to R65), the
completions, the bytes of loop receive, and the orders' timers. -/

namespace Sys2Proof.Machine

/-- A fault code (R62). -/
inductive FaultCode where
  | empty | blade | nozzle | blocked | slip | limit | other | timeout
  deriving DecidableEq, Repr

/-- A fault code byte; a code outside the table is OTHER (R204). -/
def FaultCode.ofByte (b : Byte) : FaultCode :=
  match b.toNat with
  | 1 => .empty | 2 => .blade | 3 => .nozzle | 4 => .blocked | 5 => .slip | 6 => .limit | _ => .other

/-- How an order ends (R56). -/
inductive Ending where
  | done
  | fault (code : FaultCode)
  | cutoff
  deriving DecidableEq, Repr

/-! ### Endings for Run Control -/

/-- The ending of DEPLOY (R165). -/
def Ev.deployEnd (x : Ending) (e : Ev) : Ev :=
  match x with
  | .done =>
    let previous := e.rcu.mode
    ((e.onRcu fun r => { r with deploy := false, mode := .laying }).entryReport .deploy previous).modeEntered
  | .fault _ | .cutoff => e.enterIdle .deployFault

/-- The ending of FOLD (R172). -/
def Ev.foldEnd (x : Ending) (e : Ev) : Ev :=
  match x with
  | .done =>
    let previous := e.rcu.mode
    (e.onRcu fun r => { r with mode := .stowed }).modeReport .fold previous
  | .fault _ | .cutoff => e.enterIdle .foldFault

/-! ### Every ending -/

/-- The ending of a SLEW the head asked for, by the head state that waits for it (R122, R138, R64). -/
def Ev.headSlewEnd (x : Ending) (e : Ev) : Ev :=
  match x with
  | .done =>
    match e.hsq.head with
    | .approaching => e.approachEnd
    | .retracting => e.vacantAtReceive
    | .vacant | .gripping | .settling | .gustHold | .lockHold | .readyToPress | .pressing | .measuring | .releasing
    | .dumping => e
  | .fault _ | .cutoff => e.headJam

/-- Hands an ending, under the kind the record holds, to the block that asked for the order (R56, R63 to R65). -/
def Ev.handOn (unit : Nat) (o : Order) (requester : Requester) (x : Ending) (e : Ev) : Ev :=
  match o, x with
  | .load _, .done => e.loadEnd
  | .load lane, .fault .empty => e.loadEmptyEnd lane
  | .load _, _ => e.loadJam
  | .cut _, .done => e.cutEnd
  | .cut _, _ => e.cutFail
  | .glue _, .done => e.glueEnd
  | .glue _, _ => e.glueFail
  | .move, .done => e.moveEnd (unit - xferUnit 0)
  | .move, _ => e.moveJam (unit - xferUnit 0)
  | .slew _ _, x =>
    match requester with
    | .dfu => match x with
      | .done => e.calSlewDone
      | .fault _ | .cutoff => e.calSlewFault
    | .rsl | .btc | .hsq | .rcu => e.headSlewEnd x
  | .deploy, x => e.deployEnd x
  | .fold, x => e.foldEnd x
  | .trim .., x => e.trimEnd (x != .done)
  | .take, .done => e.takeEnd
  | .take, .fault .slip => e.slipEnd
  | .take, _ => e.headJam
  | .openGrip, .done => e.openEnd
  | .openGrip, _ => e.headJam
  | .press, .done => e.afterPress
  | .press, .cutoff => e.pressCutoff
  | .press, .fault _ => e.headJam
  | .dump, .done => e.dumpEnd
  | .dump, _ => e.headJam

/-- An order ends: its record is cleared, the ending handed on, and a BOOM request that waits is sent (R56). -/
def Ev.endOrder (unit : Nat) (r : InFlight) (x : Ending) (e : Ev) : Ev :=
  let e := (e.onSli fun l => { l with inFlight := Table.strike l.inFlight unit }).handOn unit r.order r.requester x
  if unit = boomUnit then e.sendWaiting else e

/-- The ending a completion's result and fault code spell: a result that is neither 0 nor 1 is a FAULT (R55). -/
def Ending.ofBytes (result code : Byte) : Ending := if result = 0 then .done else .fault (.ofByte code)

/-- A completion that has arrived whole: matched by its tag with the unit's record, or stale (R55). -/
def Ev.takeCompletion (unit : Nat) (tag result code : Byte) (e : Ev) : Ev :=
  match e.flight unit with
  | none => e.countStale
  | some r => if r.tag = tag then e.endOrder unit r (.ofBytes result code) else e.countStale

/-- One completion as one event. -/
def completion (unit : Nat) (tag result code : Byte) (s : State) : State :=
  event (Ev.takeCompletion unit tag result code) s

/-! ### Bytes of loop receive -/

/-- A completion frame's seven bytes: one that fails its check, or names a unit above 16, is counted stale (R55). -/
def Ev.takeCompletionFrame (bytes : List Byte) (e : Ev) : Ev :=
  let body := (bytes.drop 1).take 4
  match body with
  | [unit, tag, result, code] =>
    if crc16 body = unle (bytes.drop 5) ∧ unit.toNat ≤ 16 then e.takeCompletion unit.toNat tag result code
    else e.countStale
  | _ => e.countStale

/-- The length of an order frame that has come back round the ring, once its parameter length is known (R205). -/
def orderFrameLength (bytes : List Byte) : Option Nat :=
  match bytes with
  | _ :: _ :: _ :: _ :: n :: _ => some (n.toNat + 7)
  | _ => none

/-- One byte of loop receive (R55). -/
def Ev.loopByte (b : Byte) (e : Ev) : Ev :=
  match e.sli.rx with
  | [] => if b = 0x3C ∨ b = 0xC3 then e.onSli fun l => { l with rx := [b] } else e
  | start :: rest =>
    let frame := start :: rest ++ [b]
    if start = 0x3C then
      if frame.length = 7 then (e.onSli fun l => { l with rx := [] }).takeCompletionFrame frame
      else e.onSli fun l => { l with rx := frame }
    else if orderFrameLength frame = some frame.length then e.onSli fun l => { l with rx := [] }
    else e.onSli fun l => { l with rx := frame }

/-- Bytes of loop receive, one event each. -/
def loopBytes (bytes : List Byte) (s : State) : State := bytes.foldl (fun s b => event (Ev.loopByte b) s) s

/-! ### Timers of orders -/

/-- The moment the timeout of a record runs out (R57); none for PRESS. -/
def InFlight.timeoutAt (r : InFlight) : Option Nat := r.order.timeout.map (r.sentAt + ·)

/-- The moment the press limit of a record runs out (R59); none for an order that is no PRESS. -/
def InFlight.limitAt (r : InFlight) : Option Nat := if r.order = .press then some (r.sentAt + Config.pressLimit) else none

/-- The timeout of the order in flight at a unit runs out (R57). -/
def orderTimesOut (unit : Nat) (s : State) : State :=
  match s.flight unit with
  | none => s
  | some r =>
    match r.timeoutAt with
    | none => s
    | some t => event (fun e => (e.until t).endOrder unit r (.fault .timeout)) s

/-- The press limit runs out: LIFT is sent, and the order ends as CUTOFF (R59). -/
def pressLimitEnds (s : State) : State :=
  match s.flight pressUnit with
  | none => s
  | some r =>
    match r.limitAt with
    | none => s
    | some t => event (fun e => ((e.until t).onLoopTx liftFrame).endOrder pressUnit r .cutoff) s

end Sys2Proof.Machine
end

