-- ==== Sys2Proof/Machine/Timers.lean ====
section
/-! DEFINITION. The timers of the train, the head and the Deflection Unit: each, when it runs, brings the clock to its
end and acts there; one that does not run has no end (log entry 8). -/

namespace Sys2Proof.Machine

/-- Fires a timer at a moment; a timer that does not run leaves the state as it is. -/
def fireAt (moment : Option Nat) (f : Ev → Ev) (s : State) : State :=
  match moment with
  | none => s
  | some t => event (fun e => f (e.until t)) s

/-- The glue deadline of the carrier in a berth (R82). -/
def State.deadlineOf (s : State) (b : Nat) : Option Nat :=
  match s.carrierAt b with
  | none => none
  | some c => c.deadline

/-- The end of the gust timer (R129). -/
def State.gustEnd (s : State) : Option Nat := s.hsq.gustTimer.map fun t => t.1 + t.2

/-- The end of the lock-hold timer (R132). -/
def State.lockHoldEnd (s : State) : Option Nat := s.hsq.lockHoldTimer.map (· + Config.lockHoldLimit)

/-- The end of the measuring timer (R136). -/
def State.measuringEnd (s : State) : Option Nat := s.hsq.measuringTimer.map (· + Config.measuringWait)

/-- The end of the press lockout (R136). -/
def State.lockoutEnd (s : State) : Option Nat := s.hsq.lockout.map (· + Config.pressLockout)

/-- The end of the point limit (R150). -/
def State.pointEnd (s : State) : Option Nat := s.dfu.limitTimer.map (· + Config.pointLimit)

/-- The end of the hold window (R112). -/
def State.windowEnd (s : State) : Option Nat := s.trk.window.map (· + Config.holdWindow)

/-- The gust timer reaches its limit (R130). -/
def Ev.gustOut (e : Ev) : Ev :=
  let e := e.onHsq fun h => { h with gustTimer := none }
  if e.hsq.head = .gustHold then (e.condemn 9 .settleFault).enterDumping else e

/-- The lock-hold timer reaches 5 s (R132). -/
def Ev.lockHoldOut (e : Ev) : Ev := (e.onHsq fun h => { h with lockHoldTimer := none }).raiseHold .link none

/-- The measuring timer runs out with no frame taken (R136). -/
def Ev.measuringOut (e : Ev) : Ev :=
  let e := e.onHsq fun h => { h with measuringTimer := none }
  if e.hsq.head = .measuring then
    (e.onHsq fun h => { h with outcome := { h.outcome with unverified := true } }).enterReleasing
  else e

/-- The press lockout ends: a head in READY_TO_PRESS is tested again (R128). -/
def Ev.lockoutOut (e : Ev) : Ev := (e.onHsq fun h => { h with lockout := none }).promptRetest

/-- The point limit runs out (R151). -/
def Ev.pointOut (e : Ev) : Ev := (e.onDfu fun d => { d with limitTimer := none }).failSampling .pointLimit

end Sys2Proof.Machine
end

