-- ==== Sys2Proof/Machine/Tracker.lean ====
section
/-! DEFINITION. The Tracker Receiver: the framer (R100 to R108) and the lock machine (R109 to R114). -/

namespace Sys2Proof.Machine

/-- The byte the framer sees: complemented while the latch is INVERTED (R100). -/
def Trk.decode (t : Trk) (b : Byte) : Byte := if t.inverted then ~~~b else b

/-- An idle byte under the latch (R100). -/
def Trk.isIdle (t : Trk) (b : Byte) : Bool := b == 0x55 || (!t.inverted && b == 0xAA)

/-- A byte taken in DISCARD: the second idle byte in a row ends it (R105). -/
def Trk.discardByte (b : Byte) (t : Trk) : Trk :=
  if t.isIdle b then
    if t.idleRun + 1 < 2 then { t with idleRun := t.idleRun + 1 } else { t with idleRun := 2, framing := .hunt }
  else { t with idleRun := 0 }

/-- A bad start: the count rises, and the byte is the first one taken in DISCARD (R103). DESIGN CHOICE, safe (log entry
34): the frame's bytes are emptied and its sense kept. -/
def Trk.badStart (b : Byte) (t : Trk) : Trk :=
  Trk.discardByte b { t with falseStarts := satUp t.falseStarts, framing := .discard, idleRun := 0, buffer := [] }

/-- A byte taken in HUNT (R103). -/
def Trk.huntByte (b : Byte) (t : Trk) : Trk :=
  if t.isIdle b then t
  else if b = 0xD3 then { t with framing := .collect, complemented := false, buffer := [b] }
  else if b = 0x2C ∧ t.inverted = false then { t with framing := .collect, complemented := true, buffer := [b] }
  else t.badStart b

/-- The second marker byte the sense asks for (R104). -/
def Trk.secondMarker (t : Trk) : Byte := if t.complemented then 0xD3 else 0x2C

/-- A frame's fields (R101). -/
structure PoseFrame where
  sequence : Word16
  pose : Pose
  quality : Nat
  deriving DecidableEq, Repr

/-- The fields of the 17 content bytes (R101, R204). -/
def PoseFrame.ofContent (c : List Byte) : PoseFrame :=
  let at_ (i n : Nat) := unle ((c.drop i).take n)
  { sequence := BitVec.ofNat 16 (at_ 0 2)
    pose := ⟨signedOf 32 (at_ 2 4), signedOf 32 (at_ 6 4), signedOf 32 (at_ 10 4), signedOf 16 (at_ 14 2)⟩
    quality := at_ 16 1 }

/-- The good-frame test on a frame that checks (R106). -/
def PoseFrame.good (f : PoseFrame) (floor : Nat) : Bool :=
  floor ≤ f.quality && -18000 ≤ f.pose.yaw && f.pose.yaw ≤ 17999

/-! ### The lock machine -/

/-- A good frame that counts toward acquisition (R109). -/
def Trk.acquire (f : PoseFrame) (t : Trk) : Trk :=
  { t with acquired := if t.acquired ≠ 0 ∧ t.expected = some f.sequence then t.acquired + 1 else 1,
           expected := some (f.sequence + 1) }

/-- Offers a frame to both readers (R113). -/
def Ev.offerFrame (f : PoseFrame) (e : Ev) : Ev := (e.offerToHead f.pose).offerToDfu f.pose

/-- Lock is gained (R110). -/
def Ev.gainLock (f : PoseFrame) (e : Ev) : Ev :=
  let e := e.onTrk fun t => { t with locked := true, windowCount := 0, window := some e.now }
  let e := e.report (.lock false f.sequence 0 e.trk.inverted)
  ((e.dropHold .link).headLockGained).offerFrame f

/-- A good frame at the lock machine (R109, R111). -/
def Ev.goodFrame (f : PoseFrame) (e : Ev) : Ev :=
  if e.trk.locked then
    (e.onTrk fun t =>
      { t with windowCount := if t.expected = some f.sequence then min 255 (t.windowCount + 1) else t.windowCount,
               expected := some (f.sequence + 1) }).offerFrame f
  else
    let e := e.onTrk (Trk.acquire f)
    if 8 ≤ e.trk.acquired then e.gainLock f else e

/-- A bad frame at the lock machine (R109, R111). -/
def Ev.badFrame (e : Ev) : Ev := e.onTrk fun t => if t.locked then t else { t with acquired := 0 }

/-- A frame of sense TRUE, complete at its check byte (R106). -/
def Ev.trueFrame (content : List Byte) (check : Byte) (e : Ev) : Ev :=
  let e := e.onTrk fun t => { t with polarityRun := 0 }
  if crc8 content = check then
    let f := PoseFrame.ofContent content
    if f.good e.scp.config.qualityFloor then e.goodFrame f else e.badFrame
  else (e.onTrk fun t => { t with frameErrors := satUp t.frameErrors }).badFrame

/-- A frame of sense COMPLEMENTED, complete at its check byte (R107, R108). -/
def Trk.complementedFrame (content : List Byte) (check : Byte) (t : Trk) : Trk :=
  if crc8 (content.map (~~~·)) = ~~~check then
    if t.polarityRun + 1 < 3 then { t with polarityRun := t.polarityRun + 1 }
    else { t with inverted := true, polarityRun := 0 }
  else { t with polarityRun := 0, frameErrors := satUp t.frameErrors }

/-- A frame of 20 bytes is complete: the framer returns to HUNT and tests it (R104). DESIGN CHOICE, safe (log entry 34):
the frame's bytes are emptied and its sense kept. -/
def Ev.closeFrame (frame : List Byte) (e : Ev) : Ev :=
  let content := (frame.drop 2).take 17
  let check := frame.getD 19 0
  let e := e.onTrk fun t => { t with framing := .hunt, buffer := [] }
  if e.trk.complemented then e.onTrk (Trk.complementedFrame content check) else e.trueFrame content check

/-- A byte taken in COLLECT (R104). -/
def Ev.collectByte (b : Byte) (e : Ev) : Ev :=
  let frame := e.trk.buffer ++ [b]
  if frame.length = 2 ∧ b ≠ e.trk.secondMarker then e.onTrk (Trk.badStart b)
  else if frame.length < 20 then e.onTrk fun t => { t with buffer := frame }
  else e.closeFrame frame

/-- One byte of the tracker line (R100). -/
def Ev.trackerByte (raw : Byte) (e : Ev) : Ev :=
  let b := e.trk.decode raw
  match e.trk.framing with
  | .hunt => e.onTrk (Trk.huntByte b)
  | .collect => e.collectByte b
  | .discard => e.onTrk (Trk.discardByte b)

/-- Bytes of the tracker line, one event each. -/
def trackerBytes (bytes : List Byte) (s : State) : State := bytes.foldl (fun s b => event (Ev.trackerByte b) s) s

/-- Lock is lost at the end of a hold window (R112, R114); the loss is counted after the LOCK report (R178). -/
def Ev.loseLock (e : Ev) : Ev :=
  let report := Report.lock true (e.trk.expected.getD 0) e.trk.windowCount e.trk.inverted
  let e := e.onTrk fun t => { t with locked := false, acquired := 0, window := none }
  (((e.report report).countWear .lockLosses).headLockLost).failSampling .lockLost

/-- A hold window ends (R112): lock is kept and the next window starts at the same moment, or it is lost. -/
def Ev.windowOut (e : Ev) : Ev :=
  if 6 ≤ e.trk.windowCount then
    e.onTrk fun t => { t with windowCount := 0, window := t.window.map (· + Config.holdWindow) }
  else e.loseLock

end Sys2Proof.Machine
end

