-- ==== Sys2Proof/Machine/Port.lean ====
section
/-! DEFINITION. The Site Command Port's receiver and queues (R189 to R194), and how a command is taken from the command
queue (R192, log entry 6). -/

namespace Sys2Proof.Machine

/-! ### The receiver -/

/-- A frame is in progress (R190: from the A5h byte up to the last check byte). -/
def Scp.inFrame (p : Scp) : Bool := p.rx != .hunt

/-- A receive error: the count rises, and hunting restarts (R190). -/
def Scp.frameError (p : Scp) : Scp := { p with rx := .hunt, rxBytes := [], frameErrors := satUp p.frameErrors }

/-- A good frame offered to the command queue (R191): it joins the queue, or is answered BUSY, or is an overrun
(R190). -/
def Scp.offer (c : HostCommand) (p : Scp) : Scp :=
  if p.commands.length < Config.commandPlaces then { p with commands := p.commands ++ [c] }
  else if p.outbound.length < Config.outboundPlaces then p.pushReply c.kind c.tag .busy []
  else { p with frameErrors := satUp p.frameErrors }

/-- The two length bytes as a number (R189). -/
def frameLength (bytes : List Byte) : Nat := unle (bytes.take 2)

/-- A frame complete with its check bytes (R189). -/
def Scp.closeFrame (bytes : List Byte) (p : Scp) : Scp :=
  let n := frameLength bytes
  let covered := bytes.take (n + 2)
  let p := { p with rx := .hunt, rxBytes := [] }
  if crc16 covered = unle (bytes.drop (n + 2)) then
    match covered.drop 2 with
    | kind :: tag :: payload => p.offer ⟨kind, tag, payload⟩
    | _ => p
  else p.frameError

/-- A byte taken by the receiver, the gap rule aside (R189). -/
def Scp.takeByte (now : Nat) (b : Byte) (p : Scp) : Scp :=
  let bytes := p.rxBytes ++ [b]
  let p := { p with rxLast := now }
  match p.rx with
  | .hunt => if b = 0xA5 then { p with rx := .length, rxBytes := [] } else p
  | .length =>
    if bytes.length < 2 then { p with rxBytes := bytes }
    else
      let n := frameLength bytes
      if 2 ≤ n ∧ n ≤ 1026 then { p with rx := .body, rxBytes := bytes } else p.frameError
  | .body =>
    if bytes.length < frameLength bytes + 2 then { p with rxBytes := bytes }
    else { p with rx := .check, rxBytes := bytes }
  | .check =>
    if bytes.length < frameLength bytes + 4 then { p with rxBytes := bytes } else p.closeFrame bytes

/-- A byte of the host line: after more than 20 ms inside a frame it ends the gap, and hunting restarts with it
(R190). The gap error is counted, and HUNT entered, when that byte comes, not as the 20 ms run out: the spec leaves the
moment open (DESIGN CHOICE, log entry 28). -/
def Scp.hostByte (now : Nat) (b : Byte) (p : Scp) : Scp :=
  if p.inFrame && p.rxLast + Config.hostGap < now then (p.frameError).takeByte now b else p.takeByte now b

/-- One byte of the host line. -/
def Ev.hostByte (b : Byte) (e : Ev) : Ev := e.onScp (Scp.hostByte e.now b)

/-- Bytes of the host line, one event each. -/
def hostBytes (bytes : List Byte) (s : State) : State := bytes.foldl (fun s b => event (Ev.hostByte b) s) s

/-- More than 20 ms pass inside a frame: the clock goes past the gap (R190). With no frame in progress there is no gap
rule, and nothing changes. -/
def waitGap (s : State) : State :=
  if s.scp.inFrame then event (Ev.until (s.scp.rxLast + Config.hostGap + 1)) s else s

/-- The last byte of the oldest outbound message has been sent: its place is free (R194). -/
def Ev.messageSent (e : Ev) : Ev :=
  match e.scp.outbound with
  | [] => e
  | m :: rest => (e.onScp fun p => { p with outbound := rest }).onHostTx m.bytes

/-! ### Taking a command -/

/-- A reply place is free, so a command may be taken (R192). -/
def State.replyPlace (s : State) : Bool := s.scp.outbound.length < Config.outboundPlaces

/-- The command's turn has come: it is the oldest one of the command queue, or the queue is empty (log entry 6). -/
def State.isNext (s : State) (c : HostCommand) : Bool := s.scp.commands.isEmpty || s.scp.commands.head? == some c

/-- Takes a command from the command queue and runs it, its reply due (R192, R194). -/
def Ev.take (run : Ev → Ev) (e : Ev) : Ev :=
  run { (e.onScp fun p => { p with commands := p.commands.tail }) with replyDue := true }

/-- A command row (log entry 6): the command is taken when its turn has come and a reply place is free. A command
whose turn has not come is a good frame arriving behind others, and is offered to the command queue; the oldest
command of the queue waits for a reply place where it stands. -/
def takeHost (c : HostCommand) (run : Ev → Ev) (s : State) : State :=
  if s.isNext c && s.replyPlace then event (Ev.take run) s
  else if s.scp.commands.head? == some c then s
  else event (Ev.onScp (Scp.offer c)) s

/-! ### Payloads and statuses -/

/-- A reply without results. -/
def Ev.refuse (c : HostCommand) (st : Status) (e : Ev) : Ev := e.reply c st []

end Sys2Proof.Machine
end

