-- ==== Sys2Proof/Machine/PlanCommands.lean ====
section
/-! DEFINITION. The plan commands: partition, classes, lanes, ceiling, loading and reading, marks, rearming and station
advance (01_the_plan_table.md). Each runs once its command is taken, and queues its one reply. -/

namespace Sys2Proof.Machine

/-! ### PART, CLS, LANE -/

/-- The checks of PART in their order (R2). -/
def Pls.partStatus (p : Pls) (l n t : Nat) : Status :=
  if !p.plan.isEmpty then .state
  else if 256 < l ∨ 256 < t ∨ n < 64 then .range
  else if l + n + t ≠ 1024 then .sum
  else .ok

/-- PART (R2). -/
def Ev.runPart (c : HostCommand) (e : Ev) : Ev :=
  if !e.settledIdle then e.refuse c .mode
  else if c.payload.length < 6 then e.refuse c .range
  else
    let l := u16At c.payload 0
    let n := u16At c.payload 2
    let t := u16At c.payload 4
    let st := e.pls.partStatus l n t
    if st = .ok then
      (e.onPls fun p => { p with lead := l, run := n, tail := t, ringHead := 0, ringCount := 0 }).reply c .ok []
    else e.refuse c st

/-- A class record conflicts with the plan (R10). -/
def Pls.classConflict (p : Pls) (index : Nat) (r : ClassRecord) : Bool :=
  p.plan.any fun s =>
    s.2.cls == index && s.2.state.open
      && (!r.defined || (!r.cuttable && s.2.cut.isSome) || match s.2.cut with
          | none => false
          | some n => !(n < r.length))

/-- The checks on one class record (R9). -/
def Pls.classStatus (p : Pls) (index : Nat) (r : ClassRecord) : Status :=
  let size (n : Nat) : Bool := 200 ≤ n && n ≤ 6000
  if 31 < index then .range
  else if !(size r.length && size r.width && size r.height && r.width ≤ r.length && r.lane ≤ 7 && 1 ≤ r.glue
      && r.glue ≤ 3) then .range
  else if p.classConflict index r then .cls
  else .ok

/-- The walk of CLS: the records are written until one fails; the count so far and the status (R9). -/
def Pls.writeClasses : List ClassRecord → Nat → Nat → Pls → Pls × Nat × Status
  | [], _, count, p => (p, count, .ok)
  | r :: rs, index, count, p =>
    let st := p.classStatus index r
    if st = .ok then
      Pls.writeClasses rs (index + 1) (count + 1) { p with classes := Table.writeD p.classes index r .blank }
    else (p, count, st)

/-- CLS (R9). The count goes with OK and the walk's statuses. DESIGN CHOICE, unsafe (log entry 29): a CLS refused with MODE,
which R9 names too, carries no count. -/
def Ev.runCls (c : HostCommand) (e : Ev) : Ev :=
  if !e.settledIdle then e.refuse c .mode
  else if c.payload.length < 1 then e.reply c .range [0]
  else
    let start := byteAt c.payload 0
    if 31 < start then e.reply c .range [0]
    else
      let records := (completeItems 10 (c.payload.drop 1)).map ClassRecord.ofBytes
      let w := e.pls.writeClasses records start 0
      (e.onPls fun _ => w.1).reply c w.2.2 [byte w.2.1]

/-- LANE (R12): the stock, the lane's starved latch, and a selection. -/
def Ev.runLane (c : HostCommand) (e : Ev) : Ev :=
  if e.rcu.mode = .stowed then e.refuse c .mode
  else if c.payload.length < 3 then e.refuse c .range
  else
    let lane := byteAt c.payload 0
    let count := u16At c.payload 1
    if 7 < lane ∨ 999 < count then e.refuse c .range
    else
      let e := e.onPls fun p => { p with stocks := Table.writeD p.stocks lane count 0 }
      let e := e.onRsl fun r => { r with starved := setDrop r.starved lane }
      (e.promptSel).reply c .ok []

/-! ### The ceiling -/

/-- CEILQ (R14). -/
def Ev.runCeilq (c : HostCommand) (e : Ev) : Ev := e.reply c .ok [byte Config.nativeCeiling, byte e.pls.ceiling]

/-- The kind byte of CEILQ (R205). -/
def ceilqKind : Byte := 0x13

/-- CEIL in its set form (R15). -/
def Ev.runCeilSetForm (c : HostCommand) (e : Ev) : Ev :=
  let value := byteAt c.payload 0
  if e.pls.frozen then e.refuse c .frozen
  else if Config.nativeCeiling < value then e.refuse c .range
  else
    (e.onPls fun p =>
      { p with ceiling := value, storedCeiling := if flagAt c.payload 1 then some value else none }).reply c .ok
      [byte value]

/-- CEIL in its lock form (R16). -/
def Ev.runCeilLockForm (c : HostCommand) (e : Ev) : Ev :=
  if byteAt c.payload 2 = 1 then (e.onPls fun p => { p with frozen := true }).reply c .ok []
  else e.refuse c .sequence

/-- CEIL: the previous-command marker chooses the form (R15, R16). -/
def Ev.runCeil (c : HostCommand) (e : Ev) : Ev :=
  if !e.settledIdle then e.refuse c .mode
  else if c.payload.length < 3 then e.refuse c .range
  else if e.rcu.marker = some ceilqKind then e.runCeilSetForm c
  else e.runCeilLockForm c

/-! ### Loading and reading -/

/-- A bearer slot fits an entry (R18, check 5). -/
def Pls.bearerFits (p : Pls) (f : EntryFields) (self slot : Nat) : Bool :=
  slot < 1024 && slot != self && match Table.read p.plan slot with
    | none => false
    | some b => b.station == f.station && b.course + 1 == f.course

/-- No number stands twice in a list. -/
def distinct : List Nat → Bool
  | [] => true
  | n :: ns => !ns.contains n && distinct ns

/-- A given cut length is outside 400 to the class length less one (R18, check 4). -/
def EntryFields.cutOutside (f : EntryFields) (cls : ClassRecord) : Bool :=
  match f.cut with
  | none => false
  | some n => n < 400 || cls.length ≤ n

/-- The checks on an entry to be written into a slot (R18). -/
def Pls.entryStatus (p : Pls) (slot : Nat) (f : EntryFields) : Status :=
  let cls := Table.readD p.classes f.cls .blank
  if 63 < f.station ∨ 255 < f.course ∨ 4095 < f.seq ∨ f.target.yaw < -18000 ∨ 17999 < f.target.yaw
      ∨ 3 < f.bearerCount then .range
  else if !cls.defined then .cls
  else if f.cut.isSome ∧ cls.cuttable = false then .cls
  else if f.cutOutside cls then .range
  else if !(f.bearers.all (p.bearerFits f slot) && distinct f.bearers) then .bearer
  else .ok

/-- Writes an entry into a slot and queues its SKIPPED report where it is skipped at once (R19). -/
def Ev.writeEntry (slot : Nat) (f : EntryFields) (e : Ev) : Ev :=
  let e := (e.onPls fun p => { p with plan := Table.write p.plan slot f.entry }).noteChange slot f.station
  if f.marks.skip then e.report (.skipped [slot]) else e

/-- The walk of PAP: entries join the ring until one fails; the count so far and the status (R20). -/
def Ev.appendEntries : List EntryFields → Nat → Ev → Ev × Nat × Status
  | [], count, e => (e, count, .ok)
  | f :: fs, count, e =>
    let slot := e.pls.ringSlot e.pls.ringCount
    let st := e.pls.entryStatus slot f
    if st = .ok then
      Ev.appendEntries fs (count + 1) ((e.writeEntry slot f).onPls fun p => { p with ringCount := p.ringCount + 1 })
    else (e, count, st)

/-- PAP (R20). The active course is read again once all entries are written (log entry 9). The count goes with OK, FULL and
the walk's statuses. DESIGN CHOICE, unsafe (log entry 29): a PAP refused with MODE, which R20 names too, carries no
count. -/
def Ev.runPap (c : HostCommand) (e : Ev) : Ev :=
  if e.rcu.mode = .stowed then e.refuse c .mode
  else
    let entries := (completeItems 29 c.payload).map EntryFields.ofBytes
    if e.pls.run < e.pls.ringCount + entries.length then e.reply c .full (le 2 0)
    else
      let w := e.appendEntries entries 0
      (w.1.refreshCourse .event).reply c w.2.2 (le 2 w.2.1)

/-- Another occupied entry names the slot as a bearer (R21, check 5). -/
def Pls.namedByOther (p : Pls) (slot : Nat) : Bool := p.plan.any fun q => q.1 != slot && q.2.bearers.contains slot

/-- The slot does not stand open to a PLD: VACANT or PLANNED for Lead and Tail, PLANNED for Run (R21, check 3). -/
def Pls.pldBarred (p : Pls) (slot : Nat) : Bool :=
  match Table.read p.plan slot with
  | none => p.region slot == Region.run
  | some en => en.state != EntryState.planned

/-- The new entry would move an entry that others rest on (R21, check 5). -/
def Pls.pldMoves (p : Pls) (slot : Nat) (f : EntryFields) : Bool :=
  match Table.read p.plan slot with
  | none => false
  | some en => p.namedByOther slot && (en.station != f.station || en.course != f.course)

/-- The checks of PLD in their order (R21). -/
def Pls.pldStatus (p : Pls) (slot : Nat) (f : EntryFields) : Status :=
  if 1023 < slot then .range
  else if p.region slot = .run ∧ p.insideRing slot = false then .slot
  else if p.pldBarred slot then .state
  else if p.entryStatus slot f ≠ .ok then p.entryStatus slot f
  else if p.pldMoves slot f then .bearer
  else .ok

/-- PLD (R21). -/
def Ev.runPld (c : HostCommand) (e : Ev) : Ev :=
  if e.rcu.mode = .stowed then e.refuse c .mode
  else if c.payload.length < 31 then e.refuse c .range
  else
    let slot := u16At c.payload 0
    let f := EntryFields.ofBytes (c.payload.drop 2)
    let st := e.pls.pldStatus slot f
    if st = .ok then ((e.writeEntry slot f).refreshCourse .event).reply c .ok [] else e.refuse c st

/-- One slot of a PRD reply: the slot, its region and the 46 bytes of its entry (R22, R205). -/
def Pls.slotBytes (p : Pls) (slot : Nat) : List Byte :=
  le 2 slot ++ byte (p.region slot).code :: match Table.read p.plan slot with
    | none => vacantBytes
    | some en => en.bytes

/-- PRD (R22). -/
def Ev.runPrd (c : HostCommand) (e : Ev) : Ev :=
  if c.payload.length < 3 then e.refuse c .range
  else
    let first := u16At c.payload 0
    let count := byteAt c.payload 2
    if count < 1 ∨ 16 < count ∨ 1023 < first ∨ 1024 < first + count then e.refuse c .range
    else e.reply c .ok ((List.range count).flatMap fun i => e.pls.slotBytes (first + i))

/-! ### Marks and rearming -/

/-- One mark under a function: the mark's bit of the pattern, whether the mask names it, its value before (R24). -/
def MarkFunction.apply (g : MarkFunction) (named pattern old : Bool) : Bool :=
  if !named then old
  else match g with
    | .write => pattern
    | .set => true
    | .clear => false
    | .toggle => !old

/-- The operands of MARK (R23). -/
structure MarkOp where
  first : Nat
  last : Nat
  cls : Nat
  dontCare : Nat
  mask : Marks
  pattern : Marks
  function : MarkFunction
  deriving DecidableEq, Repr

/-- The class agrees in every class bit the don't-care mask does not set (R23). -/
def MarkOp.classMatches (m : MarkOp) (cls : Nat) : Bool :=
  (List.range 5).all fun i => m.dontCare.testBit i || m.cls.testBit i == cls.testBit i

/-- An occupied slot matches (R23). -/
def MarkOp.hits (m : MarkOp) (p : Nat × Entry) : Bool :=
  m.first ≤ p.1 && p.1 ≤ m.last && m.classMatches p.2.cls

/-- The marks after the operation (R24). -/
def MarkOp.marks (m : MarkOp) (old : Marks) : Marks :=
  { hold := m.function.apply m.mask.hold m.pattern.hold old.hold
    skip := m.function.apply m.mask.skip m.pattern.skip old.skip
    inspect := m.function.apply m.mask.inspect m.pattern.inspect old.inspect }

/-- The operation skips the entry: its mask names SKIP, leaves it set, and the entry is PLANNED or FAULTED (R25). -/
def MarkOp.skips (m : MarkOp) (en : Entry) : Bool := m.mask.skip && (m.marks en.marks).skip && en.state.open

/-- The entry after the operation (R24, R25). -/
def MarkOp.mark (m : MarkOp) (p : Nat × Entry) : Nat × Entry :=
  if m.hits p then
    (p.1, { p.2 with marks := m.marks p.2.marks, state := if m.skips p.2 then .skipped else p.2.state })
  else p

/-- The operation changes a mark of a PLANNED entry (R26, R43). -/
def MarkOp.touches (m : MarkOp) (p : Nat × Entry) : Bool :=
  m.hits p && p.2.state == .planned && decide (m.marks p.2.marks ≠ p.2.marks)

/-- Notes the change of each skipped entry. -/
def Ev.noteSkips (ps : Table Entry) (e : Ev) : Ev := ps.foldl (fun e p => e.noteChange p.1 p.2.station) e

/-- The effects of MARK (R24 to R26): the marks, the SKIPPED reports in groups of 64, then the course state. -/
def Ev.applyMark (m : MarkOp) (e : Ev) : Ev :=
  let plan := e.pls.plan
  let skipped := plan.filter fun p => m.hits p && m.skips p.2
  let e := e.onPls fun p => { p with plan := plan.map m.mark }
  let e := if plan.any m.touches then e.promptSel else e
  let e := e.noteSkips skipped
  (e.reports ((groupsOf64 (skipped.map (·.1))).map Report.skipped)).refreshCourse .event

/-- MARK (R23). -/
def Ev.runMark (c : HostCommand) (e : Ev) : Ev :=
  let p := c.payload
  if e.rcu.mode = .stowed then e.refuse c .mode
  else if p.length < 9 then e.refuse c .range
  else
    match MarkFunction.ofByte (byteAt p 8) with
    | none => e.refuse c .range
    | some g =>
      let m : MarkOp :=
        { first := u16At p 0, last := u16At p 2, cls := byteAt p 4, dontCare := byteAt p 5,
          mask := .ofByte (byteAt p 6), pattern := .ofByte (byteAt p 7), function := g }
      if 1023 < m.first ∨ 1023 < m.last ∨ m.last < m.first ∨ 31 < m.cls then e.refuse c .range
      else
        let matched := (e.pls.plan.filter m.hits).length
        (e.applyMark m).reply c .ok (le 2 matched)

/-- REARM (R27). -/
def Ev.runRearm (c : HostCommand) (e : Ev) : Ev :=
  if e.rcu.mode = .stowed then e.refuse c .mode
  else if c.payload.length < 2 then e.refuse c .range
  else
    let slot := u16At c.payload 0
    if 1023 < slot then e.refuse c .range
    else
      match e.entryAt slot with
      | none => e.refuse c .state
      | some en =>
        if en.state = .faulted then
          (((e.changeEntry slot fun en => { en with state := .planned, rejects := 0 }).refreshCourse .event).promptSel).reply
            c .ok []
        else e.refuse c .state

/-! ### Station advance -/

/-- The waiving of ADV: every PLANNED and FAULTED entry of the station becomes WAIVED (R28). -/
def waiveEntry (station : Nat) (p : Nat × Entry) : Nat × Entry :=
  if p.2.station = station ∧ p.2.state.open = true then (p.1, { p.2 with state := .waived }) else p

/-- A Lead or Tail entry of the old station that is resolved: it is vacated (R29). -/
def Pls.retires (p : Pls) (station : Nat) (q : Nat × Entry) : Bool :=
  p.region q.1 != .run && q.2.station == station && q.2.state.resolved

/-- The walk along the Run ring from its head, at most `n` slots (R29). -/
def Pls.retireRing : Nat → Pls → Pls × List Nat
  | 0, p => (p, [])
  | n + 1, p =>
    if p.ringCount = 0 then (p, [])
    else
      let slot := p.ringSlot 0
      match Table.read p.plan slot with
      | none => (p, [])
      | some en =>
        if en.state.resolved then
          let w := Pls.retireRing n
            { p with plan := Table.strike p.plan slot, ringHead := (p.ringHead + 1) % p.run,
                     ringCount := p.ringCount - 1 }
          (w.1, slot :: w.2)
        else (p, [])

/-- Strikes vacated slots from the bearer lists (R7). -/
def strikeBearers (vacated : List Nat) (p : Nat × Entry) : Nat × Entry :=
  (p.1, { p.2 with bearers := p.2.bearers.filter fun b => !vacated.contains b })

/-- Retirement (R29): the Plan Store after it, and the vacated slots. -/
def Pls.retire (station : Nat) (p : Pls) : Pls × List Nat :=
  let first := (p.plan.filter (p.retires station)).map (·.1)
  let w := Pls.retireRing p.ringCount { p with plan := p.plan.filter fun q => !p.retires station q }
  let vacated := first ++ w.2
  ({ w.1 with plan := w.1.plan.map (strikeBearers vacated) }, vacated)

/-- ADV taken in settled IDLE, its checks passed (R28 to R30). -/
def Ev.advance (c : HostCommand) (e : Ev) : Ev :=
  let p := c.payload
  let old := e.rcu.station
  let waived := (e.pls.plan.filter fun q => q.2.station == old && q.2.state.open).map (·.1)
  let e := e.onPls fun s => { s with plan := s.plan.map (waiveEntry old) }
  let e := e.reports ((groupsOf64 waived).map Report.waived)
  let w := e.pls.retire old
  let e := e.onPls fun _ => { w.1 with latches := [] }
  let e := e.onRcu fun r =>
    { r with station := byteAt p 0, baseX := s32At p 1, baseY := s32At p 5, baseZ := s32At p 9 }
  let e := (e.refreshCourse .adv).withRate .adv fun e => e.onHsq fun h => { h with gustReduced := false }
  e.reply c .ok (le 2 waived.length ++ le 2 w.2.length)

/-- ADV (R28). -/
def Ev.runAdv (c : HostCommand) (e : Ev) : Ev :=
  if !e.settledIdle then e.refuse c .mode
  else if c.payload.length < 14 then e.refuse c .range
  else if 63 < byteAt c.payload 0 then e.refuse c .range
  else
    let unresolved := e.countStation fun en => en.state.open
    if unresolved ≠ 0 ∧ flagAt c.payload 13 = false then e.reply c .unresolved (le 2 unresolved)
    else e.advance c

end Sys2Proof.Machine
end

