-- ==== Sys2Proof/Machine/RunCommands.lean ====
section
/-! DEFINITION. The mode commands, the bin, calibration and the soft reset (08_operating_modes_and_holds.md,
07_boom_deflection_calibration.md). -/

namespace Sys2Proof.Machine

/-- The inspect list in a reply: its count and its first 16 slots, 0 past the count (R193, R206). -/
def inspectBytes (l : List Nat) : List Byte :=
  le 2 l.length ++ (List.range 16).flatMap fun i => le 2 (l.getD i 0)

/-! ### GO, HALT, ABORT -/

/-- GO in settled IDLE (R164). -/
def Ev.goIdle (c : HostCommand) (e : Ev) : Ev :=
  let worn := e.crossedOf [.glueFaults, .pressCutoffs]
  if !e.dfu.valid then e.refuse c .notCalibrated
  else if !worn.isEmpty then e.reply c .worn [attrSetByte worn]
  else (((e.onRcu fun r => { r with deploy := true }).onDfu Dfu.suspend).askBoom .deploy).reply c .ok []

/-- GO in HOLDING (R166): the entry into LAYING or DRAINING acts once the reply is queued. -/
def Ev.goHolding (c : HostCommand) (e : Ev) : Ev :=
  if e.rcu.holds ≠ .none then e.reply c .held (byte e.rcu.holds.code :: inspectBytes e.rcu.inspects)
  else
    let previous := e.rcu.mode
    let e := e.onRcu fun r =>
      { r with mode := if r.haltPending then .draining else .laying, haltPending := false }
    ((e.entryReport .go previous).reply c .ok []).modeEntered

/-- GO (R164, R166, R175). -/
def Ev.runGo (c : HostCommand) (e : Ev) : Ev :=
  match e.rcu.mode with
  | .idle => if e.rcu.deploy then e.reply c .ok [] else e.goIdle c
  | .laying | .draining => e.reply c .ok []
  | .holding => e.goHolding c
  | .aborted | .stowing | .stowed => e.refuse c .mode

/-- HALT (R167). -/
def Ev.runHalt (c : HostCommand) (e : Ev) : Ev :=
  match e.rcu.mode with
  | .laying =>
    let previous := e.rcu.mode
    let e := e.onRcu fun r => { r with mode := .draining }
    ((e.flush.modeReport .halt previous).reply c .ok []).promptSel.promptDrain
  | .holding => (e.onRcu fun r => { r with haltPending := true }).reply c .ok []
  | .idle | .draining | .aborted | .stowing | .stowed => e.reply c .ok []

/-- The head as ABORT leaves it (R169). -/
def Hsq.aborted (h : Hsq) : Hsq :=
  { h with head := .vacant, carrier := none, orderSent := false, dumpPending := false, atReceive := false,
           settleCount := 0, gustTimer := none, lockHoldTimer := none, measuringTimer := none }

/-- The run is dropped where it stands (R169). -/
def Ev.abortRun (e : Ev) : Ev :=
  let previous := e.rcu.mode
  let e := ((e.flush.stop).dropTrain).onHsq Hsq.aborted
  let e := e.refreshCourse .event
  (e.onRcu fun r => { r with holds := .none, inspects := [], haltPending := false, mode := .aborted }).modeReport .abort
    previous

/-- ABORT (R169). -/
def Ev.runAbort (c : HostCommand) (e : Ev) : Ev :=
  match e.rcu.mode with
  | .laying | .holding | .draining => e.abortRun.reply c .ok []
  | .idle | .aborted | .stowing | .stowed => e.reply c .ok []

/-! ### CLEAR, ACCEPT, STOW, BIN -/

/-- The effects of CLEAR on berths that pass its checks (R170). -/
def Ev.clearBerths (berths : List Nat) (e : Ev) : Ev :=
  let e := if e.rcu.stranded.any fun b => b == 0 && berths.contains b then e.promptSel else e
  let e := e.onRcu fun r => { r with stranded := r.stranded.filter fun b => !berths.contains b }
  if e.rcu.stranded.isEmpty then
    if e.rcu.mode = .aborted then e.enterIdle .clear else e.dropHold .jam
  else e

/-- CLEAR (R170). -/
def Ev.runClear (c : HostCommand) (e : Ev) : Ev :=
  if e.rcu.mode ≠ .holding ∧ e.rcu.mode ≠ .aborted then e.refuse c .mode
  else
    match c.payload with
    | [] => e.refuse c .range
    | form :: rest =>
      let berths := rest.map (·.toNat)
      let cleared := if form = 1 then List.range 10 else berths
      if form ≠ 0 ∧ form ≠ 1 then e.refuse c .range
      else if form = 0 ∧ (10 < berths.length ∨ berths.any (9 < ·) = true) then e.refuse c .range
      else
        let e := e.clearBerths cleared
        e.reply c .ok (le 2 (bitSet e.rcu.stranded))

/-- ACCEPT (R171). -/
def Ev.runAccept (c : HostCommand) (e : Ev) : Ev :=
  if e.rcu.mode ≠ .holding ∨ e.rcu.holds.inspect = false then e.refuse c .mode
  else if c.payload.length < 2 then e.refuse c .range
  else
    let slot := u16At c.payload 0
    if 1023 < slot then e.refuse c .range
    else if !e.rcu.inspects.contains slot then e.refuse c .state
    else
      let e := e.onRcu fun r => { r with inspects := r.inspects.filter (· != slot) }
      let e := if e.rcu.inspects.isEmpty then e.dropHold .inspect else e
      e.reply c .ok (le 2 e.rcu.inspects.length)

/-- The head at STOW (R144): VACANT already; its settle count, gust run, timers and outcome are cleared. -/
def Hsq.stowed (h : Hsq) : Hsq :=
  { h with orderSent := false, dumpPending := false, settleCount := 0, gustRun := 0, gustTimer := none,
           lockHoldTimer := none, measuringTimer := none, outcome := .clear }

/-- STOW (R172). -/
def Ev.runStow (c : HostCommand) (e : Ev) : Ev :=
  if !e.settledIdle then e.refuse c .mode
  else
    let previous := e.rcu.mode
    let e := (((e.saveHealth).onDfu Dfu.stow).onHsq Hsq.stowed).askBoom .fold
    ((e.onRcu fun r => { r with mode := .stowing }).modeReport .stow previous).reply c .ok []

/-- BIN (R90). -/
def Ev.runBin (c : HostCommand) (e : Ev) : Ev :=
  if e.rcu.mode = .stowed then e.refuse c .mode
  else ((e.onBtc fun t => { t with bin := 0 }).dropHold .binFull).reply c .ok []

/-! ### Calibration -/

/-- CAL start (R148): the reply is queued before the routine does anything. -/
def Ev.runCalStart (c : HostCommand) (e : Ev) : Ev :=
  match e.dfu.cal with
  | .running _ | .suspended _ => e.refuse c .busy
  | .none | .done | .failed => (e.reply c .ok []).calStart

/-- CAL, by its form byte (R148, R156). -/
def Ev.runCal (c : HostCommand) (e : Ev) : Ev :=
  if !e.settledIdle then e.refuse c .mode
  else
    match c.payload with
    | [] => e.refuse c .range
    | form :: _ =>
      if form = 0 then e.runCalStart c
      else if form = 1 then (e.onDfu Dfu.cancel).reply c .ok []
      else e.refuse c .range

/-! ### The soft reset -/

/-- The head after a soft reset (R144). -/
def Hsq.softReset (h : Hsq) : Hsq :=
  { h with head := .vacant, carrier := none, orderSent := false, dumpPending := false, atReceive := false,
           settleCount := 0, latch := none, gustRun := 0, gustTimer := none, lockHoldTimer := none,
           measuringTimer := none, outcome := .clear }

/-- The configuration items after a soft reset (R201). -/
def ConfigItems.softReset (c : ConfigItems) : ConfigItems := if c.keep then c else .defaults

/-- The reset takes effect (R173, step 4). -/
def Ev.resetRun (e : Ev) : Ev :=
  let e := ((e.stop.dropTrain).onHsq Hsq.softReset).onDfu Dfu.softReset
  let e := e.onRcu fun r => { r with holds := .none, inspects := [], haltPending := false, deploy := false }
  (e.withRate .cfg fun e => e.onScp fun p => { p with config := p.config.softReset }).refreshCourse .reset

/-- The mode a soft reset ends in (R173, step 5), and the entry into settled IDLE without a second flush and a second
MODE report (R160). -/
def Ev.resetMode (previous : Mode) (e : Ev) : Ev :=
  let e := (e.onRcu fun r => { r with mode := if r.stranded.isEmpty then .idle else .aborted }).modeReport .reset previous
  if e.rcu.mode = .idle then e.saveHealth.calResume else e

/-- RST (R173, R202). -/
def Ev.runRst (c : HostCommand) (e : Ev) : Ev :=
  let previous := e.rcu.mode
  let e := e.flush.reply c .ok []
  ((e.onScp fun p => { p with commands := [] }).resetRun).resetMode previous

end Sys2Proof.Machine
end

