-- ==== Sys2Proof/Machine/QueryCommands.lean ====
section
/-! DEFINITION. Identification, status, configuration and health commands (R183 to R185, R198 to R200). -/

namespace Sys2Proof.Machine

/-- The fixed identity (R198, R206). -/
def identity : List Byte :=
  [0x4B#8] ++ le 2 0x4C18 ++ [0x01#8] ++ le 2 Config.planSlots ++ [byte 10, byte 32, byte 8, byte Config.nativeCeiling]

/-- IDQ (R198). -/
def Ev.runIdq (c : HostCommand) (e : Ev) : Ev := e.reply c .ok identity

/-! ### STQ -/

/-- One berth of the STQ reply: occupancy, stranded flag, release number, slot (R98, R206). -/
def State.berthBytes (s : State) (b : Nat) : List Byte :=
  let stranded := flagByte (s.rcu.stranded.contains b)
  match s.carrierAt b with
  | some c => [1, stranded, c.release] ++ le 2 c.slot
  | none => [if s.reserved b then 2 else 0, stranded, 0] ++ le 2 0

/-- The tracker state of STQ: HUNT 0, ACQUIRE 1, DISCARD 2, LOCKED 3 (R115). -/
def Trk.shown (t : Trk) : Nat :=
  if t.locked then 3 else if t.framing = .discard then 2 else if t.acquired = 0 then 0 else 1

/-- The calibration point of STQ, 0 for a state without one (R158, R206). -/
def CalState.point : CalState → Nat
  | .running k => k
  | .suspended k => k
  | .none | .done | .failed => 0

/-- The phase and the attempt of STQ (R154, R158, log entry 17). -/
def Dfu.progress (d : Dfu) : List Byte :=
  match d.cal with
  | .running _ => [byte d.phase.code, byte d.attempt]
  | .suspended _ => [0, byte d.attempt]
  | .none | .done | .failed => [0, 0]

/-- The results of STQ (R199, R206). -/
def State.status (s : State) : List Byte :=
  [byte s.rcu.mode.code, flagByte s.rcu.deploy, byte s.rcu.holds.code] ++ inspectBytes s.rcu.inspects
    ++ [flagByte s.rcu.haltPending, byte s.rcu.station] ++ le32s s.rcu.baseX ++ le32s s.rcu.baseY ++ le32s s.rcu.baseZ
    ++ leCourse s.rsl.active ++ [flagByte s.rsl.lookahead] ++ (List.range 10).flatMap s.berthBytes ++ [byte s.btc.bin]
    ++ [byte s.hsq.head.code, flagByte s.hsq.orderSent, flagByte s.reducedRate]
    ++ [byte s.trk.shown, flagByte s.trk.inverted]
    ++ [byte s.dfu.cal.code, byte s.dfu.cal.point] ++ s.dfu.progress
    ++ [byte (CalCause.code s.dfu.cause), flagByte s.dfu.valid]
    ++ (List.range 8).flatMap (fun lane => le 2 (s.stockOf lane)) ++ [byte s.pls.ceiling, flagByte s.pls.frozen]
    ++ le 2 s.scp.frameErrors ++ le 2 s.trk.frameErrors ++ le 2 s.trk.falseStarts ++ le 2 s.sli.stale ++ le 2 s.scp.lost

/-- The five counters are set to 0 (R199). -/
def Ev.zeroCounters (e : Ev) : Ev :=
  ((e.onScp fun p => { p with frameErrors := 0, lost := 0 }).onTrk fun t =>
    { t with frameErrors := 0, falseStarts := 0 }).onSli fun l => { l with stale := 0 }

/-- STQ (R199). -/
def Ev.runStq (c : HostCommand) (e : Ev) : Ev := (e.reply c .ok e.status).zeroCounters

/-! ### Configuration -/

/-- The value of a configuration item, as CFG and CFQ send it (R206). -/
def ConfigItems.value (c : ConfigItems) (item : Nat) : Nat :=
  match item with
  | 1 => c.layDir.code
  | 2 => c.alternate.toNat
  | 3 => c.tolPos
  | 4 => c.tolYaw
  | 5 => c.settleCount
  | 6 => c.openTime
  | 7 => c.gustLimit
  | 8 => c.qualityFloor
  | 9 => c.rate.code
  | 10 => c.batch
  | 11 => c.keep.toNat
  | _ => 0

/-- CFQ (R200). -/
def Ev.runCfq (c : HostCommand) (e : Ev) : Ev :=
  e.reply c .ok ((List.range 11).flatMap fun i => le 2 (e.scp.config.value (i + 1)))

/-- The items with one item set; none where the item is outside the table or the value outside its range (R200). -/
def ConfigItems.set (c : ConfigItems) (item v : Nat) : Option ConfigItems :=
  let ranged (low high : Nat) (r : ConfigItems) : Option ConfigItems := if low ≤ v ∧ v ≤ high then some r else none
  match item with
  | 1 => (Dir.ofCode v).map fun d => { c with layDir := d }
  | 2 => (switchOf v).map fun b => { c with alternate := b }
  | 3 => ranged 2 100 { c with tolPos := v }
  | 4 => ranged 1 100 { c with tolYaw := v }
  | 5 => ranged 2 50 { c with settleCount := v }
  | 6 => ranged 20 600 { c with openTime := v }
  | 7 => ranged 1 60 { c with gustLimit := v }
  | 8 => ranged 1 255 { c with qualityFloor := v }
  | 9 => (RateSetting.ofCode v).map fun r => { c with rate := r }
  | 10 => if [1, 2, 4, 6, 10].contains v then some { c with batch := v } else none
  | 11 => (switchOf v).map fun b => { c with keep := b }
  | _ => none

/-- CFG (R200): a refused BATCH value sets BATCH to 1. -/
def Ev.runCfg (c : HostCommand) (e : Ev) : Ev :=
  if !e.settledIdle && e.rcu.mode != .holding then e.refuse c .mode
  else if c.payload.length < 3 then e.refuse c .range
  else
    let item := byteAt c.payload 0
    match e.scp.config.set item (u16At c.payload 1) with
    | some items =>
      (e.withRate .cfg fun e => e.onScp fun p => { p with config := items }).reply c .ok
        (byte item :: le 2 (items.value item))
    | none =>
      if item = 10 then (e.onScp fun p => { p with config := { p.config with batch := 1 } }).refuse c .range
      else e.refuse c .range

/-! ### Health -/

/-- One wear count of HLTH READ (R183, R206). -/
def State.attrBytes (s : State) (a : Attr) : List Byte :=
  let r := s.hmn.live.read a
  le 4 r.value ++ le 4 r.threshold ++ [flagByte r.crossed, flagByte a.prefailure]

/-- HLTH STATUS's result (R183). -/
def State.wornBytes (s : State) : List Byte :=
  let worn := s.crossedOf [.sawCuts, .glueFaults, .pressCutoffs]
  [flagByte (!worn.isEmpty), attrSetByte worn]

/-- The results of THRESH and RESET (R206). -/
def AttrRecord.bytes (r : AttrRecord) : List Byte := le 4 r.value ++ le 4 r.threshold ++ [flagByte r.crossed]

/-- HLTH THRESH (R184). -/
def Ev.runThresh (c : HostCommand) (e : Ev) : Ev :=
  let v := u32At c.payload 2
  match Attr.ofNumber (byteAt c.payload 1) with
  | none => e.refuse c .range
  | some a =>
    if Config.attrTop < v then e.refuse c .range
    else
      let e := (((e.onAttr a fun r => { r with threshold := v }).evaluate a .thresh).saveHealth)
      e.reply c .ok (e.hmn.live.read a).bytes

/-- HLTH RESET (R185). -/
def Ev.runWearReset (c : HostCommand) (e : Ev) : Ev :=
  match Attr.ofNumber (byteAt c.payload 1) with
  | none => e.refuse c .range
  | some a =>
    let was := (e.hmn.live.read a).crossed
    let e := e.onAttr a fun r => { r with value := 0, crossed := false }
    let e := (if was then e.uncrossEffect a else e).saveHealth
    e.reply c .ok (e.hmn.live.read a).bytes

/-- HLTH, by its subfunction (R183, R175). -/
def Ev.runHlth (c : HostCommand) (e : Ev) : Ev :=
  let writing := e.settledIdle || e.rcu.mode == .holding
  let short := c.payload.length < 6
  match c.payload with
  | [] => e.refuse c .range
  | sub :: _ =>
    match sub.toNat with
    | 0 => if short then e.refuse c .range else e.reply c .ok (Attr.all.flatMap e.attrBytes)
    | 1 => if short then e.refuse c .range else e.reply c .ok e.wornBytes
    | 2 => if !writing then e.refuse c .mode else if short then e.refuse c .range else e.runThresh c
    | 3 => if !writing then e.refuse c .mode else if short then e.refuse c .range else e.runWearReset c
    | _ => e.refuse c .range

end Sys2Proof.Machine
end

