-- ==== Sys2Proof/Machine/LineRows.lean ====
section
/-! DEFINITION. The meanings of the rows of the reset line, the host line and the tracker line. -/

namespace Sys2Proof.Machine

/-! ### Power-on and hard reset -/

/-- The bit rate the straps set (R188). -/
def bitRateOf (strap0 strap1 : Bool) : Nat :=
  match strap1, strap0 with
  | false, false => 115200
  | false, true => 230400
  | true, false => 460800
  | true, true => 921600

/-- The power-on values of every block (R174): what the persistent store holds, the clock, the two lines' logs and the
steps that wait are not the reset's. STOP is sent at the end of the reset (R60). -/
def State.powered (bitRate : Nat) (s : State) : State :=
  { pls := .reset s.pls.storedCeiling, rcu := .reset, rsl := .reset, sli := .reset, btc := .reset, trk := .reset,
    hsq := .reset, dfu := .reset, hmn := ⟨.loaded s.hmn.stored, s.hmn.stored⟩, scp := .reset bitRate, now := s.now,
    hostTx := s.hostTx, loopTx := s.loopTx ++ stopFrame, pending := s.pending }

/-- The loaded wear counts are evaluated in number order (R187). -/
def Ev.evaluateLoaded (e : Ev) : Ev := Attr.all.foldl (fun e a => e.evaluate a .load) e

/-- Power-on or hard reset, the straps latched at its end (R174, R187, R188). -/
def powerUp (strap0 strap1 : Bool) (s : State) : State :=
  event Ev.evaluateLoaded (s.powered (bitRateOf strap0 strap1))

/-- POWER_ON (R174). -/
def execPowerOn (strap0 strap1 : Bool) (s : State) : Host.Outcome State Fault Refusal := .next (powerUp strap0 strap1 s)

/-- HARD_RESET (R174): the same effect as power-on. -/
def execHardReset (strap0 strap1 : Bool) (s : State) : Host.Outcome State Fault Refusal :=
  .next (powerUp strap0 strap1 s)

/-! ### The host line -/

/-- HOST_FRAME (R189 to R191). -/
def execHostFrame (bytes : List Byte) (s : State) : Host.Outcome State Fault Refusal := .next (hostBytes bytes s)

/-- HOST_GAP (R190): the gap, and the bytes that end it. -/
def execHostGap (bytes : List Byte) (s : State) : Host.Outcome State Fault Refusal := .next (hostBytes bytes (waitGap s))

/-- MESSAGE_SENT (R194). -/
def execMessageSent (s : State) : Host.Outcome State Fault Refusal := .next (event Ev.messageSent s)

/-! ### The tracker line -/

/-- TRACKER_FRAME (R106): the bytes that complete a frame. -/
def execTrackerFrame (bytes : List Byte) (s : State) : Host.Outcome State Fault Refusal := .next (trackerBytes bytes s)

/-- TRACKER_BYTE (R103, R105). -/
def execTrackerByte (b : Byte) (s : State) : Host.Outcome State Fault Refusal := .next (event (Ev.trackerByte b) s)

end Sys2Proof.Machine
end

