-- ==== Sys2Proof/Machine/HostCommands.lean ====
section
/-! DEFINITION. The meanings of the host command rows: each takes its command from the command queue (R192) and runs
it. CEIL_SET and CEIL_FREEZE are the two forms of CEIL, chosen by the marker (R15, R16); CAL and HLTH rows are told apart
by their first payload byte. -/

namespace Sys2Proof.Machine

/-- The command kinds and their commands; any other kind is answered UNKNOWN (R192, R205). -/
def Ev.runCommand (c : HostCommand) (e : Ev) : Ev :=
  match c.kind.toNat with
  | 0x01 => e.runIdq c
  | 0x02 => e.runStq c
  | 0x03 => e.runCfq c
  | 0x04 => e.runCfg c
  | 0x05 => e.runRst c
  | 0x10 => e.runPart c
  | 0x11 => e.runCls c
  | 0x12 => e.runLane c
  | 0x13 => e.runCeilq c
  | 0x14 => e.runCeil c
  | 0x15 => e.runPap c
  | 0x16 => e.runPld c
  | 0x17 => e.runPrd c
  | 0x18 => e.runMark c
  | 0x19 => e.runRearm c
  | 0x1A => e.runAdv c
  | 0x20 => e.runGo c
  | 0x21 => e.runHalt c
  | 0x22 => e.runAbort c
  | 0x23 => e.runClear c
  | 0x24 => e.runAccept c
  | 0x25 => e.runStow c
  | 0x26 => e.runBin c
  | 0x27 => e.runCal c
  | 0x28 => e.runHlth c
  | _ => e.refuse c .unknown

/-- UNKNOWN_COMMAND (R192). -/
def execUnknownCommand (kind tag : Byte) (payload : List Byte) (s : State) : Host.Outcome State Fault Refusal :=
  .next (takeHost ⟨kind, tag, payload⟩ (Ev.runCommand ⟨kind, tag, payload⟩) s)

/-- IDQ (R198). -/
def execIdq (tag : Byte) (payload : List Byte) (s : State) : Host.Outcome State Fault Refusal :=
  .next (takeHost ⟨0x01, tag, payload⟩ (Ev.runIdq ⟨0x01, tag, payload⟩) s)

/-- STQ (R199). -/
def execStq (tag : Byte) (payload : List Byte) (s : State) : Host.Outcome State Fault Refusal :=
  .next (takeHost ⟨0x02, tag, payload⟩ (Ev.runStq ⟨0x02, tag, payload⟩) s)

/-- CFQ (R200). -/
def execCfq (tag : Byte) (payload : List Byte) (s : State) : Host.Outcome State Fault Refusal :=
  .next (takeHost ⟨0x03, tag, payload⟩ (Ev.runCfq ⟨0x03, tag, payload⟩) s)

/-- CFG (R200). -/
def execCfg (tag : Byte) (payload : List Byte) (s : State) : Host.Outcome State Fault Refusal :=
  .next (takeHost ⟨0x04, tag, payload⟩ (Ev.runCfg ⟨0x04, tag, payload⟩) s)

/-- RST (R173). -/
def execRst (tag : Byte) (payload : List Byte) (s : State) : Host.Outcome State Fault Refusal :=
  .next (takeHost ⟨0x05, tag, payload⟩ (Ev.runRst ⟨0x05, tag, payload⟩) s)

/-- PART (R2). -/
def execPart (tag : Byte) (payload : List Byte) (s : State) : Host.Outcome State Fault Refusal :=
  .next (takeHost ⟨0x10, tag, payload⟩ (Ev.runPart ⟨0x10, tag, payload⟩) s)

/-- CLS (R9). -/
def execCls (tag : Byte) (payload : List Byte) (s : State) : Host.Outcome State Fault Refusal :=
  .next (takeHost ⟨0x11, tag, payload⟩ (Ev.runCls ⟨0x11, tag, payload⟩) s)

/-- LANE (R12). -/
def execLane (tag : Byte) (payload : List Byte) (s : State) : Host.Outcome State Fault Refusal :=
  .next (takeHost ⟨0x12, tag, payload⟩ (Ev.runLane ⟨0x12, tag, payload⟩) s)

/-- CEILQ (R14). -/
def execCeilq (tag : Byte) (payload : List Byte) (s : State) : Host.Outcome State Fault Refusal :=
  .next (takeHost ⟨0x13, tag, payload⟩ (Ev.runCeilq ⟨0x13, tag, payload⟩) s)

/-- CEIL_SET (R15). -/
def execCeilSet (tag : Byte) (payload : List Byte) (s : State) : Host.Outcome State Fault Refusal :=
  .next (takeHost ⟨0x14, tag, payload⟩ (Ev.runCeil ⟨0x14, tag, payload⟩) s)

/-- CEIL_FREEZE (R16). -/
def execCeilFreeze (tag : Byte) (payload : List Byte) (s : State) : Host.Outcome State Fault Refusal :=
  .next (takeHost ⟨0x14, tag, payload⟩ (Ev.runCeil ⟨0x14, tag, payload⟩) s)

/-- PAP (R20). -/
def execPap (tag : Byte) (payload : List Byte) (s : State) : Host.Outcome State Fault Refusal :=
  .next (takeHost ⟨0x15, tag, payload⟩ (Ev.runPap ⟨0x15, tag, payload⟩) s)

/-- PLD (R21). -/
def execPld (tag : Byte) (payload : List Byte) (s : State) : Host.Outcome State Fault Refusal :=
  .next (takeHost ⟨0x16, tag, payload⟩ (Ev.runPld ⟨0x16, tag, payload⟩) s)

/-- PRD (R22). -/
def execPrd (tag : Byte) (payload : List Byte) (s : State) : Host.Outcome State Fault Refusal :=
  .next (takeHost ⟨0x17, tag, payload⟩ (Ev.runPrd ⟨0x17, tag, payload⟩) s)

/-- MARK (R23). -/
def execMark (tag : Byte) (payload : List Byte) (s : State) : Host.Outcome State Fault Refusal :=
  .next (takeHost ⟨0x18, tag, payload⟩ (Ev.runMark ⟨0x18, tag, payload⟩) s)

/-- REARM (R27). -/
def execRearm (tag : Byte) (payload : List Byte) (s : State) : Host.Outcome State Fault Refusal :=
  .next (takeHost ⟨0x19, tag, payload⟩ (Ev.runRearm ⟨0x19, tag, payload⟩) s)

/-- ADV (R28). -/
def execAdv (tag : Byte) (payload : List Byte) (s : State) : Host.Outcome State Fault Refusal :=
  .next (takeHost ⟨0x1A, tag, payload⟩ (Ev.runAdv ⟨0x1A, tag, payload⟩) s)

/-- GO (R164, R166). -/
def execGo (tag : Byte) (payload : List Byte) (s : State) : Host.Outcome State Fault Refusal :=
  .next (takeHost ⟨0x20, tag, payload⟩ (Ev.runGo ⟨0x20, tag, payload⟩) s)

/-- HALT (R167). -/
def execHalt (tag : Byte) (payload : List Byte) (s : State) : Host.Outcome State Fault Refusal :=
  .next (takeHost ⟨0x21, tag, payload⟩ (Ev.runHalt ⟨0x21, tag, payload⟩) s)

/-- ABORT (R169). -/
def execAbort (tag : Byte) (payload : List Byte) (s : State) : Host.Outcome State Fault Refusal :=
  .next (takeHost ⟨0x22, tag, payload⟩ (Ev.runAbort ⟨0x22, tag, payload⟩) s)

/-- CLEAR (R170). -/
def execClear (tag : Byte) (payload : List Byte) (s : State) : Host.Outcome State Fault Refusal :=
  .next (takeHost ⟨0x23, tag, payload⟩ (Ev.runClear ⟨0x23, tag, payload⟩) s)

/-- ACCEPT (R171). -/
def execAccept (tag : Byte) (payload : List Byte) (s : State) : Host.Outcome State Fault Refusal :=
  .next (takeHost ⟨0x24, tag, payload⟩ (Ev.runAccept ⟨0x24, tag, payload⟩) s)

/-- STOW (R172). -/
def execStow (tag : Byte) (payload : List Byte) (s : State) : Host.Outcome State Fault Refusal :=
  .next (takeHost ⟨0x25, tag, payload⟩ (Ev.runStow ⟨0x25, tag, payload⟩) s)

/-- BIN (R90). -/
def execBin (tag : Byte) (payload : List Byte) (s : State) : Host.Outcome State Fault Refusal :=
  .next (takeHost ⟨0x26, tag, payload⟩ (Ev.runBin ⟨0x26, tag, payload⟩) s)

/-- CAL_START (R148). -/
def execCalStart (tag : Byte) (payload : List Byte) (s : State) : Host.Outcome State Fault Refusal :=
  .next (takeHost ⟨0x27, tag, payload⟩ (Ev.runCal ⟨0x27, tag, payload⟩) s)

/-- CAL_CANCEL (R156). -/
def execCalCancel (tag : Byte) (payload : List Byte) (s : State) : Host.Outcome State Fault Refusal :=
  .next (takeHost ⟨0x27, tag, payload⟩ (Ev.runCal ⟨0x27, tag, payload⟩) s)

/-- HLTH_READ (R183). -/
def execHlthRead (tag : Byte) (payload : List Byte) (s : State) : Host.Outcome State Fault Refusal :=
  .next (takeHost ⟨0x28, tag, payload⟩ (Ev.runHlth ⟨0x28, tag, payload⟩) s)

/-- HLTH_STATUS (R183). -/
def execHlthStatus (tag : Byte) (payload : List Byte) (s : State) : Host.Outcome State Fault Refusal :=
  .next (takeHost ⟨0x28, tag, payload⟩ (Ev.runHlth ⟨0x28, tag, payload⟩) s)

/-- HLTH_THRESH (R184). -/
def execHlthThresh (tag : Byte) (payload : List Byte) (s : State) : Host.Outcome State Fault Refusal :=
  .next (takeHost ⟨0x28, tag, payload⟩ (Ev.runHlth ⟨0x28, tag, payload⟩) s)

/-- HLTH_RESET (R185). -/
def execHlthReset (tag : Byte) (payload : List Byte) (s : State) : Host.Outcome State Fault Refusal :=
  .next (takeHost ⟨0x28, tag, payload⟩ (Ev.runHlth ⟨0x28, tag, payload⟩) s)

end Sys2Proof.Machine
end

