-- ==== Sys2Proof/Machine/CompletionRows.lean ====
section
/-! DEFINITION. The meanings of the completion rows: the row's unit answers with a tag and a result, and the record in
flight at that unit, matched by the tag alone, says what ends (R55, R56, log entry 7). -/

namespace Sys2Proof.Machine

/-- LOAD_DONE (R72). -/
def execLoadDone (tag : Byte) (s : State) : Host.Outcome State Fault Refusal :=
  .next (completion pickUnit tag 0 0 s)

/-- LOAD_EMPTY (R93). -/
def execLoadEmpty (tag : Byte) (s : State) : Host.Outcome State Fault Refusal :=
  .next (completion pickUnit tag 1 1 s)

/-- LOAD_FAULT (R94). -/
def execLoadFault (tag code : Byte) (s : State) : Host.Outcome State Fault Refusal :=
  .next (completion pickUnit tag 1 code s)

/-- CUT_DONE (R74). -/
def execCutDone (tag : Byte) (s : State) : Host.Outcome State Fault Refusal :=
  .next (completion sawUnit tag 0 0 s)

/-- CUT_FAULT (R74). -/
def execCutFault (tag code : Byte) (s : State) : Host.Outcome State Fault Refusal :=
  .next (completion sawUnit tag 1 code s)

/-- GLUE_DONE (R82). -/
def execGlueDone (tag : Byte) (s : State) : Host.Outcome State Fault Refusal :=
  .next (completion glueUnit tag 0 0 s)

/-- GLUE_FAULT (R76). -/
def execGlueFault (tag code : Byte) (s : State) : Host.Outcome State Fault Refusal :=
  .next (completion glueUnit tag 1 code s)

/-- MOVE_DONE (R80). -/
def execMoveDone (b : Fin 9) (tag : Byte) (s : State) : Host.Outcome State Fault Refusal :=
  .next (completion (xferUnit b.val) tag 0 0 s)

/-- MOVE_FAULT (R95). -/
def execMoveFault (b : Fin 9) (tag code : Byte) (s : State) : Host.Outcome State Fault Refusal :=
  .next (completion (xferUnit b.val) tag 1 code s)

/-- TAKE_DONE (R120). -/
def execTakeDone (tag : Byte) (s : State) : Host.Outcome State Fault Refusal :=
  .next (completion gripperUnit tag 0 0 s)

/-- TAKE_SLIP (R120). -/
def execTakeSlip (tag : Byte) (s : State) : Host.Outcome State Fault Refusal :=
  .next (completion gripperUnit tag 1 5 s)

/-- APPROACH_DONE (R122). -/
def execApproachDone (tag : Byte) (s : State) : Host.Outcome State Fault Refusal :=
  .next (completion boomUnit tag 0 0 s)

/-- TRIM_DONE (R126). -/
def execTrimDone (tag : Byte) (s : State) : Host.Outcome State Fault Refusal :=
  .next (completion wristUnit tag 0 0 s)

/-- TRIM_FAULT (R126). -/
def execTrimFault (tag code : Byte) (s : State) : Host.Outcome State Fault Refusal :=
  .next (completion wristUnit tag 1 code s)

/-- PRESS_DONE (R136). -/
def execPressDone (tag : Byte) (s : State) : Host.Outcome State Fault Refusal :=
  .next (completion pressUnit tag 0 0 s)

/-- OPEN_DONE (R137). -/
def execOpenDone (tag : Byte) (s : State) : Host.Outcome State Fault Refusal :=
  .next (completion gripperUnit tag 0 0 s)

/-- RETRACT_DONE (R138). -/
def execRetractDone (tag : Byte) (s : State) : Host.Outcome State Fault Refusal :=
  .next (completion boomUnit tag 0 0 s)

/-- DUMP_DONE (R89). -/
def execDumpDone (tag : Byte) (s : State) : Host.Outcome State Fault Refusal :=
  .next (completion chuteUnit tag 0 0 s)

/-- HEAD_JAM (R64). -/
def execHeadJam (unit : HeadUnit) (tag code : Byte) (s : State) : Host.Outcome State Fault Refusal :=
  .next (completion unit.number tag 1 code s)

/-- DEPLOY_DONE (R165). -/
def execDeployDone (tag : Byte) (s : State) : Host.Outcome State Fault Refusal :=
  .next (completion boomUnit tag 0 0 s)

/-- DEPLOY_FAULT (R165). -/
def execDeployFault (tag code : Byte) (s : State) : Host.Outcome State Fault Refusal :=
  .next (completion boomUnit tag 1 code s)

/-- FOLD_DONE (R172). -/
def execFoldDone (tag : Byte) (s : State) : Host.Outcome State Fault Refusal :=
  .next (completion boomUnit tag 0 0 s)

/-- FOLD_FAULT (R172). -/
def execFoldFault (tag code : Byte) (s : State) : Host.Outcome State Fault Refusal :=
  .next (completion boomUnit tag 1 code s)

/-- CAL_SLEW_DONE (R150). -/
def execCalSlewDone (tag : Byte) (s : State) : Host.Outcome State Fault Refusal :=
  .next (completion boomUnit tag 0 0 s)

/-- CAL_SLEW_FAULT (R151). -/
def execCalSlewFault (tag code : Byte) (s : State) : Host.Outcome State Fault Refusal :=
  .next (completion boomUnit tag 1 code s)

/-- STALE_COMPLETION (R55): bytes of loop receive. -/
def execStaleCompletion (bytes : List Byte) (s : State) : Host.Outcome State Fault Refusal := .next (loopBytes bytes s)

/-- ORDER_ECHO (R55): bytes of loop receive. -/
def execOrderEcho (bytes : List Byte) (s : State) : Host.Outcome State Fault Refusal := .next (loopBytes bytes s)

end Sys2Proof.Machine
end

