-- ==== Sys2Proof/Machine/TimerRows.lean ====
section
/-! DEFINITION. The meanings of the timer rows: each timer that runs fires at its end; one that does not run changes
nothing (log entry 8). -/

namespace Sys2Proof.Machine

/-- PRESS_LIMIT (R59). -/
def execPressLimit (s : State) : Host.Outcome State Fault Refusal := .next (pressLimitEnds s)

/-- ORDER_TIMEOUT (R57). -/
def execOrderTimeout (unit : Fin 17) (s : State) : Host.Outcome State Fault Refusal := .next (orderTimesOut unit.val s)

/-- GLUE_DEADLINE (R84). -/
def execGlueDeadline (berth : Fin 10) (s : State) : Host.Outcome State Fault Refusal :=
  .next (fireAt (s.deadlineOf berth.val) (Ev.expire berth.val) s)

/-- GUST_TIMER (R130). -/
def execGustTimer (s : State) : Host.Outcome State Fault Refusal := .next (fireAt s.gustEnd Ev.gustOut s)

/-- LOCK_HOLD_TIMER (R132). -/
def execLockHoldTimer (s : State) : Host.Outcome State Fault Refusal := .next (fireAt s.lockHoldEnd Ev.lockHoldOut s)

/-- MEASURING_TIMER (R136). -/
def execMeasuringTimer (s : State) : Host.Outcome State Fault Refusal := .next (fireAt s.measuringEnd Ev.measuringOut s)

/-- PRESS_LOCKOUT (R128). -/
def execPressLockout (s : State) : Host.Outcome State Fault Refusal := .next (fireAt s.lockoutEnd Ev.lockoutOut s)

/-- POINT_LIMIT (R151). -/
def execPointLimit (s : State) : Host.Outcome State Fault Refusal := .next (fireAt s.pointEnd Ev.pointOut s)

/-- HOLD_WINDOW_END (R112). -/
def execHoldWindowEnd (s : State) : Host.Outcome State Fault Refusal := .next (fireAt s.windowEnd Ev.windowOut s)

end Sys2Proof.Machine
end

