-- ==== Sys2Proof/Machine/Dispatch.lean ====
section
/-! DEFINITION. The effect of each command of the block on everything but the queue of waiting steps: one arm per
constructor of `Instr`, each one direct call of its meaning. -/

namespace Sys2Proof.Machine

def exec (i : Instr) (s : State) : Host.Outcome State Fault Refusal :=
  match i with
  | .powerOn strap0 strap1 => Sys2Proof.Machine.execPowerOn strap0 strap1 s
  | .hardReset strap0 strap1 => Sys2Proof.Machine.execHardReset strap0 strap1 s
  | .hostFrame bytes => Sys2Proof.Machine.execHostFrame bytes s
  | .hostGap bytes => Sys2Proof.Machine.execHostGap bytes s
  | .messageSent => Sys2Proof.Machine.execMessageSent s
  | .unknownCommand kind tag payload => Sys2Proof.Machine.execUnknownCommand kind tag payload s
  | .idq tag payload => Sys2Proof.Machine.execIdq tag payload s
  | .stq tag payload => Sys2Proof.Machine.execStq tag payload s
  | .cfq tag payload => Sys2Proof.Machine.execCfq tag payload s
  | .cfg tag payload => Sys2Proof.Machine.execCfg tag payload s
  | .rst tag payload => Sys2Proof.Machine.execRst tag payload s
  | .part tag payload => Sys2Proof.Machine.execPart tag payload s
  | .cls tag payload => Sys2Proof.Machine.execCls tag payload s
  | .lane tag payload => Sys2Proof.Machine.execLane tag payload s
  | .ceilq tag payload => Sys2Proof.Machine.execCeilq tag payload s
  | .ceilSet tag payload => Sys2Proof.Machine.execCeilSet tag payload s
  | .ceilFreeze tag payload => Sys2Proof.Machine.execCeilFreeze tag payload s
  | .pap tag payload => Sys2Proof.Machine.execPap tag payload s
  | .pld tag payload => Sys2Proof.Machine.execPld tag payload s
  | .prd tag payload => Sys2Proof.Machine.execPrd tag payload s
  | .mark tag payload => Sys2Proof.Machine.execMark tag payload s
  | .rearm tag payload => Sys2Proof.Machine.execRearm tag payload s
  | .adv tag payload => Sys2Proof.Machine.execAdv tag payload s
  | .go tag payload => Sys2Proof.Machine.execGo tag payload s
  | .halt tag payload => Sys2Proof.Machine.execHalt tag payload s
  | .abort tag payload => Sys2Proof.Machine.execAbort tag payload s
  | .clear tag payload => Sys2Proof.Machine.execClear tag payload s
  | .accept tag payload => Sys2Proof.Machine.execAccept tag payload s
  | .stow tag payload => Sys2Proof.Machine.execStow tag payload s
  | .bin tag payload => Sys2Proof.Machine.execBin tag payload s
  | .calStart tag payload => Sys2Proof.Machine.execCalStart tag payload s
  | .calCancel tag payload => Sys2Proof.Machine.execCalCancel tag payload s
  | .hlthRead tag payload => Sys2Proof.Machine.execHlthRead tag payload s
  | .hlthStatus tag payload => Sys2Proof.Machine.execHlthStatus tag payload s
  | .hlthThresh tag payload => Sys2Proof.Machine.execHlthThresh tag payload s
  | .hlthReset tag payload => Sys2Proof.Machine.execHlthReset tag payload s
  | .loadDone tag => Sys2Proof.Machine.execLoadDone tag s
  | .loadEmpty tag => Sys2Proof.Machine.execLoadEmpty tag s
  | .loadFault tag code => Sys2Proof.Machine.execLoadFault tag code s
  | .cutDone tag => Sys2Proof.Machine.execCutDone tag s
  | .cutFault tag code => Sys2Proof.Machine.execCutFault tag code s
  | .glueDone tag => Sys2Proof.Machine.execGlueDone tag s
  | .glueFault tag code => Sys2Proof.Machine.execGlueFault tag code s
  | .moveDone b tag => Sys2Proof.Machine.execMoveDone b tag s
  | .moveFault b tag code => Sys2Proof.Machine.execMoveFault b tag code s
  | .takeDone tag => Sys2Proof.Machine.execTakeDone tag s
  | .takeSlip tag => Sys2Proof.Machine.execTakeSlip tag s
  | .approachDone tag => Sys2Proof.Machine.execApproachDone tag s
  | .trimDone tag => Sys2Proof.Machine.execTrimDone tag s
  | .trimFault tag code => Sys2Proof.Machine.execTrimFault tag code s
  | .pressDone tag => Sys2Proof.Machine.execPressDone tag s
  | .pressLimit => Sys2Proof.Machine.execPressLimit s
  | .openDone tag => Sys2Proof.Machine.execOpenDone tag s
  | .retractDone tag => Sys2Proof.Machine.execRetractDone tag s
  | .dumpDone tag => Sys2Proof.Machine.execDumpDone tag s
  | .headJam unit tag code => Sys2Proof.Machine.execHeadJam unit tag code s
  | .deployDone tag => Sys2Proof.Machine.execDeployDone tag s
  | .deployFault tag code => Sys2Proof.Machine.execDeployFault tag code s
  | .foldDone tag => Sys2Proof.Machine.execFoldDone tag s
  | .foldFault tag code => Sys2Proof.Machine.execFoldFault tag code s
  | .calSlewDone tag => Sys2Proof.Machine.execCalSlewDone tag s
  | .calSlewFault tag code => Sys2Proof.Machine.execCalSlewFault tag code s
  | .staleCompletion bytes => Sys2Proof.Machine.execStaleCompletion bytes s
  | .orderEcho bytes => Sys2Proof.Machine.execOrderEcho bytes s
  | .orderTimeout unit => Sys2Proof.Machine.execOrderTimeout unit s
  | .glueDeadline berth => Sys2Proof.Machine.execGlueDeadline berth s
  | .gustTimer => Sys2Proof.Machine.execGustTimer s
  | .lockHoldTimer => Sys2Proof.Machine.execLockHoldTimer s
  | .measuringTimer => Sys2Proof.Machine.execMeasuringTimer s
  | .pressLockout => Sys2Proof.Machine.execPressLockout s
  | .pointLimit => Sys2Proof.Machine.execPointLimit s
  | .trackerFrame bytes => Sys2Proof.Machine.execTrackerFrame bytes s
  | .trackerByte b => Sys2Proof.Machine.execTrackerByte b s
  | .holdWindowEnd => Sys2Proof.Machine.execHoldWindowEnd s

end Sys2Proof.Machine
end

