-- ==== Sys2Proof/Machine/Idle.lean ====
section
/-! DEFINITION. What the part does when no step waits (log entry 1): it takes the oldest command of its command queue
(R192), or fires the timer that is due, or lets 1 ms pass. -/

namespace Sys2Proof.Machine

/-- The row that takes a command of the command queue: by its kind (R205), the form of CEIL by the marker (R15, R16),
the forms of CAL and HLTH by their first payload byte. -/
def State.rowOf (s : State) (c : HostCommand) : Instr :=
  match c.kind.toNat with
  | 0x01 => .idq c.tag c.payload
  | 0x02 => .stq c.tag c.payload
  | 0x03 => .cfq c.tag c.payload
  | 0x04 => .cfg c.tag c.payload
  | 0x05 => .rst c.tag c.payload
  | 0x10 => .part c.tag c.payload
  | 0x11 => .cls c.tag c.payload
  | 0x12 => .lane c.tag c.payload
  | 0x13 => .ceilq c.tag c.payload
  | 0x14 => if s.rcu.marker = some ceilqKind then .ceilSet c.tag c.payload else .ceilFreeze c.tag c.payload
  | 0x15 => .pap c.tag c.payload
  | 0x16 => .pld c.tag c.payload
  | 0x17 => .prd c.tag c.payload
  | 0x18 => .mark c.tag c.payload
  | 0x19 => .rearm c.tag c.payload
  | 0x1A => .adv c.tag c.payload
  | 0x20 => .go c.tag c.payload
  | 0x21 => .halt c.tag c.payload
  | 0x22 => .abort c.tag c.payload
  | 0x23 => .clear c.tag c.payload
  | 0x24 => .accept c.tag c.payload
  | 0x25 => .stow c.tag c.payload
  | 0x26 => .bin c.tag c.payload
  | 0x27 => if c.payload.head? = some 1 then .calCancel c.tag c.payload else .calStart c.tag c.payload
  | 0x28 =>
    if c.payload.head? = some 1 then .hlthStatus c.tag c.payload
    else if c.payload.head? = some 2 then .hlthThresh c.tag c.payload
    else if c.payload.head? = some 3 then .hlthReset c.tag c.payload
    else .hlthRead c.tag c.payload
  | _ => .unknownCommand c.kind c.tag c.payload

/-- The oldest command of the command queue, where a reply place is free for it (R192). -/
def State.commandDue (s : State) : Option Instr :=
  match s.scp.commands with
  | [] => none
  | c :: _ => if s.replyPlace then some (s.rowOf c) else none

/-- The earlier of two ends of timers; of two at one moment the first. -/
def earlier (a b : Option (Nat × Instr)) : Option (Nat × Instr) :=
  match a, b with
  | none, b => b
  | some a, none => some a
  | some a, some b => if b.1 < a.1 then some b else some a

/-- The end of a timer, with its row. -/
def timerRow (i : Instr) (moment : Option Nat) : Option (Nat × Instr) := moment.map fun t => (t, i)

/-- The moment the order timeout at a unit runs out. -/
def State.timeoutOf (s : State) (unit : Nat) : Option Nat :=
  match s.flight unit with
  | none => none
  | some r => r.timeoutAt

/-- The moment the press limit runs out. -/
def State.pressLimitOf (s : State) : Option Nat :=
  match s.flight pressUnit with
  | none => none
  | some r => r.limitAt

/-- Every timer of the part with its row. -/
def State.timers (s : State) : List (Option (Nat × Instr)) :=
  (List.finRange 17).map (fun u => timerRow (.orderTimeout u) (s.timeoutOf u.val))
    ++ [timerRow .pressLimit s.pressLimitOf]
    ++ (List.finRange 10).map (fun b => timerRow (.glueDeadline b) (s.deadlineOf b.val))
    ++ [timerRow .gustTimer s.gustEnd, timerRow .lockHoldTimer s.lockHoldEnd, timerRow .measuringTimer s.measuringEnd,
        timerRow .pressLockout s.lockoutEnd, timerRow .pointLimit s.pointEnd, timerRow .holdWindowEnd s.windowEnd]

/-- The timer that is due: the one with the earliest end, where that moment has come. -/
def State.timerDue (s : State) : Option Instr :=
  match s.timers.foldl earlier none with
  | none => none
  | some t => if t.1 ≤ s.now then some t.2 else none

/-- What the part does of itself. -/
def idle (s : State) : Host.Outcome State Fault Refusal :=
  match s.commandDue with
  | some i => Sys2Proof.Machine.exec i s
  | none =>
    match s.timerDue with
    | some i => Sys2Proof.Machine.exec i s
    | none => .next { s with now := s.now + 1 }

end Sys2Proof.Machine
end

