-- ==== Sys2Proof/Safety.lean ====
section
/-! DEFINITION. What holds of the part between steps, whatever is commanded: the bounds its manual gives the tables,
queues and counts, block by block, how the blocks agree, and the words the statements are written in. -/

namespace Sys2Proof.Machine

/-! ### The invariant -/

/-- The Plan Store: the partition sums to 1024 with a Run count of at least 64 (R2), the ring lies in it (R1), the
ceilings are at most 96 (R13, R17), and the plan is in its canonical form. -/
def Pls.sound (p : Pls) : Prop :=
  p.lead + p.run + p.tail = 1024 ∧ 64 ≤ p.run ∧ p.ringHead < p.run ∧ p.ringCount ≤ p.run ∧ p.ceiling ≤ 96
    ∧ (∀ v ∈ p.storedCeiling, v ≤ 96) ∧ Table.rising p.plan = true

/-- Run Control: the current station is 0 to 63 (R30). -/
def Rcu.sound (r : Rcu) : Prop := r.station ≤ 63

/-- The Station Loop Interface: at most one order in flight per unit (R53), the stale count within its width (R55). -/
def Sli.sound (l : Sli) : Prop := Table.rising l.inFlight = true ∧ l.stale ≤ Config.counterTop

/-- The Boom Train: at most one carrier per berth (R68). -/
def Btc.sound (t : Btc) : Prop := Table.rising t.train = true

/-- The Tracker Receiver: its counts stay in their ranges (R104, R105, R107, R109, R111). -/
def Trk.sound (t : Trk) : Prop :=
  t.buffer.length ≤ 19 ∧ t.idleRun ≤ 2 ∧ t.polarityRun ≤ 2 ∧ t.acquired ≤ 8 ∧ (t.locked = false → t.acquired ≤ 7)
    ∧ t.windowCount ≤ 255 ∧ t.frameErrors ≤ Config.counterTop ∧ t.falseStarts ≤ Config.counterTop

/-- The Head Sequencer: the gust count stops at 255 (R129). -/
def Hsq.sound (h : Hsq) : Prop := h.gustCount ≤ 255

/-- A live wear count: value and threshold at most 999999 (R177). -/
def AttrRecord.sound (r : AttrRecord) : Prop := r.value ≤ Config.attrTop ∧ r.threshold ≤ Config.attrTop

/-- A saved wear count: value and threshold at most 999999 (R177, R186). -/
def SavedAttr.sound (r : SavedAttr) : Prop := r.value ≤ Config.attrTop ∧ r.threshold ≤ Config.attrTop

/-- The Health Monitor: live and saved numbers stay in their range (R177, R186). -/
def Hmn.sound (m : Hmn) : Prop := ∀ a : Attr, (m.live.read a).sound ∧ (m.stored.read a).sound

/-- The configuration items stay in the ranges of R200. -/
def ConfigItems.sound (c : ConfigItems) : Prop :=
  2 ≤ c.tolPos ∧ c.tolPos ≤ 100 ∧ 1 ≤ c.tolYaw ∧ c.tolYaw ≤ 100 ∧ 2 ≤ c.settleCount ∧ c.settleCount ≤ 50
    ∧ 20 ≤ c.openTime ∧ c.openTime ≤ 600 ∧ 1 ≤ c.gustLimit ∧ c.gustLimit ≤ 60 ∧ 1 ≤ c.qualityFloor
    ∧ c.qualityFloor ≤ 255 ∧ c.batch ∈ [1, 2, 4, 6, 10]

/-- How many reports the outbound queue holds. -/
def Scp.reportCount (p : Scp) : Nat := (p.outbound.filter Message.isReport).length

/-- The Site Command Port: the queues and their report places (R191, R194), the counts, the configuration items. -/
def Scp.sound (p : Scp) : Prop :=
  p.commands.length ≤ 4 ∧ p.outbound.length ≤ 32 ∧ p.reportCount ≤ 28 ∧ p.frameErrors ≤ Config.counterTop
    ∧ p.lost ≤ Config.counterTop ∧ p.config.sound

/-- What every step keeps. -/
structure State.Sound (s : State) : Prop where
  pls : s.pls.sound
  rcu : s.rcu.sound
  sli : s.sli.sound
  btc : s.btc.sound
  trk : s.trk.sound
  hsq : s.hsq.sound
  hmn : s.hmn.sound
  scp : s.scp.sound

/-! ### How the blocks agree -/

/-- LAYING, HOLDING and DRAINING: the modes of a run (R159). -/
def State.inRun (s : State) : Prop := s.rcu.mode = .laying ∨ s.rcu.mode = .holding ∨ s.rcu.mode = .draining

/-- A carrier stands in a berth in a phase. -/
def State.standsAt (s : State) (b : Nat) (p : Phase) : Prop := ∃ c, s.carrierAt b = some c ∧ c.phase = p

/-- The entry in a slot is IN_TRAIN (R3, R44). -/
def State.inTrainAt (s : State) (slot : Nat) : Prop := ∃ en, s.entryAt slot = some en ∧ en.state = .inTrain

/-- What an order in flight is for: its unit and the block that asked for it (R52, R53), and what of the train, of the
head or of the mode waits for its ending (R70, R73, R75, R78, R117, R149, R164, R172); a DUMP has its place in the bin
(R88). -/
def State.serves (s : State) (u : Nat) (r : InFlight) : Prop :=
  match r.order with
  | .load _ => u = pickUnit ∧ r.requester = .rsl ∧ s.standsAt 0 .working
  | .cut _ => u = sawUnit ∧ r.requester = .btc ∧ s.standsAt 1 .working
  | .glue _ => u = glueUnit ∧ r.requester = .btc ∧ s.standsAt 2 .working
  | .move => ∃ b, b ≤ 8 ∧ u = xferUnit b ∧ r.requester = .btc ∧ s.standsAt b .leaving
  | .slew _ _ => u = boomUnit
      ∧ (r.requester = .hsq ∧ (s.hsq.head = .approaching ∨ s.hsq.head = .retracting)
        ∨ r.requester = .dfu ∧ (s.rcu.mode = .idle ∨ s.rcu.mode = .stowing))
  | .deploy => u = boomUnit ∧ r.requester = .rcu ∧ s.rcu.mode = .idle ∧ s.rcu.deploy = true
  | .fold => u = boomUnit ∧ r.requester = .rcu ∧ s.rcu.mode = .stowing
  | .trim _ _ _ _ => u = wristUnit ∧ r.requester = .hsq ∧ (s.hsq.head = .settling ∨ s.hsq.head = .lockHold)
  | .take => u = gripperUnit ∧ r.requester = .hsq ∧ s.hsq.head = .gripping
  | .openGrip => u = gripperUnit ∧ r.requester = .hsq ∧ s.hsq.head = .releasing
  | .press => u = pressUnit ∧ r.requester = .hsq ∧ s.hsq.head = .pressing
  | .dump => u = chuteUnit ∧ r.requester = .hsq ∧ s.hsq.head = .dumping ∧ s.btc.bin < 24

/-- How the blocks agree with one another between steps. -/
structure State.Orderly (s : State) : Prop where
  /-- The reject bin holds at most 24 bricks (R88). -/
  bin : s.btc.bin ≤ 24
  /-- An occupied Run slot is inside the ring (R1). -/
  ring : ∀ slot, s.pls.region slot = .run → s.entryAt slot ≠ none →
    ∃ i, i < s.pls.ringCount ∧ slot = s.pls.ringSlot i
  /-- The entry of a carrier is IN_TRAIN (R44, R69). -/
  listed : ∀ b c, s.carrierAt b = some c → s.inTrainAt c.slot
  /-- An IN_TRAIN entry has a carrier (R44). -/
  claimed : ∀ slot, s.inTrainAt slot → ∃ b c, s.carrierAt b = some c ∧ c.slot = slot
  /-- No two carriers carry one entry (R44). -/
  single : ∀ a b c d, s.carrierAt a = some c → s.carrierAt b = some d → c.slot = d.slot → a = b
  /-- Carriers stand in berths 0 to 9, none of them stranded (R68). -/
  berths : ∀ b c, s.carrierAt b = some c → b ≤ 9 ∧ b ∉ s.rcu.stranded
  /-- The next berth of a LEAVING carrier is empty and not stranded, and berth 9 is the next one of a head that is VACANT
  at the receive pose (R68, R78). -/
  leaving : ∀ b, s.standsAt b .leaving → b ≤ 8 ∧ s.carrierAt (b + 1) = none ∧ (b + 1) ∉ s.rcu.stranded
    ∧ (b = 8 → s.hsq.head = .vacant ∧ s.hsq.atReceive = true)
  /-- The head is VACANT or RETRACTING with berth 9 empty; in its other states it knows the carrier there (R117, R118). -/
  head : ((s.hsq.head = .vacant ∨ s.hsq.head = .retracting) ∧ s.carrierAt 9 = none)
    ∨ ((s.hsq.head ≠ .vacant ∧ s.hsq.head ≠ .retracting)
      ∧ ∃ c k, s.carrierAt 9 = some c ∧ s.hsq.carrier = some k ∧ k.slot = c.slot)
  /-- Every order in flight is one that something waits for (R53). -/
  orders : ∀ u r, s.flight u = some r → s.serves u r
  /-- DEPLOY or FOLD waits behind a calibration slew, in its mode (R53). -/
  waiting : ∀ q, s.sli.boomWaiting = some q →
    (∃ r p v, s.flight boomUnit = some r ∧ r.requester = .dfu ∧ r.order = .slew p v)
      ∧ (match q with
        | .deploy => s.rcu.mode = .idle ∧ s.rcu.deploy = true
        | .fold => s.rcu.mode = .stowing)
  /-- A calibration routine runs in settled IDLE alone (R147, R154). -/
  calibrating : ∀ k, s.dfu.cal = .running k → s.rcu.mode = .idle ∧ s.rcu.deploy = false
  /-- Outside a run the train is empty and the head VACANT (R160, R169). -/
  atRest : ¬s.inRun → (∀ b, s.carrierAt b = none) ∧ s.hsq.head = .vacant
  /-- A hold reason stands in HOLDING alone (R162). -/
  reasons : s.rcu.mode ≠ .holding → s.rcu.holds = .none
  /-- A stranded berth stands in HOLDING and ABORTED alone (R162). -/
  strandings : s.rcu.mode ≠ .holding → s.rcu.mode ≠ .aborted → s.rcu.stranded = []
  /-- In HOLDING a stranded berth keeps JAM among the reasons (R92, R170). -/
  jammed : s.rcu.mode = .holding → s.rcu.stranded ≠ [] → s.rcu.holds.jam = true

/-! ### The words of the statements -/

/-- A host command row is taken now: its turn has come and a reply place is free (R192, log entry 6). -/
def State.takes (s : State) (c : HostCommand) : Prop := s.isNext c = true ∧ s.replyPlace = true

/-- The event's own changes, where a step makes `e` of them and then runs the tests `e` has prompted. -/
def Effect (i : Instr) (s : State) (e : Ev) : Prop := exec i s = .next e.finish.toState

/-- The state once a command is answered and nothing else has changed: the command has left the command queue, its reply
is queued, and the previous-command marker holds its kind (R14, R192, R193). -/
def State.answered (s : State) (c : HostCommand) (st : Status) (results : List Byte) : State :=
  { s with
    scp := { s.scp with
      commands := s.scp.commands.tail
      outbound := s.scp.outbound ++ [.reply c.kind c.tag st results] }
    rcu := { s.rcu with marker := some c.kind } }

/-- The event in which a command is being taken: it has left the command queue and its reply is due (R192, R194). -/
def State.taking (s : State) : Ev :=
  { Ev.start { s with scp := { s.scp with commands := s.scp.commands.tail } } with replyDue := true }

/-- The state with a carrier record in a berth. -/
def State.withCarrier (s : State) (b : Nat) (c : Carrier) : State :=
  { s with btc := { s.btc with train := Table.write s.btc.train b c } }

/-- The state with no carrier record in a berth. -/
def State.withoutCarrier (s : State) (b : Nat) : State :=
  { s with btc := { s.btc with train := Table.strike s.btc.train b } }

/-- The state with an entry in a slot. -/
def State.withEntry (s : State) (slot : Nat) (en : Entry) : State :=
  { s with pls := { s.pls with plan := Table.write s.pls.plan slot en } }

/-- The state once an order is sent: the unit's record holds it with the value of the unit's tag counter, the counter has
risen by one, and the order frame is on loop transmit (R54). -/
def State.launched (s : State) (unit : Nat) (o : Order) (q : Requester) : State :=
  { s with
    sli := { s.sli with
      inFlight := Table.write s.sli.inFlight unit ⟨o, s.tagOf unit, q, s.now⟩
      tags := Table.writeD s.sli.tags unit (s.tagOf unit + 1) 0 }
    loopTx := s.loopTx ++ o.frame unit (s.tagOf unit) }

/-- The prompts of a carrier that leaves the train: transfers (R79), the end of draining (R168), a selection (R43). -/
def Ev.promptLeave (e : Ev) : Ev := e.promptXfer.promptDrain.promptSel

/-- The order in flight at a unit has a tag, so that a completion with that tag is matched (R55). -/
def State.awaits (s : State) (unit : Nat) (tag : Byte) (o : Order) (q : Requester) : Prop :=
  ∃ at_, s.flight unit = some ⟨o, tag, q, at_⟩

/-- The state once the record of a unit is cleared (R56). -/
def State.ended (s : State) (unit : Nat) : State :=
  { s with sli := { s.sli with inFlight := Table.strike s.sli.inFlight unit } }

/-- A tracker frame as the tracker sends it, with the check of R102 (R101, R204). -/
def trackerFrameBytes (sequence : Word16) (p : Pose) (quality : Byte) : List Byte :=
  let content := le 2 sequence.toNat ++ poseBytes p ++ [quality]
  [0xD3#8, 0x2C#8] ++ content ++ [crc8 content]

/-- A pose that its fields can hold, with a yaw a good frame may have (R101, R106). -/
def Pose.fits (p : Pose) : Prop :=
  -2147483648 ≤ p.x ∧ p.x ≤ 2147483647 ∧ -2147483648 ≤ p.y ∧ p.y ≤ 2147483647 ∧ -2147483648 ≤ p.z
    ∧ p.z ≤ 2147483647 ∧ -18000 ≤ p.yaw ∧ p.yaw ≤ 17999

end Sys2Proof.Machine
end

