-- ==== Sys2Proof/WellFormed.lean ====
section
/-! DEFINITION. Which terms of `Instr` a row of the table can carry. `exec` does not ask for it: a term that is
not well formed is taken as what its bytes are (the CAL form byte, the HLTH subfunction, the kind byte decide). -/

namespace Sys2Proof

/-- A host frame carries at most 1024 payload bytes (R189: a length of at most 1026 with kind and tag). -/
def Instr.payloadFits (payload : List Byte) : Bool := payload.length ≤ 1024

/-- The kinds R205 gives to commands. -/
def Instr.commandKinds : List Byte :=
  [0x01, 0x02, 0x03, 0x04, 0x05, 0x10, 0x11, 0x12, 0x13, 0x14, 0x15, 0x16, 0x17, 0x18, 0x19, 0x1A,
   0x20, 0x21, 0x22, 0x23, 0x24, 0x25, 0x26, 0x27, 0x28]

/-- The checks on a row's operands, one line per kind of row. -/
def Instr.wellFormed : Instr → Bool
  | .powerOn _ _ | .hardReset _ _ | .messageSent => true
  | .hostFrame bytes | .hostGap bytes => bytes.length ≤ 1031
  | .unknownCommand kind _ p => payloadFits p && !commandKinds.contains kind
  | .idq _ p | .stq _ p | .cfq _ p | .cfg _ p | .rst _ p | .part _ p | .cls _ p | .lane _ p | .ceilq _ p
  | .ceilSet _ p | .ceilFreeze _ p | .pap _ p | .pld _ p | .prd _ p | .mark _ p | .rearm _ p | .adv _ p
  | .go _ p | .halt _ p | .abort _ p | .clear _ p | .accept _ p | .stow _ p | .bin _ p => payloadFits p
  | .calStart _ p => payloadFits p && p.head? != some 0x01
  | .calCancel _ p => payloadFits p && p.head? == some 0x01
  | .hlthRead _ p => payloadFits p && p.head? != some 0x01 && p.head? != some 0x02 && p.head? != some 0x03
  | .hlthStatus _ p => payloadFits p && p.head? == some 0x01
  | .hlthThresh _ p => payloadFits p && p.head? == some 0x02
  | .hlthReset _ p => payloadFits p && p.head? == some 0x03
  | .loadDone _ | .loadEmpty _ | .cutDone _ | .glueDone _ | .moveDone _ _ | .takeDone _ | .takeSlip _
  | .approachDone _ | .trimDone _ | .pressDone _ | .pressLimit | .openDone _ | .retractDone _ | .dumpDone _
  | .deployDone _ | .foldDone _ | .calSlewDone _ => true
  | .loadFault _ code => code != 0x01
  | .cutFault _ _ | .glueFault _ _ | .moveFault _ _ _ | .trimFault _ _ | .headJam _ _ _ | .deployFault _ _
  | .foldFault _ _ | .calSlewFault _ _ => true
  | .staleCompletion bytes => bytes.length == 7 && bytes.head? == some 0x3C
  | .orderEcho bytes => 7 ≤ bytes.length && bytes.head? == some 0xC3
  | .orderTimeout _ | .glueDeadline _ | .gustTimer | .lockHoldTimer | .measuringTimer | .pressLockout
  | .pointLimit | .holdWindowEnd => true
  | .trackerFrame bytes => 1 ≤ bytes.length && bytes.length ≤ 20
  | .trackerByte _ => true

end Sys2Proof
end

