-- ==== Sys2Proof/Certificates/Slice0/Obligations.lean ====
section
/-! DEFINITION. The statements about the part for the provers: what a step does, what the machine's own tests do, what
each command's row does to State, and what every step keeps. In most of them `Effect i s e` says that the step makes
`e` of the state and then runs the tests `e` has prompted, and `e` is written out in full, which is also the frame: a field
that is not written is unchanged. -/

section Slice0

open Sys2Proof Sys2Proof.Machine

/-! ### A step, reset, and what every step keeps -/

/-- A step with a command at the front of the queue is that command on the state with the queue's rest. -/
def Obligations.StepRunsTheFrontCommand : Prop :=
  ∀ (c : Instr) (rest : List Instr) (s : State),
    step { s with pending := c :: rest } = exec c { s with pending := rest }

/-- The model's choice (log entry 1): on an empty queue the part takes the oldest command of its command queue where a
reply place is free, else fires the timer that is due, else lets 1 ms pass. -/
def Obligations.StepOnAnEmptyQueue : Prop :=
  ∀ s : State, s.pending = [] →
    (∀ c rest, s.scp.commands = c :: rest → s.scp.outbound.length < 32 → step s = exec (s.rowOf c) s)
    ∧ (s.scp.commands = [] ∨ 32 ≤ s.scp.outbound.length →
        (∀ i, s.timerDue = some i → step s = exec i s)
        ∧ (s.timerDue = none → step s = .next { s with now := s.now + 1 }))

/-- Every command in every state answers a next state; the waiting commands stand, the clock does not go back, and
what has been sent on the two lines stays sent. -/
def Obligations.EveryCommandCompletes : Prop :=
  ∀ (i : Instr) (s : State), ∃ t, exec i s = .next t ∧ t.pending = s.pending ∧ s.now ≤ t.now
    ∧ s.hostTx <+: t.hostTx ∧ s.loopTx <+: t.loopTx

/-- What reset leaves, block by block, as the reset rules state it (R32, R51, R67, R99, R116, R144, R157, R174, R176,
R177, R186, R187, R200, R203). The model's choices in it: the bit rate, the absent persistent ceiling and the store that
has never been saved (log entry 5); phase DUE and attempt 1 of the routine, and the receivers' gap moment and loop bytes
(log entry 20); the stored pose of a point (log entry 14); the clock, the log of the host line and the queue of steps (log
entries 1, 2 and 24). -/
def Obligations.ResetLeaves : Prop :=
  let s := State.reset
  (s.pls.lead = 64 ∧ s.pls.run = 896 ∧ s.pls.tail = 64 ∧ s.pls.plan = [] ∧ s.pls.ringHead = 0 ∧ s.pls.ringCount = 0
    ∧ (∀ c, s.classAt c = ⟨0, 0, 0, 0, 0, false, false⟩) ∧ (∀ lane, s.stockOf lane = 0) ∧ s.pls.ceiling = 96
    ∧ s.pls.frozen = false ∧ s.pls.storedCeiling = none ∧ s.pls.latches = [])
  ∧ (s.rcu.mode = .idle ∧ s.rcu.deploy = false ∧ s.rcu.holds = .none ∧ s.rcu.inspects = [] ∧ s.rcu.haltPending = false
    ∧ s.rcu.stranded = [] ∧ s.rcu.station = 0 ∧ s.rcu.baseX = 0 ∧ s.rcu.baseY = 0 ∧ s.rcu.baseZ = 0
    ∧ s.rcu.marker = none)
  ∧ (s.rsl.active = none ∧ s.rsl.lookahead = false ∧ s.rsl.stall = false ∧ s.rsl.starved = [])
  ∧ ((∀ u, s.unitFree u = true ∧ s.tagOf u = 0) ∧ s.sli.boomWaiting = none ∧ s.sli.stale = 0 ∧ s.sli.rx = []
    ∧ s.loopTx = stopFrame)
  ∧ ((∀ b, s.carrierAt b = none) ∧ s.btc.releases = 0 ∧ s.btc.bin = 0)
  ∧ (s.trk.framing = .hunt ∧ s.trk.complemented = false ∧ s.trk.buffer = [] ∧ s.trk.idleRun = 0 ∧ s.trk.inverted = false
    ∧ s.trk.polarityRun = 0 ∧ s.trk.locked = false ∧ s.trk.acquired = 0 ∧ s.trk.expected = none ∧ s.trk.window = none
    ∧ s.trk.windowCount = 0 ∧ s.trk.frameErrors = 0 ∧ s.trk.falseStarts = 0)
  ∧ (s.hsq.head = .vacant ∧ s.hsq.carrier = none ∧ s.hsq.orderSent = false ∧ s.hsq.dumpPending = false
    ∧ s.hsq.atReceive = false ∧ s.hsq.settleCount = 0 ∧ s.hsq.gustRun = 0 ∧ s.hsq.latch = none ∧ s.hsq.gustCount = 0
    ∧ s.hsq.gustReduced = false ∧ s.hsq.gustTimer = none ∧ s.hsq.lockHoldTimer = none ∧ s.hsq.measuringTimer = none
    ∧ s.hsq.lockout = none ∧ s.hsq.outcome = .clear)
  ∧ ((∀ k, s.dfu.point k = ⟨0, 0⟩) ∧ s.dfu.valid = false ∧ s.dfu.pendingPoints = [] ∧ s.dfu.cal = .none
    ∧ s.dfu.samples = [] ∧ s.dfu.limitTimer = none ∧ s.dfu.slew = .none ∧ s.dfu.cause = none
    ∧ s.dfu.phase = .due ∧ s.dfu.attempt = 1 ∧ s.dfu.pointPose = ⟨0, 0, 0, 0⟩)
  ∧ (s.hmn.live = ⟨⟨0, 200000, false⟩, ⟨0, 4000, false⟩, ⟨0, 20, false⟩, ⟨0, 10, false⟩, ⟨0, 50, false⟩,
      ⟨0, 500, false⟩, ⟨0, 300, false⟩⟩
    ∧ s.hmn.stored = ⟨⟨0, 200000⟩, ⟨0, 4000⟩, ⟨0, 20⟩, ⟨0, 10⟩, ⟨0, 50⟩, ⟨0, 500⟩, ⟨0, 300⟩⟩)
  ∧ (s.scp.rx = .hunt ∧ s.scp.commands = [] ∧ s.scp.outbound = [] ∧ s.scp.sequence = 0 ∧ s.scp.batch = []
    ∧ s.scp.frameErrors = 0 ∧ s.scp.lost = 0 ∧ s.scp.rxBytes = [] ∧ s.scp.rxLast = 0 ∧ s.scp.bitRate = 115200
    ∧ s.scp.config = ⟨.asc, true, 15, 10, 5, 90, 8, 40, .auto, 1, false⟩)
  ∧ s.pending = [] ∧ s.now = 0 ∧ s.hostTx = []

/-- The bounds of `State.Sound` and the agreement of the blocks of `State.Orderly` hold at reset. -/
def Obligations.ResetIsSound : Prop := State.reset.Sound ∧ State.reset.Orderly

/-- Every step keeps the bounds of `State.Sound`: the partition sums to 1024, the ring lies in it, the ceilings are at
most 96, the tables keep one record per slot, unit and berth, queues and counts stay within their sizes. And every step
keeps the agreement of the blocks of `State.Orderly`: the bin holds at most 24 bricks (R88), no carrier stands in a
stranded berth (R68), a hold reason stands in HOLDING alone and a stranded berth in HOLDING and ABORTED alone (R162), an
entry is IN_TRAIN exactly while one carrier names it (R44), and every order in flight is one that something waits for
(R53). -/
def Obligations.StepKeepsSound : Prop :=
  (∀ s t : State, s.Sound → step s = .next t → t.Sound)
  ∧ (∀ s t : State, s.Sound → s.Orderly → step s = .next t → t.Orderly)

/-! ### The machine's own tests -/

/-- Transfers: a carrier is transferred when its condition holds (R78), and then it is LEAVING and MOVE goes to its
unit, and nothing else changes; after the test of every berth no carrier is left whose condition holds (R79). -/
def Obligations.TransferableCarriersMove : Prop :=
  (∀ (s : State) (b : Nat), b < 9 →
    (s.transferable b = true ↔
      (∃ c, s.carrierAt b = some c ∧ c.phase = .ready)
      ∧ (s.rcu.mode = .laying ∨ s.rcu.mode = .draining)
      ∧ (s.carrierAt (b + 1) = none ∧ s.reserved (b + 1) = false ∧ (b + 1) ∉ s.rcu.stranded)
      ∧ s.flight (xferUnit b) = none
      ∧ (b = 8 → s.hsq.head = .vacant ∧ s.hsq.atReceive = true ∧ s.carrierAt 9 = none)))
  ∧ (∀ (e : Ev) (b : Nat) (c : Carrier), e.carrierAt b = some c →
    (e.transferable b = true →
      e.transfer b = { e with toState := (e.withCarrier b { c with phase := .leaving }).launched (xferUnit b) .move .btc })
    ∧ (e.transferable b = false → e.transfer b = e))
  ∧ (∀ (e : Ev) (b : Nat), b < 9 → e.runTransfers.transferable b = false)

/-- What the candidates are, and their lay order: course, region, seq in the direction of the course, slot (R37). -/
def Obligations.CandidatesInLayOrder : Prop :=
  ∀ s : State,
    (∀ p, p ∈ s.candidates ↔ p ∈ s.pls.plan ∧ p.2.state = .planned ∧ p.2.station = s.rcu.station
      ∧ ∃ a, s.rsl.active = some a ∧ (p.2.course = a ∨ (s.rsl.lookahead = true ∧ p.2.course = a + 1)))
    ∧ s.candidates.Pairwise fun p q =>
        p.2.course < q.2.course ∨ p.2.course = q.2.course ∧
          ((s.pls.region p.1).code < (s.pls.region q.1).code ∨ s.pls.region p.1 = s.pls.region q.1 ∧
            ((if s.pls.region p.1 = .run ∧ s.direction p.2.course = .desc then q.2.seq < p.2.seq
                else p.2.seq < q.2.seq)
              ∨ p.2.seq = q.2.seq ∧ p.1 ≤ q.1))

/-- The region gates (R38), the bearer condition (R40) and the machine conditions (R41), each as the condition whose
failure is a blocking reason; the reason of a candidate is the first that fails, and none for an eligible one (R39,
R48). -/
def Obligations.EligibilityAndBlockingReason : Prop :=
  (∀ (s : State) (slot : Nat) (en : Entry),
    let planned (r : Region) := ∃ p ∈ s.pls.plan,
      p.2.state = .planned ∧ p.2.station = s.rcu.station ∧ p.2.course = en.course ∧ s.pls.region p.1 = r
    (s.meets (slot, en) .ceiling = true ↔ en.course ≤ s.pls.ceiling)
    ∧ (s.meets (slot, en) .hold = true ↔ en.marks.hold = false)
    ∧ (s.meets (slot, en) .region = true ↔
      (s.pls.region slot = .run → ¬planned .lead) ∧ (s.pls.region slot = .tail → ¬planned .lead ∧ ¬planned .run))
    ∧ (s.meets (slot, en) .bearer = true ↔
      ∀ b ∈ en.bearers, ∃ eb, s.entryAt b = some eb ∧
        (eb.state = .placed ∨ eb.state = .skipped
          ∨ (eb.state = .inTrain ∧ ∃ k ∈ s.btc.train, k.2.slot = b ∧ k.2.condemned = none)))
    ∧ (s.meets (slot, en) .stock = true ↔ 1 ≤ s.stockOf (s.classAt en.cls).lane)
    ∧ (s.meets (slot, en) .sawWorn = true ↔ en.cut = none ∨ s.hmn.live.sawCuts.crossed = false)
    ∧ (s.meets (slot, en) .reach = true ↔
      40000 ^ 2 ≤ (en.target.x - s.rcu.baseX) ^ 2 + (en.target.y - s.rcu.baseY) ^ 2
      ∧ (en.target.x - s.rcu.baseX) ^ 2 + (en.target.y - s.rcu.baseY) ^ 2 ≤ 250000 ^ 2))
  ∧ (∀ (s : State) (p : Nat × Entry), s.blockOf p =
      if s.meets p .ceiling = false then some .ceiling
      else if s.meets p .hold = false then some .hold
      else if s.meets p .region = false then some .region
      else if s.meets p .bearer = false then some .bearer
      else if s.meets p .stock = false then some .stock
      else if s.meets p .sawWorn = false then some .sawWorn
      else if s.meets p .reach = false then some .reach
      else none)

/-- A release (R44, R70): the entry is IN_TRAIN, its lane's stock is one less, berth 0 holds the new carrier with the
next release number, LOAD is in flight at PICK, and the stall latch is clear; the starved latches stand. -/
def Obligations.ReleaseClaimsTheEntry : Prop :=
  ∀ (e : Ev) (slot : Nat) (en : Entry), e.entryAt slot = some en →
    let lane := (e.classAt en.cls).lane
    let t := e.release slot en
    t.pls.plan = Table.write e.pls.plan slot { en with state := .inTrain }
    ∧ t.pls.stocks = Table.writeD e.pls.stocks lane (e.stockOf lane - 1) 0
    ∧ t.btc.train = Table.write e.btc.train 0 ⟨e.btc.releases, slot, .working, none, false, none⟩
    ∧ t.btc.releases = e.btc.releases + 1 ∧ t.btc.bin = e.btc.bin
    ∧ t.sli = (e.toState.launched pickUnit (.load lane) .rsl).sli
    ∧ t.loopTx = e.loopTx ++ (Order.load lane).frame pickUnit (e.tagOf pickUnit)
    ∧ t.rsl.stall = false ∧ t.rsl.starved = e.rsl.starved
    ∧ t.rcu = e.rcu ∧ t.trk = e.trk ∧ t.dfu = e.dfu ∧ t.hmn = e.hmn ∧ t.now = e.now

/-- A selection (R42): where the four release conditions hold, the STARVED test runs, the first eligible candidate is
released, or the stall test runs where none is; where one fails nothing is released; the station test follows always.
The standstill tests: the STARVED report and its latch (R50), and the STALLED report and its latch (R49), with the
counts over the station, the candidates under each blocking reason and the lanes short of stock. -/
def Obligations.SelectionReleasesOrReports : Prop :=
  (∀ e : Ev,
    let may := e.rcu.mode = .laying ∧ e.carrierAt 0 = none ∧ 0 ∉ e.rcu.stranded ∧ e.flight pickUnit = none
    e.runSelection = e.selectRelease.stationTest
    ∧ (¬may → e.selectRelease = e)
    ∧ (may → ∀ before p after, e.candidates = before ++ p :: after → e.blockOf p = none →
        (∀ q ∈ before, e.blockOf q ≠ none) → e.selectRelease = (e.starvedTest e.candidates).release p.1 p.2)
    ∧ (may → (∀ q ∈ e.candidates, e.blockOf q ≠ none) →
        e.selectRelease = (e.starvedTest e.candidates).stallTest e.candidates))
  ∧ (∀ e : Ev,
    (∀ before p after, e.candidates = before ++ p :: after → (∀ q ∈ before, q.2.marks.hold = true) →
      p.2.marks.hold = false →
      let lane := (e.classAt p.2.cls).lane
      let short := e.meets p .stock = false ∧ ∀ b, b ≠ Block.stock → e.meets p b = true
      (short ∧ lane ∉ e.rsl.starved →
        e.starvedTest e.candidates =
          (e.report (.starved lane (e.stockOf lane) p.1)).onRsl fun r => { r with starved := setAdd r.starved lane })
      ∧ (¬(short ∧ lane ∉ e.rsl.starved) → e.starvedTest e.candidates = e))
    ∧ ((∀ q ∈ e.candidates, q.2.marks.hold = true) → e.starvedTest e.candidates = e)
    ∧ (let stalled := e.btc.train = [] ∧ e.hsq.head = .vacant ∧ e.rsl.stall = false
        ∧ ∃ p ∈ e.pls.plan, p.2.station = e.rcu.station ∧ p.2.state = .planned
      let atStation (st : EntryState) :=
        (e.pls.plan.filter fun p => decide (p.2.station = e.rcu.station ∧ p.2.state = st)).length
      let blocked := [Block.ceiling, .hold, .region, .bearer, .stock, .sawWorn, .reach].map fun b =>
        (e.candidates.filter fun p => decide (e.blockOf p = some b)).length
      let short := (List.range 8).filter fun lane => decide (∃ p ∈ e.candidates,
        e.blockOf p = some .stock ∧ (e.classAt p.2.cls).lane = lane)
      (stalled → e.stallTest e.candidates =
        (e.report (.stalled e.rcu.station e.rsl.active (atStation .planned) (atStation .faulted) blocked short)).onRsl
          fun r => { r with stall := true })
      ∧ (¬stalled → e.stallTest e.candidates = e)))

/-- The active course is the lowest course among the entries of the current station that are PLANNED, IN_TRAIN or
FAULTED, or absent where there is none (R33); a recomputation takes that value, sets the lookahead flag by R35, and
leaves the Plan Store but its latches, the train, orders, modes, tracker, deflection tables and wear counts as they
are; a latch that is absent takes its direction from the settings (R36). A change of it makes the gust count 0 and
prompts a selection (R34, R139); a rise not made by ADV or a soft reset finishes the course (R46): the flush, the
COURSE report, and the end of gust-reduced rate with its RATE report (R139, R140). -/
def Obligations.ActiveCourseAndLookahead : Prop :=
  (∀ (s : State),
    let holds (c : Nat) := ∃ p ∈ s.pls.plan, p.2.station = s.rcu.station ∧ p.2.course = c
      ∧ (p.2.state = .planned ∨ p.2.state = .inTrain ∨ p.2.state = .faulted)
    (s.lowestCourse = none ↔ ∀ c, ¬holds c)
    ∧ (∀ a, s.lowestCourse = some a ↔ holds a ∧ ∀ c, holds c → a ≤ c)
    ∧ (s.lookaheadOpen = true ↔ ∃ a, s.rsl.active = some a ∧ a < 255
      ∧ ∀ p ∈ s.pls.plan, p.2.station = s.rcu.station → p.2.course = a → p.2.state ≠ .planned))
  ∧ (∀ (e : Ev) (by_ : Refresh),
      let t := e.refreshCourse by_
      t.rsl.active = e.lowestCourse ∧ t.rsl.lookahead = t.lookaheadOpen ∧ t.rsl.stall = e.rsl.stall
      ∧ t.rsl.starved = e.rsl.starved ∧ { t.pls with latches := e.pls.latches } = e.pls ∧ t.btc = e.btc
      ∧ t.sli = e.sli ∧ t.loopTx = e.loopTx ∧ t.rcu = e.rcu ∧ t.trk = e.trk ∧ t.dfu = e.dfu ∧ t.hmn = e.hmn
      ∧ t.now = e.now ∧ t.scp.commands = e.scp.commands ∧ t.scp.config = e.scp.config)
  ∧ (∀ (e : Ev) (course : Nat), Table.read e.pls.latches course = none →
      let dir := if e.scp.config.alternate = true ∧ course % 2 = 1 then e.scp.config.layDir.opposite
        else e.scp.config.layDir
      e.setLatch course = { e with pls := { e.pls with latches := Table.write e.pls.latches course dir } })
  ∧ (∀ (e : Ev) (course : Nat) (d : Dir), Table.read e.pls.latches course = some d → e.setLatch course = e)
  ∧ (∀ (e : Ev) (by_ : Refresh),
      let t := e.refreshCourse by_
      let new := e.lowestCourse
      let seen : Ev := { e with rsl := { e.rsl with active := new } }
      let changed := e.rsl.active ≠ new ∨ by_ = .adv
      (∀ c, by_ = .event → e.rsl.active = some c → (∀ d, new = some d → c < d) →
        t.scp = (seen.finishCourse c).scp ∧ t.hsq = { (seen.finishCourse c).hsq with gustCount := 0 })
      ∧ (by_ ≠ .event ∨ e.rsl.active = none ∨ (∃ c d, e.rsl.active = some c ∧ new = some d ∧ d ≤ c) →
        t.scp = e.scp ∧ (changed → t.hsq = { e.hsq with gustCount := 0 }) ∧ (¬changed → t.hsq = e.hsq))
      ∧ (t.selDue = true ↔ e.selDue = true ∨ changed)
      ∧ (∀ course,
        let opened := new = some course ∨ (t.rsl.lookahead = true ∧ ∃ a, new = some a ∧ course = a + 1)
        (Table.read e.pls.latches course ≠ none ∨ ¬opened →
          Table.read t.pls.latches course = Table.read e.pls.latches course)
        ∧ (Table.read e.pls.latches course = none → opened → Table.read t.pls.latches course =
          some (if e.scp.config.alternate = true ∧ course % 2 = 1 then e.scp.config.layDir.opposite
            else e.scp.config.layDir))))
  ∧ (∀ (e : Ev) (c : Nat),
      let count (f : Entry → Bool) :=
        (e.pls.plan.filter fun p => decide (p.2.station = e.rcu.station ∧ p.2.course = c) && f p.2).length
      let flagged (en : Entry) : Bool := match en.outcome with
        | none => false
        | some o => o.unverified || o.pressCut || o.outOfTolerance
      let told := e.flush.report (.course e.rcu.station c (count fun en => decide (en.state = .placed))
        (count fun en => decide (en.state = .skipped)) (count fun en => decide (en.state = .placed) && flagged en))
      let off : Ev := { told with hsq := { told.hsq with gustReduced := false } }
      let turns := e.scp.config.rate = .auto ∧ e.hsq.gustReduced = true
      (turns → e.finishCourse c = off.report (.rate false .courseEnd e.rsl.active e.hsq.gustCount))
      ∧ (¬turns → e.finishCourse c = off))

/-- A change of an entry's state prompts a selection where the entry is of the current station (R43), and the head's
test where the entry is a bearer it waits for in READY_TO_PRESS (R128); it changes that entry alone. The retest of
READY_TO_PRESS presses where every condition of R127 holds, and else changes nothing (R128). At the end of an event the
prompted tests run in the order retest, transfers, selection, draining (log entry 10). -/
def Obligations.EntryChangePrompts : Prop :=
  (∀ (e : Ev) (slot : Nat) (en : Entry) (f : Entry → Entry), e.entryAt slot = some en →
    let t := e.changeEntry slot f
    t.toState = e.toState.withEntry slot (f en)
    ∧ (t.selDue = true ↔ e.selDue = true ∨ en.station = e.rcu.station)
    ∧ (t.retestDue = true ↔ e.retestDue = true ∨ (e.hsq.head = .readyToPress ∧ ∃ c, e.hsq.carrier = some c
        ∧ ∃ h, t.entryAt c.slot = some h ∧ slot ∈ h.bearers))
    ∧ t.xferDue = e.xferDue ∧ t.drainDue = e.drainDue ∧ t.replyDue = e.replyDue)
  ∧ (∀ e : Ev,
    let allowed := (e.rcu.mode = .laying ∨ e.rcu.mode = .draining) ∧ e.trk.locked = true
      ∧ (∃ l, e.hsq.latch = some l ∧ l.target ≤ e.hsq.settleCount)
      ∧ (∃ k, e.hsq.carrier = some k ∧ k.condemned = none ∧ k.expired = false) ∧ e.hsq.lockout = none
      ∧ ∃ en, e.headEntry = some en ∧ ∀ slot ∈ en.bearers, ∃ b, e.entryAt slot = some b
        ∧ (b.state = .placed ∨ b.state = .skipped)
    let pressing : Ev := { e with hsq := { e.hsq with head := .pressing, orderSent := false } }
    (e.hsq.head ≠ .readyToPress ∨ ¬allowed → e.retestPress = e)
    ∧ (∀ c, e.hsq.head = .readyToPress → allowed → e.carrierAt 9 = some c → e.flight pressUnit = none →
        e.retestPress = { pressing with toState :=
          { (pressing.toState.withCarrier 9 { c with deadline := none }).launched pressUnit .press .hsq with
            hsq := { pressing.hsq with orderSent := true } } }))
  ∧ (∀ e : Ev,
    let e1 := if e.retestDue then e.retestPress else e
    let e2 := if e1.xferDue then e1.runTransfers else e1
    let e3 := if e2.selDue then e2.runSelection else e2
    e.finish = if e3.drainDue then e3.drainTest else e3)

/-- The ends of a run: the station test (R47) with its STATION report, the draining test (R168), and the entry into
settled IDLE they make, with its effects in order (R160): the deploy interval and halt-pending clear, the flush, the health
save (R186), the MODE report (R161), and a SUSPENDED routine RUNNING again at its point, with attempt 1 in phase DUE, its
slew sent where BOOM is free (R155, R149); that the pose sent is stored as the point's is the model's choice (log entry 14).
A MODE report of a change other than an entry into LAYING or DRAINING carries the
mode, the deploy interval, the hold-reason set, halt-pending and the stranded berths as they stand when it is queued; the
tests at the end of an event leave the hold-reason set as it is. -/
def Obligations.RunEndsInSettledIdle : Prop :=
  ∀ e : Ev,
    let complete := (e.rcu.mode = .laying ∨ e.rcu.mode = .draining) ∧ e.rsl.active = none ∧ e.btc.train = []
      ∧ e.hsq.head = .vacant
    let drained := e.rcu.mode = .draining ∧ e.btc.train = [] ∧ e.hsq.head = .vacant ∧ e.hsq.atReceive = true
    let atStation (st : EntryState) :=
      (e.pls.plan.filter fun p => decide (p.2.station = e.rcu.station ∧ p.2.state = st)).length
    (complete → e.stationTest =
      (e.report (.station e.rcu.station (atStation .placed) (atStation .skipped))).enterIdle .station)
    ∧ (¬complete → e.stationTest = e)
    ∧ (drained → e.drainTest = e.enterIdle .drained) ∧ (¬drained → e.drainTest = e)
    ∧ (∀ cause previous, e.modeReport cause previous =
        e.report (.mode e.rcu.mode previous e.rcu.deploy cause e.rcu.holds e.rcu.haltPending e.rcu.stranded))
    ∧ e.finish.rcu.holds = e.rcu.holds
    ∧ (∀ a, e.hmn.live.saved.read a = ⟨(e.hmn.live.read a).value, (e.hmn.live.read a).threshold⟩)
    ∧ (∀ cause,
      let flushed := { e with rcu := { e.rcu with mode := .idle, deploy := false, haltPending := false } }.flush
      let told := { flushed with hmn := { e.hmn with stored := e.hmn.live.saved } }.report
        (.mode .idle e.rcu.mode false cause e.rcu.holds false e.rcu.stranded)
      ((∀ k, e.dfu.cal ≠ .suspended k) → e.enterIdle cause = told)
      ∧ (∀ k, e.dfu.cal = .suspended k →
          let due : Dfu := { e.dfu with cal := .running k, attempt := 1, phase := .due }
          let pose : Pose := ⟨e.rcu.baseX + (40000 + 30000 * k), e.rcu.baseY, e.rcu.baseZ + 15000, 0⟩
          (e.flight boomUnit ≠ none → e.enterIdle cause = { told with dfu := due })
          ∧ (e.flight boomUnit = none → e.enterIdle cause = { told with
              toState := { told.toState.launched boomUnit (.slew pose .full) .dfu with
                hsq := { e.hsq with atReceive := false }
                dfu := { due with phase := .slewing, slew := .current, pointPose := pose } } })))

/-- A report takes its sequence number and a place, or is dropped and counted (R194, R195); a reply takes a place, and
the previous-command marker then holds its kind (R14, R194). A placement's outcome joins the pending batch; at the
batch size, and at a flush, the batch goes out as one PLACED report with its outcomes in order, and is empty (R196). -/
def Obligations.ReportsRepliesAndTheBatch : Prop :=
  (∀ (e : Ev) (r : Report),
    let room := e.scp.outbound.length < 32 ∧ e.scp.reportCount < 28 ∧ (e.replyDue = true → e.scp.outbound.length < 31)
    (room → e.report r = { e with scp := { e.scp with
      outbound := e.scp.outbound ++ [.report e.scp.sequence r], sequence := e.scp.sequence + 1 } })
    ∧ (¬room → e.report r = { e with scp := { e.scp with
      lost := if e.scp.lost < 65535 then e.scp.lost + 1 else e.scp.lost, sequence := e.scp.sequence + 1 } }))
  ∧ (∀ (e : Ev) (c : HostCommand) (st : Status) (results : List Byte), e.scp.outbound.length < 32 →
      e.reply c st results = { e with
        scp := { e.scp with outbound := e.scp.outbound ++ [.reply c.kind c.tag st results] }
        rcu := { e.rcu with marker := some c.kind }
        replyDue := false })
  ∧ (∀ e : Ev, (e.scp.batch = [] → e.flush = e)
    ∧ (e.scp.batch ≠ [] →
        e.flush = (e.report (.placed e.scp.batch)).onScp fun p => { p with batch := [] }))
  ∧ (∀ (e : Ev) (slot : Nat) (o : LaidOutcome),
      let joined := { e with scp := { e.scp with batch := e.scp.batch ++ [(slot, o)] } }
      e.onScp (Scp.handOver e.replyDue slot o) =
        if e.scp.batch.length + 1 < e.scp.config.batch then joined else joined.flush)

/-- A claim that raises a hold reason (R162): in LAYING and DRAINING the mode becomes HOLDING, the reason and the slot
join, DRAINING sets halt-pending, the gust and lock-hold timers stop (R141), the batch is flushed and a MODE report
queued; in HOLDING the reason and the slot join; in every other mode nothing changes. -/
def Obligations.HoldReasonsJoin : Prop :=
  ∀ (e : Ev) (h : Hold) (slot : Option Nat),
    (e.rcu.mode = .laying ∨ e.rcu.mode = .draining →
      e.raiseHold h slot =
        ({ e with
            rcu := { e.rcu with mode := .holding, holds := e.rcu.holds.put h true,
                                inspects := addInspect slot e.rcu.inspects,
                                haltPending := e.rcu.haltPending || e.rcu.mode == Mode.draining }
            hsq := { e.hsq with gustTimer := none, lockHoldTimer := none } }.flush).modeReport (.hold h) e.rcu.mode)
    ∧ (e.rcu.mode = .holding →
      e.raiseHold h slot =
        { e with rcu := { e.rcu with holds := e.rcu.holds.put h true, inspects := addInspect slot e.rcu.inspects } })
    ∧ (e.rcu.mode ≠ .laying → e.rcu.mode ≠ .draining → e.rcu.mode ≠ .holding → e.raiseHold h slot = e)

/-- A wear event: the value rises by one, and at 999999 stays (R177, R178); a count whose crossed flag is clear and
whose threshold is met has the flag set, its effect made (R181, R182) and a HEALTH report queued (R179, R180). -/
def Obligations.WearIsCounted : Prop :=
  ∀ (e : Ev) (a : Attr),
    let r := e.hmn.live.read a
    let counted (crossed : Bool) : Ev :=
      { e with hmn := { e.hmn with live := e.hmn.live.write a ⟨r.value + 1, r.threshold, crossed⟩ } }
    (999999 ≤ r.value → e.countWear a = e)
    ∧ (r.value < 999999 → r.crossed = false → (r.threshold = 0 ∨ r.value + 1 < r.threshold) →
        e.countWear a = counted false)
    ∧ (r.value < 999999 → r.crossed = true → r.threshold ≠ 0 → r.threshold ≤ r.value + 1 →
        e.countWear a = counted true)
    ∧ (r.value < 999999 → r.crossed = false → r.threshold ≠ 0 → r.threshold ≤ r.value + 1 →
        e.countWear a = ((match a with
          | .glueFaults => (counted true).raiseHold .glue none
          | .pressCutoffs => (counted true).raiseHold .press none
          | _ => counted true).report (.health a (r.value + 1) r.threshold .count)))

/-! ### The host line and the command queue -/

/-- A good host frame that comes in HUNT (R189, R191): its command joins the command queue where that holds fewer than
4, else it is answered BUSY where the outbound queue has a place, else it is an overrun, counted and without a reply. -/
def Obligations.GoodHostFrameIsOffered : Prop :=
  ∀ (s : State) (kind tag : Byte) (payload : List Byte), s.scp.rx = .hunt → payload.length ≤ 1024 →
    let frame := Instr.hostFrame (hostFrameBytes kind tag payload)
    let heard := { s.scp with rxBytes := [], rxLast := s.now }
    (s.scp.commands.length < 4 →
      exec frame s = .next { s with scp := { heard with commands := s.scp.commands ++ [⟨kind, tag, payload⟩] } })
    ∧ (4 ≤ s.scp.commands.length → s.scp.outbound.length < 32 →
      exec frame s = .next { s with scp := { heard with outbound := s.scp.outbound ++ [.reply kind tag .busy []] } })
    ∧ (4 ≤ s.scp.commands.length → 32 ≤ s.scp.outbound.length →
      exec frame s = .next { s with scp := { heard with frameErrors := satUp s.scp.frameErrors } })

/-- The receive errors of R190 and the bytes of HUNT (R189): a bad check and a bad length raise the frame-error count
and restart hunting after the bytes named; a byte other than A5h in HUNT is discarded without a count; after a gap of
more than 20 ms inside a frame hunting restarts with the byte that ends it, and in HUNT there is no gap rule. A gap
completes whatever bytes follow it; it is counted at the byte that ends it (log entry 28), which is discarded, opens a
frame, or is the first of a good frame that is then offered. -/
def Obligations.HostReceiveErrors : Prop :=
  (∀ (s : State) (kind tag c0 c1 : Byte) (payload : List Byte), s.scp.rx = .hunt →
    payload.length ≤ 1024 →
    let body := le 2 (payload.length + 2) ++ kind :: tag :: payload
    unle [c0, c1] ≠ crc16 body →
      exec (.hostFrame (0xA5 :: body ++ [c0, c1])) s =
        .next { s with scp := { s.scp with rxBytes := [], rxLast := s.now, frameErrors := satUp s.scp.frameErrors } })
  ∧ (∀ (s : State) (n : Nat), s.scp.rx = .hunt → n < 65536 → n < 2 ∨ 1026 < n →
      exec (.hostFrame (0xA5 :: le 2 n)) s =
        .next { s with scp := { s.scp with rxBytes := [], rxLast := s.now, frameErrors := satUp s.scp.frameErrors } })
  ∧ (∀ (s : State) (b : Byte), s.scp.rx = .hunt → b ≠ 0xA5 →
      exec (.hostFrame [b]) s = .next { s with scp := { s.scp with rxLast := s.now } })
  ∧ (∀ (s : State) (b : Byte) (more : List Byte), s.scp.rx ≠ .hunt →
      exec (.hostGap (b :: more)) s =
        exec (.hostFrame (b :: more))
          { s with
            now := max s.now (s.scp.rxLast + 21)
            scp := { s.scp with rx := .hunt, rxBytes := [], frameErrors := satUp s.scp.frameErrors } })
  ∧ (∀ (s : State) (bytes : List Byte), s.scp.rx = .hunt →
      exec (.hostGap bytes) s = exec (.hostFrame bytes) s)
  ∧ (∀ (s : State) (bytes : List Byte), ∃ t, exec (.hostGap bytes) s = .next t
      ∧ t = { s with now := if s.scp.rx = .hunt then s.now else max s.now (s.scp.rxLast + 21), scp := t.scp })
  ∧ (∀ s : State, (s.scp.rx = .hunt → exec (.hostGap []) s = .next s)
      ∧ (s.scp.rx ≠ .hunt → exec (.hostGap []) s = .next { s with now := max s.now (s.scp.rxLast + 21) }))
  ∧ (∀ s : State, s.scp.rx ≠ .hunt →
      let later := max s.now (s.scp.rxLast + 21)
      let hunting : Scp := { s.scp with rx := .hunt, rxBytes := [], rxLast := later, frameErrors := satUp s.scp.frameErrors }
      (∀ b : Byte, b ≠ 0xA5 → exec (.hostGap [b]) s = .next { s with now := later, scp := hunting })
      ∧ exec (.hostGap [0xA5]) s = .next { s with now := later, scp := { hunting with rx := .length } }
      ∧ (∀ (kind tag : Byte) (payload : List Byte), payload.length ≤ 1024 →
          let frame := Instr.hostGap (hostFrameBytes kind tag payload)
          (s.scp.commands.length < 4 → exec frame s = .next { s with
            now := later, scp := { hunting with commands := s.scp.commands ++ [⟨kind, tag, payload⟩] } })
          ∧ (4 ≤ s.scp.commands.length → s.scp.outbound.length < 32 → exec frame s = .next { s with
            now := later, scp := { hunting with outbound := s.scp.outbound ++ [.reply kind tag .busy []] } })
          ∧ (4 ≤ s.scp.commands.length → 32 ≤ s.scp.outbound.length → exec frame s = .next { s with
            now := later, scp := { hunting with frameErrors := satUp (satUp s.scp.frameErrors) } })))

/-- MESSAGE_SENT (R194): the oldest outbound message has been sent whole and its place is free; the frame is that of
R204, a reply's with its status before its results, a report's with its kind, tag 0 and its sequence number before its
fields. The kind and the fields of each report, and the codes in them, are as R205 and R206 lay them out; numbers go low
byte first (R204), a set of numbers with n at bit n. A signed quantity that does not fit is a free value (log entry 3). -/
def Obligations.OldestMessageIsSent : Prop :=
  (∀ (s : State) (m : Message) (rest : List Message), s.scp.outbound = m :: rest →
    exec .messageSent s =
      .next { s with scp := { s.scp with outbound := rest }, hostTx := s.hostTx ++ m.bytes })
  ∧ (∀ s : State, s.scp.outbound = [] → exec .messageSent s = .next s)
  ∧ (∀ (kind tag : Byte) (st : Status) (rs : List Byte),
      (Message.reply kind tag st rs).bytes = hostFrameBytes kind tag (byte st.code :: rs))
  ∧ (∀ seq : Word16,
    let sends (r : Report) (kind : Byte) (fields : List Byte) :=
      (Message.report seq r).bytes = hostFrameBytes kind 0 (le 2 seq.toNat ++ fields)
    let course (c : Option Nat) : List Byte := le 2 (c.getD 0xFFFF)
    let outcome (o : LaidOutcome) : List Byte :=
      byte (o.unverified.toNat + 2 * o.pressCut.toNat + 4 * o.outOfTolerance.toNat + 64 * o.offset.isSome.toNat + 128)
        :: match o.offset with
          | none => []
          | some d => le32s d.dx ++ le32s d.dy ++ le32s d.dz ++ le16s d.dyaw
    (∀ os, sends (.placed os) 0x80 (byte os.length :: os.flatMap fun o => le 2 o.1 ++ outcome o.2))
    ∧ (∀ slot release reason expired rejects, sends (.rejected slot release reason expired rejects) 0x81
        (le 2 slot ++ [release, byte (Reason.code reason), flagByte expired, byte rejects]))
    ∧ (∀ slot, sends (.faulted slot) 0x82 (le 2 slot))
    ∧ (∀ slots, sends (.skipped slots) 0x83 (byte slots.length :: slots.flatMap (le 2)))
    ∧ (∀ slots, sends (.waived slots) 0x84 (byte slots.length :: slots.flatMap (le 2)))
    ∧ (∀ mode previous deploy cause holds halt stranded,
        sends (.mode mode previous deploy cause holds halt stranded) 0x85
          ([byte mode.code, byte previous.code, flagByte deploy, byte cause.code, byte holds.code, flagByte halt]
            ++ le 2 (bitSet stranded)))
    ∧ (∀ lost sequence count inverted, sends (.lock lost sequence count inverted) 0x86
        (flagByte lost :: (le 2 sequence.toNat ++ [byte count, flagByte inverted])))
    ∧ (∀ lane stock slot, sends (.starved lane stock slot) 0x87 (byte lane :: (le 2 stock ++ le 2 slot)))
    ∧ (∀ station active planned faulted blocked lanes, sends (.stalled station active planned faulted blocked lanes) 0x88
        (byte station :: (course active ++ le 2 planned ++ le 2 faulted ++ blocked.flatMap (le 2)
          ++ [byte (bitSet lanes)])))
    ∧ (∀ on cause active gusts, sends (.rate on cause active gusts) 0x89
        ([flagByte on, byte cause.code] ++ course active ++ [byte gusts]))
    ∧ (∀ station c placed skipped flagged, sends (.course station c placed skipped flagged) 0x8A
        ([byte station, byte c] ++ le 2 placed ++ le 2 skipped ++ le 2 flagged))
    ∧ (∀ station placed skipped, sends (.station station placed skipped) 0x8B
        (byte station :: (le 2 placed ++ le 2 skipped)))
    ∧ (∀ points, sends (.calDone points) 0x8C (0 :: points.flatMap fun p => le32s p.dz ++ le32s p.dr))
    ∧ (∀ k cause, sends (.calFailed k cause) 0x8C [1, byte k, byte (CalCause.code cause)])
    ∧ (∀ a value threshold cause, sends (.health a value threshold cause) 0x8D
        ([byte a.number, flagByte a.prefailure] ++ le 4 value ++ le 4 threshold ++ [byte cause.code])))
  ∧ ([Mode.idle, .laying, .holding, .draining, .aborted, .stowing, .stowed].map Mode.code = List.range 7
    ∧ [ModeCause.hold .jam, .hold .binFull, .hold .link, .hold .inspect, .hold .glue, .hold .press, .go, .deploy,
        .deployFault, .halt, .drained, .station, .abort, .clear, .stow, .fold, .foldFault, .reset].map ModeCause.code
        = List.range 18
    ∧ (∀ h : HoldSet, h.code = h.jam.toNat + 2 * h.binFull.toNat + 4 * h.link.toNat + 8 * h.inspect.toNat
        + 16 * h.glue.toNat + 32 * h.press.toNat)
    ∧ [none, some Reason.workFault, some .expired, some .orphan, some .settleFault, some .gripFault].map Reason.code
        = List.range 6
    ∧ [RateCause.gusts, .courseEnd, .adv, .cfg].map RateCause.code = List.range 4
    ∧ [none, some CalCause.slewFault, some .lockLost, some .pointLimit].map CalCause.code = List.range 4
    ∧ [HealthCause.count, .thresh, .load].map HealthCause.code = List.range 3
    ∧ [Attr.gripCycles, .sawCuts, .glueFaults, .pressCutoffs, .jams, .lockLosses, .rejects].map Attr.number
        = [1, 2, 3, 4, 5, 6, 7]
    ∧ (∀ a : Attr, a.prefailure = true ↔ a = .sawCuts ∨ a = .glueFaults ∨ a = .pressCutoffs)
    ∧ [Status.ok, .busy, .mode, .range, .sum, .slot, .state, .bearer, .cls, .full, .unresolved, .held, .notCalibrated,
        .frozen, .sequence, .worn, .unknown].map Status.code = List.range 17)
  ∧ ((∀ n, (byte n).toNat = n % 256) ∧ flagByte false = 0 ∧ flagByte true = 1
    ∧ (∀ n, le 2 n = [byte n, byte (n / 256)])
    ∧ (∀ n, le 4 n = [byte n, byte (n / 256), byte (n / 65536), byte (n / 16777216)])
    ∧ (∀ v : Int, -2147483648 ≤ v → v ≤ 2147483647 → le32s v = le 4 (v % 4294967296).toNat)
    ∧ (∀ v : Int, -32768 ≤ v → v ≤ 32767 → le16s v = le 2 (v % 65536).toNat)
    ∧ (∀ (ns : List Nat) (n : Nat), (bitSet ns).testBit n = decide (n ∈ ns)))

/-- The model's choice (log entry 6) for a command that cannot be taken now: the oldest command of the queue waits for
a reply place (R192); a command behind others, or one that comes to an empty command queue while no reply place is free, is
offered to the command queue (R191). -/
def Obligations.CommandWaitsItsTurn : Prop :=
  ∀ (s : State) (c : HostCommand),
    (s.scp.commands.head? = some c → 32 ≤ s.scp.outbound.length → exec (s.rowOf c) s = .next s)
    ∧ (s.scp.commands ≠ [] ∨ 32 ≤ s.scp.outbound.length → s.scp.commands.head? ≠ some c →
        (s.scp.commands.length < 4 →
          exec (s.rowOf c) s = .next { s with scp := { s.scp with commands := s.scp.commands ++ [c] } })
        ∧ (4 ≤ s.scp.commands.length → s.scp.outbound.length < 32 →
          exec (s.rowOf c) s =
            .next { s with scp := { s.scp with outbound := s.scp.outbound ++ [.reply c.kind c.tag .busy []] } })
        ∧ (4 ≤ s.scp.commands.length → 32 ≤ s.scp.outbound.length →
          exec (s.rowOf c) s = .next { s with scp := { s.scp with frameErrors := satUp s.scp.frameErrors } }))

/-! ### Queries, status and configuration -/

/-- IDQ returns the fixed identity and changes no state (R198; the bytes as R206 lays them out). -/
def Obligations.IdqReturnsIdentity : Prop :=
  ∀ (s : State) (tag : Byte) (p : List Byte), s.takes ⟨0x01, tag, p⟩ →
    exec (.idq tag p) s =
      .next (s.answered ⟨0x01, tag, p⟩ .ok [0x4B, 0x18, 0x4C, 0x01, 0x00, 0x04, 10, 32, 8, 96])

/-- CFQ, CEILQ, HLTH READ and HLTH STATUS answer in every mode and change no state (R14, R183, R200), and so does a
command whose kind is no command kind, answered UNKNOWN with no results (R192). -/
def Obligations.QueriesAndUnknownChangeNothing : Prop :=
  ∀ (s : State) (tag : Byte) (p : List Byte),
    let worn := [Attr.sawCuts, .glueFaults, .pressCutoffs].filter fun a => (s.hmn.live.read a).crossed
    let cfg := s.scp.config
    (s.takes ⟨0x03, tag, p⟩ → exec (.cfq tag p) s = .next (s.answered ⟨0x03, tag, p⟩ .ok
      (le 2 cfg.layDir.code ++ le 2 cfg.alternate.toNat ++ le 2 cfg.tolPos ++ le 2 cfg.tolYaw ++ le 2 cfg.settleCount
        ++ le 2 cfg.openTime ++ le 2 cfg.gustLimit ++ le 2 cfg.qualityFloor ++ le 2 cfg.rate.code ++ le 2 cfg.batch
        ++ le 2 cfg.keep.toNat)))
    ∧ (s.takes ⟨0x13, tag, p⟩ → exec (.ceilq tag p) s = .next (s.answered ⟨0x13, tag, p⟩ .ok [96, byte s.pls.ceiling]))
    ∧ (∀ rest : List Byte, 5 ≤ rest.length → s.takes ⟨0x28, tag, 0 :: rest⟩ →
        exec (.hlthRead tag (0 :: rest)) s = .next (s.answered ⟨0x28, tag, 0 :: rest⟩ .ok
          ([Attr.gripCycles, .sawCuts, .glueFaults, .pressCutoffs, .jams, .lockLosses, .rejects].flatMap fun a =>
            le 4 (s.hmn.live.read a).value ++ le 4 (s.hmn.live.read a).threshold
              ++ [flagByte (s.hmn.live.read a).crossed, flagByte a.prefailure])))
    ∧ (∀ rest : List Byte, 5 ≤ rest.length → s.takes ⟨0x28, tag, 1 :: rest⟩ →
        exec (.hlthStatus tag (1 :: rest)) s = .next (s.answered ⟨0x28, tag, 1 :: rest⟩ .ok
          [flagByte (worn ≠ []), byte (bitSet (worn.map fun a => a.number - 1))]))
    ∧ (∀ (sub : Byte) (rest : List Byte), 4 ≤ sub.toNat → s.takes ⟨0x28, tag, sub :: rest⟩ →
        exec (.hlthRead tag (sub :: rest)) s = .next (s.answered ⟨0x28, tag, sub :: rest⟩ .range []))
    ∧ (∀ kind : Byte, s.takes ⟨kind, tag, p⟩ → kind ∉ Instr.commandKinds →
        exec (.unknownCommand kind tag p) s = .next (s.answered ⟨kind, tag, p⟩ .unknown []))

/-- PRD returns each slot of its range with its region and its entry, and changes no state; a range outside the plan
is refused with RANGE (R22). The region and the 46 bytes of an entry are written out as R205 lays them out. -/
def Obligations.PrdReadsTheSlots : Prop :=
  ∀ (s : State) (tag count : Byte) (first : Nat) (rest : List Byte), first < 65536 →
    let c : HostCommand := ⟨0x17, tag, le 2 first ++ count :: rest⟩
    let region (slot : Nat) : Byte := match s.pls.region slot with
      | .lead => 0
      | .run => 1
      | .tail => 2
    let code (st : EntryState) : Byte := match st with
      | .planned => 1
      | .inTrain => 2
      | .placed => 3
      | .skipped => 4
      | .waived => 5
      | .faulted => 6
    let outcome (o : LaidOutcome) : List Byte :=
      byte (o.unverified.toNat + 2 * o.pressCut.toNat + 4 * o.outOfTolerance.toNat + 64 * o.offset.isSome.toNat + 128)
        :: match o.offset with
          | none => List.replicate 14 0
          | some d => le32s d.dx ++ le32s d.dy ++ le32s d.dz ++ le16s d.dyaw
    let entry (en : Entry) : List Byte :=
      [byte en.station, byte en.course] ++ le 2 en.seq ++ [byte en.cls]
        ++ (le32s en.target.x ++ le32s en.target.y ++ le32s en.target.z ++ le16s en.target.yaw)
        ++ le 2 (en.cut.getD 0) ++ [byte en.bearers.length]
        ++ le 2 (en.bearers.getD 0 0) ++ le 2 (en.bearers.getD 1 0) ++ le 2 (en.bearers.getD 2 0)
        ++ [byte (en.marks.hold.toNat + 2 * en.marks.skip.toNat + 4 * en.marks.inspect.toNat), code en.state, byte en.rejects]
        ++ match en.outcome with
          | none => List.replicate 15 0
          | some o => outcome o
    s.takes c →
    (count.toNat < 1 ∨ 16 < count.toNat ∨ 1023 < first ∨ 1024 < first + count.toNat →
      exec (.prd tag c.payload) s = .next (s.answered c .range []))
    ∧ (1 ≤ count.toNat → count.toNat ≤ 16 → first + count.toNat ≤ 1024 →
      exec (.prd tag c.payload) s = .next (s.answered c .ok ((List.range count.toNat).flatMap fun i =>
        le 2 (first + i) ++ region (first + i) ::
          match s.entryAt (first + i) with
          | none => List.replicate 46 0
          | some en => entry en)))

/-- STQ returns the state as it stands, field by field as R199 names them and R206 lays them out, the five counters
last, and sets the five counters to 0; it changes no other state (R199). -/
def Obligations.StqReadsAndZeroesCounters : Prop :=
  ∀ (s : State) (tag : Byte) (p : List Byte), s.takes ⟨0x02, tag, p⟩ →
    let berth (b : Nat) : List Byte := match s.carrierAt b with
      | some c => [1, flagByte (decide (b ∈ s.rcu.stranded)), c.release] ++ le 2 c.slot
      | none => [if s.reserved b then 2 else 0, flagByte (decide (b ∈ s.rcu.stranded)), 0, 0, 0]
    let tracker : Byte := if s.trk.locked then 3 else if s.trk.framing = .discard then 2
      else if s.trk.acquired = 0 then 0 else 1
    let calibration : List Byte := match s.dfu.cal with
      | .none => [0, 0, 0, 0]
      | .running k => [1, byte k, byte s.dfu.phase.code, byte s.dfu.attempt]
      | .suspended k => [2, byte k, 0, byte s.dfu.attempt]
      | .done => [3, 0, 0, 0]
      | .failed => [4, 0, 0, 0]
    let front := [byte s.rcu.mode.code, flagByte s.rcu.deploy, byte s.rcu.holds.code]
      ++ (le 2 s.rcu.inspects.length ++ (List.range 16).flatMap fun i => le 2 (s.rcu.inspects.getD i 0))
      ++ [flagByte s.rcu.haltPending, byte s.rcu.station]
      ++ le32s s.rcu.baseX ++ le32s s.rcu.baseY ++ le32s s.rcu.baseZ
      ++ le 2 (s.rsl.active.getD 0xFFFF) ++ [flagByte s.rsl.lookahead]
      ++ (List.range 10).flatMap berth ++ [byte s.btc.bin]
      ++ [byte s.hsq.head.code, flagByte s.hsq.orderSent, flagByte s.reducedRate]
      ++ [tracker, flagByte s.trk.inverted]
      ++ calibration ++ [byte (CalCause.code s.dfu.cause), flagByte s.dfu.valid]
      ++ (List.range 8).flatMap (fun lane => le 2 (s.stockOf lane)) ++ [byte s.pls.ceiling, flagByte s.pls.frozen]
    let t := s.answered ⟨0x02, tag, p⟩ .ok s.status
    exec (.stq tag p) s = .next { t with
      scp := { t.scp with frameErrors := 0, lost := 0 }
      trk := { s.trk with frameErrors := 0, falseStarts := 0 }
      sli := { s.sli with stale := 0 } }
    ∧ s.status = front ++ (le 2 s.scp.frameErrors ++ le 2 s.trk.frameErrors ++ le 2 s.trk.falseStarts
        ++ le 2 s.sli.stale ++ le 2 s.scp.lost) ∧ front.length = 134

/-- CFG (R200): a value in its item's range is written and no other item, with a RATE report where reduced rate turns
(R140); another value or item is refused with RANGE and nothing changes, but for BATCH, which a refused value sets to
1. That ALTERNATE and KEEP (items 2 and 11) refuse a value above 1 is the model's choice (log entry 15): R200 gives them
off and on, and R204 would have only bit 0 of a flag count. -/
def Obligations.CfgSetsOneItem : Prop :=
  ∀ (s : State) (tag item : Byte) (v : Nat) (rest : List Byte), v < 65536 →
    let c : HostCommand := ⟨0x04, tag, item :: (le 2 v ++ rest)⟩
    let n := item.toNat
    let inRange := (n ∈ [1, 2, 11] ∧ v ≤ 1) ∨ (n = 3 ∧ 2 ≤ v ∧ v ≤ 100) ∨ (n = 4 ∧ 1 ≤ v ∧ v ≤ 100)
      ∨ (n = 5 ∧ 2 ≤ v ∧ v ≤ 50) ∨ (n = 6 ∧ 20 ≤ v ∧ v ≤ 600) ∨ (n = 7 ∧ 1 ≤ v ∧ v ≤ 60)
      ∨ (n = 8 ∧ 1 ≤ v ∧ v ≤ 255) ∨ (n = 9 ∧ v ≤ 2) ∨ (n = 10 ∧ v ∈ [1, 2, 4, 6, 10])
    s.takes c → s.settledIdle = true ∨ s.rcu.mode = .holding →
    (inRange → ∃ items : ConfigItems, items.value n = v ∧ (∀ j, j ≠ n → items.value j = s.scp.config.value j)
      ∧ let e := { s.taking with scp := { s.taking.scp with config := items } }
        let e' := if e.reducedRate = s.reducedRate then e
          else e.report (.rate e.reducedRate .cfg s.rsl.active s.hsq.gustCount)
        exec (.cfg tag c.payload) s = .next (e'.reply c .ok (item :: le 2 v)).toState)
    ∧ (¬inRange → n ≠ 10 → exec (.cfg tag c.payload) s = .next (s.answered c .range []))
    ∧ (¬inRange → n = 10 → exec (.cfg tag c.payload) s =
        .next ({ s with scp := { s.scp with config := { s.scp.config with batch := 1 } } }.answered c .range []))

/-- The mode check of R175: the commands a mode does not take are refused with MODE, the ones it answers OK without
effect are so answered, and in both nothing else changes; that CLS and PAP carry no count with MODE is the model's choice
(log entry 29). Then the payload's length (R192, R205): in a mode that takes
the command, a payload shorter than its fixed fields is refused with RANGE, and nothing else changes. -/
def Obligations.ModeCheck : Prop :=
  ∀ (s : State) (tag : Byte) (p : List Byte),
    let gives (kind : Byte) (st : Status) (i : Instr) :=
      s.takes ⟨kind, tag, p⟩ → exec i s = .next (s.answered ⟨kind, tag, p⟩ st [])
    let m := s.rcu.mode
    (s.settledIdle = false →
      (m ≠ .holding → gives 0x04 .mode (.cfg tag p)
        ∧ (p.head? = some 2 → gives 0x28 .mode (.hlthThresh tag p))
        ∧ (p.head? = some 3 → gives 0x28 .mode (.hlthReset tag p)))
      ∧ gives 0x10 .mode (.part tag p) ∧ gives 0x11 .mode (.cls tag p) ∧ gives 0x14 .mode (.ceilSet tag p)
      ∧ gives 0x14 .mode (.ceilFreeze tag p) ∧ gives 0x1A .mode (.adv tag p) ∧ gives 0x27 .mode (.calStart tag p)
      ∧ gives 0x27 .mode (.calCancel tag p) ∧ gives 0x25 .mode (.stow tag p))
    ∧ (m = .stowed →
      gives 0x12 .mode (.lane tag p) ∧ gives 0x15 .mode (.pap tag p) ∧ gives 0x16 .mode (.pld tag p)
      ∧ gives 0x18 .mode (.mark tag p) ∧ gives 0x19 .mode (.rearm tag p) ∧ gives 0x26 .mode (.bin tag p))
    ∧ (m = .aborted ∨ m = .stowing ∨ m = .stowed → gives 0x20 .mode (.go tag p))
    ∧ ((m = .idle ∧ s.rcu.deploy = true) ∨ m = .laying ∨ m = .draining → gives 0x20 .ok (.go tag p))
    ∧ (m ≠ .laying → m ≠ .holding → gives 0x21 .ok (.halt tag p))
    ∧ (m ≠ .laying → m ≠ .holding → m ≠ .draining → gives 0x22 .ok (.abort tag p))
    ∧ (m ≠ .holding → m ≠ .aborted → gives 0x23 .mode (.clear tag p))
    ∧ (m ≠ .holding ∨ s.rcu.holds.inspect = false → gives 0x24 .mode (.accept tag p))
    ∧ (s.settledIdle = true →
      (p.length < 6 → gives 0x10 .range (.part tag p))
      ∧ (p.length < 1 → s.takes ⟨0x11, tag, p⟩ → exec (.cls tag p) s = .next (s.answered ⟨0x11, tag, p⟩ .range [0]))
      ∧ (p.length < 3 → gives 0x14 .range (.ceilSet tag p) ∧ gives 0x14 .range (.ceilFreeze tag p))
      ∧ (p.length < 14 → gives 0x1A .range (.adv tag p))
      ∧ (p.length < 1 → gives 0x27 .range (.calStart tag p) ∧ gives 0x27 .range (.calCancel tag p)))
    ∧ (m ≠ .stowed →
      (p.length < 3 → gives 0x12 .range (.lane tag p)) ∧ (p.length < 31 → gives 0x16 .range (.pld tag p))
      ∧ (p.length < 9 → gives 0x18 .range (.mark tag p)) ∧ (p.length < 2 → gives 0x19 .range (.rearm tag p)))
    ∧ (s.settledIdle = true ∨ m = .holding → (p.length < 3 → gives 0x04 .range (.cfg tag p))
      ∧ (p.length < 6 → gives 0x28 .range (.hlthThresh tag p) ∧ gives 0x28 .range (.hlthReset tag p)))
    ∧ (p.length < 3 → gives 0x17 .range (.prd tag p))
    ∧ (p.length < 6 → p.head? ≠ some 2 → p.head? ≠ some 3 →
      gives 0x28 .range (.hlthRead tag p) ∧ gives 0x28 .range (.hlthStatus tag p))
    ∧ (m = .holding ∨ m = .aborted → p.length < 1 → gives 0x23 .range (.clear tag p))
    ∧ (m = .holding → s.rcu.holds.inspect = true → p.length < 2 → gives 0x24 .range (.accept tag p))

/-! ### The plan commands -/

/-- PART: its checks in their order, and the partition it sets, the ring empty from its head (R2). -/
def Obligations.PartSetsThePartition : Prop :=
  ∀ (s : State) (tag : Byte) (l n t : Nat) (rest : List Byte), l < 65536 → n < 65536 → t < 65536 →
    let c : HostCommand := ⟨0x10, tag, le 2 l ++ (le 2 n ++ (le 2 t ++ rest))⟩
    s.takes c →
    (s.settledIdle = false → exec (.part tag c.payload) s = .next (s.answered c .mode []))
    ∧ (s.settledIdle = true →
      (s.pls.plan ≠ [] → exec (.part tag c.payload) s = .next (s.answered c .state []))
      ∧ (s.pls.plan = [] → 256 < l ∨ 256 < t ∨ n < 64 → exec (.part tag c.payload) s = .next (s.answered c .range []))
      ∧ (s.pls.plan = [] → l ≤ 256 → t ≤ 256 → 64 ≤ n → l + n + t ≠ 1024 →
          exec (.part tag c.payload) s = .next (s.answered c .sum []))
      ∧ (s.pls.plan = [] → l ≤ 256 → t ≤ 256 → 64 ≤ n → l + n + t = 1024 →
          exec (.part tag c.payload) s = .next
            ({ s with pls := { s.pls with lead := l, run := n, tail := t, ringHead := 0, ringCount := 0 } }.answered c .ok [])))

/-- CLS (R9, R10): the complete records of its payload are written in order from the start index until one fails; the
reply carries the status and the count; nothing else changes. -/
def Obligations.ClsWritesRecords : Prop :=
  (∀ (s : State) (tag start : Byte) (body : List Byte),
    let c : HostCommand := ⟨0x11, tag, start :: body⟩
    let w := s.pls.writeClasses ((completeItems 10 body).map ClassRecord.ofBytes) start.toNat 0
    s.takes c → s.settledIdle = true →
    (31 < start.toNat → exec (.cls tag c.payload) s = .next (s.answered c .range [0]))
    ∧ (start.toNat ≤ 31 →
        exec (.cls tag c.payload) s = .next ({ s with pls := w.1 }.answered c w.2.2 [byte w.2.1])))
  ∧ (∀ (n : Nat) (items : List (List Byte)) (tail : List Byte), 0 < n → (∀ i ∈ items, i.length = n) → tail.length < n →
      completeItems n (items.flatten ++ tail) = items)
  ∧ (∀ (len wid hei : Nat) (lane glue : Byte) (cut defined : Bool), len < 65536 → wid < 65536 → hei < 65536 →
      ClassRecord.ofBytes (le 2 len ++ (le 2 wid ++ (le 2 hei ++ [lane, glue, flagByte cut, flagByte defined]))) =
        ⟨len, wid, hei, lane.toNat, glue.toNat, cut, defined⟩)
  ∧ (∀ (p : Pls) (i k : Nat), p.writeClasses [] i k = (p, k, .ok))
  ∧ (∀ (p : Pls) (r : ClassRecord) (rs : List ClassRecord) (i k : Nat),
      let size (n : Nat) := 200 ≤ n ∧ n ≤ 6000
      let fits := i ≤ 31 ∧ size r.length ∧ size r.width ∧ size r.height ∧ r.width ≤ r.length ∧ r.lane ≤ 7 ∧ 1 ≤ r.glue
        ∧ r.glue ≤ 3
      let conflict := ∃ q ∈ p.plan, q.2.cls = i ∧ (q.2.state = .planned ∨ q.2.state = .faulted)
        ∧ (r.defined = false ∨ (r.cuttable = false ∧ q.2.cut ≠ none) ∨ ∃ n, q.2.cut = some n ∧ r.length ≤ n)
      (¬fits → p.writeClasses (r :: rs) i k = (p, k, .range))
      ∧ (fits → conflict → p.writeClasses (r :: rs) i k = (p, k, .cls))
      ∧ (fits → ¬conflict → p.writeClasses (r :: rs) i k =
          Pls.writeClasses rs (i + 1) (k + 1) { p with classes := Table.writeD p.classes i r .blank }))

/-- LANE sets a stock, clears the lane's starved latch and prompts a selection (R12); BIN sets the bin count to 0 and
takes BIN_FULL out of the set (R90). -/
def Obligations.LaneAndBinSetTheirCounts : Prop :=
  (∀ (s : State) (tag lane : Byte) (count : Nat) (rest : List Byte), count < 65536 →
    let c : HostCommand := ⟨0x12, tag, lane :: (le 2 count ++ rest)⟩
    s.takes c →
    (s.rcu.mode = .stowed → exec (.lane tag c.payload) s = .next (s.answered c .mode []))
    ∧ (s.rcu.mode ≠ .stowed →
      (7 < lane.toNat ∨ 999 < count → exec (.lane tag c.payload) s = .next (s.answered c .range []))
      ∧ (lane.toNat ≤ 7 → count ≤ 999 → Effect (.lane tag c.payload) s
          ({ s.taking with
              pls := { s.pls with stocks := Table.writeD s.pls.stocks lane.toNat count 0 }
              rsl := { s.rsl with starved := s.rsl.starved.filter (· != lane.toNat) }
              selDue := true }.reply c .ok []))))
  ∧ (∀ (s : State) (tag : Byte) (p : List Byte), s.takes ⟨0x26, tag, p⟩ →
      (s.rcu.mode = .stowed → exec (.bin tag p) s = .next (s.answered ⟨0x26, tag, p⟩ .mode []))
      ∧ (s.rcu.mode ≠ .stowed → exec (.bin tag p) s = .next ({ s with
          btc := { s.btc with bin := 0 }
          rcu := { s.rcu with holds := { s.rcu.holds with binFull := false } } }.answered ⟨0x26, tag, p⟩ .ok [])))

/-- CEIL: its set form when the marker holds CEILQ (R15), its lock form when it holds anything else or no kind (R16). -/
def Obligations.CeilSetsOrFreezes : Prop :=
  ∀ (s : State) (tag v sub : Byte) (persist : Bool) (rest : List Byte) (row : Byte → List Byte → Instr),
    row = .ceilSet ∨ row = .ceilFreeze →
    let c : HostCommand := ⟨0x14, tag, v :: flagByte persist :: sub :: rest⟩
    s.takes c →
    (s.settledIdle = false → exec (row tag c.payload) s = .next (s.answered c .mode []))
    ∧ (s.settledIdle = true →
      (s.rcu.marker = some 0x13 → s.pls.frozen = true → exec (row tag c.payload) s = .next (s.answered c .frozen []))
      ∧ (s.rcu.marker = some 0x13 → s.pls.frozen = false → 96 < v.toNat →
          exec (row tag c.payload) s = .next (s.answered c .range []))
      ∧ (s.rcu.marker = some 0x13 → s.pls.frozen = false → v.toNat ≤ 96 → exec (row tag c.payload) s =
          .next ({ s with pls := { s.pls with
            ceiling := v.toNat, storedCeiling := if persist then some v.toNat else none } }.answered c .ok [v]))
      ∧ (s.rcu.marker ≠ some 0x13 → sub = 1 →
          exec (row tag c.payload) s = .next ({ s with pls := { s.pls with frozen := true } }.answered c .ok []))
      ∧ (s.rcu.marker ≠ some 0x13 → sub ≠ 1 → exec (row tag c.payload) s = .next (s.answered c .sequence [])))

/-- The checks on an entry to be written, in their order (R18), and what is written (R19). -/
def Obligations.EntryChecksAndWriting : Prop :=
  (∀ (p : Pls) (slot : Nat) (f : EntryFields),
    let cls := Table.readD p.classes f.cls .blank
    let bearerFits (b : Nat) := b ≤ 1023 ∧ b ≠ slot
      ∧ ∃ eb, Table.read p.plan b = some eb ∧ eb.station = f.station ∧ eb.course + 1 = f.course
    p.entryStatus slot f =
      if 63 < f.station ∨ 255 < f.course ∨ 4095 < f.seq ∨ f.target.yaw < -18000 ∨ 17999 < f.target.yaw
          ∨ 3 < f.bearerCount then .range
      else if cls.defined = false then .cls
      else if f.cut ≠ none ∧ cls.cuttable = false then .cls
      else if ∃ n ∈ f.cut, n < 400 ∨ cls.length - 1 < n then .range
      else if (∃ b ∈ f.bearers, ¬bearerFits b) ∨ ¬f.bearers.Nodup then .bearer
      else .ok)
  ∧ (∀ (e : Ev) (slot : Nat) (f : EntryFields),
      let en : Entry := ⟨f.station, f.course, f.seq, f.cls, f.target, f.cut, f.bearers, f.marks,
        if f.marks.skip then .skipped else .planned, 0, none⟩
      (f.marks.skip = false → (e.writeEntry slot f).toState = e.toState.withEntry slot en)
      ∧ (f.marks.skip = true → (e.writeEntry slot f).scp = (e.report (.skipped [slot])).scp
        ∧ { (e.writeEntry slot f).toState with scp := e.scp } = e.toState.withEntry slot en)
      ∧ (f.station = e.rcu.station → (e.writeEntry slot f).selDue = true))

/-- PAP (R20): a list too long for the ring is refused with FULL and a count of 0; else the entries join the ring in
order until one fails, and the reply carries that status and the count written. PLD (R21): its checks in their order,
then the slot takes the entry. The active course is read again after either (R33). The prompted tests run after the
reply (log entry 10). -/
def Obligations.PapAndPldLoadEntries : Prop :=
  (∀ (s : State) (tag : Byte) (p : List Byte),
    let c : HostCommand := ⟨0x15, tag, p⟩
    let fs := (completeItems 29 p).map EntryFields.ofBytes
    let w := s.taking.appendEntries fs 0
    s.takes c → s.rcu.mode ≠ .stowed →
    (s.pls.run < s.pls.ringCount + fs.length → exec (.pap tag p) s = .next (s.answered c .full (le 2 0)))
    ∧ (s.pls.ringCount + fs.length ≤ s.pls.run →
        Effect (.pap tag p) s ((w.1.refreshCourse .event).reply c w.2.2 (le 2 w.2.1))))
  ∧ (∀ (e : Ev) (k : Nat), e.appendEntries [] k = (e, k, .ok))
  ∧ (∀ (e : Ev) (f : EntryFields) (fs : List EntryFields) (k : Nat),
      let slot := e.pls.lead + (e.pls.ringHead + e.pls.ringCount) % e.pls.run
      let st := e.pls.entryStatus slot f
      let w := e.writeEntry slot f
      (st ≠ .ok → e.appendEntries (f :: fs) k = (e, k, st))
      ∧ (st = .ok → e.appendEntries (f :: fs) k =
          Ev.appendEntries fs (k + 1) { w with pls := { w.pls with ringCount := w.pls.ringCount + 1 } }))
  ∧ (∀ (s : State) (tag : Byte) (slot : Nat) (item rest : List Byte), slot < 65536 → item.length = 29 →
    let c : HostCommand := ⟨0x16, tag, le 2 slot ++ (item ++ rest)⟩
    let f := EntryFields.ofBytes item
    let gives (st : Status) := exec (.pld tag c.payload) s = .next (s.answered c st [])
    let old := s.entryAt slot
    let run := s.pls.region slot = .run
    s.takes c → s.rcu.mode ≠ .stowed →
    (1023 < slot → gives .range)
    ∧ (slot ≤ 1023 → run → s.pls.insideRing slot = false → gives .slot)
    ∧ (slot ≤ 1023 → (run → s.pls.insideRing slot = true) →
        ((run ∧ old = none) ∨ (∃ en ∈ old, en.state ≠ .planned) → gives .state)
        ∧ ((run → old ≠ none) → (∀ en ∈ old, en.state = .planned) →
          let st := s.pls.entryStatus slot f
          let moves := (∃ en ∈ old, en.station ≠ f.station ∨ en.course ≠ f.course)
            ∧ ∃ q ∈ s.pls.plan, q.1 ≠ slot ∧ slot ∈ q.2.bearers
          (st ≠ .ok → gives st) ∧ (st = .ok → moves → gives .bearer)
          ∧ (st = .ok → ¬moves → Effect (.pld tag c.payload) s
              (((s.taking.writeEntry slot f).refreshCourse .event).reply c .ok [])))))

/-- The 29 bytes of an entry to be loaded read back as its fields, whatever they hold (R205). -/
def Obligations.EntryFieldsReadBack : Prop :=
  ∀ (f : EntryFields) (b0 b1 b2 : Nat) (rest : List Byte),
    f.station < 256 → f.course < 256 → f.seq < 65536 → f.cls < 256 → f.bearerCount < 256 →
    -2147483648 ≤ f.target.x → f.target.x ≤ 2147483647 → -2147483648 ≤ f.target.y → f.target.y ≤ 2147483647 →
    -2147483648 ≤ f.target.z → f.target.z ≤ 2147483647 → -32768 ≤ f.target.yaw → f.target.yaw ≤ 32767 →
    (∀ n ∈ f.cut, 0 < n ∧ n < 65536) → b0 < 65536 → b1 < 65536 → b2 < 65536 →
    f.bearers = [b0, b1, b2].take f.bearerCount →
    EntryFields.ofBytes (byte f.station :: byte f.course :: (le 2 f.seq ++ byte f.cls :: (poseBytes f.target
      ++ (le 2 (f.cut.getD 0) ++ byte f.bearerCount :: (le 2 b0 ++ (le 2 b1 ++ (le 2 b2
        ++ byte f.marks.code :: rest))))))) = f

/-- MARK (R23 to R26): an operand outside its range is refused with RANGE; else the marks of every matching entry
change by the function, an entry that SKIP acts on is SKIPPED, and the others keep everything. The skipped slots are
reported in ascending order in groups of 64, the last one of the rest (R25), the course state is read again once (log
entry 9), and the reply counts the matches. A mark changed on a PLANNED entry and an entry of the station that is
skipped prompt a selection (R26, R43), a skipped bearer of the head's entry its retest (R128); the prompted tests run
after the reply (log entry 10). -/
def Obligations.MarkChangesMatchingEntries : Prop :=
  ∀ (s : State) (tag cls dontCare mask pattern g : Byte) (first last : Nat) (rest : List Byte),
    first < 65536 → last < 65536 →
    let c : HostCommand := ⟨0x18, tag, le 2 first ++ (le 2 last ++ cls :: dontCare :: mask :: pattern :: g :: rest)⟩
    s.takes c → s.rcu.mode ≠ .stowed →
    (3 < g.toNat ∨ 1023 < first ∨ 1023 < last ∨ last < first ∨ 31 < cls.toNat →
      exec (.mark tag c.payload) s = .next (s.answered c .range []))
    ∧ (g.toNat ≤ 3 → first ≤ last → last ≤ 1023 → cls.toNat ≤ 31 →
        let hits (p : Nat × Entry) : Bool := decide (first ≤ p.1) && decide (p.1 ≤ last)
          && (List.range 5).all fun i => dontCare.toNat.testBit i || cls.toNat.testBit i == p.2.cls.testBit i
        let new (bit : Nat) (old : Bool) := if mask.toNat.testBit bit = false then old
          else if g = 0 then pattern.toNat.testBit bit else if g = 1 then true else if g = 2 then false else !old
        let marks (en : Entry) : Marks := ⟨new 0 en.marks.hold, new 1 en.marks.skip, new 2 en.marks.inspect⟩
        let skips (en : Entry) : Bool := mask.toNat.testBit 1 && (marks en).skip
          && decide (en.state = .planned ∨ en.state = .faulted)
        let plan := s.pls.plan.map fun p =>
          if hits p then (p.1, { p.2 with marks := marks p.2, state := if skips p.2 then .skipped else p.2.state }) else p
        let skipped := s.pls.plan.filter fun p => hits p && skips p.2
        ∃ (groups : List (List Nat)) (sel retest : Bool),
          let marked : Ev := { s.taking with pls := { s.pls with plan := plan }, selDue := sel, retestDue := retest }
          groups.flatten = skipped.map (·.1) ∧ (∀ slots ∈ groups, slots ≠ [] ∧ slots.length ≤ 64)
          ∧ (∀ slots ∈ groups.dropLast, slots.length = 64)
          ∧ (sel = true ↔ (∃ p ∈ s.pls.plan, hits p = true ∧ p.2.state = .planned ∧ marks p.2 ≠ p.2.marks)
              ∨ ∃ p ∈ skipped, p.2.station = s.rcu.station)
          ∧ (retest = true ↔ s.hsq.head = .readyToPress ∧ ∃ k, s.hsq.carrier = some k
              ∧ ∃ h, marked.entryAt k.slot = some h ∧ ∃ p ∈ skipped, p.1 ∈ h.bearers)
          ∧ Effect (.mark tag c.payload) s
              (((marked.reports (groups.map .skipped)).refreshCourse .event).reply c .ok
                (le 2 (s.pls.plan.filter hits).length)))

/-- REARM (R27): a slot above 1023 is refused with RANGE, an entry that is not FAULTED with STATE; a FAULTED entry
becomes PLANNED with a reject count of 0 and everything else it held, and a selection is prompted. -/
def Obligations.RearmReturnsFaultedEntry : Prop :=
  ∀ (s : State) (tag : Byte) (slot : Nat) (rest : List Byte), slot < 65536 →
    let c : HostCommand := ⟨0x19, tag, le 2 slot ++ rest⟩
    s.takes c →
    (s.rcu.mode = .stowed → exec (.rearm tag c.payload) s = .next (s.answered c .mode []))
    ∧ (s.rcu.mode ≠ .stowed →
      (1023 < slot → exec (.rearm tag c.payload) s = .next (s.answered c .range []))
      ∧ (slot ≤ 1023 → (∀ en, s.entryAt slot = some en → en.state ≠ .faulted) →
          exec (.rearm tag c.payload) s = .next (s.answered c .state []))
      ∧ (∀ en, slot ≤ 1023 → s.entryAt slot = some en → en.state = .faulted → ∃ e : Ev,
          Effect (.rearm tag c.payload) s (e.reply c .ok []) ∧ e.selDue = true ∧ e.scp.commands = s.taking.scp.commands
          ∧ { e.pls with latches := s.pls.latches } =
              { s.pls with plan := Table.write s.pls.plan slot { en with state := .planned, rejects := 0 } }
          ∧ e.btc = s.btc ∧ e.sli = s.sli ∧ e.loopTx = s.loopTx ∧ e.rcu = s.rcu
          ∧ e.trk = s.trk ∧ e.dfu = s.dfu ∧ e.hmn = s.hmn ∧ e.now = s.now))

/-- ADV (R28 to R30): its checks; then PLANNED and FAULTED entries of the old station are WAIVED and reported in ascending
groups of 64, the last one of the rest, the resolved entries retired, every direction latch cleared, the new station and
base taken, the active course read again, which sets the latches of the candidate courses anew (R36) and makes the gust
count 0 (R139), and gust-reduced rate off, with its RATE report (R140); then the reply. -/
def Obligations.AdvTakesTheNextStation : Prop :=
  ∀ (s : State) (tag station : Byte) (x y z : Int) (waive : Bool) (rest : List Byte),
    -2147483648 ≤ x → x ≤ 2147483647 → -2147483648 ≤ y → y ≤ 2147483647 → -2147483648 ≤ z → z ≤ 2147483647 →
    let c : HostCommand := ⟨0x1A, tag, station :: (le32s x ++ (le32s y ++ (le32s z ++ flagByte waive :: rest)))⟩
    let unresolved := s.pls.plan.filter fun p : Nat × Entry =>
      decide (p.2.station = s.rcu.station ∧ (p.2.state = EntryState.planned ∨ p.2.state = EntryState.faulted))
    let waived := { s.pls with plan := s.pls.plan.map fun p : Nat × Entry =>
      if p.2.station = s.rcu.station ∧ (p.2.state = EntryState.planned ∨ p.2.state = EntryState.faulted) then
        (p.1, { p.2 with state := .waived }) else p }
    let w := waived.retire s.rcu.station
    s.takes c → s.settledIdle = true →
    (63 < station.toNat → exec (.adv tag c.payload) s = .next (s.answered c .range []))
    ∧ (station.toNat ≤ 63 → unresolved ≠ [] → waive = false →
        exec (.adv tag c.payload) s = .next (s.answered c .unresolved (le 2 unresolved.length)))
    ∧ (station.toNat ≤ 63 → unresolved = [] ∨ waive = true → ∃ (e : Ev) (groups : List (List Nat)),
        let told := s.taking.reports (groups.map .waived)
        let moved : Ev := { told with
          pls := { w.1 with latches := [] }
          rcu := { s.rcu with station := station.toNat, baseX := x, baseY := y, baseZ := z } }
        let read := moved.refreshCourse .adv
        let off : Ev := { read with hsq := { read.hsq with gustReduced := false } }
        exec (.adv tag c.payload) s = .next (e.reply c .ok (le 2 unresolved.length ++ le 2 w.2.length)).toState
        ∧ groups.flatten = unresolved.map (·.1) ∧ (∀ slots ∈ groups, slots ≠ [] ∧ slots.length ≤ 64)
        ∧ (∀ slots ∈ groups.dropLast, slots.length = 64)
        ∧ e = (if s.scp.config.rate = .auto ∧ s.hsq.gustReduced = true then off.report (.rate false .adv read.rsl.active 0)
            else off)
        ∧ e.rcu = { s.rcu with station := station.toNat, baseX := x, baseY := y, baseZ := z }
        ∧ { e.pls with latches := w.1.latches } = w.1
        ∧ e.rsl.active = e.lowestCourse ∧ e.hsq.gustReduced = false ∧ e.hsq.gustCount = 0
        ∧ e.btc = s.btc ∧ e.sli = s.sli ∧ e.loopTx = s.loopTx ∧ e.trk = s.trk ∧ e.dfu = s.dfu ∧ e.hmn = s.hmn)

/-- Retirement (R29): the slots it vacates are the resolved Lead and Tail entries of the station and the ring's first
positions from its head on, as many as the ring count drops by, each resolved; it stops at an unresolved entry or an
empty ring; every vacated slot is struck from the bearer lists that remain (R7), and nothing else changes. -/
def Obligations.RetirementVacatesResolvedEntries : Prop :=
  ∀ (p : Pls) (station : Nat), p.sound →
    let w := p.retire station
    let struck (q : Nat × Entry) : Nat × Entry :=
      (q.1, { q.2 with bearers := q.2.bearers.filter fun b => decide (b ∉ w.2) })
    w.1.plan = (p.plan.filter fun q => decide (q.1 ∉ w.2)).map struck
    ∧ (∀ q ∈ p.plan, p.region q.1 ≠ .run → (q.1 ∈ w.2 ↔ q.2.station = station ∧ q.2.state.resolved = true))
    ∧ (∀ slot, p.region slot = .run →
        (slot ∈ w.2 ↔ ∃ i, i < p.ringCount - w.1.ringCount ∧ slot = p.lead + (p.ringHead + i) % p.run))
    ∧ (∀ q ∈ p.plan, p.region q.1 = .run → q.1 ∈ w.2 → q.2.state.resolved = true)
    ∧ (w.1.ringCount = 0 ∨ ∀ en, Table.read w.1.plan (w.1.lead + w.1.ringHead % w.1.run) = some en →
        en.state.resolved = false)
    ∧ w.1.ringCount + (w.2.filter fun slot => p.region slot == .run).length = p.ringCount
    ∧ w.1.ringHead = (p.ringHead + (p.ringCount - w.1.ringCount)) % p.run
    ∧ w.1.lead = p.lead ∧ w.1.run = p.run ∧ w.1.tail = p.tail ∧ w.1.classes = p.classes ∧ w.1.stocks = p.stocks
    ∧ w.1.ceiling = p.ceiling ∧ w.1.storedCeiling = p.storedCeiling ∧ w.1.frozen = p.frozen ∧ w.1.latches = p.latches

/-! ### The run commands -/

/-- GO. In settled IDLE (R164): its checks, then the deploy interval, the routine suspended (R154), and DEPLOY sent,
or waiting behind the order in flight at BOOM (R53). In HOLDING (R166): HELD with the reasons and the inspect list
while a reason stands, else the mode becomes LAYING, or DRAINING with halt-pending set, with a MODE report, then the
reply, then the effects of the entry. The report carries the set after all of the event's changes (R161), at which the
event ends: {BIN_FULL} where the bin claim of a head in DUMPING, made with no head order in flight, finds the count at 24
(R88), and the empty set else. -/
def Obligations.GoDeploysOrResumes : Prop :=
  ∀ (s : State) (tag : Byte) (p : List Byte), s.takes ⟨0x20, tag, p⟩ →
    let c : HostCommand := ⟨0x20, tag, p⟩
    let worn := [Attr.glueFaults, .pressCutoffs].filter fun a => (s.hmn.live.read a).crossed
    let suspended : Dfu := match s.dfu.cal with
      | .running k => { s.dfu with
          cal := .suspended k, pendingPoints := Table.strike s.dfu.pendingPoints k, samples := [], limitTimer := none
          slew := if s.dfu.slew = Outstanding.current then .abandoned else s.dfu.slew }
      | _ => s.dfu
    let deploying := { s with rcu := { s.rcu with deploy := true }, dfu := suspended }
    (s.settledIdle = true →
      (s.dfu.valid = false → exec (.go tag p) s = .next (s.answered c .notCalibrated []))
      ∧ (s.dfu.valid = true → worn ≠ [] →
          exec (.go tag p) s = .next (s.answered c .worn [byte (bitSet (worn.map fun a => a.number - 1))]))
      ∧ (s.dfu.valid = true → worn = [] → s.flight boomUnit = none → exec (.go tag p) s =
          .next (({ deploying with hsq := { s.hsq with atReceive := false } }.launched boomUnit .deploy .rcu).answered
            c .ok []))
      ∧ (s.dfu.valid = true → worn = [] → s.flight boomUnit ≠ none → exec (.go tag p) s =
          .next ({ deploying with sli := { s.sli with boomWaiting := some .deploy } }.answered c .ok [])))
    ∧ (s.rcu.mode = .holding →
      (s.rcu.holds ≠ .none → exec (.go tag p) s = .next (s.answered c .held
        (byte s.rcu.holds.code
          :: (le 2 s.rcu.inspects.length ++ (List.range 16).flatMap fun i => le 2 (s.rcu.inspects.getD i 0)))))
      ∧ (s.rcu.holds = .none →
        let mode := if s.rcu.haltPending then Mode.draining else .laying
        let refused := s.hsq.head = .dumping ∧ 24 ≤ s.btc.bin
          ∧ ¬∃ u ∈ [boomUnit, wristUnit, gripperUnit, pressUnit, chuteUnit], ∃ r, s.flight u = some r ∧ r.requester = .hsq
        ∀ holds : HoldSet, (refused → holds = { HoldSet.none with binFull := true }) → (¬refused → holds = .none) →
          Effect (.go tag p) s ((({ s.taking with rcu := { s.rcu with mode := mode, haltPending := false } }.report
            (.mode mode .holding s.rcu.deploy .go holds false s.rcu.stranded)).reply c .ok []).modeEntered)
          ∧ ∃ t, exec (.go tag p) s = .next t ∧ t.rcu.holds = holds))

/-- How the head resumes when the mode enters LAYING or DRAINING (R142, R119). That the settle count and the gust run are 0 at
a LOCK_HOLD entered so is the model's choice (log entry 13). -/
def Obligations.HeadResumesByState : Prop :=
  ∀ e : Ev, e.running = true →
    let rate := if e.reducedRate then SlewRate.reduced else .full
    let receive : Order := .slew ⟨e.rcu.baseX + 40000, e.rcu.baseY, e.rcu.baseZ + 20000, 0⟩ rate
    let sends (unit : Nat) (o : Order) (h : Hsq) := e.flight unit = none →
      e.headResume = { e with toState := { e.toState.launched unit o .hsq with hsq := { h with orderSent := true } } }
    (e.hsq.head = .vacant → e.hsq.atReceive = true → e.headResume = e)
    ∧ (e.hsq.head = .vacant → e.hsq.atReceive = false → sends boomUnit receive { e.hsq with head := .retracting })
    ∧ (e.hsq.head = .gripping → e.hsq.orderSent = false → sends gripperUnit .take e.hsq)
    ∧ (e.hsq.head = .releasing → e.hsq.orderSent = false → sends gripperUnit .openGrip e.hsq)
    ∧ (e.hsq.head = .retracting → e.hsq.orderSent = false → sends boomUnit receive e.hsq)
    ∧ (∀ en, e.hsq.head = .approaching → e.hsq.orderSent = false → e.headEntry = some en →
        sends boomUnit (.slew (e.orderedPose en.target) rate) { e.hsq with atReceive := false })
    ∧ (e.hsq.head ∈ [.gripping, .approaching, .releasing, .retracting] → e.hsq.orderSent = true → e.headResume = e)
    ∧ (e.hsq.head ∈ [.pressing, .measuring] → e.headResume = e)
    ∧ (e.hsq.head ∈ [.settling, .gustHold, .readyToPress, .lockHold] → e.trk.locked = true →
        e.headResume = { e with hsq := { e.hsq with
          head := .settling, orderSent := false, settleCount := 0, gustTimer := none, lockHoldTimer := none
          latch := some ⟨if e.reducedRate then 2 * e.scp.config.settleCount else e.scp.config.settleCount,
            e.scp.config.tolPos, e.scp.config.tolYaw⟩ } })
    ∧ (e.hsq.head ∈ [.settling, .gustHold, .readyToPress, .lockHold] → e.trk.locked = false →
        e.headResume = { e with hsq := { e.hsq with
          head := .lockHold, orderSent := false, settleCount := 0, gustRun := 0, gustTimer := none
          lockHoldTimer := some e.now } })
    ∧ (e.hsq.head = .dumping → e.headBusy = false →
        (e.btc.bin < 24 → sends chuteUnit .dump e.hsq)
        ∧ (24 ≤ e.btc.bin → e.headResume = e.raiseHold .binFull none))
    ∧ (e.hsq.head = .dumping → e.headBusy = true → e.headResume = e)

/-- HALT in LAYING and HOLDING (R167), and ABORT, which drops the run where it stands (R169, R97): the flush, STOP, the
train removed and its berths stranded, the head VACANT, the active course read again (R33), then the MODE report with cause
ABORT and the stranded set, then the reply OK. -/
def Obligations.HaltAndAbort : Prop :=
  (∀ (s : State) (tag : Byte) (p : List Byte), s.takes ⟨0x21, tag, p⟩ →
    (s.rcu.mode = .laying → Effect (.halt tag p) s
      (((({ s.taking with rcu := { s.rcu with mode := .draining } }.flush).modeReport .halt .laying).reply
        ⟨0x21, tag, p⟩ .ok []).promptSel.promptDrain))
    ∧ (s.rcu.mode = .holding → exec (.halt tag p) s =
        .next ({ s with rcu := { s.rcu with haltPending := true } }.answered ⟨0x21, tag, p⟩ .ok [])))
  ∧ (∀ (s : State) (tag : Byte) (p : List Byte), s.takes ⟨0x22, tag, p⟩ →
      s.rcu.mode = .laying ∨ s.rcu.mode = .holding ∨ s.rcu.mode = .draining →
      ∃ (t : State) (dropped : Ev),
        let read := dropped.refreshCourse .event
        let ended : Ev := { read with rcu := { s.rcu with
          mode := .aborted, holds := .none, inspects := [], haltPending := false, stranded := t.rcu.stranded } }
        exec (.abort tag p) s = .next t
        ∧ t = ((ended.report (.mode .aborted s.rcu.mode s.rcu.deploy .abort .none false t.rcu.stranded)).reply
            ⟨0x22, tag, p⟩ .ok []).toState
        ∧ dropped.toState = { s with
            scp := s.taking.flush.scp
            pls := { s.pls with plan := dropped.pls.plan }
            rcu := { s.rcu with stranded := t.rcu.stranded }
            sli := { s.sli with inFlight := [], boomWaiting := none }
            btc := { s.btc with train := dropped.btc.train }
            hsq := { s.hsq with
              head := .vacant, carrier := none, orderSent := false, dumpPending := false, atReceive := false
              settleCount := 0, gustTimer := none, lockHoldTimer := none, measuringTimer := none }
            loopTx := s.loopTx ++ stopFrame }
        ∧ dropped.replyDue = true
        ∧ t.rcu = { s.rcu with
            mode := .aborted, holds := .none, inspects := [], haltPending := false, stranded := t.rcu.stranded
            marker := some 0x22 }
        ∧ (∀ b, b ∈ t.rcu.stranded ↔ b ∈ s.rcu.stranded ∨ (b < 10 ∧ (s.carrierAt b ≠ none ∨ s.reserved b = true)))
        ∧ (∀ b < 10, t.carrierAt b = none) ∧ t.btc.releases = s.btc.releases ∧ t.btc.bin = s.btc.bin
        ∧ (∀ slot, t.entryAt slot = (s.entryAt slot).map fun en =>
            if (List.range 10).any (fun b => (s.carrierAt b).any fun c => c.slot == slot) then
              { en with state := .planned } else en)
        ∧ t.sli = { s.sli with inFlight := [], boomWaiting := none } ∧ t.loopTx = s.loopTx ++ stopFrame
        ∧ t.hsq.head = .vacant ∧ t.hsq.carrier = none ∧ t.hsq.dumpPending = false ∧ t.hsq.settleCount = 0
        ∧ t.hsq.gustTimer = none ∧ t.hsq.lockHoldTimer = none ∧ t.hsq.measuringTimer = none ∧ t.hsq.atReceive = false
        ∧ t.hsq.lockout = s.hsq.lockout ∧ t.trk = s.trk ∧ t.dfu = s.dfu ∧ t.hmn = s.hmn ∧ t.scp.batch = [])

/-- CLEAR (R170) takes berths out of the stranded set, and with none left JAM out of the reasons in HOLDING, or the
mode to settled IDLE in ABORTED; ACCEPT (R171) takes a slot out of the inspect list, and with none left INSPECT out of
the reasons. -/
def Obligations.ClearAndAccept : Prop :=
  (∀ (s : State) (tag form : Byte) (rest : List Byte),
    let c : HostCommand := ⟨0x23, tag, form :: rest⟩
    let named := if form = 1 then List.range 10 else rest.map (·.toNat)
    let left := s.rcu.stranded.filter fun b => decide (b ∉ named)
    let bad := (form ≠ 0 ∧ form ≠ 1) ∨ (form = 0 ∧ (10 < rest.length ∨ ∃ b ∈ rest, 9 < b.toNat))
    s.takes c →
    (s.rcu.mode ≠ .holding → s.rcu.mode ≠ .aborted → exec (.clear tag c.payload) s = .next (s.answered c .mode []))
    ∧ (s.rcu.mode = .holding ∨ s.rcu.mode = .aborted →
      (bad → exec (.clear tag c.payload) s = .next (s.answered c .range []))
      ∧ (¬bad → left ≠ [] → exec (.clear tag c.payload) s =
          .next ({ s with rcu := { s.rcu with stranded := left } }.answered c .ok (le 2 (bitSet left))))
      ∧ (¬bad → left = [] → s.rcu.mode = .holding → exec (.clear tag c.payload) s =
          .next ({ s with rcu := { s.rcu with stranded := [], holds := { s.rcu.holds with jam := false } } }.answered c .ok
            (le 2 0)))
      ∧ (¬bad → left = [] → s.rcu.mode = .aborted → exec (.clear tag c.payload) s =
          .next ((({ s.taking with rcu := { s.rcu with stranded := [] } }.enterIdle .clear).reply c .ok (le 2 0)).toState))))
  ∧ (∀ (s : State) (tag : Byte) (slot : Nat) (rest : List Byte), slot < 65536 →
    let c : HostCommand := ⟨0x24, tag, le 2 slot ++ rest⟩
    let left := s.rcu.inspects.filter (· != slot)
    s.takes c →
    (s.rcu.mode ≠ .holding ∨ s.rcu.holds.inspect = false →
      exec (.accept tag c.payload) s = .next (s.answered c .mode []))
    ∧ (s.rcu.mode = .holding → s.rcu.holds.inspect = true →
      (1023 < slot → exec (.accept tag c.payload) s = .next (s.answered c .range []))
      ∧ (slot ≤ 1023 → slot ∉ s.rcu.inspects → exec (.accept tag c.payload) s = .next (s.answered c .state []))
      ∧ (slot ≤ 1023 → slot ∈ s.rcu.inspects → exec (.accept tag c.payload) s =
          .next ({ s with rcu := { s.rcu with
            inspects := left, holds := { s.rcu.holds with inspect := decide (left ≠ []) } } }.answered c .ok
              (le 2 left.length)))))

/-- STOW in settled IDLE (R172, R157): the health save, the table no longer valid, FOLD sent or waiting behind the
slew in flight, STOWING with its MODE report, and the reply. -/
def Obligations.StowFoldsTheBoom : Prop :=
  ∀ (s : State) (tag : Byte) (p : List Byte), s.takes ⟨0x25, tag, p⟩ → s.settledIdle = true →
    let hsq : Hsq := { s.hsq with
      orderSent := false, dumpPending := false, settleCount := 0, gustRun := 0, gustTimer := none, lockHoldTimer := none
      measuringTimer := none, outcome := .clear }
    let dfu : Dfu := { s.dfu with
      valid := false, pendingPoints := [], cal := .none, samples := [], limitTimer := none, cause := none
      slew := if s.dfu.slew = Outstanding.current then .abandoned else .none }
    let stowing : Ev := { s.taking with
      rcu := { s.rcu with mode := .stowing }, hmn := { s.hmn with stored := s.hmn.live.saved }, dfu := dfu, hsq := hsq }
    let done (e : Ev) := exec (.stow tag p) s = .next ((e.modeReport .stow .idle).reply ⟨0x25, tag, p⟩ .ok []).toState
    (s.flight boomUnit = none → done { stowing with
      toState := { stowing.toState with hsq := { hsq with atReceive := false } }.launched boomUnit .fold .rcu })
    ∧ (s.flight boomUnit ≠ none → done { stowing with sli := { s.sli with boomWaiting := some .fold } })

/-- CAL in settled IDLE: its start form (R148), which sends the slew to point 0 as soon as BOOM is free (R149), its
CANCEL form (R156), and any other form. -/
def Obligations.CalStartsAndCancels : Prop :=
  ∀ (s : State) (tag form : Byte) (rest : List Byte),
    let c : HostCommand := ⟨0x27, tag, form :: rest⟩
    let busy := ∃ k, s.dfu.cal = .running k ∨ s.dfu.cal = .suspended k
    let due : Dfu := { s.dfu with pendingPoints := [], cause := none, cal := .running 0, attempt := 1, phase := .due }
    let pose : Pose := ⟨s.rcu.baseX + 40000, s.rcu.baseY, s.rcu.baseZ + 15000, 0⟩
    s.takes c → s.settledIdle = true →
    (form = 0 → busy → exec (.calStart tag c.payload) s = .next (s.answered c .busy []))
    ∧ (form = 0 → ¬busy → s.flight boomUnit ≠ none →
        exec (.calStart tag c.payload) s = .next ({ s with dfu := due }.answered c .ok []))
    ∧ (form = 0 → ¬busy → s.flight boomUnit = none → exec (.calStart tag c.payload) s =
        .next (({ s with
          dfu := { due with phase := .slewing, slew := .current, pointPose := pose }
          hsq := { s.hsq with atReceive := false } }.launched boomUnit (.slew pose .full) .dfu).answered c .ok []))
    ∧ (form = 1 → exec (.calCancel tag c.payload) s =
        .next ({ s with dfu := { s.dfu with
          pendingPoints := [], samples := [], limitTimer := none, cause := none, cal := .none
          slew := if s.dfu.slew = Outstanding.current then .abandoned else s.dfu.slew } }.answered c .ok []))
    ∧ (form ≠ 0 → form ≠ 1 → exec (.calStart tag c.payload) s = .next (s.answered c .range []))

/-- RST (R173, R202): the flush, then the reply, then the reset of the run; the mode becomes ABORTED with berths
stranded, IDLE with none, with a MODE report of cause RESET, and an entry into IDLE saves the health values. The
configuration items are kept or restored by KEEP (R201), with a RATE report of cause CFG where reduced rate in force turns
(R144, R139). The press lockout, the gust-reduced flag and the gust count are kept (R144); the count becomes 0 only with a
change of the active course (R139), and in an orderly state the course that is read again is the one read before. -/
def Obligations.SoftResetDropsTheRun : Prop :=
  ∀ (s : State) (tag : Byte) (p : List Byte), s.takes ⟨0x05, tag, p⟩ →
    ∃ (t : State) (dropped : Ev),
      let mode := if t.rcu.stranded = [] then Mode.idle else .aborted
      let config := if s.scp.config.keep then s.scp.config else .defaults
      let reduced (rate : RateSetting) : Bool := decide (rate = .reduced ∨ rate = .auto ∧ s.hsq.gustReduced = true)
      let restored : Ev := { dropped with scp := { dropped.scp with config := config } }
      let told := if reduced config.rate = reduced s.scp.config.rate then restored
        else restored.report (.rate (reduced config.rate) .cfg s.rsl.active s.hsq.gustCount)
      let read := told.refreshCourse .reset
      let ended := { read with rcu := { read.rcu with mode := mode } }.report
        (.mode mode s.rcu.mode false .reset .none false t.rcu.stranded)
      exec (.rst tag p) s = .next t
      ∧ t = (if t.rcu.stranded = [] then { ended with hmn := { s.hmn with stored := s.hmn.live.saved } } else ended).toState
      ∧ dropped.toState = { s with
          scp := { (s.taking.flush.reply ⟨0x05, tag, p⟩ .ok []).scp with commands := [] }
          pls := { s.pls with plan := dropped.pls.plan }
          rcu := { s.rcu with
            deploy := false, holds := .none, inspects := [], haltPending := false, stranded := t.rcu.stranded
            marker := some 0x05 }
          sli := { s.sli with inFlight := [], boomWaiting := none }
          btc := { s.btc with train := dropped.btc.train }
          hsq := { s.hsq with
            head := .vacant, carrier := none, orderSent := false, dumpPending := false, atReceive := false
            settleCount := 0, latch := none, gustRun := 0, gustTimer := none, lockHoldTimer := none
            measuringTimer := none, outcome := .clear }
          dfu := { s.dfu with
            pendingPoints := [], cal := .none, samples := [], limitTimer := none, cause := none, slew := .none }
          loopTx := s.loopTx ++ stopFrame }
      ∧ dropped.replyDue = false
      ∧ t.hsq.lockout = s.hsq.lockout ∧ t.hsq.gustReduced = s.hsq.gustReduced
      ∧ (dropped.lowestCourse = s.rsl.active → t.hsq.gustCount = s.hsq.gustCount)
      ∧ (s.Sound → s.Orderly → dropped.lowestCourse = s.lowestCourse)
      ∧ (s.taking.flush.scp.outbound ++ [.reply 0x05 tag .ok []]) <+: t.scp.outbound
      ∧ t.scp.commands = [] ∧ t.scp.batch = []
      ∧ t.scp.config = (if s.scp.config.keep then s.scp.config else .defaults)
      ∧ t.rcu = { s.rcu with
          mode := if t.rcu.stranded = [] then .idle else .aborted, deploy := false, holds := .none, inspects := []
          haltPending := false, stranded := t.rcu.stranded, marker := some 0x05 }
      ∧ (∀ b, b ∈ t.rcu.stranded ↔ b ∈ s.rcu.stranded ∨ (b < 10 ∧ (s.carrierAt b ≠ none ∨ s.reserved b = true)))
      ∧ (∀ b < 10, t.carrierAt b = none) ∧ t.btc.releases = s.btc.releases ∧ t.btc.bin = s.btc.bin
      ∧ (∀ slot, t.entryAt slot = (s.entryAt slot).map fun en =>
          if (List.range 10).any (fun b => (s.carrierAt b).any fun c => c.slot == slot) then
            { en with state := .planned } else en)
      ∧ t.sli = { s.sli with inFlight := [], boomWaiting := none } ∧ t.loopTx = s.loopTx ++ stopFrame
      ∧ t.hsq.head = .vacant ∧ t.hsq.carrier = none ∧ t.hsq.atReceive = false ∧ t.hsq.latch = none
      ∧ t.hsq.outcome = .clear ∧ t.hsq.gustTimer = none ∧ t.hsq.lockHoldTimer = none ∧ t.hsq.measuringTimer = none
      ∧ t.dfu = { s.dfu with
          pendingPoints := [], cal := .none, samples := [], limitTimer := none, cause := none, slew := .none }
      ∧ t.hmn = { s.hmn with stored := if t.rcu.stranded = [] then s.hmn.live.saved else s.hmn.stored }
      ∧ t.trk = s.trk ∧ t.now = s.now

/-- Power-on and hard reset (R174): every block takes its power-on value, the persistent store is read and kept (R17,
R187), the straps set the bit rate (R188), STOP is sent, and each wear count loaded at or above its threshold is
reported with cause LOAD, in number order. The report sequence counter starts at 0, so these reports carry 0, 1 and so on,
and the counter then stands at their number (R195). -/
def Obligations.PowerOnAndHardReset : Prop :=
  ∀ (s : State) (strap0 strap1 : Bool) (row : Bool → Bool → Instr), row = .powerOn ∨ row = .hardReset →
    let rate := if strap1 then (if strap0 then 921600 else 460800) else if strap0 then 230400 else 115200
    let loaded (a : Attr) : AttrRecord :=
      let r := s.hmn.stored.read a
      ⟨r.value, r.threshold, decide (r.threshold ≠ 0 ∧ r.threshold ≤ r.value)⟩
    let crossed := [Attr.gripCycles, .sawCuts, .glueFaults, .pressCutoffs, .jams, .lockLosses, .rejects].filter fun a =>
      (loaded a).crossed
    ∃ t, exec (row strap0 strap1) s = .next t
      ∧ t.pls = { Pls.reset none with
          ceiling := s.pls.storedCeiling.getD 96, storedCeiling := s.pls.storedCeiling }
      ∧ t.rcu = .reset ∧ t.rsl = .reset ∧ t.sli = .reset ∧ t.btc = .reset ∧ t.trk = .reset ∧ t.hsq = .reset
      ∧ t.dfu = .reset ∧ (∀ a, t.hmn.live.read a = loaded a) ∧ t.hmn.stored = s.hmn.stored
      ∧ t.scp = { Scp.reset rate with
          outbound := crossed.zipIdx.map fun q =>
            .report (BitVec.ofNat 16 q.2) (.health q.1 (loaded q.1).value (loaded q.1).threshold .load)
          sequence := BitVec.ofNat 16 crossed.length }
      ∧ t.loopTx = s.loopTx ++ stopFrame ∧ t.hostTx = s.hostTx ∧ t.now = s.now

/-- HLTH THRESH (R184) and HLTH RESET (R185): the number written, the crossed flag and its effects as it turns, the
save to the persistent store, and the reply with the count as it then stands. -/
def Obligations.HealthThresholdAndReset : Prop :=
  ∀ (s : State) (tag n : Byte) (rest : List Byte), s.settledIdle = true ∨ s.rcu.mode = .holding →
    let set (e : Ev) (a : Attr) (r : AttrRecord) : Ev := { e with hmn := { e.hmn with live := e.hmn.live.write a r } }
    let save (e : Ev) : Ev := { e with hmn := { e.hmn with stored := e.hmn.live.saved } }
    let lifted (a : Attr) (e : Ev) : Ev := match a with
      | .glueFaults => { e with rcu := { e.rcu with holds := { e.rcu.holds with glue := false } } }
      | .pressCutoffs => { e with rcu := { e.rcu with holds := { e.rcu.holds with press := false } } }
      | .sawCuts => { e with selDue := true }
      | _ => e
    let raised (a : Attr) (e : Ev) : Ev := match a with
      | .glueFaults => e.raiseHold .glue none
      | .pressCutoffs => e.raiseHold .press none
      | _ => e
    (∀ v : Nat, v < 4294967296 →
      let c : HostCommand := ⟨0x28, tag, 2 :: n :: (le 4 v ++ rest)⟩
      s.takes c →
      (Attr.ofNumber n.toNat = none ∨ 999999 < v → exec (.hlthThresh tag c.payload) s = .next (s.answered c .range []))
      ∧ (∀ a, Attr.ofNumber n.toNat = some a → v ≤ 999999 →
          let r := s.hmn.live.read a
          let now := decide (v ≠ 0 ∧ v ≤ r.value)
          let e := set s.taking a ⟨r.value, v, now⟩
          let results := le 4 r.value ++ le 4 v ++ [flagByte now]
          (now = r.crossed → Effect (.hlthThresh tag c.payload) s ((save e).reply c .ok results))
          ∧ (now = true → r.crossed = false → Effect (.hlthThresh tag c.payload) s
              ((save ((raised a e).report (.health a r.value v .thresh))).reply c .ok results))
          ∧ (now = false → r.crossed = true → Effect (.hlthThresh tag c.payload) s
              ((save (lifted a e)).reply c .ok results))))
    ∧ (4 ≤ rest.length →
      let c : HostCommand := ⟨0x28, tag, 3 :: n :: rest⟩
      s.takes c →
      (Attr.ofNumber n.toNat = none → exec (.hlthReset tag c.payload) s = .next (s.answered c .range []))
      ∧ (∀ a, Attr.ofNumber n.toNat = some a →
          let r := s.hmn.live.read a
          let e := set s.taking a ⟨0, r.threshold, false⟩
          Effect (.hlthReset tag c.payload) s
            ((save (if r.crossed then lifted a e else e)).reply c .ok (le 4 0 ++ le 4 r.threshold ++ [0]))))

/-! ### The endings of the berth units -/

/-- The endings of LOAD, CUT and GLUE at their berths: DONE makes the carrier READY (R72, R74, R76), a glued one with
its deadline (R82); FAULT at SAW and GLUE condemns it WORK_FAULT with the cascade, where it is not condemned yet (R85,
R86). -/
def Obligations.WorkEndsAtTheBerth : Prop :=
  ∀ (s : State) (tag code : Byte) (c : Carrier),
    let ready (unit b : Nat) (k : Carrier) : Ev :=
      { Ev.start ((s.ended unit).withCarrier b { k with phase := .ready }) with xferDue := true }
    (∀ lane, s.awaits pickUnit tag (.load lane) .rsl → s.carrierAt 0 = some c →
      Effect (.loadDone tag) s (ready pickUnit 0 c).promptSel)
    ∧ (∀ length, s.awaits sawUnit tag (.cut length) .btc → s.carrierAt 1 = some c →
      Effect (.cutDone tag) s ((ready sawUnit 1 c).countWear .sawCuts)
      ∧ (c.condemned = none → Effect (.cutFault tag code) s
          ((ready sawUnit 1 { c with condemned := some .workFault }).orphans 1 [c.slot]))
      ∧ (c.condemned ≠ none → Effect (.cutFault tag code) s (ready sawUnit 1 c)))
    ∧ (∀ pattern, s.awaits glueUnit tag (.glue pattern) .btc → s.carrierAt 2 = some c →
      Effect (.glueDone tag) s (ready glueUnit 2 { c with deadline := some (s.now + s.scp.config.openTime * 1000) })
      ∧ (c.condemned = none → Effect (.glueFault tag code) s
          (((ready glueUnit 2 { c with condemned := some .workFault }).orphans 2 [c.slot]).countWear .glueFaults))
      ∧ (c.condemned ≠ none → Effect (.glueFault tag code) s ((ready glueUnit 2 c).countWear .glueFaults)))

/-- The orphan cascade (R86): behind the berth, every uncondemned carrier whose entry names a fallen slot, or the slot
of a carrier that falls in front of it, is condemned ORPHAN, an ARRIVING one becoming READY; every other carrier
stays, and nothing else changes. The end of a glue deadline (R84): the expired flag, and the condemnation EXPIRED
where no reason stands; at the head the notice of R87 with its effect by the head's state (R133). That dump pending is
cleared at the entry to DUMPING is the model's choice (log entry 31). -/
def Obligations.CascadeAndExpiry : Prop :=
  (∀ (e : Ev) (b : Nat) (fallen : List Nat),
    let t := e.orphans b fallen
    ∃ falls : Nat → Prop,
      (∀ a, falls a ↔ a < b ∧ ∃ c en, e.carrierAt a = some c ∧ c.condemned = none ∧ e.entryAt c.slot = some en
        ∧ ∃ slot ∈ en.bearers, slot ∈ fallen ∨ ∃ a' k, a < a' ∧ falls a' ∧ e.carrierAt a' = some k ∧ k.slot = slot)
      ∧ (∀ a c, e.carrierAt a = some c → falls a → t.carrierAt a = some { c with
          condemned := some .orphan, phase := if c.phase = Phase.arriving then .ready else c.phase })
      ∧ (∀ a, ¬falls a → t.carrierAt a = e.carrierAt a)
      ∧ (t.xferDue = true ↔ e.xferDue = true ∨ ∃ a c, falls a ∧ e.carrierAt a = some c ∧ c.phase = .arriving)
      ∧ t = { e with btc := { e.btc with train := t.btc.train }, xferDue := t.xferDue })
  ∧ (∀ (s : State) (b : Fin 10) (c : Carrier) (d : Nat), s.carrierAt b = some c → c.deadline = some d →
      let later : State := { s with now := max s.now d }
      let out : Carrier := { c with expired := true, deadline := none }
      let condemned : Carrier := { out with
        condemned := some .expired, phase := if c.phase = Phase.arriving then .ready else c.phase }
      let told : Hsq := { s.hsq with carrier := s.hsq.carrier.map fun k =>
        { k with expired := true, condemned := if c.condemned = none then some .expired else k.condemned } }
      let busy := ∃ u ∈ [boomUnit, wristUnit, gripperUnit, pressUnit, chuteUnit], ∃ r, s.flight u = some r ∧ r.requester = .hsq
      let fell : Ev := { Ev.start (later.withCarrier b condemned) with
        hsq := if b = 9 then told else s.hsq, xferDue := decide (c.phase = Phase.arriving) }.orphans b [c.slot]
      let waiting := s.hsq.head ∈ [.gripping, .approaching, .settling, .lockHold, .gustHold, .readyToPress]
      (c.condemned ≠ none → Effect (.glueDeadline b) s
        { Ev.start (later.withCarrier b out) with hsq := if b = 9 then told else s.hsq })
      ∧ (c.condemned = none → b ≠ 9 ∨ ¬waiting → Effect (.glueDeadline b) s fell)
      ∧ (c.condemned = none → b = 9 → waiting → busy → Effect (.glueDeadline b) s
          { fell with hsq := { fell.hsq with dumpPending := true } })
      ∧ (c.condemned = none → b = 9 → waiting → ¬busy → Effect (.glueDeadline b) s fell.enterDumping))

/-- Removals and jams. A removal (R91) takes the record out, gives the entry back PLANNED with its count and marks,
runs the cascade and reads the course state again; a jam strands the berth, raises JAM and counts JAMS (R92).
LOAD_EMPTY (R93) sets the lane's stock to 0 and strands nothing; LOAD_FAULT (R94) strands berth 0, MOVE_FAULT (R95)
berth b, and a head jam (R64, R96) berth 9, the head VACANT off the receive pose; that its settle count, gust run, timers
and outcome are cleared too is the model's choice (log entry 32). -/
def Obligations.RemovalsAndJams : Prop :=
  ∀ (s : State) (tag code : Byte),
    let gone (e : Ev) (b : Nat) (c : Carrier) : Ev :=
      ((({ e with toState := e.toState.withoutCarrier b }.promptLeave.changeEntry c.slot fun en =>
        { en with state := .planned }).orphans b [c.slot]).refreshCourse .event)
    let jam (e : Ev) (b : Nat) : Ev :=
      ({ e with rcu := { e.rcu with stranded := setAdd e.rcu.stranded b } }.raiseHold .jam none).countWear .jams
    (∀ lane c, s.awaits pickUnit tag (.load lane) .rsl → s.carrierAt 0 = some c →
      Effect (.loadEmpty tag) s
        (gone { Ev.start (s.ended pickUnit) with pls := { s.pls with stocks := Table.strike s.pls.stocks lane } } 0 c).promptSel
      ∧ (code ≠ 1 → Effect (.loadFault tag code) s (jam (gone (Ev.start (s.ended pickUnit)) 0 c) 0).promptSel))
    ∧ (∀ (b : Fin 9) c, s.awaits (xferUnit b) tag .move .btc → s.carrierAt b = some c →
      Effect (.moveFault b tag code) s (jam (gone (Ev.start (s.ended (xferUnit b))) b c) b))
    ∧ (∀ (u : HeadUnit) (o : Order), s.awaits u.number tag o .hsq →
      (u = .boom ∧ ∃ p r, o = .slew p r) ∨ (u = .gripper ∧ (o = .openGrip ∨ (o = .take ∧ code ≠ 5)))
        ∨ (u = .press ∧ o = .press) ∨ (u = .chute ∧ o = .dump) →
      let off : Ev := { Ev.start (s.ended u.number) with hsq := { s.hsq with
        head := .vacant, carrier := none, orderSent := false, dumpPending := false, atReceive := false
        settleCount := 0, gustRun := 0, gustTimer := none, lockHoldTimer := none, measuringTimer := none
        outcome := .clear } }
      let after (e : Ev) : Ev := if u = .boom then e.sendWaiting else e
      (∀ c, s.carrierAt 9 = some c → Effect (.headJam u tag code) s (after (jam (gone off 9 c) 9)))
      ∧ (s.carrierAt 9 = none → Effect (.headJam u tag code) s (after (jam off 9))))

/-- MOVE_DONE (R80): the carrier is in berth b+1, and takes it up: work at SAW and GLUE, by its condemnation, its
entry, the mode and the unit (R73, R75); READY on a shuttle; handed to the head at berth 9 (R77, R118). -/
def Obligations.MoveDoneArrives : Prop :=
  ∀ (s : State) (b : Fin 9) (tag : Byte) (c : Carrier), s.awaits (xferUnit b) tag .move .btc → s.carrierAt b = some c →
    let moved (phase : Phase) : State :=
      ((s.ended (xferUnit b)).withoutCarrier b).withCarrier (b + 1) { c with phase := phase }
    let done (t : State) := Effect (.moveDone b tag) s { Ev.start t with xferDue := true, selDue := decide (b = 0) }
    let works (unit : Nat) (work : Option Order) :=
      (c.condemned ≠ none ∨ work = none → done (moved .ready))
      ∧ (∀ o, c.condemned = none → work = some o →
          (s.running = true → s.flight unit = none → done ((moved .working).launched unit o .btc))
          ∧ (s.running = false ∨ s.flight unit ≠ none → done (moved .arriving)))
    (∀ en, b = 0 → s.entryAt c.slot = some en → works sawUnit (en.cut.map Order.cut))
    ∧ (∀ en, b = 1 → s.entryAt c.slot = some en → works glueUnit (some (.glue (s.classAt en.cls).glue)))
    ∧ (2 ≤ b.val → b ≠ 8 → done (moved .ready))
    ∧ (b = 8 →
        let hsq : Hsq := { s.hsq with
          carrier := some ⟨c.release, c.slot, c.condemned, c.expired⟩, dumpPending := false, outcome := .clear
          atReceive := false }
        let gripping : State := { moved .working with hsq := { hsq with head := .gripping, orderSent := false } }
        (c.condemned ≠ none → Effect (.moveDone b tag) s
          ({ Ev.start { moved .working with hsq := hsq } with xferDue := true }.enterDumping))
        ∧ (c.condemned = none → s.running = true → s.flight gripperUnit = none →
            done { gripping.launched gripperUnit .take .hsq with hsq := { gripping.hsq with orderSent := true } })
        ∧ (c.condemned = none → s.running = false ∨ s.flight gripperUnit ≠ none → done gripping))

/-! ### The head -/

/-- The endings of the head's orders up to the press, and its two waits: TAKE (R120), the approach SLEW (R122), TRIM
(R126), the gust timer (R130) and the lock-hold timer (R132); with the entry to DUMPING and its bin claim (R134, R88).
That dump pending is cleared at that entry is the model's choice (log entry 31), and so are the settle count of 0 at the
entry to GUST_HOLD, and the settle count and gust run of 0 at the entry to LOCK_HOLD from the approach (log entry 13). -/
def Obligations.HeadTakesAndTrims : Prop :=
  (∀ e : Ev,
    let dumping : Ev := { e with hsq := { e.hsq with
      head := .dumping, orderSent := false, dumpPending := false, gustTimer := none, lockHoldTimer := none } }
    let claims := e.running = true ∧
      ¬∃ u ∈ [boomUnit, wristUnit, gripperUnit, pressUnit, chuteUnit], ∃ r, e.flight u = some r ∧ r.requester = .hsq
    (claims → e.btc.bin < 24 → e.flight chuteUnit = none → e.enterDumping = { dumping with
      toState := { dumping.toState.launched chuteUnit .dump .hsq with hsq := { dumping.hsq with orderSent := true } } })
    ∧ (claims → 24 ≤ e.btc.bin → e.enterDumping = dumping.raiseHold .binFull none)
    ∧ (¬claims → e.enterDumping = dumping))
  ∧ (∀ (s : State) (tag code : Byte),
    let ended (unit : Nat) : Ev := Ev.start (s.ended unit)
    let falls (e : Ev) (c : Carrier) (reason : Reason) : Ev :=
      { e with
        toState := { (e.toState.withCarrier 9 { c with
            condemned := some reason, phase := if c.phase = Phase.arriving then .ready else c.phase }) with
          hsq := { e.hsq with carrier := e.hsq.carrier.map fun (k : HeadCarrier) => { k with condemned := some reason } } }
        xferDue := decide (c.phase = Phase.arriving) }.orphans 9 [c.slot]
    let settling : Hsq := { s.hsq with
      head := .settling, orderSent := false, settleCount := 0, gustTimer := none, lockHoldTimer := none
      latch := some ⟨if s.reducedRate then 2 * s.scp.config.settleCount else s.scp.config.settleCount,
        s.scp.config.tolPos, s.scp.config.tolYaw⟩ }
    let lockHold : Hsq := { s.hsq with
      head := .lockHold, orderSent := false, settleCount := 0, gustRun := 0, gustTimer := none
      lockHoldTimer := if s.running then some s.now else none }
    let gustHold : Hsq := { s.hsq with
      head := .gustHold, orderSent := false, settleCount := 0, gustRun := 0
      gustTimer := if s.running then some (s.now, s.scp.config.gustLimit * 1000) else none }
    (s.awaits gripperUnit tag .take .hsq →
      let approaching : Ev := { ended gripperUnit with hsq := { s.hsq with head := .approaching, orderSent := false } }
      (s.hsq.dumpPending = true →
        Effect (.takeDone tag) s ((ended gripperUnit).enterDumping.countWear .gripCycles))
      ∧ (∀ en, s.hsq.dumpPending = false → s.headEntry = some en → s.running = true → s.flight boomUnit = none →
          Effect (.takeDone tag) s ({ approaching with toState :=
            { approaching.toState.launched boomUnit
                (.slew (s.orderedPose en.target) (if s.reducedRate then .reduced else .full)) .hsq with
              hsq := { approaching.hsq with orderSent := true, atReceive := false } } }.countWear .gripCycles))
      ∧ (s.hsq.dumpPending = false → s.running = false ∨ s.flight boomUnit ≠ none →
          Effect (.takeDone tag) s (approaching.countWear .gripCycles))
      ∧ (∀ c, s.carrierAt 9 = some c →
          (c.condemned = none → Effect (.takeSlip tag) s (falls (ended gripperUnit) c .gripFault).enterDumping)
          ∧ (c.condemned ≠ none → Effect (.takeSlip tag) s (ended gripperUnit).enterDumping)))
    ∧ (∀ p r, s.awaits boomUnit tag (.slew p r) .hsq → s.hsq.head = .approaching →
      (s.hsq.dumpPending = true → Effect (.approachDone tag) s (ended boomUnit).enterDumping.sendWaiting)
      ∧ (s.hsq.dumpPending = false → s.trk.locked = true →
          Effect (.approachDone tag) s { ended boomUnit with hsq := settling }.sendWaiting)
      ∧ (s.hsq.dumpPending = false → s.trk.locked = false →
          Effect (.approachDone tag) s { ended boomUnit with hsq := lockHold }.sendWaiting))
    ∧ (∀ dx dy dz dyaw, s.awaits wristUnit tag (.trim dx dy dz dyaw) .hsq →
      (s.hsq.head = .dumping ∨ s.hsq.dumpPending = false → Effect (.trimDone tag) s (ended wristUnit))
      ∧ (s.hsq.head ≠ .dumping → s.hsq.dumpPending = true →
          Effect (.trimDone tag) s (ended wristUnit).enterDumping
          ∧ Effect (.trimFault tag code) s (ended wristUnit).enterDumping)
      ∧ (s.hsq.head = .settling → s.hsq.dumpPending = false →
          Effect (.trimFault tag code) s { ended wristUnit with hsq := gustHold })
      ∧ (s.hsq.head = .dumping ∨ (s.hsq.head ≠ .settling ∧ s.hsq.dumpPending = false) →
          Effect (.trimFault tag code) s (ended wristUnit)))
    ∧ (∀ began limit, s.hsq.gustTimer = some (began, limit) →
      let later : Ev := Ev.start { s with now := max s.now (began + limit), hsq := { s.hsq with gustTimer := none } }
      (s.hsq.head ≠ .gustHold → Effect .gustTimer s later)
      ∧ (∀ c, s.hsq.head = .gustHold → s.carrierAt 9 = some c →
          (c.condemned = none → Effect .gustTimer s (falls later c .settleFault).enterDumping)
          ∧ (c.condemned ≠ none → Effect .gustTimer s later.enterDumping)))
    ∧ (∀ began, s.hsq.lockHoldTimer = some began →
      Effect .lockHoldTimer s ((Ev.start { s with
        now := max s.now (began + 5000), hsq := { s.hsq with lockHoldTimer := none } }).raiseHold .link none)))

/-- A frame offered to the head, by its residual (R124): in SETTLING (R125) with the press decision (R127) and the
press claim (R135, R83), in GUST_HOLD and READY_TO_PRESS (R128, R129), and in MEASURING in any mode (R136); and the
notices of lock gained and lost (R131, R132). In every other state, and where the mode stops it, a frame is passed over,
whatever the head holds (R113, R141). That a TRIM leaves the order-sent flag clear while it is in flight is the model's
choice (log entry 27), and so is the settle count of 0 at GUST_HOLD (log entry 13). -/
def Obligations.FramesAtTheHead : Prop :=
  ∀ e : Ev,
    let running := e.rcu.mode = .laying ∨ e.rcu.mode = .draining
    let settling (f : Ev) : Ev := { f with hsq := { f.hsq with
      head := .settling, orderSent := false, settleCount := 0, gustTimer := none, lockHoldTimer := none
      latch := some ⟨if f.reducedRate then 2 * f.scp.config.settleCount else f.scp.config.settleCount,
        f.scp.config.tolPos, f.scp.config.tolYaw⟩ } }
    (∀ (p : Pose) (en : Entry) (yaw : Int), e.headEntry = some en →
      -18000 ≤ yaw → yaw ≤ 17999 → (∃ turns : Int, p.yaw - en.target.yaw = yaw + 36000 * turns) →
      let dx := p.x - en.target.x
      let dy := p.y - en.target.y
      let dz := p.z - (en.target.z + 300)
      let outside := 400 < |dx| ∨ 400 < |dy| ∨ 200 < |dz| ∨ 300 < |yaw|
      let within (pos tol : Nat) (h : Int) := |dx| ≤ pos ∧ |dy| ≤ pos ∧ |h| ≤ pos ∧ |yaw| ≤ tol
      let trim (f : Ev) : Ev := { f with toState :=
        { f.toState with hsq := { f.hsq with settleCount := 0 } }.launched wristUnit (.trim (-dx) (-dy) (-dz) (-yaw)) .hsq }
      let gusts := min 255 (e.hsq.gustCount + 1)
      let gust : Ev := { e with hsq := { e.hsq with
        head := .gustHold, orderSent := false, settleCount := 0, gustRun := 0
        gustTimer := some (e.now, e.scp.config.gustLimit * 1000), gustCount := gusts
        gustReduced := e.hsq.gustReduced || decide (3 ≤ gusts) } }
      let gustHeld := if e.scp.config.rate = .auto ∧ e.hsq.gustReduced = false ∧ 3 ≤ gusts then
        gust.report (.rate true .gusts e.rsl.active gusts) else gust
      (∀ l, e.hsq.head = .settling → running → e.flight wristUnit = none → e.hsq.latch = some l →
        let counted : Ev := { e with hsq := { e.hsq with settleCount := e.hsq.settleCount + 1 } }
        let fit := e.trk.locked = true ∧ ∃ k, e.hsq.carrier = some k ∧ k.condemned = none ∧ k.expired = false
        let clear := e.hsq.lockout = none ∧ ∀ slot ∈ en.bearers, ∃ b, e.entryAt slot = some b
          ∧ (b.state = .placed ∨ b.state = .skipped)
        let pressing : Ev := { counted with hsq := { counted.hsq with head := .pressing, orderSent := false } }
        (outside → e.offerToHead p = gustHeld)
        ∧ (¬outside → ¬within l.posTol l.yawTol dz → e.offerToHead p = trim e)
        ∧ (¬outside → within l.posTol l.yawTol dz → e.hsq.settleCount + 1 < l.target → e.offerToHead p = counted)
        ∧ (¬outside → within l.posTol l.yawTol dz → l.target ≤ e.hsq.settleCount + 1 →
            (¬fit → e.offerToHead p = counted)
            ∧ (fit → ¬clear → e.offerToHead p =
                { counted with hsq := { counted.hsq with head := .readyToPress, orderSent := false } })
            ∧ (∀ c, fit → clear → e.carrierAt 9 = some c → e.flight pressUnit = none → e.offerToHead p =
                { pressing with toState :=
                  { (pressing.toState.withCarrier 9 { c with deadline := none }).launched pressUnit .press .hsq with
                    hsq := { pressing.hsq with orderSent := true } } })))
      ∧ (e.hsq.head = .settling → running → e.flight wristUnit ≠ none → e.offerToHead p = e)
      ∧ (e.hsq.head = .gustHold → running →
          (outside → e.offerToHead p = { e with hsq := { e.hsq with gustRun := 0 } })
          ∧ (¬outside → e.hsq.gustRun + 1 < 3 →
              e.offerToHead p = { e with hsq := { e.hsq with gustRun := e.hsq.gustRun + 1 } })
          ∧ (¬outside → 3 ≤ e.hsq.gustRun + 1 →
              e.offerToHead p = settling { e with hsq := { e.hsq with gustRun := e.hsq.gustRun + 1 } }))
      ∧ (∀ l, e.hsq.head = .readyToPress → running → e.hsq.latch = some l →
          (outside → e.offerToHead p = gustHeld)
          ∧ (¬outside → within l.posTol l.yawTol dz → e.offerToHead p = e)
          ∧ (¬outside → ¬within l.posTol l.yawTol dz → e.offerToHead p = trim (settling e)))
      ∧ (∀ l, e.hsq.head = .measuring → e.hsq.latch = some l →
          let dz := p.z - en.target.z
          let measured : Ev := { e with hsq := { e.hsq with
            head := .releasing, orderSent := false, measuringTimer := none
            outcome := { e.hsq.outcome with
              unverified := false, offset := some ⟨dx, dy, dz, yaw⟩
              outOfTolerance := e.hsq.outcome.outOfTolerance || decide (¬within (2 * l.posTol) (2 * l.yawTol) dz) } } }
          (¬running ∨ e.flight gripperUnit ≠ none → e.offerToHead p = measured)
          ∧ (running → e.flight gripperUnit = none → e.offerToHead p = { measured with toState :=
              { measured.toState.launched gripperUnit .openGrip .hsq with
                hsq := { measured.hsq with orderSent := true } } })))
    ∧ (∀ p : Pose, e.hsq.head ∈ [.vacant, .gripping, .approaching, .lockHold, .pressing, .releasing, .retracting, .dumping]
        ∨ (¬running ∧ e.hsq.head ≠ .measuring) → e.offerToHead p = e)
    ∧ (e.hsq.head = .lockHold → running → e.headLockGained = settling e)
    ∧ (e.hsq.head ≠ .lockHold ∨ ¬running → e.headLockGained = e)
    ∧ (e.hsq.head ∈ [.settling, .gustHold, .readyToPress] → running → e.headLockLost = { e with hsq := { e.hsq with
        head := .lockHold, orderSent := false, settleCount := 0, gustRun := 0, gustTimer := none
        lockHoldTimer := some e.now } })
    ∧ (e.hsq.head = .pressing →
        e.headLockLost = { e with hsq := { e.hsq with outcome := { e.hsq.outcome with unverified := true } } })
    ∧ (e.hsq.head ≠ .pressing → e.hsq.head ∉ [.settling, .gustHold, .readyToPress] ∨ ¬running → e.headLockLost = e)

/-- The press and what follows it: PRESS_DONE and the press limit with LIFT (R59, R136), MEASURING or RELEASING by the
INSPECT mark, the measuring timer and the press lockout (R128, R136), the placement at OPEN_DONE in its order (R137,
R81), the end of the retract (R138, R119), and the dump (R89, R134). -/
def Obligations.PressPlacementAndDump : Prop :=
  ∀ (s : State) (tag : Byte),
    let sends (e : Ev) (unit : Nat) (o : Order) : Ev :=
      if (e.rcu.mode = .laying ∨ e.rcu.mode = .draining) ∧ e.flight unit = none then
        { e with toState := { e.toState.launched unit o .hsq with hsq := { e.hsq with orderSent := true } } }
      else e
    let releases (e : Ev) : Ev :=
      sends { e with hsq := { e.hsq with head := .releasing, orderSent := false } } gripperUnit .openGrip
    let pressed (en : Entry) (e : Ev) : Ev :=
      if en.marks.inspect then
        { e with hsq := { e.hsq with head := .measuring, orderSent := false, measuringTimer := some e.now } }
      else releases e
    (∀ en, s.awaits pressUnit tag .press .hsq → s.headEntry = some en →
      Effect (.pressDone tag) s (pressed en (Ev.start (s.ended pressUnit))))
    ∧ (∀ en began, s.flight pressUnit = some ⟨.press, tag, .hsq, began⟩ → s.headEntry = some en →
      let later := max s.now (began + 2500)
      Effect .pressLimit s ((pressed en (Ev.start { s.ended pressUnit with
        now := later, loopTx := s.loopTx ++ liftFrame
        hsq := { s.hsq with outcome := { s.hsq.outcome with pressCut := true }, lockout := some later } })).countWear
          .pressCutoffs))
    ∧ (∀ began, s.hsq.measuringTimer = some began →
      let later : State := { s with now := max s.now (began + 200) }
      (s.hsq.head = .measuring → Effect .measuringTimer s (releases (Ev.start { later with hsq := { s.hsq with
        measuringTimer := none, outcome := { s.hsq.outcome with unverified := true } } })))
      ∧ (s.hsq.head ≠ .measuring → Effect .measuringTimer s
          (Ev.start { later with hsq := { s.hsq with measuringTimer := none } })))
    ∧ (∀ began, s.hsq.lockout = some began → Effect .pressLockout s
      { Ev.start { s with now := max s.now (began + 3000), hsq := { s.hsq with lockout := none } } with retestDue := true })
    ∧ (∀ k en, s.awaits gripperUnit tag .openGrip .hsq → s.hsq.carrier = some k → s.entryAt k.slot = some en →
      let o := s.hsq.outcome
      let handed := (Ev.start (s.ended gripperUnit)).onScp (Scp.handOver false k.slot o)
      let placed := { handed with toState := handed.toState.withoutCarrier 9 }.promptLeave.changeEntry k.slot fun en =>
        { en with state := .placed, outcome := some o }
      let read := { placed with hsq := { s.hsq with carrier := none } }.refreshCourse .event
      let held := if o.outOfTolerance then read.raiseHold .inspect (some k.slot) else read
      let back := { held with hsq := { held.hsq with head := .retracting, orderSent := false } }
      Effect (.openDone tag) s (sends back boomUnit (.slew
        ⟨s.rcu.baseX + 40000, s.rcu.baseY, s.rcu.baseZ + 20000, 0⟩ (if back.reducedRate then .reduced else .full))))
    ∧ (∀ p r, s.awaits boomUnit tag (.slew p r) .hsq → s.hsq.head = .retracting →
      Effect (.retractDone tag) s ({ Ev.start (s.ended boomUnit) with
        hsq := { s.hsq with head := .vacant, orderSent := false, atReceive := true } }.promptLeave.sendWaiting))
    ∧ (∀ c en, s.awaits chuteUnit tag .dump .hsq → s.carrierAt 9 = some c → s.entryAt c.slot = some en →
      let rejects := if en.marks.skip ∨ c.condemned = some .orphan then en.rejects else en.rejects + 1
      let state : EntryState := if en.marks.skip then .skipped else if 3 ≤ rejects then .faulted else .planned
      let out : Ev := { Ev.start (s.ended chuteUnit) with btc := { s.btc with
        train := Table.strike s.btc.train 9, bin := s.btc.bin + 1 } }.promptLeave.changeEntry c.slot fun en =>
          { en with rejects := rejects, state := state }
      let told := out.reports (.rejected c.slot c.release c.condemned c.expired rejects ::
        (if state = .skipped then [.skipped [c.slot]] else if state = .faulted then [.faulted c.slot] else []))
      let done := (told.refreshCourse .event).countWear .rejects
      Effect (.dumpDone tag) s ({ done with hsq := { done.hsq with
        carrier := none, head := .vacant, orderSent := false, atReceive := true } }.promptLeave))

/-- The deflection feedforward (R121, R146): the reach is the square root rounded down; the correction at a reach is
the table's point there, linear and rounded between two points, the end points beyond them, and 0 while the table is
not valid (R145); the ordered pose is the approach pose moved back by it, each quotient rounded to the nearest unit,
halves away from zero. At a reach of 0 the quotient is a free value (log entry 4). -/
def Obligations.FeedforwardCorrectsTheApproach : Prop :=
  let nearest (q n : Int) (d : Nat) := 2 * |q * d - n| ≤ d ∧ (2 * |q * d - n| = d → |n| ≤ |q * d|)
  (∀ n : Nat, isqrt n ^ 2 ≤ n ∧ n < (isqrt n + 1) ^ 2)
  ∧ (∀ (d : Dfu) (r : Nat),
      (d.valid = false → d.correction r = ⟨0, 0⟩)
      ∧ (d.valid = true →
        (r ≤ 40000 → d.correction r = d.point 0)
        ∧ (250000 ≤ r → d.correction r = d.point 7)
        ∧ (∀ k < 8, r = 40000 + 30000 * k → d.correction r = d.point k)
        ∧ (∀ k < 7, 40000 + 30000 * k ≤ r → r ≤ 40000 + 30000 * (k + 1) →
            let part : Int := r - (40000 + 30000 * k)
            nearest (d.correction r).dz ((d.point k).dz * 30000 + ((d.point (k + 1)).dz - (d.point k).dz) * part) 30000
            ∧ nearest (d.correction r).dr ((d.point k).dr * 30000 + ((d.point (k + 1)).dr - (d.point k).dr) * part) 30000)))
  ∧ (∀ (s : State) (target : Pose),
      let r := isqrt ((target.x - s.rcu.baseX) ^ 2 + (target.y - s.rcu.baseY) ^ 2).toNat
      let c := s.dfu.correction r
      let o := s.orderedPose target
      o.z = target.z + 300 - c.dz ∧ o.yaw = target.yaw
      ∧ (r ≠ 0 → nearest (target.x - o.x) (c.dr * (target.x - s.rcu.baseX)) r
          ∧ nearest (target.y - o.y) (c.dr * (target.y - s.rcu.baseY)) r))

/-! ### The boom's other orders, the loop and the tracker -/

/-- The ends of DEPLOY (R165), FOLD (R172) and a calibration slew (R150, R151, R153), the point limit (R151), the slew
of a point that is due (R149), the boom request that waits (R53), and the effects of the entry into LAYING or DRAINING
in their order (R73, R75, R142, R79, R43), in which CUT before GLUE (log entry 30) and the head's resumption before the
transfers (log entry 33) are the model's choice. A calibration slew that ends with no slew outstanding is passed over: the
model's choice (log entry 23), as is the pose that is stored when a slew is sent (log entry 14). The MODE report of DEPLOY
carries the hold-reason set after all of the event's changes (R161): BIN_FULL is added where the bin claim of the entry is
refused (R88). -/
def Obligations.BoomOrdersEnd : Prop :=
  (∀ e : Ev,
    (e.modeEntered = (((e.resumeWork 1).resumeWork 2).headResume).promptXfer.promptSel.promptDrain)
    ∧ (∀ b c, b = 1 ∨ b = 2 → e.carrierAt b = some c →
        let becomes (k : Carrier) : Ev := { e with toState := e.toState.withCarrier b k }
        let unit := if b = 1 then sawUnit else glueUnit
        (c.phase ≠ .arriving → e.resumeWork b = e)
        ∧ (c.phase = .arriving → c.condemned ≠ none →
            e.resumeWork b = (becomes { c with phase := .ready }).promptXfer)
        ∧ (∀ en, c.phase = .arriving → c.condemned = none → e.entryAt c.slot = some en →
            let work := if b = 1 then en.cut.map Order.cut else some (.glue (e.classAt en.cls).glue)
            (work = none → e.resumeWork b = (becomes { c with phase := .ready }).promptXfer)
            ∧ (∀ o, work = some o → e.running = true → e.flight unit = none → e.resumeWork b = { e with
                toState := (e.toState.withCarrier b { c with phase := .working }).launched unit o .btc })))
    ∧ (e.sli.boomWaiting = none → e.sendWaiting = e)
    ∧ (∀ r, e.sli.boomWaiting = some r → e.flight boomUnit ≠ none → e.sendWaiting = e)
    ∧ (∀ r, e.sli.boomWaiting = some r → e.flight boomUnit = none → e.sendWaiting = { e with toState :=
        { { e.toState with sli := { e.sli with boomWaiting := none } }.launched boomUnit
            (match r with | .deploy => .deploy | .fold => .fold) .rcu with
          hsq := { e.hsq with atReceive := false } } })
    ∧ (∀ k, e.dfu.cal = .running k → e.dfu.phase = .due → e.flight boomUnit = none →
        let pose : Pose := ⟨e.rcu.baseX + (40000 + 30000 * k), e.rcu.baseY, e.rcu.baseZ + 15000, 0⟩
        e.calSlew = { e with toState := { e.toState.launched boomUnit (.slew pose .full) .dfu with
          hsq := { e.hsq with atReceive := false }
          dfu := { e.dfu with phase := .slewing, slew := .current, pointPose := pose } } })
    ∧ ((∀ k, e.dfu.cal ≠ .running k) ∨ e.dfu.phase ≠ .due ∨ e.flight boomUnit ≠ none → e.calSlew = e))
  ∧ (∀ (s : State) (tag code : Byte),
    let ended : Ev := Ev.start (s.ended boomUnit)
    let fails (k : Nat) (cause : CalCause) (e : Ev) : Ev :=
      let stopped : Dfu := { e.dfu with cause := some cause, limitTimer := none, samples := [], slew := .none }
      if e.dfu.attempt < 3 then
        { e with dfu := { stopped with attempt := e.dfu.attempt + 1, phase := .due } }.calSlew
      else { e with dfu := { stopped with pendingPoints := [], cal := .failed } }.report (.calFailed k (some cause))
    (s.awaits boomUnit tag .deploy .rcu →
      (let refused := s.hsq.head = .dumping ∧ 24 ≤ s.btc.bin
          ∧ ¬∃ u ∈ [boomUnit, wristUnit, gripperUnit, pressUnit, chuteUnit], ∃ r, s.flight u = some r ∧ r.requester = .hsq
        ∀ holds : HoldSet, (refused → holds = { s.rcu.holds with binFull := true }) → (¬refused → holds = s.rcu.holds) →
          Effect (.deployDone tag) s (({ ended with rcu := { s.rcu with deploy := false, mode := .laying } }.report
            (.mode .laying s.rcu.mode false .deploy holds s.rcu.haltPending s.rcu.stranded)).modeEntered.sendWaiting)
          ∧ ∃ t, exec (.deployDone tag) s = .next t ∧ t.rcu.holds = holds)
      ∧ Effect (.deployFault tag code) s ((ended.enterIdle .deployFault).sendWaiting))
    ∧ (s.awaits boomUnit tag .fold .rcu →
      Effect (.foldDone tag) s
        (({ ended with rcu := { s.rcu with mode := .stowed } }.modeReport .fold s.rcu.mode).sendWaiting)
      ∧ Effect (.foldFault tag code) s ((ended.enterIdle .foldFault).sendWaiting))
    ∧ (∀ p r, s.awaits boomUnit tag (.slew p r) .dfu →
      (s.dfu.slew = Outstanding.current → Effect (.calSlewDone tag) s { ended with dfu := { s.dfu with
        slew := .none, phase := .sampling, samples := [], limitTimer := some s.now } }.sendWaiting)
      ∧ (∀ k, s.dfu.slew = Outstanding.current → s.dfu.cal = .running k →
          Effect (.calSlewFault tag code) s (fails k .slewFault ended).sendWaiting)
      ∧ (s.dfu.slew = Outstanding.abandoned →
          let passed := { ended with dfu := { s.dfu with slew := .none } }.calSlew.sendWaiting
          Effect (.calSlewDone tag) s passed ∧ Effect (.calSlewFault tag code) s passed)
      ∧ (s.dfu.slew = Outstanding.none →
          Effect (.calSlewDone tag) s ended.sendWaiting ∧ Effect (.calSlewFault tag code) s ended.sendWaiting))
    ∧ (∀ k began, s.dfu.limitTimer = some began → s.dfu.cal = .running k → s.dfu.phase = .sampling →
      Effect .pointLimit s (fails k .pointLimit (Ev.start { s with now := max s.now (began + 10000) }))))

/-- A frame offered to the Deflection Unit in SAMPLING (R150): it joins the run where no coordinate spans more than 5
units, else the run restarts with it; at eight frames the point is recorded from the rounded means, and the routine
moves on, or ends with the pending points as the active table, in which a point that is (0, 0) is not listed (R152). In the
other phases (R149), and in NONE, SUSPENDED, DONE and FAILED (R154), a frame is passed over. The pose the point is measured
against is the stored one, the model's choice (log entry 14). -/
def Obligations.SamplesMakeThePoint : Prop :=
  (∀ (e : Ev) (p : Pose), (∀ k, e.dfu.cal ≠ .running k) → e.offerToDfu p = e)
  ∧ ∀ (e : Ev) (p : Pose) (k : Nat), e.dfu.cal = .running k →
    let joined := e.dfu.samples ++ [⟨p.x, p.y, p.z⟩]
    let steady := ∀ a ∈ joined, ∀ b ∈ joined, a.x - b.x ≤ 5 ∧ a.y - b.y ≤ 5 ∧ a.z - b.z ≤ 5
    let nearest (q n : Int) (d : Nat) := 2 * |q * d - n| ≤ d ∧ (2 * |q * d - n| = d → |n| ≤ |q * d|)
    (e.dfu.phase ≠ .sampling → e.offerToDfu p = e)
    ∧ (e.dfu.phase = .sampling → ¬steady → e.offerToDfu p = { e with dfu := { e.dfu with samples := [⟨p.x, p.y, p.z⟩] } })
    ∧ (e.dfu.phase = .sampling → steady → joined.length < 8 →
        e.offerToDfu p = { e with dfu := { e.dfu with samples := joined } })
    ∧ (e.dfu.phase = .sampling → steady → joined.length = 8 → ∃ pt : Point,
        nearest (pt.dz + e.dfu.pointPose.z) (joined.map (·.z)).sum 8
        ∧ nearest (pt.dr + e.dfu.pointPose.x) (joined.map (·.x)).sum 8
        ∧ let recorded : Dfu := { e.dfu with
            pendingPoints := Table.write e.dfu.pendingPoints k pt, limitTimer := none, samples := [] }
          (k < 7 → e.offerToDfu p =
            { e with dfu := { recorded with cal := .running (k + 1), attempt := 1, phase := .due } }.calSlew)
          ∧ (7 ≤ k →
              let active := recorded.pendingPoints.filter fun q => q.2 != ⟨0, 0⟩
              e.offerToDfu p = { e with dfu := { recorded with
                active := active, valid := true, pendingPoints := [], cal := .done } }.report
                (.calDone ((List.range 8).map fun j => Table.readD active j ⟨0, 0⟩))))

/-- An order's timeout (R57) acts, at its moment, as a FAULT of that order with code OTHER; one that PRESS has not.
Bytes of loop receive between frames (R55): a completion that no record in flight matches by its tag, that names a
unit above 16, or that fails its check, raises the stale count, which stops at 65535, and changes nothing else; an
order frame that comes back changes nothing. -/
def Obligations.TimeoutsAndStaleCompletions : Prop :=
  (∀ (s : State) (u : Fin 17) (r : InFlight) (d : Nat) (fault : Instr), s.flight u = some r → r.order.timeout = some d →
    (u.val = pickUnit ∧ fault = .loadFault r.tag 7) ∨ (u.val = sawUnit ∧ fault = .cutFault r.tag 7)
      ∨ (u.val = glueUnit ∧ fault = .glueFault r.tag 7) ∨ (∃ b : Fin 9, u.val = xferUnit b ∧ fault = .moveFault b r.tag 7)
      ∨ (u.val = boomUnit ∧ fault = .headJam .boom r.tag 7) ∨ (u.val = wristUnit ∧ fault = .trimFault r.tag 7)
      ∨ (u.val = gripperUnit ∧ fault = .headJam .gripper r.tag 7) ∨ (u.val = chuteUnit ∧ fault = .headJam .chute r.tag 7) →
    ∃ t, exec (.orderTimeout u) s = .next t ∧ exec fault { s with now := max s.now (r.sentAt + d) } = .next t)
  ∧ (∀ (s : State) (tag code : Byte), exec (.headJam .boom tag code) s = exec (.deployFault tag code) s
      ∧ exec (.headJam .boom tag code) s = exec (.foldFault tag code) s
      ∧ exec (.headJam .boom tag code) s = exec (.calSlewFault tag code) s)
  ∧ ((∀ lane, (Order.load lane).timeout = some 8000) ∧ (∀ n, (Order.cut n).timeout = some 12000)
      ∧ (∀ n, (Order.glue n).timeout = some 6000) ∧ Order.move.timeout = some 4000
      ∧ (∀ p r, (Order.slew p r).timeout = some 15000) ∧ Order.deploy.timeout = some 60000
      ∧ Order.fold.timeout = some 60000 ∧ (∀ a b c d, (Order.trim a b c d).timeout = some 500)
      ∧ Order.take.timeout = some 3000 ∧ Order.openGrip.timeout = some 2000 ∧ Order.dump.timeout = some 6000
      ∧ Order.press.timeout = none)
  ∧ (∀ (s : State), s.sli.rx = [] →
      let counted : State := { s with sli := { s.sli with stale := if s.sli.stale < 65535 then s.sli.stale + 1 else s.sli.stale } }
      (∀ unit tag result code : Byte, (16 < unit.toNat ∨ ∀ r, s.flight unit.toNat = some r → r.tag ≠ tag) →
        exec (.staleCompletion (completionBytes unit tag result code)) s = .next counted)
      ∧ (∀ unit tag result code low high : Byte, low.toNat + 256 * high.toNat ≠ crc16 [unit, tag, result, code] →
          exec (.staleCompletion [0x3C, unit, tag, result, code, low, high]) s = .next counted)
      ∧ (∀ (unit kind : Nat) (tag : Byte) (params : List Byte), params.length < 256 →
          exec (.orderEcho (loopFrameBytes unit kind tag params)) s = .next s))

/-- A whole tracker frame (R101, R102) read between frames. Under the latch in force it is a frame of sense TRUE: its
sequence, pose and quality are the sender's, bit for bit; a good one counts toward acquisition (R109), gains lock at
the eighth (R110), or counts in the window and is offered (R111, R113); one under the quality floor is bad (R106). Its
complement, while the latch is TRUE, is a frame of sense COMPLEMENTED, and the third in a row sets the latch (R107,
R108). A frame whose yaw is out of range is bad (R106). One that fails its check is a frame error: of sense TRUE it is
bad (R106, R109), of sense COMPLEMENTED it ends the polarity run (R107). That the frame's bytes are emptied and its sense is
kept once the frame is complete is the model's choice (log entry 34). -/
def Obligations.TrackerFrameIsRead : Prop :=
  (∀ (s : State) (sequence : Word16) (p : Pose) (quality : Byte), Pose.fits p → s.trk.framing = .hunt →
    let bytes := trackerFrameBytes sequence p quality
    let line := if s.trk.inverted then bytes.map (~~~·) else bytes
    let read : Trk := { s.trk with buffer := [], complemented := false, polarityRun := 0, expected := some (sequence + 1) }
    let next := s.trk.expected = some sequence
    let count := if s.trk.acquired ≠ 0 ∧ next then s.trk.acquired + 1 else 1
    (s.scp.config.qualityFloor ≤ quality.toNat → s.trk.locked = true →
      Effect (.trackerFrame line) s ((({ Ev.start s with trk := { read with
        windowCount := if next then min 255 (s.trk.windowCount + 1) else s.trk.windowCount } }.offerToHead p).offerToDfu p)))
    ∧ (s.scp.config.qualityFloor ≤ quality.toNat → s.trk.locked = false → count < 8 →
        exec (.trackerFrame line) s = .next { s with trk := { read with acquired := count } })
    ∧ (s.scp.config.qualityFloor ≤ quality.toNat → s.trk.locked = false → 8 ≤ count →
        let gained : Ev := { Ev.start s with trk := { read with
          acquired := count, locked := true, windowCount := 0, window := some s.now } }.report
            (.lock false sequence 0 s.trk.inverted)
        Effect (.trackerFrame line) s
          (((({ gained with rcu := { s.rcu with holds := { s.rcu.holds with link := false } } }.headLockGained).offerToHead
            p).offerToDfu p)))
    ∧ (quality.toNat < s.scp.config.qualityFloor → exec (.trackerFrame line) s = .next { s with trk := { read with
        expected := s.trk.expected, acquired := if s.trk.locked then s.trk.acquired else 0 } })
    ∧ (s.trk.inverted = false → exec (.trackerFrame (bytes.map (~~~·))) s = .next { s with trk := { s.trk with
        buffer := [], complemented := true
        polarityRun := if s.trk.polarityRun + 1 < 3 then s.trk.polarityRun + 1 else 0
        inverted := decide (3 ≤ s.trk.polarityRun + 1) } }))
  ∧ (∀ (s : State) (sequence : Word16) (p : Pose) (quality : Byte), Pose.fits { p with yaw := 0 } →
    -32768 ≤ p.yaw → p.yaw ≤ 32767 → p.yaw < -18000 ∨ 17999 < p.yaw → s.trk.framing = .hunt →
    let bytes := trackerFrameBytes sequence p quality
    exec (.trackerFrame (if s.trk.inverted then bytes.map (~~~·) else bytes)) s = .next { s with trk := { s.trk with
      buffer := [], complemented := false, polarityRun := 0
      acquired := if s.trk.locked then s.trk.acquired else 0 } })
  ∧ (∀ (s : State) (content : List Byte) (check : Byte), content.length = 17 → crc8 content ≠ check →
    s.trk.framing = .hunt →
    let bytes := [0xD3#8, 0x2C#8] ++ content ++ [check]
    let errors := if s.trk.frameErrors < 65535 then s.trk.frameErrors + 1 else s.trk.frameErrors
    exec (.trackerFrame (if s.trk.inverted then bytes.map (~~~·) else bytes)) s = .next { s with trk := { s.trk with
      buffer := [], complemented := false, polarityRun := 0, frameErrors := errors
      acquired := if s.trk.locked then s.trk.acquired else 0 } }
    ∧ (s.trk.inverted = false → exec (.trackerFrame (bytes.map (~~~·))) s = .next { s with trk := { s.trk with
        buffer := [], complemented := true, polarityRun := 0, frameErrors := errors } }))

/-- One byte at the framer (R100, R103 to R105), and the end of a hold window (R112, R114): lock is kept with the next
window started at that moment, or lost with the LOCK report, the count, and the notices to the head and the Deflection
Unit in that order. At the Deflection Unit a lock lost in SAMPLING fails the attempt with cause LOCK_LOST: the next attempt
is due, or the third has failed the routine, with its CAL report (R151); in every other phase and state it is passed over
(R149). The model's choice (log entry 20) is that the idle run is kept at 2 in HUNT, that the window count is
kept after a loss, and that a LOCK report with no expected sequence carries 0; and (log entry 34) that at a bad start the
frame's bytes are emptied and its sense is kept. -/
def Obligations.FramerBytesAndHoldWindow : Prop :=
  (∀ (s : State) (raw : Byte),
    let t := s.trk
    let b := if t.inverted then ~~~raw else raw
    let idle := b = 0x55 ∨ (t.inverted = false ∧ b = 0xAA)
    let other := if t.complemented then (0xD3 : Byte) else 0x2C
    let becomes (u : Trk) := exec (.trackerByte raw) s = .next { s with trk := u }
    let falseStarts := if t.falseStarts < 65535 then t.falseStarts + 1 else t.falseStarts
    (t.framing = .hunt →
      (idle → becomes t)
      ∧ (b = 0xD3 → becomes { t with framing := .collect, complemented := false, buffer := [b] })
      ∧ (b = 0x2C → t.inverted = false → becomes { t with framing := .collect, complemented := true, buffer := [b] })
      ∧ (¬idle → b ≠ 0xD3 → ¬(b = 0x2C ∧ t.inverted = false) →
          becomes { t with framing := .discard, buffer := [], idleRun := 0, falseStarts := falseStarts }))
    ∧ (t.framing = .collect →
      (∀ first, t.buffer = [first] → b ≠ other → becomes { t with
        framing := .discard, buffer := [], idleRun := if idle then 1 else 0, falseStarts := falseStarts })
      ∧ (∀ first, t.buffer = [first] → b = other → becomes { t with buffer := [first, b] })
      ∧ (2 ≤ t.buffer.length → t.buffer.length < 19 → becomes { t with buffer := t.buffer ++ [b] }))
    ∧ (t.framing = .discard →
      (¬idle → becomes { t with idleRun := 0 })
      ∧ (idle → t.idleRun = 0 → becomes { t with idleRun := 1 })
      ∧ (idle → 1 ≤ t.idleRun → becomes { t with idleRun := 2, framing := .hunt })))
  ∧ (∀ (s : State) (began : Nat), s.trk.window = some began →
      let later : State := { s with now := max s.now (began + 20) }
      (6 ≤ s.trk.windowCount → exec .holdWindowEnd s =
        .next { later with trk := { s.trk with windowCount := 0, window := some (began + 20) } })
      ∧ (s.trk.windowCount < 6 →
        let lost := (((Ev.start { later with trk := { s.trk with locked := false, acquired := 0, window := none } }).report
          (.lock true (s.trk.expected.getD 0) s.trk.windowCount s.trk.inverted)).countWear .lockLosses).headLockLost
        let stopped : Dfu := { s.dfu with cause := some .lockLost, limitTimer := none, samples := [], slew := .none }
        ((∀ k, s.dfu.cal ≠ .running k) ∨ s.dfu.phase ≠ .sampling → Effect .holdWindowEnd s lost)
        ∧ (∀ k, s.dfu.cal = .running k → s.dfu.phase = .sampling →
            (s.dfu.attempt < 3 → Effect .holdWindowEnd s
              { lost with dfu := { stopped with attempt := s.dfu.attempt + 1, phase := .due } }.calSlew)
            ∧ (3 ≤ s.dfu.attempt → Effect .holdWindowEnd s
              ({ lost with dfu := { stopped with pendingPoints := [], cal := .failed } }.report
                (.calFailed k (some .lockLost)))))))

end Slice0
end

