-- ==== Sys2Proof/Laws/Bytes.lean ====
section
/-! SUPPORT. Fields written low byte first are read back as what they were. -/

namespace Sys2Proof.Machine

-- One proof at a time, so that the package as one text needs few threads.
set_option Elab.async false

@[simp] theorem le_length (k n : Nat) : (le k n).length = k := by
  induction k generalizing n with
  | zero => rfl
  | succ k ih => simp [le, ih]

theorem unle_le (k n : Nat) : unle (le k n) = n % 256 ^ k := by
  induction k generalizing n with
  | zero => simp [le, unle, Nat.mod_one]
  | succ k ih =>
    have hb : (byte n).toNat = n % 256 := by simp [byte]
    rw [le, unle, ih, hb, pow_succ, mul_comm (256 ^ k) 256, Nat.mod_mul]

theorem unle_le_of_lt {k n : Nat} (h : n < 256 ^ k) : unle (le k n) = n := by
  rw [unle_le, Nat.mod_eq_of_lt h]

theorem u16At_le {n : Nat} (h : n < 65536) (rest : List Byte) : u16At (le 2 n ++ rest) 0 = n := by
  have : (le 2 n ++ rest).take 2 = le 2 n := by simp [le]
  rw [u16At, List.drop_zero, this, unle_le_of_lt (by simpa using h)]

theorem u32At_le {n : Nat} (h : n < 4294967296) (rest : List Byte) : u32At (le 4 n ++ rest) 0 = n := by
  have : (le 4 n ++ rest).take 4 = le 4 n := by simp [le]
  rw [u32At, List.drop_zero, this, unle_le_of_lt (by simpa using h)]

theorem u16At_cons (b : Byte) (p : List Byte) (i : Nat) : u16At (b :: p) (i + 1) = u16At p i := rfl
theorem u32At_cons (b : Byte) (p : List Byte) (i : Nat) : u32At (b :: p) (i + 1) = u32At p i := rfl
theorem byteAt_cons (b : Byte) (p : List Byte) (i : Nat) : byteAt (b :: p) (i + 1) = byteAt p i := rfl
@[simp] theorem byteAt_zero (b : Byte) (p : List Byte) : byteAt (b :: p) 0 = b.toNat := rfl

theorem drop_le_skip (k n i : Nat) (rest : List Byte) : (le k n ++ rest).drop (k + i) = rest.drop i := by
  have h : (le k n ++ rest).drop k = rest := List.drop_left' (le_length k n)
  rw [← List.drop_drop, h]

theorem u16At_skip (k n i : Nat) (rest : List Byte) : u16At (le k n ++ rest) (k + i) = u16At rest i := by
  rw [u16At, u16At, drop_le_skip]

theorem u32At_skip (k n i : Nat) (rest : List Byte) : u32At (le k n ++ rest) (k + i) = u32At rest i := by
  rw [u32At, u32At, drop_le_skip]

theorem byteAt_skip (k n i : Nat) (rest : List Byte) : byteAt (le k n ++ rest) (k + i) = byteAt rest i := by
  simp [byteAt, List.getD, List.getElem?_append_right]

/-- A signed number that fits is read back from its two's complement. -/
theorem signedOf_mod (bits : Nat) (hb : 0 < bits) (v : Int) (h1 : -(2 ^ (bits - 1) : Int) ≤ v)
    (h2 : v < (2 ^ (bits - 1) : Int)) : signedOf bits (v % 2 ^ bits).toNat = v := by
  obtain ⟨k, rfl⟩ : ∃ k, bits = k + 1 := ⟨bits - 1, by omega⟩
  simp only [Nat.add_sub_cancel] at h1 h2
  have hp : (0 : Int) < 2 ^ k := by positivity
  have hs : (2 : Int) ^ (k + 1) = 2 * 2 ^ k := by rw [pow_succ]; ring
  have hn : ((2 ^ k : Nat) : Int) = 2 ^ k := by push_cast; rfl
  unfold signedOf
  simp only [Nat.add_sub_cancel]
  rw [hs]
  rcases lt_or_ge v 0 with hv | hv
  · have hm : v % (2 * 2 ^ k) = v + 2 * 2 ^ k := by
      rw [← Int.add_emod_right]; exact Int.emod_eq_of_lt (by linarith) (by linarith)
    have ht : ((v + 2 * 2 ^ k).toNat : Int) = v + 2 * 2 ^ k := Int.toNat_of_nonneg (by linarith)
    rw [hm, if_neg (by intro hc; have : ((v + 2 * 2 ^ k).toNat : Int) < 2 ^ k := by exact_mod_cast hc
                       linarith)]
    rw [ht]; ring
  · have hm : v % (2 * 2 ^ k) = v := Int.emod_eq_of_lt hv (by linarith)
    have ht : (v.toNat : Int) = v := Int.toNat_of_nonneg hv
    rw [hm, if_pos (by have : (v.toNat : Int) < 2 ^ k := by rw [ht]; exact h2
                       exact_mod_cast this)]
    exact ht

/-- A signed 32 bit field that fits reads back. -/
theorem s32At_le (v : Int) (h1 : -2147483648 ≤ v) (h2 : v ≤ 2147483647) (rest : List Byte) : s32At
    (le32s v ++ rest) 0 = v := by
  unfold s32At le32s
  rw [if_pos ⟨h1, h2⟩, u32At_le (by omega)]
  exact signedOf_mod 32 (by omega) v (by simpa using h1) (by simp; omega)

/-- A signed 16 bit field that fits reads back. -/
theorem s16At_le (v : Int) (h1 : -32768 ≤ v) (h2 : v ≤ 32767) (rest : List Byte) : s16At (le16s v ++ rest) 0 = v := by
  unfold s16At le16s
  rw [if_pos ⟨h1, h2⟩, u16At_le (by omega)]
  exact signedOf_mod 16 (by omega) v (by simpa using h1) (by simp; omega)

theorem le32s_length (v : Int) : (le32s v).length = 4 := by unfold le32s; split <;> rfl

theorem le16s_length (v : Int) : (le16s v).length = 2 := by unfold le16s; split <;> rfl

/-- Reading past what stands first. -/
theorem u16At_append (a b : List Byte) (n i : Nat) (h : a.length = n) : u16At (a ++ b) (n + i) = u16At b i := by
  unfold u16At; rw [← h, ← List.drop_drop, List.drop_left]

theorem u32At_append (a b : List Byte) (n i : Nat) (h : a.length = n) : u32At (a ++ b) (n + i) = u32At b i := by
  unfold u32At; rw [← h, ← List.drop_drop, List.drop_left]

theorem byteAt_append (a b : List Byte) (n i : Nat) (h : a.length = n) : byteAt (a ++ b) (n + i) = byteAt b i := by
  unfold byteAt; rw [← h]; simp [List.getD, List.getElem?_append_right]

theorem u32At_le32s (v : Int) (b : List Byte) (i : Nat) (h : 4 ≤ i) : u32At (le32s v ++ b) i = u32At b (i - 4) := by
  have := u32At_append (le32s v) b 4 (i - 4) (le32s_length v); rwa [show 4 + (i - 4) = i by omega] at this

theorem u16At_le32s (v : Int) (b : List Byte) (i : Nat) (h : 4 ≤ i) : u16At (le32s v ++ b) i = u16At b (i - 4) := by
  have := u16At_append (le32s v) b 4 (i - 4) (le32s_length v); rwa [show 4 + (i - 4) = i by omega] at this

theorem u16At_after_le (k v : Nat) (b : List Byte) (i : Nat) (h : k ≤ i) : u16At (le k v ++ b) i = u16At b
    (i - k) := by
  have := u16At_append (le k v) b k (i - k) (le_length k v); rwa [show k + (i - k) = i by omega] at this

theorem byteAt_after_le (k v : Nat) (b : List Byte) (i : Nat) (h : k ≤ i) : byteAt (le k v ++ b) i = byteAt b
    (i - k) := by
  have := byteAt_append (le k v) b k (i - k) (le_length k v); rwa [show k + (i - k) = i by omega] at this

theorem bitSet_testBit_aux (n : Nat) (l : List Nat) : ∀ a : Nat,
    (l.foldl (fun acc n => acc ||| (1 <<< n)) a).testBit n = (a.testBit n || decide (n ∈ l)) := by
  induction l with
  | nil => intro a; simp
  | cons x l ih =>
    intro a
    rw [List.foldl_cons, ih, Nat.testBit_or, Nat.one_shiftLeft, Nat.testBit_two_pow]
    by_cases hx : x = n
    · simp [hx]
    · simp [hx, Ne.symm hx]

/-- A set of numbers has the bits of its members, and no other (R206). -/
theorem bitSet_testBit (ns : List Nat) (n : Nat) : (bitSet ns).testBit n = decide (n ∈ ns) := by
  unfold bitSet; rw [bitSet_testBit_aux]; simp

end Sys2Proof.Machine
end

