-- ==== Sys2Proof/Laws/State.lean ====
section
/-! SUPPORT. One equation per field and update: what each update of a block, and each prompt, leaves in each field. -/

namespace Sys2Proof.Machine

-- One proof at a time, so that the package as one text needs few threads.
set_option Elab.async false

@[simp] theorem Ev.onPls_pls (f : Pls → Pls) (e : Ev) : (e.onPls f).pls = f e.pls := rfl
@[simp] theorem Ev.onPls_rcu (f : Pls → Pls) (e : Ev) : (e.onPls f).rcu = e.rcu := rfl
@[simp] theorem Ev.onPls_rsl (f : Pls → Pls) (e : Ev) : (e.onPls f).rsl = e.rsl := rfl
@[simp] theorem Ev.onPls_sli (f : Pls → Pls) (e : Ev) : (e.onPls f).sli = e.sli := rfl
@[simp] theorem Ev.onPls_btc (f : Pls → Pls) (e : Ev) : (e.onPls f).btc = e.btc := rfl
@[simp] theorem Ev.onPls_trk (f : Pls → Pls) (e : Ev) : (e.onPls f).trk = e.trk := rfl
@[simp] theorem Ev.onPls_hsq (f : Pls → Pls) (e : Ev) : (e.onPls f).hsq = e.hsq := rfl
@[simp] theorem Ev.onPls_dfu (f : Pls → Pls) (e : Ev) : (e.onPls f).dfu = e.dfu := rfl
@[simp] theorem Ev.onPls_hmn (f : Pls → Pls) (e : Ev) : (e.onPls f).hmn = e.hmn := rfl
@[simp] theorem Ev.onPls_scp (f : Pls → Pls) (e : Ev) : (e.onPls f).scp = e.scp := rfl
@[simp] theorem Ev.onPls_now (f : Pls → Pls) (e : Ev) : (e.onPls f).now = e.now := rfl
@[simp] theorem Ev.onPls_hostTx (f : Pls → Pls) (e : Ev) : (e.onPls f).hostTx = e.hostTx := rfl
@[simp] theorem Ev.onPls_loopTx (f : Pls → Pls) (e : Ev) : (e.onPls f).loopTx = e.loopTx := rfl
@[simp] theorem Ev.onPls_pending (f : Pls → Pls) (e : Ev) : (e.onPls f).pending = e.pending := rfl
@[simp] theorem Ev.onPls_selDue (f : Pls → Pls) (e : Ev) : (e.onPls f).selDue = e.selDue := rfl
@[simp] theorem Ev.onPls_xferDue (f : Pls → Pls) (e : Ev) : (e.onPls f).xferDue = e.xferDue := rfl
@[simp] theorem Ev.onPls_drainDue (f : Pls → Pls) (e : Ev) : (e.onPls f).drainDue = e.drainDue := rfl
@[simp] theorem Ev.onPls_retestDue (f : Pls → Pls) (e : Ev) : (e.onPls f).retestDue = e.retestDue := rfl
@[simp] theorem Ev.onPls_replyDue (f : Pls → Pls) (e : Ev) : (e.onPls f).replyDue = e.replyDue := rfl

@[simp] theorem Ev.onRcu_pls (f : Rcu → Rcu) (e : Ev) : (e.onRcu f).pls = e.pls := rfl
@[simp] theorem Ev.onRcu_rcu (f : Rcu → Rcu) (e : Ev) : (e.onRcu f).rcu = f e.rcu := rfl
@[simp] theorem Ev.onRcu_rsl (f : Rcu → Rcu) (e : Ev) : (e.onRcu f).rsl = e.rsl := rfl
@[simp] theorem Ev.onRcu_sli (f : Rcu → Rcu) (e : Ev) : (e.onRcu f).sli = e.sli := rfl
@[simp] theorem Ev.onRcu_btc (f : Rcu → Rcu) (e : Ev) : (e.onRcu f).btc = e.btc := rfl
@[simp] theorem Ev.onRcu_trk (f : Rcu → Rcu) (e : Ev) : (e.onRcu f).trk = e.trk := rfl
@[simp] theorem Ev.onRcu_hsq (f : Rcu → Rcu) (e : Ev) : (e.onRcu f).hsq = e.hsq := rfl
@[simp] theorem Ev.onRcu_dfu (f : Rcu → Rcu) (e : Ev) : (e.onRcu f).dfu = e.dfu := rfl
@[simp] theorem Ev.onRcu_hmn (f : Rcu → Rcu) (e : Ev) : (e.onRcu f).hmn = e.hmn := rfl
@[simp] theorem Ev.onRcu_scp (f : Rcu → Rcu) (e : Ev) : (e.onRcu f).scp = e.scp := rfl
@[simp] theorem Ev.onRcu_now (f : Rcu → Rcu) (e : Ev) : (e.onRcu f).now = e.now := rfl
@[simp] theorem Ev.onRcu_hostTx (f : Rcu → Rcu) (e : Ev) : (e.onRcu f).hostTx = e.hostTx := rfl
@[simp] theorem Ev.onRcu_loopTx (f : Rcu → Rcu) (e : Ev) : (e.onRcu f).loopTx = e.loopTx := rfl
@[simp] theorem Ev.onRcu_pending (f : Rcu → Rcu) (e : Ev) : (e.onRcu f).pending = e.pending := rfl
@[simp] theorem Ev.onRcu_selDue (f : Rcu → Rcu) (e : Ev) : (e.onRcu f).selDue = e.selDue := rfl
@[simp] theorem Ev.onRcu_xferDue (f : Rcu → Rcu) (e : Ev) : (e.onRcu f).xferDue = e.xferDue := rfl
@[simp] theorem Ev.onRcu_drainDue (f : Rcu → Rcu) (e : Ev) : (e.onRcu f).drainDue = e.drainDue := rfl
@[simp] theorem Ev.onRcu_retestDue (f : Rcu → Rcu) (e : Ev) : (e.onRcu f).retestDue = e.retestDue := rfl
@[simp] theorem Ev.onRcu_replyDue (f : Rcu → Rcu) (e : Ev) : (e.onRcu f).replyDue = e.replyDue := rfl

@[simp] theorem Ev.onRsl_pls (f : Rsl → Rsl) (e : Ev) : (e.onRsl f).pls = e.pls := rfl
@[simp] theorem Ev.onRsl_rcu (f : Rsl → Rsl) (e : Ev) : (e.onRsl f).rcu = e.rcu := rfl
@[simp] theorem Ev.onRsl_rsl (f : Rsl → Rsl) (e : Ev) : (e.onRsl f).rsl = f e.rsl := rfl
@[simp] theorem Ev.onRsl_sli (f : Rsl → Rsl) (e : Ev) : (e.onRsl f).sli = e.sli := rfl
@[simp] theorem Ev.onRsl_btc (f : Rsl → Rsl) (e : Ev) : (e.onRsl f).btc = e.btc := rfl
@[simp] theorem Ev.onRsl_trk (f : Rsl → Rsl) (e : Ev) : (e.onRsl f).trk = e.trk := rfl
@[simp] theorem Ev.onRsl_hsq (f : Rsl → Rsl) (e : Ev) : (e.onRsl f).hsq = e.hsq := rfl
@[simp] theorem Ev.onRsl_dfu (f : Rsl → Rsl) (e : Ev) : (e.onRsl f).dfu = e.dfu := rfl
@[simp] theorem Ev.onRsl_hmn (f : Rsl → Rsl) (e : Ev) : (e.onRsl f).hmn = e.hmn := rfl
@[simp] theorem Ev.onRsl_scp (f : Rsl → Rsl) (e : Ev) : (e.onRsl f).scp = e.scp := rfl
@[simp] theorem Ev.onRsl_now (f : Rsl → Rsl) (e : Ev) : (e.onRsl f).now = e.now := rfl
@[simp] theorem Ev.onRsl_hostTx (f : Rsl → Rsl) (e : Ev) : (e.onRsl f).hostTx = e.hostTx := rfl
@[simp] theorem Ev.onRsl_loopTx (f : Rsl → Rsl) (e : Ev) : (e.onRsl f).loopTx = e.loopTx := rfl
@[simp] theorem Ev.onRsl_pending (f : Rsl → Rsl) (e : Ev) : (e.onRsl f).pending = e.pending := rfl
@[simp] theorem Ev.onRsl_selDue (f : Rsl → Rsl) (e : Ev) : (e.onRsl f).selDue = e.selDue := rfl
@[simp] theorem Ev.onRsl_xferDue (f : Rsl → Rsl) (e : Ev) : (e.onRsl f).xferDue = e.xferDue := rfl
@[simp] theorem Ev.onRsl_drainDue (f : Rsl → Rsl) (e : Ev) : (e.onRsl f).drainDue = e.drainDue := rfl
@[simp] theorem Ev.onRsl_retestDue (f : Rsl → Rsl) (e : Ev) : (e.onRsl f).retestDue = e.retestDue := rfl
@[simp] theorem Ev.onRsl_replyDue (f : Rsl → Rsl) (e : Ev) : (e.onRsl f).replyDue = e.replyDue := rfl

@[simp] theorem Ev.onSli_pls (f : Sli → Sli) (e : Ev) : (e.onSli f).pls = e.pls := rfl
@[simp] theorem Ev.onSli_rcu (f : Sli → Sli) (e : Ev) : (e.onSli f).rcu = e.rcu := rfl
@[simp] theorem Ev.onSli_rsl (f : Sli → Sli) (e : Ev) : (e.onSli f).rsl = e.rsl := rfl
@[simp] theorem Ev.onSli_sli (f : Sli → Sli) (e : Ev) : (e.onSli f).sli = f e.sli := rfl
@[simp] theorem Ev.onSli_btc (f : Sli → Sli) (e : Ev) : (e.onSli f).btc = e.btc := rfl
@[simp] theorem Ev.onSli_trk (f : Sli → Sli) (e : Ev) : (e.onSli f).trk = e.trk := rfl
@[simp] theorem Ev.onSli_hsq (f : Sli → Sli) (e : Ev) : (e.onSli f).hsq = e.hsq := rfl
@[simp] theorem Ev.onSli_dfu (f : Sli → Sli) (e : Ev) : (e.onSli f).dfu = e.dfu := rfl
@[simp] theorem Ev.onSli_hmn (f : Sli → Sli) (e : Ev) : (e.onSli f).hmn = e.hmn := rfl
@[simp] theorem Ev.onSli_scp (f : Sli → Sli) (e : Ev) : (e.onSli f).scp = e.scp := rfl
@[simp] theorem Ev.onSli_now (f : Sli → Sli) (e : Ev) : (e.onSli f).now = e.now := rfl
@[simp] theorem Ev.onSli_hostTx (f : Sli → Sli) (e : Ev) : (e.onSli f).hostTx = e.hostTx := rfl
@[simp] theorem Ev.onSli_loopTx (f : Sli → Sli) (e : Ev) : (e.onSli f).loopTx = e.loopTx := rfl
@[simp] theorem Ev.onSli_pending (f : Sli → Sli) (e : Ev) : (e.onSli f).pending = e.pending := rfl
@[simp] theorem Ev.onSli_selDue (f : Sli → Sli) (e : Ev) : (e.onSli f).selDue = e.selDue := rfl
@[simp] theorem Ev.onSli_xferDue (f : Sli → Sli) (e : Ev) : (e.onSli f).xferDue = e.xferDue := rfl
@[simp] theorem Ev.onSli_drainDue (f : Sli → Sli) (e : Ev) : (e.onSli f).drainDue = e.drainDue := rfl
@[simp] theorem Ev.onSli_retestDue (f : Sli → Sli) (e : Ev) : (e.onSli f).retestDue = e.retestDue := rfl
@[simp] theorem Ev.onSli_replyDue (f : Sli → Sli) (e : Ev) : (e.onSli f).replyDue = e.replyDue := rfl

@[simp] theorem Ev.onBtc_pls (f : Btc → Btc) (e : Ev) : (e.onBtc f).pls = e.pls := rfl
@[simp] theorem Ev.onBtc_rcu (f : Btc → Btc) (e : Ev) : (e.onBtc f).rcu = e.rcu := rfl
@[simp] theorem Ev.onBtc_rsl (f : Btc → Btc) (e : Ev) : (e.onBtc f).rsl = e.rsl := rfl
@[simp] theorem Ev.onBtc_sli (f : Btc → Btc) (e : Ev) : (e.onBtc f).sli = e.sli := rfl
@[simp] theorem Ev.onBtc_btc (f : Btc → Btc) (e : Ev) : (e.onBtc f).btc = f e.btc := rfl
@[simp] theorem Ev.onBtc_trk (f : Btc → Btc) (e : Ev) : (e.onBtc f).trk = e.trk := rfl
@[simp] theorem Ev.onBtc_hsq (f : Btc → Btc) (e : Ev) : (e.onBtc f).hsq = e.hsq := rfl
@[simp] theorem Ev.onBtc_dfu (f : Btc → Btc) (e : Ev) : (e.onBtc f).dfu = e.dfu := rfl
@[simp] theorem Ev.onBtc_hmn (f : Btc → Btc) (e : Ev) : (e.onBtc f).hmn = e.hmn := rfl
@[simp] theorem Ev.onBtc_scp (f : Btc → Btc) (e : Ev) : (e.onBtc f).scp = e.scp := rfl
@[simp] theorem Ev.onBtc_now (f : Btc → Btc) (e : Ev) : (e.onBtc f).now = e.now := rfl
@[simp] theorem Ev.onBtc_hostTx (f : Btc → Btc) (e : Ev) : (e.onBtc f).hostTx = e.hostTx := rfl
@[simp] theorem Ev.onBtc_loopTx (f : Btc → Btc) (e : Ev) : (e.onBtc f).loopTx = e.loopTx := rfl
@[simp] theorem Ev.onBtc_pending (f : Btc → Btc) (e : Ev) : (e.onBtc f).pending = e.pending := rfl
@[simp] theorem Ev.onBtc_selDue (f : Btc → Btc) (e : Ev) : (e.onBtc f).selDue = e.selDue := rfl
@[simp] theorem Ev.onBtc_xferDue (f : Btc → Btc) (e : Ev) : (e.onBtc f).xferDue = e.xferDue := rfl
@[simp] theorem Ev.onBtc_drainDue (f : Btc → Btc) (e : Ev) : (e.onBtc f).drainDue = e.drainDue := rfl
@[simp] theorem Ev.onBtc_retestDue (f : Btc → Btc) (e : Ev) : (e.onBtc f).retestDue = e.retestDue := rfl
@[simp] theorem Ev.onBtc_replyDue (f : Btc → Btc) (e : Ev) : (e.onBtc f).replyDue = e.replyDue := rfl

@[simp] theorem Ev.onTrk_pls (f : Trk → Trk) (e : Ev) : (e.onTrk f).pls = e.pls := rfl
@[simp] theorem Ev.onTrk_rcu (f : Trk → Trk) (e : Ev) : (e.onTrk f).rcu = e.rcu := rfl
@[simp] theorem Ev.onTrk_rsl (f : Trk → Trk) (e : Ev) : (e.onTrk f).rsl = e.rsl := rfl
@[simp] theorem Ev.onTrk_sli (f : Trk → Trk) (e : Ev) : (e.onTrk f).sli = e.sli := rfl
@[simp] theorem Ev.onTrk_btc (f : Trk → Trk) (e : Ev) : (e.onTrk f).btc = e.btc := rfl
@[simp] theorem Ev.onTrk_trk (f : Trk → Trk) (e : Ev) : (e.onTrk f).trk = f e.trk := rfl
@[simp] theorem Ev.onTrk_hsq (f : Trk → Trk) (e : Ev) : (e.onTrk f).hsq = e.hsq := rfl
@[simp] theorem Ev.onTrk_dfu (f : Trk → Trk) (e : Ev) : (e.onTrk f).dfu = e.dfu := rfl
@[simp] theorem Ev.onTrk_hmn (f : Trk → Trk) (e : Ev) : (e.onTrk f).hmn = e.hmn := rfl
@[simp] theorem Ev.onTrk_scp (f : Trk → Trk) (e : Ev) : (e.onTrk f).scp = e.scp := rfl
@[simp] theorem Ev.onTrk_now (f : Trk → Trk) (e : Ev) : (e.onTrk f).now = e.now := rfl
@[simp] theorem Ev.onTrk_hostTx (f : Trk → Trk) (e : Ev) : (e.onTrk f).hostTx = e.hostTx := rfl
@[simp] theorem Ev.onTrk_loopTx (f : Trk → Trk) (e : Ev) : (e.onTrk f).loopTx = e.loopTx := rfl
@[simp] theorem Ev.onTrk_pending (f : Trk → Trk) (e : Ev) : (e.onTrk f).pending = e.pending := rfl
@[simp] theorem Ev.onTrk_selDue (f : Trk → Trk) (e : Ev) : (e.onTrk f).selDue = e.selDue := rfl
@[simp] theorem Ev.onTrk_xferDue (f : Trk → Trk) (e : Ev) : (e.onTrk f).xferDue = e.xferDue := rfl
@[simp] theorem Ev.onTrk_drainDue (f : Trk → Trk) (e : Ev) : (e.onTrk f).drainDue = e.drainDue := rfl
@[simp] theorem Ev.onTrk_retestDue (f : Trk → Trk) (e : Ev) : (e.onTrk f).retestDue = e.retestDue := rfl
@[simp] theorem Ev.onTrk_replyDue (f : Trk → Trk) (e : Ev) : (e.onTrk f).replyDue = e.replyDue := rfl

@[simp] theorem Ev.onHsq_pls (f : Hsq → Hsq) (e : Ev) : (e.onHsq f).pls = e.pls := rfl
@[simp] theorem Ev.onHsq_rcu (f : Hsq → Hsq) (e : Ev) : (e.onHsq f).rcu = e.rcu := rfl
@[simp] theorem Ev.onHsq_rsl (f : Hsq → Hsq) (e : Ev) : (e.onHsq f).rsl = e.rsl := rfl
@[simp] theorem Ev.onHsq_sli (f : Hsq → Hsq) (e : Ev) : (e.onHsq f).sli = e.sli := rfl
@[simp] theorem Ev.onHsq_btc (f : Hsq → Hsq) (e : Ev) : (e.onHsq f).btc = e.btc := rfl
@[simp] theorem Ev.onHsq_trk (f : Hsq → Hsq) (e : Ev) : (e.onHsq f).trk = e.trk := rfl
@[simp] theorem Ev.onHsq_hsq (f : Hsq → Hsq) (e : Ev) : (e.onHsq f).hsq = f e.hsq := rfl
@[simp] theorem Ev.onHsq_dfu (f : Hsq → Hsq) (e : Ev) : (e.onHsq f).dfu = e.dfu := rfl
@[simp] theorem Ev.onHsq_hmn (f : Hsq → Hsq) (e : Ev) : (e.onHsq f).hmn = e.hmn := rfl
@[simp] theorem Ev.onHsq_scp (f : Hsq → Hsq) (e : Ev) : (e.onHsq f).scp = e.scp := rfl
@[simp] theorem Ev.onHsq_now (f : Hsq → Hsq) (e : Ev) : (e.onHsq f).now = e.now := rfl
@[simp] theorem Ev.onHsq_hostTx (f : Hsq → Hsq) (e : Ev) : (e.onHsq f).hostTx = e.hostTx := rfl
@[simp] theorem Ev.onHsq_loopTx (f : Hsq → Hsq) (e : Ev) : (e.onHsq f).loopTx = e.loopTx := rfl
@[simp] theorem Ev.onHsq_pending (f : Hsq → Hsq) (e : Ev) : (e.onHsq f).pending = e.pending := rfl
@[simp] theorem Ev.onHsq_selDue (f : Hsq → Hsq) (e : Ev) : (e.onHsq f).selDue = e.selDue := rfl
@[simp] theorem Ev.onHsq_xferDue (f : Hsq → Hsq) (e : Ev) : (e.onHsq f).xferDue = e.xferDue := rfl
@[simp] theorem Ev.onHsq_drainDue (f : Hsq → Hsq) (e : Ev) : (e.onHsq f).drainDue = e.drainDue := rfl
@[simp] theorem Ev.onHsq_retestDue (f : Hsq → Hsq) (e : Ev) : (e.onHsq f).retestDue = e.retestDue := rfl
@[simp] theorem Ev.onHsq_replyDue (f : Hsq → Hsq) (e : Ev) : (e.onHsq f).replyDue = e.replyDue := rfl

@[simp] theorem Ev.onDfu_pls (f : Dfu → Dfu) (e : Ev) : (e.onDfu f).pls = e.pls := rfl
@[simp] theorem Ev.onDfu_rcu (f : Dfu → Dfu) (e : Ev) : (e.onDfu f).rcu = e.rcu := rfl
@[simp] theorem Ev.onDfu_rsl (f : Dfu → Dfu) (e : Ev) : (e.onDfu f).rsl = e.rsl := rfl
@[simp] theorem Ev.onDfu_sli (f : Dfu → Dfu) (e : Ev) : (e.onDfu f).sli = e.sli := rfl
@[simp] theorem Ev.onDfu_btc (f : Dfu → Dfu) (e : Ev) : (e.onDfu f).btc = e.btc := rfl
@[simp] theorem Ev.onDfu_trk (f : Dfu → Dfu) (e : Ev) : (e.onDfu f).trk = e.trk := rfl
@[simp] theorem Ev.onDfu_hsq (f : Dfu → Dfu) (e : Ev) : (e.onDfu f).hsq = e.hsq := rfl
@[simp] theorem Ev.onDfu_dfu (f : Dfu → Dfu) (e : Ev) : (e.onDfu f).dfu = f e.dfu := rfl
@[simp] theorem Ev.onDfu_hmn (f : Dfu → Dfu) (e : Ev) : (e.onDfu f).hmn = e.hmn := rfl
@[simp] theorem Ev.onDfu_scp (f : Dfu → Dfu) (e : Ev) : (e.onDfu f).scp = e.scp := rfl
@[simp] theorem Ev.onDfu_now (f : Dfu → Dfu) (e : Ev) : (e.onDfu f).now = e.now := rfl
@[simp] theorem Ev.onDfu_hostTx (f : Dfu → Dfu) (e : Ev) : (e.onDfu f).hostTx = e.hostTx := rfl
@[simp] theorem Ev.onDfu_loopTx (f : Dfu → Dfu) (e : Ev) : (e.onDfu f).loopTx = e.loopTx := rfl
@[simp] theorem Ev.onDfu_pending (f : Dfu → Dfu) (e : Ev) : (e.onDfu f).pending = e.pending := rfl
@[simp] theorem Ev.onDfu_selDue (f : Dfu → Dfu) (e : Ev) : (e.onDfu f).selDue = e.selDue := rfl
@[simp] theorem Ev.onDfu_xferDue (f : Dfu → Dfu) (e : Ev) : (e.onDfu f).xferDue = e.xferDue := rfl
@[simp] theorem Ev.onDfu_drainDue (f : Dfu → Dfu) (e : Ev) : (e.onDfu f).drainDue = e.drainDue := rfl
@[simp] theorem Ev.onDfu_retestDue (f : Dfu → Dfu) (e : Ev) : (e.onDfu f).retestDue = e.retestDue := rfl
@[simp] theorem Ev.onDfu_replyDue (f : Dfu → Dfu) (e : Ev) : (e.onDfu f).replyDue = e.replyDue := rfl

@[simp] theorem Ev.onHmn_pls (f : Hmn → Hmn) (e : Ev) : (e.onHmn f).pls = e.pls := rfl
@[simp] theorem Ev.onHmn_rcu (f : Hmn → Hmn) (e : Ev) : (e.onHmn f).rcu = e.rcu := rfl
@[simp] theorem Ev.onHmn_rsl (f : Hmn → Hmn) (e : Ev) : (e.onHmn f).rsl = e.rsl := rfl
@[simp] theorem Ev.onHmn_sli (f : Hmn → Hmn) (e : Ev) : (e.onHmn f).sli = e.sli := rfl
@[simp] theorem Ev.onHmn_btc (f : Hmn → Hmn) (e : Ev) : (e.onHmn f).btc = e.btc := rfl
@[simp] theorem Ev.onHmn_trk (f : Hmn → Hmn) (e : Ev) : (e.onHmn f).trk = e.trk := rfl
@[simp] theorem Ev.onHmn_hsq (f : Hmn → Hmn) (e : Ev) : (e.onHmn f).hsq = e.hsq := rfl
@[simp] theorem Ev.onHmn_dfu (f : Hmn → Hmn) (e : Ev) : (e.onHmn f).dfu = e.dfu := rfl
@[simp] theorem Ev.onHmn_hmn (f : Hmn → Hmn) (e : Ev) : (e.onHmn f).hmn = f e.hmn := rfl
@[simp] theorem Ev.onHmn_scp (f : Hmn → Hmn) (e : Ev) : (e.onHmn f).scp = e.scp := rfl
@[simp] theorem Ev.onHmn_now (f : Hmn → Hmn) (e : Ev) : (e.onHmn f).now = e.now := rfl
@[simp] theorem Ev.onHmn_hostTx (f : Hmn → Hmn) (e : Ev) : (e.onHmn f).hostTx = e.hostTx := rfl
@[simp] theorem Ev.onHmn_loopTx (f : Hmn → Hmn) (e : Ev) : (e.onHmn f).loopTx = e.loopTx := rfl
@[simp] theorem Ev.onHmn_pending (f : Hmn → Hmn) (e : Ev) : (e.onHmn f).pending = e.pending := rfl
@[simp] theorem Ev.onHmn_selDue (f : Hmn → Hmn) (e : Ev) : (e.onHmn f).selDue = e.selDue := rfl
@[simp] theorem Ev.onHmn_xferDue (f : Hmn → Hmn) (e : Ev) : (e.onHmn f).xferDue = e.xferDue := rfl
@[simp] theorem Ev.onHmn_drainDue (f : Hmn → Hmn) (e : Ev) : (e.onHmn f).drainDue = e.drainDue := rfl
@[simp] theorem Ev.onHmn_retestDue (f : Hmn → Hmn) (e : Ev) : (e.onHmn f).retestDue = e.retestDue := rfl
@[simp] theorem Ev.onHmn_replyDue (f : Hmn → Hmn) (e : Ev) : (e.onHmn f).replyDue = e.replyDue := rfl

@[simp] theorem Ev.onScp_pls (f : Scp → Scp) (e : Ev) : (e.onScp f).pls = e.pls := rfl
@[simp] theorem Ev.onScp_rcu (f : Scp → Scp) (e : Ev) : (e.onScp f).rcu = e.rcu := rfl
@[simp] theorem Ev.onScp_rsl (f : Scp → Scp) (e : Ev) : (e.onScp f).rsl = e.rsl := rfl
@[simp] theorem Ev.onScp_sli (f : Scp → Scp) (e : Ev) : (e.onScp f).sli = e.sli := rfl
@[simp] theorem Ev.onScp_btc (f : Scp → Scp) (e : Ev) : (e.onScp f).btc = e.btc := rfl
@[simp] theorem Ev.onScp_trk (f : Scp → Scp) (e : Ev) : (e.onScp f).trk = e.trk := rfl
@[simp] theorem Ev.onScp_hsq (f : Scp → Scp) (e : Ev) : (e.onScp f).hsq = e.hsq := rfl
@[simp] theorem Ev.onScp_dfu (f : Scp → Scp) (e : Ev) : (e.onScp f).dfu = e.dfu := rfl
@[simp] theorem Ev.onScp_hmn (f : Scp → Scp) (e : Ev) : (e.onScp f).hmn = e.hmn := rfl
@[simp] theorem Ev.onScp_scp (f : Scp → Scp) (e : Ev) : (e.onScp f).scp = f e.scp := rfl
@[simp] theorem Ev.onScp_now (f : Scp → Scp) (e : Ev) : (e.onScp f).now = e.now := rfl
@[simp] theorem Ev.onScp_hostTx (f : Scp → Scp) (e : Ev) : (e.onScp f).hostTx = e.hostTx := rfl
@[simp] theorem Ev.onScp_loopTx (f : Scp → Scp) (e : Ev) : (e.onScp f).loopTx = e.loopTx := rfl
@[simp] theorem Ev.onScp_pending (f : Scp → Scp) (e : Ev) : (e.onScp f).pending = e.pending := rfl
@[simp] theorem Ev.onScp_selDue (f : Scp → Scp) (e : Ev) : (e.onScp f).selDue = e.selDue := rfl
@[simp] theorem Ev.onScp_xferDue (f : Scp → Scp) (e : Ev) : (e.onScp f).xferDue = e.xferDue := rfl
@[simp] theorem Ev.onScp_drainDue (f : Scp → Scp) (e : Ev) : (e.onScp f).drainDue = e.drainDue := rfl
@[simp] theorem Ev.onScp_retestDue (f : Scp → Scp) (e : Ev) : (e.onScp f).retestDue = e.retestDue := rfl
@[simp] theorem Ev.onScp_replyDue (f : Scp → Scp) (e : Ev) : (e.onScp f).replyDue = e.replyDue := rfl

@[simp] theorem Ev.onLoopTx_pls (bytes : List Byte) (e : Ev) : (e.onLoopTx bytes).pls = e.pls := rfl
@[simp] theorem Ev.onLoopTx_rcu (bytes : List Byte) (e : Ev) : (e.onLoopTx bytes).rcu = e.rcu := rfl
@[simp] theorem Ev.onLoopTx_rsl (bytes : List Byte) (e : Ev) : (e.onLoopTx bytes).rsl = e.rsl := rfl
@[simp] theorem Ev.onLoopTx_sli (bytes : List Byte) (e : Ev) : (e.onLoopTx bytes).sli = e.sli := rfl
@[simp] theorem Ev.onLoopTx_btc (bytes : List Byte) (e : Ev) : (e.onLoopTx bytes).btc = e.btc := rfl
@[simp] theorem Ev.onLoopTx_trk (bytes : List Byte) (e : Ev) : (e.onLoopTx bytes).trk = e.trk := rfl
@[simp] theorem Ev.onLoopTx_hsq (bytes : List Byte) (e : Ev) : (e.onLoopTx bytes).hsq = e.hsq := rfl
@[simp] theorem Ev.onLoopTx_dfu (bytes : List Byte) (e : Ev) : (e.onLoopTx bytes).dfu = e.dfu := rfl
@[simp] theorem Ev.onLoopTx_hmn (bytes : List Byte) (e : Ev) : (e.onLoopTx bytes).hmn = e.hmn := rfl
@[simp] theorem Ev.onLoopTx_scp (bytes : List Byte) (e : Ev) : (e.onLoopTx bytes).scp = e.scp := rfl
@[simp] theorem Ev.onLoopTx_now (bytes : List Byte) (e : Ev) : (e.onLoopTx bytes).now = e.now := rfl
@[simp] theorem Ev.onLoopTx_hostTx (bytes : List Byte) (e : Ev) : (e.onLoopTx bytes).hostTx = e.hostTx := rfl
@[simp] theorem Ev.onLoopTx_loopTx (bytes : List Byte) (e : Ev) : (e.onLoopTx bytes).loopTx = e.loopTx ++ bytes := rfl
@[simp] theorem Ev.onLoopTx_pending (bytes : List Byte) (e : Ev) : (e.onLoopTx bytes).pending = e.pending := rfl
@[simp] theorem Ev.onLoopTx_selDue (bytes : List Byte) (e : Ev) : (e.onLoopTx bytes).selDue = e.selDue := rfl
@[simp] theorem Ev.onLoopTx_xferDue (bytes : List Byte) (e : Ev) : (e.onLoopTx bytes).xferDue = e.xferDue := rfl
@[simp] theorem Ev.onLoopTx_drainDue (bytes : List Byte) (e : Ev) : (e.onLoopTx bytes).drainDue = e.drainDue := rfl
@[simp] theorem Ev.onLoopTx_retestDue (bytes : List Byte) (e : Ev) : (e.onLoopTx bytes).retestDue = e.retestDue := rfl
@[simp] theorem Ev.onLoopTx_replyDue (bytes : List Byte) (e : Ev) : (e.onLoopTx bytes).replyDue = e.replyDue := rfl

@[simp] theorem Ev.onHostTx_pls (bytes : List Byte) (e : Ev) : (e.onHostTx bytes).pls = e.pls := rfl
@[simp] theorem Ev.onHostTx_rcu (bytes : List Byte) (e : Ev) : (e.onHostTx bytes).rcu = e.rcu := rfl
@[simp] theorem Ev.onHostTx_rsl (bytes : List Byte) (e : Ev) : (e.onHostTx bytes).rsl = e.rsl := rfl
@[simp] theorem Ev.onHostTx_sli (bytes : List Byte) (e : Ev) : (e.onHostTx bytes).sli = e.sli := rfl
@[simp] theorem Ev.onHostTx_btc (bytes : List Byte) (e : Ev) : (e.onHostTx bytes).btc = e.btc := rfl
@[simp] theorem Ev.onHostTx_trk (bytes : List Byte) (e : Ev) : (e.onHostTx bytes).trk = e.trk := rfl
@[simp] theorem Ev.onHostTx_hsq (bytes : List Byte) (e : Ev) : (e.onHostTx bytes).hsq = e.hsq := rfl
@[simp] theorem Ev.onHostTx_dfu (bytes : List Byte) (e : Ev) : (e.onHostTx bytes).dfu = e.dfu := rfl
@[simp] theorem Ev.onHostTx_hmn (bytes : List Byte) (e : Ev) : (e.onHostTx bytes).hmn = e.hmn := rfl
@[simp] theorem Ev.onHostTx_scp (bytes : List Byte) (e : Ev) : (e.onHostTx bytes).scp = e.scp := rfl
@[simp] theorem Ev.onHostTx_now (bytes : List Byte) (e : Ev) : (e.onHostTx bytes).now = e.now := rfl
@[simp] theorem Ev.onHostTx_hostTx (bytes : List Byte) (e : Ev) : (e.onHostTx bytes).hostTx = e.hostTx ++ bytes := rfl
@[simp] theorem Ev.onHostTx_loopTx (bytes : List Byte) (e : Ev) : (e.onHostTx bytes).loopTx = e.loopTx := rfl
@[simp] theorem Ev.onHostTx_pending (bytes : List Byte) (e : Ev) : (e.onHostTx bytes).pending = e.pending := rfl
@[simp] theorem Ev.onHostTx_selDue (bytes : List Byte) (e : Ev) : (e.onHostTx bytes).selDue = e.selDue := rfl
@[simp] theorem Ev.onHostTx_xferDue (bytes : List Byte) (e : Ev) : (e.onHostTx bytes).xferDue = e.xferDue := rfl
@[simp] theorem Ev.onHostTx_drainDue (bytes : List Byte) (e : Ev) : (e.onHostTx bytes).drainDue = e.drainDue := rfl
@[simp] theorem Ev.onHostTx_retestDue (bytes : List Byte) (e : Ev) : (e.onHostTx bytes).retestDue = e.retestDue := rfl
@[simp] theorem Ev.onHostTx_replyDue (bytes : List Byte) (e : Ev) : (e.onHostTx bytes).replyDue = e.replyDue := rfl

@[simp] theorem Ev.until_pls (moment : Nat) (e : Ev) : (e.until moment).pls = e.pls := rfl
@[simp] theorem Ev.until_rcu (moment : Nat) (e : Ev) : (e.until moment).rcu = e.rcu := rfl
@[simp] theorem Ev.until_rsl (moment : Nat) (e : Ev) : (e.until moment).rsl = e.rsl := rfl
@[simp] theorem Ev.until_sli (moment : Nat) (e : Ev) : (e.until moment).sli = e.sli := rfl
@[simp] theorem Ev.until_btc (moment : Nat) (e : Ev) : (e.until moment).btc = e.btc := rfl
@[simp] theorem Ev.until_trk (moment : Nat) (e : Ev) : (e.until moment).trk = e.trk := rfl
@[simp] theorem Ev.until_hsq (moment : Nat) (e : Ev) : (e.until moment).hsq = e.hsq := rfl
@[simp] theorem Ev.until_dfu (moment : Nat) (e : Ev) : (e.until moment).dfu = e.dfu := rfl
@[simp] theorem Ev.until_hmn (moment : Nat) (e : Ev) : (e.until moment).hmn = e.hmn := rfl
@[simp] theorem Ev.until_scp (moment : Nat) (e : Ev) : (e.until moment).scp = e.scp := rfl
@[simp] theorem Ev.until_now (moment : Nat) (e : Ev) : (e.until moment).now = max e.now moment := rfl
@[simp] theorem Ev.until_hostTx (moment : Nat) (e : Ev) : (e.until moment).hostTx = e.hostTx := rfl
@[simp] theorem Ev.until_loopTx (moment : Nat) (e : Ev) : (e.until moment).loopTx = e.loopTx := rfl
@[simp] theorem Ev.until_pending (moment : Nat) (e : Ev) : (e.until moment).pending = e.pending := rfl
@[simp] theorem Ev.until_selDue (moment : Nat) (e : Ev) : (e.until moment).selDue = e.selDue := rfl
@[simp] theorem Ev.until_xferDue (moment : Nat) (e : Ev) : (e.until moment).xferDue = e.xferDue := rfl
@[simp] theorem Ev.until_drainDue (moment : Nat) (e : Ev) : (e.until moment).drainDue = e.drainDue := rfl
@[simp] theorem Ev.until_retestDue (moment : Nat) (e : Ev) : (e.until moment).retestDue = e.retestDue := rfl
@[simp] theorem Ev.until_replyDue (moment : Nat) (e : Ev) : (e.until moment).replyDue = e.replyDue := rfl

@[simp] theorem Ev.promptSel_pls (e : Ev) : e.promptSel.pls = e.pls := rfl
@[simp] theorem Ev.promptSel_rcu (e : Ev) : e.promptSel.rcu = e.rcu := rfl
@[simp] theorem Ev.promptSel_rsl (e : Ev) : e.promptSel.rsl = e.rsl := rfl
@[simp] theorem Ev.promptSel_sli (e : Ev) : e.promptSel.sli = e.sli := rfl
@[simp] theorem Ev.promptSel_btc (e : Ev) : e.promptSel.btc = e.btc := rfl
@[simp] theorem Ev.promptSel_trk (e : Ev) : e.promptSel.trk = e.trk := rfl
@[simp] theorem Ev.promptSel_hsq (e : Ev) : e.promptSel.hsq = e.hsq := rfl
@[simp] theorem Ev.promptSel_dfu (e : Ev) : e.promptSel.dfu = e.dfu := rfl
@[simp] theorem Ev.promptSel_hmn (e : Ev) : e.promptSel.hmn = e.hmn := rfl
@[simp] theorem Ev.promptSel_scp (e : Ev) : e.promptSel.scp = e.scp := rfl
@[simp] theorem Ev.promptSel_now (e : Ev) : e.promptSel.now = e.now := rfl
@[simp] theorem Ev.promptSel_hostTx (e : Ev) : e.promptSel.hostTx = e.hostTx := rfl
@[simp] theorem Ev.promptSel_loopTx (e : Ev) : e.promptSel.loopTx = e.loopTx := rfl
@[simp] theorem Ev.promptSel_pending (e : Ev) : e.promptSel.pending = e.pending := rfl
@[simp] theorem Ev.promptSel_selDue (e : Ev) : e.promptSel.selDue = true := rfl
@[simp] theorem Ev.promptSel_xferDue (e : Ev) : e.promptSel.xferDue = e.xferDue := rfl
@[simp] theorem Ev.promptSel_drainDue (e : Ev) : e.promptSel.drainDue = e.drainDue := rfl
@[simp] theorem Ev.promptSel_retestDue (e : Ev) : e.promptSel.retestDue = e.retestDue := rfl
@[simp] theorem Ev.promptSel_replyDue (e : Ev) : e.promptSel.replyDue = e.replyDue := rfl

@[simp] theorem Ev.promptXfer_pls (e : Ev) : e.promptXfer.pls = e.pls := rfl
@[simp] theorem Ev.promptXfer_rcu (e : Ev) : e.promptXfer.rcu = e.rcu := rfl
@[simp] theorem Ev.promptXfer_rsl (e : Ev) : e.promptXfer.rsl = e.rsl := rfl
@[simp] theorem Ev.promptXfer_sli (e : Ev) : e.promptXfer.sli = e.sli := rfl
@[simp] theorem Ev.promptXfer_btc (e : Ev) : e.promptXfer.btc = e.btc := rfl
@[simp] theorem Ev.promptXfer_trk (e : Ev) : e.promptXfer.trk = e.trk := rfl
@[simp] theorem Ev.promptXfer_hsq (e : Ev) : e.promptXfer.hsq = e.hsq := rfl
@[simp] theorem Ev.promptXfer_dfu (e : Ev) : e.promptXfer.dfu = e.dfu := rfl
@[simp] theorem Ev.promptXfer_hmn (e : Ev) : e.promptXfer.hmn = e.hmn := rfl
@[simp] theorem Ev.promptXfer_scp (e : Ev) : e.promptXfer.scp = e.scp := rfl
@[simp] theorem Ev.promptXfer_now (e : Ev) : e.promptXfer.now = e.now := rfl
@[simp] theorem Ev.promptXfer_hostTx (e : Ev) : e.promptXfer.hostTx = e.hostTx := rfl
@[simp] theorem Ev.promptXfer_loopTx (e : Ev) : e.promptXfer.loopTx = e.loopTx := rfl
@[simp] theorem Ev.promptXfer_pending (e : Ev) : e.promptXfer.pending = e.pending := rfl
@[simp] theorem Ev.promptXfer_selDue (e : Ev) : e.promptXfer.selDue = e.selDue := rfl
@[simp] theorem Ev.promptXfer_xferDue (e : Ev) : e.promptXfer.xferDue = true := rfl
@[simp] theorem Ev.promptXfer_drainDue (e : Ev) : e.promptXfer.drainDue = e.drainDue := rfl
@[simp] theorem Ev.promptXfer_retestDue (e : Ev) : e.promptXfer.retestDue = e.retestDue := rfl
@[simp] theorem Ev.promptXfer_replyDue (e : Ev) : e.promptXfer.replyDue = e.replyDue := rfl

@[simp] theorem Ev.promptDrain_pls (e : Ev) : e.promptDrain.pls = e.pls := rfl
@[simp] theorem Ev.promptDrain_rcu (e : Ev) : e.promptDrain.rcu = e.rcu := rfl
@[simp] theorem Ev.promptDrain_rsl (e : Ev) : e.promptDrain.rsl = e.rsl := rfl
@[simp] theorem Ev.promptDrain_sli (e : Ev) : e.promptDrain.sli = e.sli := rfl
@[simp] theorem Ev.promptDrain_btc (e : Ev) : e.promptDrain.btc = e.btc := rfl
@[simp] theorem Ev.promptDrain_trk (e : Ev) : e.promptDrain.trk = e.trk := rfl
@[simp] theorem Ev.promptDrain_hsq (e : Ev) : e.promptDrain.hsq = e.hsq := rfl
@[simp] theorem Ev.promptDrain_dfu (e : Ev) : e.promptDrain.dfu = e.dfu := rfl
@[simp] theorem Ev.promptDrain_hmn (e : Ev) : e.promptDrain.hmn = e.hmn := rfl
@[simp] theorem Ev.promptDrain_scp (e : Ev) : e.promptDrain.scp = e.scp := rfl
@[simp] theorem Ev.promptDrain_now (e : Ev) : e.promptDrain.now = e.now := rfl
@[simp] theorem Ev.promptDrain_hostTx (e : Ev) : e.promptDrain.hostTx = e.hostTx := rfl
@[simp] theorem Ev.promptDrain_loopTx (e : Ev) : e.promptDrain.loopTx = e.loopTx := rfl
@[simp] theorem Ev.promptDrain_pending (e : Ev) : e.promptDrain.pending = e.pending := rfl
@[simp] theorem Ev.promptDrain_selDue (e : Ev) : e.promptDrain.selDue = e.selDue := rfl
@[simp] theorem Ev.promptDrain_xferDue (e : Ev) : e.promptDrain.xferDue = e.xferDue := rfl
@[simp] theorem Ev.promptDrain_drainDue (e : Ev) : e.promptDrain.drainDue = true := rfl
@[simp] theorem Ev.promptDrain_retestDue (e : Ev) : e.promptDrain.retestDue = e.retestDue := rfl
@[simp] theorem Ev.promptDrain_replyDue (e : Ev) : e.promptDrain.replyDue = e.replyDue := rfl

@[simp] theorem Ev.promptRetest_pls (e : Ev) : e.promptRetest.pls = e.pls := rfl
@[simp] theorem Ev.promptRetest_rcu (e : Ev) : e.promptRetest.rcu = e.rcu := rfl
@[simp] theorem Ev.promptRetest_rsl (e : Ev) : e.promptRetest.rsl = e.rsl := rfl
@[simp] theorem Ev.promptRetest_sli (e : Ev) : e.promptRetest.sli = e.sli := rfl
@[simp] theorem Ev.promptRetest_btc (e : Ev) : e.promptRetest.btc = e.btc := rfl
@[simp] theorem Ev.promptRetest_trk (e : Ev) : e.promptRetest.trk = e.trk := rfl
@[simp] theorem Ev.promptRetest_hsq (e : Ev) : e.promptRetest.hsq = e.hsq := rfl
@[simp] theorem Ev.promptRetest_dfu (e : Ev) : e.promptRetest.dfu = e.dfu := rfl
@[simp] theorem Ev.promptRetest_hmn (e : Ev) : e.promptRetest.hmn = e.hmn := rfl
@[simp] theorem Ev.promptRetest_scp (e : Ev) : e.promptRetest.scp = e.scp := rfl
@[simp] theorem Ev.promptRetest_now (e : Ev) : e.promptRetest.now = e.now := rfl
@[simp] theorem Ev.promptRetest_hostTx (e : Ev) : e.promptRetest.hostTx = e.hostTx := rfl
@[simp] theorem Ev.promptRetest_loopTx (e : Ev) : e.promptRetest.loopTx = e.loopTx := rfl
@[simp] theorem Ev.promptRetest_pending (e : Ev) : e.promptRetest.pending = e.pending := rfl
@[simp] theorem Ev.promptRetest_selDue (e : Ev) : e.promptRetest.selDue = e.selDue := rfl
@[simp] theorem Ev.promptRetest_xferDue (e : Ev) : e.promptRetest.xferDue = e.xferDue := rfl
@[simp] theorem Ev.promptRetest_drainDue (e : Ev) : e.promptRetest.drainDue = e.drainDue := rfl
@[simp] theorem Ev.promptRetest_retestDue (e : Ev) : e.promptRetest.retestDue = true := rfl
@[simp] theorem Ev.promptRetest_replyDue (e : Ev) : e.promptRetest.replyDue = e.replyDue := rfl

@[simp] theorem Ev.start_selDue (s : State) : (Ev.start s).selDue = false := rfl
@[simp] theorem Ev.start_xferDue (s : State) : (Ev.start s).xferDue = false := rfl
@[simp] theorem Ev.start_drainDue (s : State) : (Ev.start s).drainDue = false := rfl
@[simp] theorem Ev.start_retestDue (s : State) : (Ev.start s).retestDue = false := rfl
@[simp] theorem Ev.start_replyDue (s : State) : (Ev.start s).replyDue = false := rfl
@[simp] theorem Ev.start_toState (s : State) : (Ev.start s).toState = s := rfl

@[simp] theorem Ev.onPls_onPls (f g : Pls → Pls) (e : Ev) : (e.onPls g).onPls f = e.onPls (fun b => f (g b)) := rfl
@[simp] theorem Ev.onRcu_onRcu (f g : Rcu → Rcu) (e : Ev) : (e.onRcu g).onRcu f = e.onRcu (fun b => f (g b)) := rfl
@[simp] theorem Ev.onRsl_onRsl (f g : Rsl → Rsl) (e : Ev) : (e.onRsl g).onRsl f = e.onRsl (fun b => f (g b)) := rfl
@[simp] theorem Ev.onSli_onSli (f g : Sli → Sli) (e : Ev) : (e.onSli g).onSli f = e.onSli (fun b => f (g b)) := rfl
@[simp] theorem Ev.onBtc_onBtc (f g : Btc → Btc) (e : Ev) : (e.onBtc g).onBtc f = e.onBtc (fun b => f (g b)) := rfl
@[simp] theorem Ev.onTrk_onTrk (f g : Trk → Trk) (e : Ev) : (e.onTrk g).onTrk f = e.onTrk (fun b => f (g b)) := rfl
@[simp] theorem Ev.onHsq_onHsq (f g : Hsq → Hsq) (e : Ev) : (e.onHsq g).onHsq f = e.onHsq (fun b => f (g b)) := rfl
@[simp] theorem Ev.onDfu_onDfu (f g : Dfu → Dfu) (e : Ev) : (e.onDfu g).onDfu f = e.onDfu (fun b => f (g b)) := rfl
@[simp] theorem Ev.onHmn_onHmn (f g : Hmn → Hmn) (e : Ev) : (e.onHmn g).onHmn f = e.onHmn (fun b => f (g b)) := rfl
@[simp] theorem Ev.onScp_onScp (f g : Scp → Scp) (e : Ev) : (e.onScp g).onScp f = e.onScp (fun b => f (g b)) := rfl

end Sys2Proof.Machine
end

