-- ==== Sys2Proof/Laws/Table.lean ====
section
/-! SUPPORT. The laws of the sparse tables: what a write and a strike leave to be read, and that every operation keeps
the canonical form. -/

namespace Sys2Proof.Machine

-- One proof at a time, so that the package as one text needs few threads.
set_option Elab.async false

variable {α β : Type}

@[simp] theorem Table.read_nil (n : Nat) : Table.read ([] : Table α) n = none := rfl

theorem Table.read_cons (k : Nat) (v : α) (t : Table α) (n : Nat) :
    Table.read ((k, v) :: t) n = if n = k then some v else Table.read t n := rfl

@[simp] theorem Table.read_write_same (t : Table α) (n : Nat) (v : α) : Table.read (Table.write t n v) n = some v := by
  induction t with
  | nil => simp [Table.write, Table.read]
  | cons p t ih =>
    obtain ⟨k, w⟩ := p
    simp only [Table.write]
    split
    · simp [Table.read]
    · split
      · simp [Table.read]
      · next h => simp [Table.read, h, ih]

theorem Table.read_write_other (t : Table α) (n m : Nat) (v : α) (h : m ≠ n) :
    Table.read (Table.write t n v) m = Table.read t m := by
  induction t with
  | nil => simp [Table.write, Table.read, h]
  | cons p t ih =>
    obtain ⟨k, w⟩ := p
    simp only [Table.write]
    split
    · simp [Table.read, h]
    · split
      · next hk => subst hk; simp [Table.read, h]
      · simp [Table.read, ih]

@[simp] theorem Table.read_strike_same (t : Table α) (n : Nat) : Table.read (Table.strike t n) n = none := by
  induction t with
  | nil => rfl
  | cons p t ih =>
    obtain ⟨k, w⟩ := p
    simp only [Table.strike]
    split
    · exact ih
    · next h => simp [Table.read, h, ih]

theorem Table.read_strike_other (t : Table α) (n m : Nat) (h : m ≠ n) :
    Table.read (Table.strike t n) m = Table.read t m := by
  induction t with
  | nil => rfl
  | cons p t ih =>
    obtain ⟨k, w⟩ := p
    simp only [Table.strike]
    split
    · next hk => subst hk; simp [Table.read, h, ih]
    · simp [Table.read, ih]

theorem Table.readD_writeD_same [DecidableEq α] (t : Table α) (n : Nat) (v d : α) :
    Table.readD (Table.writeD t n v d) n d = v := by
  unfold Table.readD Table.writeD
  split
  · next h => simp [h]
  · simp

theorem Table.readD_writeD_other [DecidableEq α] (t : Table α) (n m : Nat) (v d : α) (h : m ≠ n) :
    Table.readD (Table.writeD t n v d) m d = Table.readD t m d := by
  unfold Table.readD Table.writeD
  split
  · rw [Table.read_strike_other t n m h]
  · rw [Table.read_write_other t n m v h]

/-! ### The canonical form -/

theorem Table.rising_cons (k : Nat) (v : α) (t : Table α) :
    Table.rising ((k, v) :: t) = true ↔ (∀ p ∈ t, k < p.1) ∧ Table.rising t = true := by
  simp [Table.rising]

theorem Table.mem_write (t : Table α) (n : Nat) (v : α) (p : Nat × α) (h : p ∈ Table.write t n v) :
    p = (n, v) ∨ p ∈ t := by
  induction t with
  | nil => simpa [Table.write] using h
  | cons q t ih =>
    obtain ⟨k, w⟩ := q
    simp only [Table.write] at h
    split at h
    · simpa using h
    · split at h
      · simp at h; tauto
      · simp only [List.mem_cons] at h ⊢
        rcases h with h | h
        · tauto
        · rcases ih h with h | h <;> tauto

theorem Table.rising_write (t : Table α) (n : Nat) (v : α) (h : Table.rising t = true) :
    Table.rising (Table.write t n v) = true := by
  induction t with
  | nil => simp [Table.write, Table.rising]
  | cons q t ih =>
    obtain ⟨k, w⟩ := q
    have hc := (Table.rising_cons k w t).1 h
    simp only [Table.write]
    split
    · next hk =>
      refine (Table.rising_cons _ _ _).2 ⟨fun p hp => ?_, h⟩
      rcases List.mem_cons.1 hp with hp | hp
      · subst hp; exact hk
      · exact lt_trans hk (hc.1 p hp)
    · split
      · next hk => subst hk; exact (Table.rising_cons _ _ _).2 hc
      · next h1 h2 =>
        refine (Table.rising_cons _ _ _).2 ⟨fun p hp => ?_, ih hc.2⟩
        rcases Table.mem_write t n v p hp with hp | hp
        · subst hp; simp; omega
        · exact hc.1 p hp

theorem Table.rising_filter (t : Table α) (f : Nat × α → Bool) (h : Table.rising t = true) :
    Table.rising (t.filter f) = true := by
  induction t with
  | nil => rfl
  | cons q t ih =>
    obtain ⟨k, w⟩ := q
    have hc := (Table.rising_cons k w t).1 h
    simp only [List.filter_cons]
    split
    · exact (Table.rising_cons _ _ _).2 ⟨fun p hp => hc.1 p (List.mem_of_mem_filter hp), ih hc.2⟩
    · exact ih hc.2

theorem Table.strike_eq_filter (t : Table α) (n : Nat) : Table.strike t n = t.filter fun p => p.1 != n := by
  induction t with
  | nil => rfl
  | cons q t ih =>
    obtain ⟨k, w⟩ := q
    simp only [Table.strike, List.filter_cons]
    by_cases h : n = k
    · subst h; simp [ih]
    · have : (k != n) = true := by simpa using fun hk => h hk.symm
      simp [h, this, ih]

theorem Table.rising_strike (t : Table α) (n : Nat) (h : Table.rising t = true) :
    Table.rising (Table.strike t n) = true := by
  rw [Table.strike_eq_filter]; exact Table.rising_filter t _ h

theorem Table.rising_writeD [DecidableEq α] (t : Table α) (n : Nat) (v d : α) (h : Table.rising t = true) :
    Table.rising (Table.writeD t n v d) = true := by
  unfold Table.writeD
  split
  · exact Table.rising_strike t n h
  · exact Table.rising_write t n v h

/-- A map that keeps every number keeps the canonical form. -/
theorem Table.rising_map (t : Table α) (f : Nat × α → Nat × β) (hf : ∀ p, (f p).1 = p.1) (h : Table.rising t = true) :
    Table.rising (t.map f) = true := by
  induction t with
  | nil => rfl
  | cons q t ih =>
    obtain ⟨k, w⟩ := q
    have hc := (Table.rising_cons k w t).1 h
    have he : f (k, w) = (k, (f (k, w)).2) := Prod.ext (hf _) rfl
    rw [List.map_cons, he]
    refine (Table.rising_cons _ _ _).2 ⟨fun p hp => ?_, ih hc.2⟩
    obtain ⟨q, hq, rfl⟩ := List.mem_map.1 hp
    rw [hf]; exact hc.1 q hq

/-- In the canonical form a listed pair is what its number reads as. -/
theorem Table.read_of_mem (t : Table α) (h : Table.rising t = true) (p : Nat × α) (hp : p ∈ t) :
    Table.read t p.1 = some p.2 := by
  induction t with
  | nil => simp at hp
  | cons q t ih =>
    obtain ⟨k, w⟩ := q
    have hc := (Table.rising_cons k w t).1 h
    rcases List.mem_cons.1 hp with hp | hp
    · subst hp; simp [Table.read]
    · have := hc.1 p hp
      have hne : p.1 ≠ k := by omega
      simp [Table.read, hne, ih hc.2 hp]

theorem Table.mem_of_read (t : Table α) (n : Nat) (v : α) (h : Table.read t n = some v) : (n, v) ∈ t := by
  induction t with
  | nil => simp at h
  | cons q t ih =>
    obtain ⟨k, w⟩ := q
    simp only [Table.read] at h
    split at h
    · next hk => subst hk; simp at h; simp [h]
    · exact List.mem_cons_of_mem _ (ih h)

/-- Of two writes under one number the later stands. -/
theorem Table.write_write_same {α : Type} (t : Table α) (n : Nat) (v w : α) : Table.write (Table.write t n v) n w = Table.write t n w := by
  induction t with
  | nil => simp [Table.write]
  | cons p t ih =>
    obtain ⟨k, x⟩ := p
    simp only [Table.write]
    by_cases h1 : n < k
    · simp [h1, Table.write]
    · by_cases h2 : n = k
      · subst h2; simp [Table.write]
      · simp only [h1, h2, if_false, Table.write]; rw [ih]

end Sys2Proof.Machine
end

