-- ==== Sys2Proof/Laws/Leads.lean ====
section
/-! SUPPORT. What every shared operation keeps: the queue of waiting steps stands, the clock does not go back, the two
logs only grow, and the bounds of `State.Sound` stay. One lemma per operation, in the form "what leads to `a` leads to
`a` after the operation", so that a chain of operations is proved by the chain of their lemmas. -/

namespace Sys2Proof.Machine

-- One proof at a time, so that the package as one text needs few threads.
set_option Elab.async false

/-- From `e` the part has come to `t`. -/
structure Ev.Leads (e t : Ev) : Prop where
  pending : t.pending = e.pending
  now : e.now ≤ t.now
  hostTx : e.hostTx <+: t.hostTx
  loopTx : e.loopTx <+: t.loopTx
  sound : e.toState.Sound → t.toState.Sound

namespace Ev.Leads

variable {e a b c : Ev}

theorem refl (e : Ev) : Ev.Leads e e := ⟨rfl, le_refl _, List.prefix_refl _, List.prefix_refl _, id⟩

theorem trans (h : Ev.Leads a b) (k : Ev.Leads b c) : Ev.Leads a c :=
  ⟨k.pending.trans h.pending, h.now.trans k.now, h.hostTx.trans k.hostTx, h.loopTx.trans k.loopTx,
    fun s => k.sound (h.sound s)⟩

/-! ### The updates -/

theorem onPls {f : Pls → Pls} (h : Ev.Leads e a) (hf : a.pls.sound → (f a.pls).sound := by exact fun h => h) :
    Ev.Leads e (a.onPls f) :=
  ⟨h.pending, h.now, h.hostTx, h.loopTx, fun s => { h.sound s with pls := hf (h.sound s).pls }⟩

theorem onRcu {f : Rcu → Rcu} (h : Ev.Leads e a) (hf : a.rcu.sound → (f a.rcu).sound := by exact fun h => h) :
    Ev.Leads e (a.onRcu f) :=
  ⟨h.pending, h.now, h.hostTx, h.loopTx, fun s => { h.sound s with rcu := hf (h.sound s).rcu }⟩

theorem onRsl {f : Rsl → Rsl} (h : Ev.Leads e a) : Ev.Leads e (a.onRsl f) :=
  ⟨h.pending, h.now, h.hostTx, h.loopTx, fun s => { h.sound s with }⟩

theorem onSli {f : Sli → Sli} (h : Ev.Leads e a) (hf : a.sli.sound → (f a.sli).sound := by exact fun h => h) :
    Ev.Leads e (a.onSli f) :=
  ⟨h.pending, h.now, h.hostTx, h.loopTx, fun s => { h.sound s with sli := hf (h.sound s).sli }⟩

theorem onBtc {f : Btc → Btc} (h : Ev.Leads e a) (hf : a.btc.sound → (f a.btc).sound := by exact fun h => h) :
    Ev.Leads e (a.onBtc f) :=
  ⟨h.pending, h.now, h.hostTx, h.loopTx, fun s => { h.sound s with btc := hf (h.sound s).btc }⟩

theorem onTrk {f : Trk → Trk} (h : Ev.Leads e a) (hf : a.trk.sound → (f a.trk).sound := by exact fun h => h) :
    Ev.Leads e (a.onTrk f) :=
  ⟨h.pending, h.now, h.hostTx, h.loopTx, fun s => { h.sound s with trk := hf (h.sound s).trk }⟩

theorem onHsq {f : Hsq → Hsq} (h : Ev.Leads e a) (hf : a.hsq.sound → (f a.hsq).sound := by exact fun h => h) :
    Ev.Leads e (a.onHsq f) :=
  ⟨h.pending, h.now, h.hostTx, h.loopTx, fun s => { h.sound s with hsq := hf (h.sound s).hsq }⟩

theorem onDfu {f : Dfu → Dfu} (h : Ev.Leads e a) : Ev.Leads e (a.onDfu f) :=
  ⟨h.pending, h.now, h.hostTx, h.loopTx, fun s => { h.sound s with }⟩

theorem onHmn {f : Hmn → Hmn} (h : Ev.Leads e a) (hf : a.hmn.sound → (f a.hmn).sound) : Ev.Leads e (a.onHmn f) :=
  ⟨h.pending, h.now, h.hostTx, h.loopTx, fun s => { h.sound s with hmn := hf (h.sound s).hmn }⟩

theorem onScp {f : Scp → Scp} (h : Ev.Leads e a) (hf : a.scp.sound → (f a.scp).sound := by exact fun h => h) :
    Ev.Leads e (a.onScp f) :=
  ⟨h.pending, h.now, h.hostTx, h.loopTx, fun s => { h.sound s with scp := hf (h.sound s).scp }⟩

theorem onLoopTx {bytes : List Byte} (h : Ev.Leads e a) : Ev.Leads e (a.onLoopTx bytes) :=
  ⟨h.pending, h.now, h.hostTx, h.loopTx.trans (List.prefix_append _ _), fun s => { h.sound s with }⟩

theorem onHostTx {bytes : List Byte} (h : Ev.Leads e a) : Ev.Leads e (a.onHostTx bytes) :=
  ⟨h.pending, h.now, h.hostTx.trans (List.prefix_append _ _), h.loopTx, fun s => { h.sound s with }⟩

theorem until' {moment : Nat} (h : Ev.Leads e a) : Ev.Leads e (a.until moment) :=
  ⟨h.pending, h.now.trans (Nat.le_max_left _ _), h.hostTx, h.loopTx, fun s => { h.sound s with }⟩

theorem promptSel (h : Ev.Leads e a) : Ev.Leads e a.promptSel :=
  ⟨h.pending, h.now, h.hostTx, h.loopTx, fun s => { h.sound s with }⟩
theorem promptXfer (h : Ev.Leads e a) : Ev.Leads e a.promptXfer :=
  ⟨h.pending, h.now, h.hostTx, h.loopTx, fun s => { h.sound s with }⟩
theorem promptDrain (h : Ev.Leads e a) : Ev.Leads e a.promptDrain :=
  ⟨h.pending, h.now, h.hostTx, h.loopTx, fun s => { h.sound s with }⟩
theorem promptRetest (h : Ev.Leads e a) : Ev.Leads e a.promptRetest :=
  ⟨h.pending, h.now, h.hostTx, h.loopTx, fun s => { h.sound s with }⟩

theorem foldl {α : Type} {f : Ev → α → Ev} (hf : ∀ (a : Ev) (x : α), Ev.Leads e a → Ev.Leads e (f a x))
    (xs : List α) : ∀ a, Ev.Leads e a → Ev.Leads e (xs.foldl f a) := by
  induction xs with
  | nil => exact fun _ h => h
  | cons x xs ih => exact fun a h => ih _ (hf a x h)

end Ev.Leads

/-! ### The Site Command Port -/

theorem satUp_le (n : Nat) (h : n ≤ Config.counterTop) : satUp n ≤ Config.counterTop := by
  unfold satUp; split <;> omega

theorem Scp.raise_sound {p : Scp} {d : Bool} {r : Report} (h : p.sound) : (p.raise d r).sound := by
  obtain ⟨h1, h2, h3, h4, h5, h6⟩ := h
  unfold Scp.raise Scp.reportRoom
  split
  · next hr =>
    simp only [Bool.and_eq_true, decide_eq_true_eq] at hr
    simp only [Config.outboundPlaces, Config.reportPlaces] at hr
    obtain ⟨⟨hr1, hr2⟩, -⟩ := hr
    refine ⟨h1, ?_, ?_, h4, h5, h6⟩
    · simp; omega
    · simp [Scp.reportCount, List.filter_cons, Message.isReport]; omega
  · exact ⟨h1, h2, h3, h4, satUp_le _ h5, h6⟩

theorem Scp.pushReply_sound {p : Scp} {k t : Byte} {st : Status} {rs : List Byte} (h : p.sound) :
    (p.pushReply k t st rs).sound := by
  obtain ⟨h1, h2, h3, h4, h5, h6⟩ := h
  unfold Scp.pushReply
  split
  · next hr =>
    simp only [Config.outboundPlaces] at hr
    refine ⟨h1, ?_, ?_, h4, h5, h6⟩
    · simp; omega
    · simpa [Scp.reportCount, Message.isReport] using h3
  · exact ⟨h1, h2, h3, h4, h5, h6⟩

theorem Scp.flush_sound {p : Scp} {d : Bool} (h : p.sound) : (p.flush d).sound := by
  unfold Scp.flush
  split
  · exact h
  · exact (Scp.raise_sound (d := d) (r := .placed p.batch) h : _)

theorem Scp.handOver_sound {p : Scp} {d : Bool} {n : Nat} {o : LaidOutcome} (h : p.sound) : (p.handOver d n o).sound := by
  unfold Scp.handOver
  dsimp only
  split
  · exact Scp.flush_sound (p := { p with batch := p.batch ++ [(n, o)] }) h
  · exact h

namespace Ev.Leads

variable {e a : Ev}

theorem report {r : Report} (h : Ev.Leads e a) : Ev.Leads e (a.report r) := h.onScp Scp.raise_sound
theorem reports {rs : List Report} (h : Ev.Leads e a) : Ev.Leads e (a.reports rs) :=
  foldl (fun _ _ h => h.report) rs a h
theorem flush (h : Ev.Leads e a) : Ev.Leads e a.flush := h.onScp Scp.flush_sound

theorem reply {c : HostCommand} {st : Status} {rs : List Byte} (h : Ev.Leads e a) : Ev.Leads e (a.reply c st rs) := by
  have k : Ev.Leads e ((a.onScp (Scp.pushReply c.kind c.tag st rs)).onRcu fun r => { r with marker := some c.kind }) :=
    (h.onScp Scp.pushReply_sound).onRcu
  exact ⟨k.pending, k.now, k.hostTx, k.loopTx, fun s => { k.sound s with }⟩

theorem refuse {c : HostCommand} {st : Status} (h : Ev.Leads e a) : Ev.Leads e (a.refuse c st) := h.reply

theorem modeReport {c : ModeCause} {p : Mode} (h : Ev.Leads e a) : Ev.Leads e (a.modeReport c p) := h.report

theorem withRate {c : RateCause} {f : Ev → Ev} (h : Ev.Leads e (f a)) : Ev.Leads e (a.withRate c f) := by
  unfold Ev.withRate; dsimp only; split
  · exact h
  · exact h.report

/-! ### Orders -/

theorem send {u : Nat} {o : Order} {q : Requester} (h : Ev.Leads e a) : Ev.Leads e (a.send u o q) :=
  (h.onSli fun k => ⟨Table.rising_write _ _ _ k.1, k.2⟩).onLoopTx

theorem stop (h : Ev.Leads e a) : Ev.Leads e a.stop := (h.onSli fun k => ⟨rfl, k.2⟩).onLoopTx

theorem leaveReceive (h : Ev.Leads e a) : Ev.Leads e a.leaveReceive := h.onHsq

theorem sendBoom {r : BoomRequest} (h : Ev.Leads e a) : Ev.Leads e (a.sendBoom r) := h.send.leaveReceive

theorem askBoom {r : BoomRequest} (h : Ev.Leads e a) : Ev.Leads e (a.askBoom r) := by
  unfold Ev.askBoom; split
  · exact h.sendBoom
  · exact h.onSli

theorem sendWaiting (h : Ev.Leads e a) : Ev.Leads e a.sendWaiting := by
  unfold Ev.sendWaiting; split
  · exact h
  · split
    · exact h.onSli.sendBoom
    · exact h

theorem countStale (h : Ev.Leads e a) : Ev.Leads e a.countStale := h.onSli fun k => ⟨k.1, satUp_le _ k.2⟩

/-! ### Holds and wear counts -/

theorem raiseHold {r : Hold} {slot : Option Nat} (h : Ev.Leads e a) : Ev.Leads e (a.raiseHold r slot) := by
  unfold Ev.raiseHold; split
  · exact h.onRcu.onHsq.flush.modeReport
  · exact h.onRcu.onHsq.flush.modeReport
  · exact h.onRcu
  all_goals exact h

theorem dropHold {r : Hold} (h : Ev.Leads e a) : Ev.Leads e (a.dropHold r) := h.onRcu

theorem onAttr {k : Attr} {f : AttrRecord → AttrRecord} (h : Ev.Leads e a)
    (hf : (a.hmn.live.read k).sound → (f (a.hmn.live.read k)).sound) : Ev.Leads e (a.onAttr k f) :=
  h.onHmn fun s j => by
    refine ⟨?_, (s j).2⟩
    have hk := hf (s k).1
    have hj := (s j).1
    cases k <;> cases j <;> first | exact hk | exact hj

theorem crossEffect {k : Attr} (h : Ev.Leads e a) : Ev.Leads e (a.crossEffect k) := by
  unfold Ev.crossEffect; split <;> first | exact h.raiseHold | exact h

theorem uncrossEffect {k : Attr} (h : Ev.Leads e a) : Ev.Leads e (a.uncrossEffect k) := by
  unfold Ev.uncrossEffect; split <;> first | exact h.dropHold | exact h.promptSel | exact h

theorem evaluate {k : Attr} {c : HealthCause} (h : Ev.Leads e a) : Ev.Leads e (a.evaluate k c) := by
  unfold Ev.evaluate; dsimp only; split
  · exact (h.onAttr fun s => s).crossEffect.report
  · exact (h.onAttr fun s => s).uncrossEffect
  · exact h
  · exact h

theorem countWear {k : Attr} (h : Ev.Leads e a) : Ev.Leads e (a.countWear k) := by
  unfold Ev.countWear; split
  · next hv => exact (h.onAttr (by exact fun s => ⟨hv, s.2⟩)).evaluate
  · exact h

theorem saveHealth (h : Ev.Leads e a) : Ev.Leads e a.saveHealth :=
  h.onHmn fun s j => by
    refine ⟨(s j).1, ?_⟩
    have hj := (s j).1
    cases j <;> exact hj

theorem strand {b : Nat} (h : Ev.Leads e a) : Ev.Leads e (a.strand b) := h.onRcu.raiseHold.countWear

/-! ### The plan and the course -/

theorem noteChange {slot st : Nat} (h : Ev.Leads e a) : Ev.Leads e (a.noteChange slot st) := by
  unfold Ev.noteChange
  extract_lets e1
  have k : Ev.Leads e e1 := by
    unfold e1; split
    · exact h.promptSel
    · exact h
  split
  · exact k.promptRetest
  · exact k

theorem writePlan {slot : Nat} {en : Entry} (h : Ev.Leads e a) :
    Ev.Leads e (a.onPls fun p => { p with plan := Table.write p.plan slot en }) :=
  h.onPls fun k => ⟨k.1, k.2.1, k.2.2.1, k.2.2.2.1, k.2.2.2.2.1, k.2.2.2.2.2.1, Table.rising_write _ _ _ k.2.2.2.2.2.2⟩

theorem changeEntry {slot : Nat} {f : Entry → Entry} (h : Ev.Leads e a) : Ev.Leads e (a.changeEntry slot f) := by
  unfold Ev.changeEntry; split
  · exact h
  · exact h.writePlan.noteChange

theorem setLatch {c : Nat} (h : Ev.Leads e a) : Ev.Leads e (a.setLatch c) := by
  unfold Ev.setLatch; split
  · exact h
  · exact h.onPls

theorem refreshLookahead (h : Ev.Leads e a) : Ev.Leads e a.refreshLookahead := by
  unfold Ev.refreshLookahead; dsimp only; split
  · exact h.onRsl
  · split
    · exact h.onRsl.setLatch
    · exact h.onRsl

theorem finishCourse {c : Nat} (h : Ev.Leads e a) : Ev.Leads e (a.finishCourse c) :=
  withRate h.flush.report.onHsq

theorem refreshCourse {r : Refresh} (h : Ev.Leads e a) : Ev.Leads e (a.refreshCourse r) := by
  unfold Ev.refreshCourse
  extract_lets old new e1 changed e2 e3 e4
  have k1 : Ev.Leads e e1 := h.onRsl
  clear_value old new e1
  have k2 : Ev.Leads e e2 := by
    unfold e2; split
    · split
      · exact k1.finishCourse
      · exact k1
    · exact k1
  have k3 : Ev.Leads e e3 := by
    unfold e3; split
    · exact k2.setLatch
    · exact k2
  split
  · exact (k3.refreshLookahead.onHsq (by exact fun _ => Nat.zero_le _)).promptSel
  · exact k3.refreshLookahead

/-! ### The train -/

theorem onCarrier {b : Nat} {f : Carrier → Carrier} (h : Ev.Leads e a) : Ev.Leads e (a.onCarrier b f) := by
  unfold Ev.onCarrier; split
  · exact h
  · exact h.onBtc fun k => Table.rising_write _ _ _ k

theorem dropCarrier {b : Nat} (h : Ev.Leads e a) : Ev.Leads e (a.dropCarrier b) :=
  (h.onBtc (by exact fun k => Table.rising_strike _ _ k)).promptXfer.promptDrain.promptSel

theorem removeCarrier {b : Nat} (h : Ev.Leads e a) : Ev.Leads e (a.removeCarrier b) := by
  unfold Ev.removeCarrier; split
  · exact h
  · exact h.dropCarrier.changeEntry

theorem sentence {b : Nat} {r : Reason} (h : Ev.Leads e a) : Ev.Leads e (a.sentence b r) := by
  unfold Ev.sentence; split
  · exact h
  · dsimp only; split
    · exact h.onCarrier.promptXfer
    · exact h.onCarrier

theorem orphans {n : Nat} : ∀ {fallen : List Nat} {a : Ev}, Ev.Leads e a → Ev.Leads e (a.orphans n fallen) := by
  induction n with
  | zero => exact fun h => h
  | succ n ih =>
    intro fallen a h
    unfold Ev.orphans; split
    · exact ih h
    · split
      · exact ih h.sentence
      · exact ih h

theorem condemn {b : Nat} {r : Reason} (h : Ev.Leads e a) : Ev.Leads e (a.condemn b r) := by
  unfold Ev.condemn; split
  · exact h
  · split
    · exact h
    · dsimp only
      split
      · exact orphans h.sentence.onHsq
      · exact orphans h.sentence

theorem removeAndCascade {b : Nat} (h : Ev.Leads e a) : Ev.Leads e (a.removeAndCascade b) := by
  unfold Ev.removeAndCascade; split
  · exact h
  · exact (orphans h.removeCarrier).refreshCourse

theorem dropTrain (h : Ev.Leads e a) : Ev.Leads e a.dropTrain := by
  unfold Ev.dropTrain
  extract_lets held e1
  have k : Ev.Leads e e1 := foldl (fun _ _ k => k.removeCarrier) _ _ h
  clear_value held e1
  exact k.onRcu

end Ev.Leads

end Sys2Proof.Machine
end

