-- ==== Sys2Proof/Laws/Cycle.lean ====
section
/-! SUPPORT. What the operations of the Deflection Unit, the Head Sequencer, the Boom Train, the Release Selector, the
Station Loop and the timers keep, up to the end of an event. -/

namespace Sys2Proof.Machine.Ev.Leads

-- One proof at a time, so that the package as one text needs few threads.
set_option Elab.async false

variable {e a : Ev}

/-! ### The Deflection Unit -/

theorem calSlew (h : Ev.Leads e a) : Ev.Leads e a.calSlew := by
  unfold Ev.calSlew; split
  · split
    · exact h.send.leaveReceive.onDfu
    · exact h
  all_goals exact h

theorem startPoint {k : Nat} (h : Ev.Leads e a) : Ev.Leads e (a.startPoint k) := h.onDfu.calSlew

theorem failAttempt {k : Nat} {c : CalCause} (h : Ev.Leads e a) : Ev.Leads e (a.failAttempt k c) := by
  unfold Ev.failAttempt; dsimp only; split
  · exact h.onDfu.onDfu.calSlew
  · exact h.onDfu.onDfu.report

theorem recordPoint {k : Nat} {run : List Sample} (h : Ev.Leads e a) : Ev.Leads e (a.recordPoint k run) := by
  unfold Ev.recordPoint; dsimp only; split
  · exact h.onDfu.startPoint
  · exact h.onDfu.onDfu.report

theorem offerToDfu {p : Pose} (h : Ev.Leads e a) : Ev.Leads e (a.offerToDfu p) := by
  unfold Ev.offerToDfu; split
  · split
    · dsimp only; split
      · exact h.recordPoint
      · exact h.onDfu
    · exact h
  all_goals exact h

theorem failSampling {c : CalCause} (h : Ev.Leads e a) : Ev.Leads e (a.failSampling c) := by
  unfold Ev.failSampling; split
  · split
    · exact h.failAttempt
    · exact h
  all_goals exact h

theorem calSlewDone (h : Ev.Leads e a) : Ev.Leads e a.calSlewDone := by
  unfold Ev.calSlewDone; split
  · exact h.onDfu
  · exact h.onDfu.calSlew
  · exact h

theorem calSlewFault (h : Ev.Leads e a) : Ev.Leads e a.calSlewFault := by
  unfold Ev.calSlewFault; split
  · split
    · exact h.failAttempt
    all_goals exact h.onDfu
  · exact h.onDfu.calSlew
  · exact h

theorem calStart (h : Ev.Leads e a) : Ev.Leads e a.calStart := h.onDfu.startPoint

theorem calResume (h : Ev.Leads e a) : Ev.Leads e a.calResume := by
  unfold Ev.calResume; split
  · exact h.startPoint
  all_goals exact h

/-! ### The head -/

theorem enterHead {st : HeadState} (h : Ev.Leads e a) : Ev.Leads e (a.enterHead st) := h.onHsq

theorem sendHead {u : Nat} {o : Order} (h : Ev.Leads e a) : Ev.Leads e (a.sendHead u o) := by
  unfold Ev.sendHead; split
  · exact h.send.onHsq
  · exact h

theorem enterGripping (h : Ev.Leads e a) : Ev.Leads e a.enterGripping := h.enterHead.sendHead

theorem sendApproach (h : Ev.Leads e a) : Ev.Leads e a.sendApproach := by
  unfold Ev.sendApproach; split
  · exact h
  · split
    · exact h.sendHead.leaveReceive
    · exact h

theorem enterApproaching (h : Ev.Leads e a) : Ev.Leads e a.enterApproaching := h.enterHead.sendApproach
theorem sendRetract (h : Ev.Leads e a) : Ev.Leads e a.sendRetract := h.sendHead
theorem enterRetracting (h : Ev.Leads e a) : Ev.Leads e a.enterRetracting := h.enterHead.sendRetract
theorem enterReleasing (h : Ev.Leads e a) : Ev.Leads e a.enterReleasing := h.enterHead.sendHead
theorem enterSettling (h : Ev.Leads e a) : Ev.Leads e a.enterSettling := by
  unfold Ev.enterSettling; exact h.enterHead.onHsq
theorem enterLockHold (h : Ev.Leads e a) : Ev.Leads e a.enterLockHold := by
  unfold Ev.enterLockHold; exact h.enterHead.onHsq

theorem countGust (h : Ev.Leads e a) : Ev.Leads e a.countGust :=
  withRate (h.onHsq (by exact fun _ => Nat.min_le_left _ _))

theorem enterGustHold {f : Bool} (h : Ev.Leads e a) : Ev.Leads e (a.enterGustHold f) := by
  unfold Ev.enterGustHold; dsimp only; split
  · exact h.enterHead.onHsq.countGust
  · exact h.enterHead.onHsq

theorem binClaim (h : Ev.Leads e a) : Ev.Leads e a.binClaim := by
  unfold Ev.binClaim; split
  · split
    · exact h.sendHead
    · exact h.raiseHold
  · exact h

theorem enterDumping (h : Ev.Leads e a) : Ev.Leads e a.enterDumping := h.enterHead.onHsq.binClaim

theorem vacantAtReceive (h : Ev.Leads e a) : Ev.Leads e a.vacantAtReceive :=
  h.enterHead.onHsq.promptXfer.promptSel.promptDrain

theorem takeOver {c : Carrier} (h : Ev.Leads e a) : Ev.Leads e (a.takeOver c) := by
  unfold Ev.takeOver; dsimp only; split
  · exact h.onHsq.enterDumping
  · exact h.onHsq.enterGripping

theorem headCondemned (h : Ev.Leads e a) : Ev.Leads e a.headCondemned := by
  unfold Ev.headCondemned
  split <;> first
    | exact h
    | (split
       · exact h.onHsq
       · exact h.enterDumping)

theorem expire {b : Nat} (h : Ev.Leads e a) : Ev.Leads e (a.expire b) := by
  unfold Ev.expire; split
  · exact h
  · dsimp only
    have k : ∀ x, Ev.Leads e x → Ev.Leads e (if b = 9 then
        x.onHsq fun h => { h with carrier := h.carrier.map fun k => { k with expired := true } } else x) := by
      intro x hx; split
      · exact hx.onHsq
      · exact hx
    have k := k _ (h.onCarrier (b := b) (f := fun c => { c with expired := true, deadline := none }))
    split
    · exact k
    · split
      · next hb => rw [if_pos hb] at k; exact k.condemn.headCondemned
      · next hb => rw [if_neg hb] at k; exact k.condemn

theorem headJam (h : Ev.Leads e a) : Ev.Leads e a.headJam := h.onHsq.removeAndCascade.strand

theorem enterPressing (h : Ev.Leads e a) : Ev.Leads e a.enterPressing := h.onCarrier.enterHead.sendHead

theorem pressDecision (h : Ev.Leads e a) : Ev.Leads e a.pressDecision := by
  unfold Ev.pressDecision; split
  · exact h.enterPressing
  · split
    · exact h.enterHead
    · exact h

theorem retestPress (h : Ev.Leads e a) : Ev.Leads e a.retestPress := by
  unfold Ev.retestPress; split
  · exact h.enterPressing
  · exact h

theorem trim {o : Offset} (h : Ev.Leads e a) : Ev.Leads e (a.trim o) := h.onHsq.send

theorem settle {o : Offset} (h : Ev.Leads e a) : Ev.Leads e (a.settle o) := by
  unfold Ev.settle; split
  · exact h
  · split
    · exact h.enterGustHold
    · split
      · dsimp only; split
        · exact h.onHsq.pressDecision
        · exact h.onHsq
      · exact h.trim

theorem rideGust {o : Offset} (h : Ev.Leads e a) : Ev.Leads e (a.rideGust o) := by
  unfold Ev.rideGust; split
  · dsimp only; split
    · exact h.onHsq.enterSettling
    · exact h.onHsq
  · exact h.onHsq

theorem waitPress {o : Offset} (h : Ev.Leads e a) : Ev.Leads e (a.waitPress o) := by
  unfold Ev.waitPress; split
  · exact h
  · split
    · exact h.enterGustHold
    · split
      · exact h
      · exact h.enterSettling.trim

theorem measure {o : Offset} (h : Ev.Leads e a) : Ev.Leads e (a.measure o) := h.onHsq.enterReleasing

theorem offerToHead {p : Pose} (h : Ev.Leads e a) : Ev.Leads e (a.offerToHead p) := by
  unfold Ev.offerToHead; split
  · exact h
  · dsimp only
    split
    · split
      · exact h.settle
      · exact h
    · split
      · exact h.rideGust
      · exact h
    · split
      · exact h.waitPress
      · exact h
    · exact h.measure
    all_goals exact h

theorem headLockLost (h : Ev.Leads e a) : Ev.Leads e a.headLockLost := by
  unfold Ev.headLockLost
  split <;> first
    | exact h
    | exact h.onHsq
    | (split
       · exact h.enterLockHold
       · exact h)

theorem headLockGained (h : Ev.Leads e a) : Ev.Leads e a.headLockGained := by
  unfold Ev.headLockGained
  split <;> first
    | exact h
    | (split
       · exact h.enterSettling
       · exact h)

theorem settlePhase (h : Ev.Leads e a) : Ev.Leads e a.settlePhase := by
  unfold Ev.settlePhase; split
  · exact h.enterSettling
  · exact h.enterLockHold

theorem takeEnd (h : Ev.Leads e a) : Ev.Leads e a.takeEnd := by
  unfold Ev.takeEnd; split
  · exact h.enterDumping.countWear
  · exact h.enterApproaching.countWear

theorem slipEnd (h : Ev.Leads e a) : Ev.Leads e a.slipEnd := h.condemn.enterDumping

theorem approachEnd (h : Ev.Leads e a) : Ev.Leads e a.approachEnd := by
  unfold Ev.approachEnd; split
  · exact h.enterDumping
  · exact h.settlePhase

theorem trimEnd {f : Bool} (h : Ev.Leads e a) : Ev.Leads e (a.trimEnd f) := by
  unfold Ev.trimEnd; split
  · exact h
  · split
    · exact h.enterDumping
    · split
      · exact h.enterGustHold
      · exact h

theorem afterPress (h : Ev.Leads e a) : Ev.Leads e a.afterPress := by
  unfold Ev.afterPress; extract_lets i; split
  · exact h.enterHead.onHsq
  · exact h.enterReleasing

theorem pressCutoff (h : Ev.Leads e a) : Ev.Leads e a.pressCutoff := h.onHsq.afterPress.countWear

theorem openEnd (h : Ev.Leads e a) : Ev.Leads e a.openEnd := by
  unfold Ev.openEnd; split
  · exact h.enterRetracting
  · dsimp only
    split
    · exact ((h.onScp (by exact Scp.handOver_sound)).dropCarrier.changeEntry.onHsq).refreshCourse.raiseHold.enterRetracting
    · exact ((h.onScp (by exact Scp.handOver_sound)).dropCarrier.changeEntry.onHsq).refreshCourse.enterRetracting

theorem dumpEnd (h : Ev.Leads e a) : Ev.Leads e a.dumpEnd := by
  unfold Ev.dumpEnd; split
  · exact h.vacantAtReceive
  · next c _ =>
    extract_lets e1 e2 e3 e4
    have k2 : Ev.Leads e e2 := h.dropCarrier.onBtc.changeEntry
    have k3 : Ev.Leads e e3 := by
      unfold e3; split
      · exact k2
      · exact k2.reports
    exact (k3.refreshCourse.countWear.onHsq).vacantAtReceive

theorem headResume (h : Ev.Leads e a) : Ev.Leads e a.headResume := by
  unfold Ev.headResume
  split <;> (try split) <;> first
    | exact h
    | exact h.enterRetracting
    | exact h.sendHead
    | exact h.sendApproach
    | exact h.sendRetract
    | exact h.settlePhase
    | exact h.binClaim

/-! ### The train -/

theorem makeReady {b : Nat} (h : Ev.Leads e a) : Ev.Leads e (a.makeReady b) := h.onCarrier.promptXfer

theorem startWork {b : Nat} {c : Carrier} (h : Ev.Leads e a) : Ev.Leads e (a.startWork b c) := by
  unfold Ev.startWork; split
  · exact h.makeReady
  · split
    · exact h.onCarrier.send
    · exact h.onCarrier

theorem arrive {b : Nat} {c : Carrier} (h : Ev.Leads e a) : Ev.Leads e (a.arrive b c) := by
  unfold Ev.arrive; split
  · exact h.startWork
  · split
    · exact h.onCarrier.takeOver
    · exact h.makeReady

theorem resumeWork {b : Nat} (h : Ev.Leads e a) : Ev.Leads e (a.resumeWork b) := by
  unfold Ev.resumeWork; split
  · exact h
  · split
    · exact h.startWork
    · exact h

theorem transfer {b : Nat} (h : Ev.Leads e a) : Ev.Leads e (a.transfer b) := by
  unfold Ev.transfer; split
  · exact h.onCarrier.send
  · exact h

theorem runTransfers (h : Ev.Leads e a) : Ev.Leads e a.runTransfers :=
  foldl (f := fun e i => e.transfer (8 - i)) (fun _ _ k => k.transfer) (List.range 9) a h

theorem loadEnd (h : Ev.Leads e a) : Ev.Leads e a.loadEnd := h.makeReady.promptSel
theorem loadEmptyEnd {lane : Nat} (h : Ev.Leads e a) : Ev.Leads e (a.loadEmptyEnd lane) :=
  h.onPls.removeAndCascade.promptSel
theorem loadJam (h : Ev.Leads e a) : Ev.Leads e a.loadJam := h.removeAndCascade.strand.promptSel
theorem cutEnd (h : Ev.Leads e a) : Ev.Leads e a.cutEnd := h.makeReady.countWear
theorem cutFail (h : Ev.Leads e a) : Ev.Leads e a.cutFail := h.makeReady.condemn
theorem glueEnd (h : Ev.Leads e a) : Ev.Leads e a.glueEnd := h.makeReady.onCarrier
theorem glueFail (h : Ev.Leads e a) : Ev.Leads e a.glueFail := h.makeReady.condemn.countWear

theorem moveEnd {b : Nat} (h : Ev.Leads e a) : Ev.Leads e (a.moveEnd b) := by
  unfold Ev.moveEnd; split
  · exact h
  · next c _ =>
    have k : Ev.Leads e (a.onBtc fun t => { t with train := Table.write (Table.strike t.train b) (b + 1) c }).promptXfer :=
      (h.onBtc (by exact fun s => Table.rising_write _ _ _ (Table.rising_strike _ _ s))).promptXfer
    dsimp only
    split
    · exact k.promptSel.arrive
    · exact k.arrive

theorem moveJam {b : Nat} (h : Ev.Leads e a) : Ev.Leads e (a.moveJam b) := h.removeAndCascade.strand

/-! ### The end of an event -/

theorem starvedTest {cands : Table Entry} (h : Ev.Leads e a) : Ev.Leads e (a.starvedTest cands) := by
  unfold Ev.starvedTest; split
  · exact h
  · dsimp only; split
    · exact h.report.onRsl
    · exact h

theorem release {slot : Nat} {en : Entry} (h : Ev.Leads e a) : Ev.Leads e (a.release slot en) :=
  ((h.changeEntry.onPls.onBtc (by exact fun s => Table.rising_write _ _ _ s)).send.onRsl).refreshCourse

theorem stallTest {cands : Table Entry} (h : Ev.Leads e a) : Ev.Leads e (a.stallTest cands) := by
  unfold Ev.stallTest; split
  · exact h.report.onRsl
  · exact h

theorem selectRelease (h : Ev.Leads e a) : Ev.Leads e a.selectRelease := by
  unfold Ev.selectRelease; split
  · dsimp only; split
    · exact h.starvedTest.release
    · exact h.starvedTest.stallTest
  · exact h

theorem enterIdle {c : ModeCause} (h : Ev.Leads e a) : Ev.Leads e (a.enterIdle c) :=
  h.onRcu.flush.saveHealth.modeReport.calResume

theorem stationTest (h : Ev.Leads e a) : Ev.Leads e a.stationTest := by
  unfold Ev.stationTest; split
  · exact h.report.enterIdle
  · exact h

theorem runSelection (h : Ev.Leads e a) : Ev.Leads e a.runSelection := h.selectRelease.stationTest

theorem drainTest (h : Ev.Leads e a) : Ev.Leads e a.drainTest := by
  unfold Ev.drainTest; split
  · exact h.enterIdle
  · exact h

theorem whenDue {d : Bool} {f : Ev → Ev} (hf : ∀ x, Ev.Leads e x → Ev.Leads e (f x)) (h : Ev.Leads e a) :
    Ev.Leads e (a.whenDue d f) := by
  unfold Ev.whenDue; split
  · exact hf _ h
  · exact h

theorem finish (h : Ev.Leads e a) : Ev.Leads e a.finish :=
  (((h.whenDue fun _ => retestPress).whenDue fun _ => runTransfers).whenDue fun _ => runSelection).whenDue
    fun _ => drainTest

theorem entryReport {c : ModeCause} {p : Mode} (h : Ev.Leads e a) : Ev.Leads e (a.entryReport c p) := h.report

theorem modeEntered (h : Ev.Leads e a) : Ev.Leads e a.modeEntered :=
  h.resumeWork.resumeWork.headResume.promptXfer.promptSel.promptDrain

/-! ### Endings and timers -/

theorem deployEnd {x : Ending} (h : Ev.Leads e a) : Ev.Leads e (a.deployEnd x) := by
  unfold Ev.deployEnd; split
  · exact h.onRcu.entryReport.modeEntered
  all_goals exact h.enterIdle

theorem foldEnd {x : Ending} (h : Ev.Leads e a) : Ev.Leads e (a.foldEnd x) := by
  unfold Ev.foldEnd; split
  · exact h.onRcu.modeReport
  all_goals exact h.enterIdle

theorem headSlewEnd {x : Ending} (h : Ev.Leads e a) : Ev.Leads e (a.headSlewEnd x) := by
  unfold Ev.headSlewEnd
  split
  · split <;> first | exact h | exact h.approachEnd | exact h.vacantAtReceive
  all_goals exact h.headJam

theorem handOn {u : Nat} {o : Order} {q : Requester} {x : Ending} (h : Ev.Leads e a) :
    Ev.Leads e (a.handOn u o q x) := by
  unfold Ev.handOn
  split <;> first
    | with_reducible exact h.loadEnd | with_reducible exact h.loadEmptyEnd | with_reducible exact h.loadJam
    | with_reducible exact h.cutEnd | with_reducible exact h.cutFail | with_reducible exact h.glueEnd
    | with_reducible exact h.glueFail | with_reducible exact h.moveEnd | with_reducible exact h.moveJam
    | with_reducible exact h.deployEnd | with_reducible exact h.foldEnd | with_reducible exact h.trimEnd
    | with_reducible exact h.takeEnd | with_reducible exact h.slipEnd | with_reducible exact h.headJam
    | with_reducible exact h.openEnd | with_reducible exact h.afterPress | with_reducible exact h.pressCutoff
    | with_reducible exact h.dumpEnd
    | (split <;> first
        | with_reducible exact h.headSlewEnd
        | (split <;> first | with_reducible exact h.calSlewDone | with_reducible exact h.calSlewFault))

theorem endOrder {u : Nat} {r : InFlight} {x : Ending} (h : Ev.Leads e a) : Ev.Leads e (a.endOrder u r x) := by
  unfold Ev.endOrder
  have k : Ev.Leads e
      ((a.onSli fun l => { l with inFlight := Table.strike l.inFlight u }).handOn u r.order r.requester x) :=
    (h.onSli (by exact fun s => ⟨Table.rising_strike _ _ s.1, s.2⟩)).handOn
  dsimp only
  split
  · exact k.sendWaiting
  · exact k

theorem takeCompletion {u : Nat} {t r c : Byte} (h : Ev.Leads e a) : Ev.Leads e (a.takeCompletion u t r c) := by
  unfold Ev.takeCompletion; split
  · exact h.countStale
  · split
    · exact h.endOrder
    · exact h.countStale

theorem takeCompletionFrame {bs : List Byte} (h : Ev.Leads e a) : Ev.Leads e (a.takeCompletionFrame bs) := by
  unfold Ev.takeCompletionFrame; dsimp only; split
  · split
    · exact h.takeCompletion
    · exact h.countStale
  · exact h.countStale

theorem loopByte {b : Byte} (h : Ev.Leads e a) : Ev.Leads e (a.loopByte b) := by
  unfold Ev.loopByte; split
  · split
    · exact h.onSli
    · exact h
  · dsimp only
    split
    · split
      · exact h.onSli.takeCompletionFrame
      · exact h.onSli
    · split
      · exact h.onSli
      · exact h.onSli

theorem gustOut (h : Ev.Leads e a) : Ev.Leads e a.gustOut := by
  unfold Ev.gustOut; dsimp only; split
  · exact h.onHsq.condemn.enterDumping
  · exact h.onHsq

theorem lockHoldOut (h : Ev.Leads e a) : Ev.Leads e a.lockHoldOut := h.onHsq.raiseHold

theorem measuringOut (h : Ev.Leads e a) : Ev.Leads e a.measuringOut := by
  unfold Ev.measuringOut; dsimp only; split
  · exact h.onHsq.onHsq.enterReleasing
  · exact h.onHsq

theorem lockoutOut (h : Ev.Leads e a) : Ev.Leads e a.lockoutOut := h.onHsq.promptRetest

theorem pointOut (h : Ev.Leads e a) : Ev.Leads e a.pointOut := h.onDfu.failSampling

end Sys2Proof.Machine.Ev.Leads
end

