-- ==== Sys2Proof/Laws/Commands.lean ====
section
/-! SUPPORT. What the operations of the Tracker Receiver, the Site Command Port and the commands keep, and one lemma per
whole event. -/

namespace Sys2Proof.Machine

-- One proof at a time, so that the package as one text needs few threads.
set_option Elab.async false

/-! ### The Tracker Receiver -/

theorem Trk.discardByte_sound {b : Byte} {t : Trk} (h : t.sound) : (t.discardByte b).sound := by
  obtain ⟨h1, h2, h3, h4, h5, h6, h7, h8⟩ := h
  unfold Trk.discardByte
  split
  · split
    · next hr => exact ⟨h1, by dsimp only; omega, h3, h4, h5, h6, h7, h8⟩
    · exact ⟨h1, le_refl 2, h3, h4, h5, h6, h7, h8⟩
  · exact ⟨h1, Nat.zero_le _, h3, h4, h5, h6, h7, h8⟩

theorem Trk.badStart_sound {b : Byte} {t : Trk} (h : t.sound) : (t.badStart b).sound := by
  obtain ⟨h1, h2, h3, h4, h5, h6, h7, h8⟩ := h
  exact Trk.discardByte_sound ⟨Nat.zero_le _, Nat.zero_le _, h3, h4, h5, h6, h7, satUp_le _ h8⟩

theorem Trk.huntByte_sound {b : Byte} {t : Trk} (h : t.sound) : (t.huntByte b).sound := by
  obtain ⟨h1, h2, h3, h4, h5, h6, h7, h8⟩ := h
  unfold Trk.huntByte
  split
  · exact ⟨h1, h2, h3, h4, h5, h6, h7, h8⟩
  · split
    · exact ⟨by simp, h2, h3, h4, h5, h6, h7, h8⟩
    · split
      · exact ⟨by simp, h2, h3, h4, h5, h6, h7, h8⟩
      · exact Trk.badStart_sound ⟨h1, h2, h3, h4, h5, h6, h7, h8⟩

theorem Trk.complementedFrame_sound {c : List Byte} {b : Byte} {t : Trk} (h : t.sound) :
    (t.complementedFrame c b).sound := by
  obtain ⟨h1, h2, h3, h4, h5, h6, h7, h8⟩ := h
  unfold Trk.complementedFrame
  split
  · split
    · next hr => exact ⟨h1, h2, by dsimp only; omega, h4, h5, h6, h7, h8⟩
    · exact ⟨h1, h2, Nat.zero_le _, h4, h5, h6, h7, h8⟩
  · exact ⟨h1, h2, Nat.zero_le _, h4, h5, h6, satUp_le _ h7, h8⟩

theorem Trk.acquire_count {f : PoseFrame} {t : Trk} (h : t.acquired ≤ 7) : (t.acquire f).acquired ≤ 8 := by
  unfold Trk.acquire; dsimp only; split <;> omega

namespace Ev.Leads

variable {e a : Ev}

theorem offerFrame {f : PoseFrame} (h : Ev.Leads e a) : Ev.Leads e (a.offerFrame f) := h.offerToHead.offerToDfu

theorem gained {f : PoseFrame} (h : Ev.Leads e (a.onTrk fun t => { t with locked := true, windowCount := 0, window := some a.now })) :
    Ev.Leads e (a.gainLock f) := h.report.dropHold.headLockGained.offerFrame

theorem goodFrame {f : PoseFrame} (h : Ev.Leads e a) : Ev.Leads e (a.goodFrame f) := by
  unfold Ev.goodFrame
  split
  · next hl =>
    refine (h.onTrk ?_).offerFrame
    rintro ⟨h1, h2, h3, h4, h5, h6, h7, h8⟩
    refine ⟨h1, h2, h3, h4, h5, ?_, h7, h8⟩
    dsimp only; split
    · exact Nat.min_le_left _ _
    · exact h6
  · next hl =>
    have hf : a.trk.locked = false := by simpa using hl
    dsimp only
    split
    · refine gained ?_
      exact h.onTrk (f := fun t => { t.acquire f with locked := true, windowCount := 0, window := some a.now }) (by
        rintro ⟨h1, h2, h3, h4, h5, h6, h7, h8⟩
        exact ⟨h1, h2, h3, Trk.acquire_count (h5 hf), fun hx => by simp at hx, Nat.zero_le _, h7, h8⟩)
    · next hn =>
      refine h.onTrk ?_
      rintro ⟨h1, h2, h3, h4, h5, h6, h7, h8⟩
      have hn' : (a.trk.acquire f).acquired ≤ 7 := by
        have : ¬ 8 ≤ (a.trk.acquire f).acquired := hn
        omega
      exact ⟨h1, h2, h3, by omega, fun _ => hn', h6, h7, h8⟩

theorem badFrame (h : Ev.Leads e a) : Ev.Leads e a.badFrame := by
  refine h.onTrk ?_
  rintro ⟨h1, h2, h3, h4, h5, h6, h7, h8⟩
  split
  · exact ⟨h1, h2, h3, h4, h5, h6, h7, h8⟩
  · exact ⟨h1, h2, h3, Nat.zero_le _, fun _ => Nat.zero_le _, h6, h7, h8⟩

theorem trueFrame {c : List Byte} {b : Byte} (h : Ev.Leads e a) : Ev.Leads e (a.trueFrame c b) := by
  unfold Ev.trueFrame
  extract_lets e1 f
  have k : Ev.Leads e e1 := h.onTrk fun ⟨h1, h2, _, h4, h5, h6, h7, h8⟩ => ⟨h1, h2, Nat.zero_le _, h4, h5, h6, h7, h8⟩
  clear_value e1
  split
  · split
    · exact k.goodFrame
    · exact k.badFrame
  · refine (k.onTrk ?_).badFrame
    exact fun ⟨h1, h2, h3, h4, h5, h6, h7, h8⟩ => ⟨h1, h2, h3, h4, h5, h6, satUp_le _ h7, h8⟩

theorem closeFrame {f : List Byte} (h : Ev.Leads e a) : Ev.Leads e (a.closeFrame f) := by
  unfold Ev.closeFrame
  extract_lets c b e1
  have k : Ev.Leads e e1 := h.onTrk fun ⟨_, h2, h3, h4, h5, h6, h7, h8⟩ => ⟨Nat.zero_le _, h2, h3, h4, h5, h6, h7, h8⟩
  clear_value c b e1
  split
  · exact k.onTrk Trk.complementedFrame_sound
  · exact k.trueFrame

theorem collectByte {b : Byte} (h : Ev.Leads e a) : Ev.Leads e (a.collectByte b) := by
  unfold Ev.collectByte
  extract_lets f
  clear_value f
  split
  · exact h.onTrk Trk.badStart_sound
  · split
    · refine h.onTrk ?_
      exact fun ⟨_, h2, h3, h4, h5, h6, h7, h8⟩ => ⟨by dsimp only; omega, h2, h3, h4, h5, h6, h7, h8⟩
    · exact h.closeFrame

theorem trackerByte {b : Byte} (h : Ev.Leads e a) : Ev.Leads e (a.trackerByte b) := by
  unfold Ev.trackerByte
  extract_lets d
  split
  · exact h.onTrk Trk.huntByte_sound
  · exact h.collectByte
  · exact h.onTrk Trk.discardByte_sound

theorem loseLock (h : Ev.Leads e a) : Ev.Leads e a.loseLock := by
  unfold Ev.loseLock
  extract_lets r e1
  have k : Ev.Leads e e1 := h.onTrk fun ⟨h1, h2, h3, _, _, h6, h7, h8⟩ =>
    ⟨h1, h2, h3, Nat.zero_le _, fun _ => Nat.zero_le _, h6, h7, h8⟩
  clear_value r e1
  exact k.report.countWear.headLockLost.failSampling

theorem windowOut (h : Ev.Leads e a) : Ev.Leads e a.windowOut := by
  unfold Ev.windowOut; split
  · refine h.onTrk ?_
    exact fun ⟨h1, h2, h3, h4, h5, _, h7, h8⟩ => ⟨h1, h2, h3, h4, h5, Nat.zero_le _, h7, h8⟩
  · exact h.loseLock

end Ev.Leads

/-! ### The Site Command Port -/

theorem Scp.frameError_sound {p : Scp} (h : p.sound) : p.frameError.sound :=
  ⟨h.1, h.2.1, h.2.2.1, satUp_le _ h.2.2.2.1, h.2.2.2.2⟩

theorem Scp.offer_sound {p : Scp} {c : HostCommand} (h : p.sound) : (p.offer c).sound := by
  unfold Scp.offer; split
  · next hc =>
    simp only [Config.commandPlaces] at hc
    exact ⟨by simp; omega, h.2⟩
  · split
    · exact Scp.pushReply_sound h
    · exact ⟨h.1, h.2.1, h.2.2.1, satUp_le _ h.2.2.2.1, h.2.2.2.2⟩

theorem Scp.closeFrame_sound {p : Scp} {bs : List Byte} (h : p.sound) : (p.closeFrame bs).sound := by
  unfold Scp.closeFrame
  extract_lets n c q
  have k : q.sound := h
  clear_value q
  split
  · split
    · exact Scp.offer_sound k
    · exact k
  · exact Scp.frameError_sound k

theorem Scp.takeByte_sound {p : Scp} {n : Nat} {b : Byte} (h : p.sound) : (p.takeByte n b).sound := by
  unfold Scp.takeByte
  extract_lets bs q
  have k : q.sound := h
  have hq : q.rx = p.rx := rfl
  clear_value q
  split
  · split
    · exact k
    · exact k
  · split
    · exact k
    · split
      · exact k
      · exact Scp.frameError_sound k
  · split
    · exact k
    · exact k
  · split
    · exact k
    · exact Scp.closeFrame_sound k

theorem Scp.hostByte_sound {p : Scp} {n : Nat} {b : Byte} (h : p.sound) : (p.hostByte n b).sound := by
  unfold Scp.hostByte; split
  · exact Scp.takeByte_sound (Scp.frameError_sound h)
  · exact Scp.takeByte_sound h

theorem ConfigItems.set_sound {c t : ConfigItems} {item v : Nat} (h : c.sound) (ht : c.set item v = some t) :
    t.sound := by
  obtain ⟨h1, h2, h3, h4, h5, h6, h7, h8, h9, h10, h11, h12, h13⟩ := h
  unfold ConfigItems.set at ht
  extract_lets ranged at ht
  split at ht
  case h_1 => cases hd : Dir.ofCode v <;> simp [hd] at ht; subst ht; exact ⟨h1, h2, h3, h4, h5, h6, h7, h8, h9, h10, h11, h12, h13⟩
  case h_2 => cases hd : switchOf v <;> simp [hd] at ht; subst ht; exact ⟨h1, h2, h3, h4, h5, h6, h7, h8, h9, h10, h11, h12, h13⟩
  case h_9 => cases hd : RateSetting.ofCode v <;> simp [hd] at ht; subst ht; exact ⟨h1, h2, h3, h4, h5, h6, h7, h8, h9, h10, h11, h12, h13⟩
  case h_11 => cases hd : switchOf v <;> simp [hd] at ht; subst ht; exact ⟨h1, h2, h3, h4, h5, h6, h7, h8, h9, h10, h11, h12, h13⟩
  case h_10 =>
    split at ht
    · next hv =>
      simp only [Option.some.injEq] at ht; subst ht
      exact ⟨h1, h2, h3, h4, h5, h6, h7, h8, h9, h10, h11, h12, List.contains_iff_mem.1 hv⟩
    · simp at ht
  case h_12 => simp at ht
  all_goals
    simp only [ranged] at ht
    split at ht
    · next hv =>
      simp only [Option.some.injEq] at ht; subst ht
      unfold ConfigItems.sound
      refine ⟨?_, ?_, ?_, ?_, ?_, ?_, ?_, ?_, ?_, ?_, ?_, ?_, h13⟩ <;> first | assumption | exact hv.1 | exact hv.2
    · simp at ht

theorem ConfigItems.defaults_sound : ConfigItems.defaults.sound := by unfold ConfigItems.sound ConfigItems.defaults; decide

theorem ConfigItems.softReset_sound {c : ConfigItems} (h : c.sound) : c.softReset.sound := by
  unfold ConfigItems.softReset; split
  · exact h
  · exact ConfigItems.defaults_sound

/-! ### The Plan Store -/

theorem Pls.writeClasses_sound (rs : List ClassRecord) :
    ∀ (i n : Nat) (p : Pls), p.sound → (p.writeClasses rs i n).1.sound := by
  induction rs with
  | nil => exact fun _ _ _ h => h
  | cons r rs ih =>
    intro i n p h
    unfold Pls.writeClasses
    dsimp only
    split
    · exact ih _ _ _ h
    · exact h

theorem Pls.retireRing_sound (n : Nat) : ∀ (p : Pls), p.sound → (p.retireRing n).1.sound := by
  induction n with
  | zero => exact fun _ h => h
  | succ n ih =>
    intro p h
    unfold Pls.retireRing
    split
    · exact h
    · extract_lets slot
      split
      · exact h
      · split
        · obtain ⟨h1, h2, h3, h4, h5, h6, h7⟩ := h
          refine ih _ ⟨h1, h2, Nat.mod_lt _ (by omega), by dsimp only; omega, h5, h6, Table.rising_strike _ _ h7⟩
        · exact h

theorem Pls.retire_sound {p : Pls} {st : Nat} (h : p.sound) : (p.retire st).1.sound := by
  unfold Pls.retire
  extract_lets first w vac
  have k : w.1.sound := Pls.retireRing_sound _ _ ⟨h.1, h.2.1, h.2.2.1, h.2.2.2.1, h.2.2.2.2.1, h.2.2.2.2.2.1,
    Table.rising_filter _ _ h.2.2.2.2.2.2⟩
  clear_value w vac
  exact ⟨k.1, k.2.1, k.2.2.1, k.2.2.2.1, k.2.2.2.2.1, k.2.2.2.2.2.1, Table.rising_map _ _ (fun _ => rfl) k.2.2.2.2.2.2⟩

theorem MarkOp.mark_fst (m : MarkOp) (p : Nat × Entry) : (m.mark p).1 = p.1 := by
  unfold MarkOp.mark; split <;> rfl

theorem waiveEntry_fst (st : Nat) (p : Nat × Entry) : (waiveEntry st p).1 = p.1 := by
  unfold waiveEntry; split <;> rfl

theorem Pls.map_sound {p : Pls} {f : Nat × Entry → Nat × Entry} (hf : ∀ q, (f q).1 = q.1) (h : p.sound) :
    ({ p with plan := p.plan.map f } : Pls).sound :=
  ⟨h.1, h.2.1, h.2.2.1, h.2.2.2.1, h.2.2.2.2.1, h.2.2.2.2.2.1, Table.rising_map _ _ hf h.2.2.2.2.2.2⟩

@[simp] theorem Ev.noteChange_pls (slot st : Nat) (e : Ev) : (e.noteChange slot st).pls = e.pls := by
  unfold Ev.noteChange; dsimp only; split <;> split <;> rfl

theorem Ev.writeEntry_ring (slot : Nat) (f : EntryFields) (e : Ev) :
    (e.writeEntry slot f).pls.ringCount = e.pls.ringCount ∧ (e.writeEntry slot f).pls.run = e.pls.run := by
  unfold Ev.writeEntry; dsimp only; split
  · unfold Ev.report; simp
  · simp

namespace Ev.Leads

variable {e a : Ev}

theorem hostByte {b : Byte} (h : Ev.Leads e a) : Ev.Leads e (a.hostByte b) := h.onScp Scp.hostByte_sound

theorem messageSent (h : Ev.Leads e a) : Ev.Leads e a.messageSent := by
  unfold Ev.messageSent; split
  · exact h
  · next m rest hm =>
    refine (h.onScp ?_).onHostTx
    rintro ⟨h1, h2, h3, h4⟩
    have k2 := h2
    have k3 := h3
    unfold Scp.reportCount at k3
    rw [hm] at k2 k3
    simp only [List.length_cons] at k2
    refine ⟨h1, by dsimp only; omega, ?_, h4⟩
    unfold Scp.reportCount
    rw [List.filter_cons] at k3
    split at k3
    · simp only [List.length_cons] at k3; dsimp only; omega
    · exact k3

theorem take {run : Ev → Ev} (hr : ∀ x, Ev.Leads e x → Ev.Leads e (run x)) (h : Ev.Leads e a) :
    Ev.Leads e (a.take run) := by
  have k : Ev.Leads e (a.onScp fun p => { p with commands := p.commands.tail }) :=
    h.onScp fun s => ⟨by have := s.1; simp; omega, s.2⟩
  exact hr _ ⟨k.pending, k.now, k.hostTx, k.loopTx, fun s => { k.sound s with }⟩

/-! ### The commands -/

theorem runPart {c : HostCommand} (h : Ev.Leads e a) : Ev.Leads e (a.runPart c) := by
  unfold Ev.runPart; split
  · exact h.refuse
  · split
    · exact h.refuse
    · extract_lets l n t st
      split
      · next hs =>
        refine (h.onPls ?_).reply
        unfold st Pls.partStatus at hs
        split at hs
        · simp at hs
        · split at hs
          · simp at hs
          · split at hs
            · simp at hs
            · next h1 h2 h3 =>
              rintro ⟨-, -, -, -, k5, k6, k7⟩
              exact ⟨by dsimp only; omega, by dsimp only; omega, by dsimp only; omega, by dsimp only; omega, k5, k6, k7⟩
      · exact h.refuse

theorem runCls {c : HostCommand} (h : Ev.Leads e a) : Ev.Leads e (a.runCls c) := by
  unfold Ev.runCls; split
  · exact h.refuse
  · split
    · exact h.reply
    · dsimp only; split
      · exact h.reply
      · exact (h.onPls (Pls.writeClasses_sound _ _ _ _)).reply

theorem runLane {c : HostCommand} (h : Ev.Leads e a) : Ev.Leads e (a.runLane c) := by
  unfold Ev.runLane; split
  · exact h.refuse
  · split
    · exact h.refuse
    · dsimp only; split
      · exact h.refuse
      · exact h.onPls.onRsl.promptSel.reply

theorem runCeil {c : HostCommand} (h : Ev.Leads e a) : Ev.Leads e (a.runCeil c) := by
  unfold Ev.runCeil; split
  · exact h.refuse
  · split
    · exact h.refuse
    · split
      · unfold Ev.runCeilSetForm; dsimp only; split
        · exact h.refuse
        · split
          · exact h.refuse
          · next hv =>
            simp only [Config.nativeCeiling] at hv
            refine (h.onPls ?_).reply
            rintro ⟨k1, k2, k3, k4, k5, k6, k7⟩
            refine ⟨k1, k2, k3, k4, by dsimp only; omega, ?_, k7⟩
            dsimp only; split
            · simp; omega
            · simp
      · unfold Ev.runCeilLockForm; split
        · exact h.onPls.reply
        · exact h.refuse

theorem writeEntry {slot : Nat} {f : EntryFields} (h : Ev.Leads e a) : Ev.Leads e (a.writeEntry slot f) := by
  unfold Ev.writeEntry; dsimp only; split
  · exact h.writePlan.noteChange.report
  · exact h.writePlan.noteChange

theorem appendEntries (fs : List EntryFields) : ∀ {n : Nat} {a : Ev}, Ev.Leads e a →
    a.pls.ringCount + fs.length ≤ a.pls.run → Ev.Leads e (a.appendEntries fs n).1 := by
  induction fs with
  | nil => exact fun h _ => h
  | cons f fs ih =>
    intro n a h hr
    simp only [List.length_cons] at hr
    unfold Ev.appendEntries
    extract_lets slot st
    split
    · obtain ⟨w1, w2⟩ := a.writeEntry_ring slot f
      refine ih (h.writeEntry.onPls ?_) ?_
      · rintro ⟨k1, k2, k3, k4, k5, k6, k7⟩
        refine ⟨k1, k2, k3, ?_, k5, k6, k7⟩
        show (a.writeEntry slot f).pls.ringCount + 1 ≤ (a.writeEntry slot f).pls.run
        omega
      · show (a.writeEntry slot f).pls.ringCount + 1 + fs.length ≤ (a.writeEntry slot f).pls.run
        omega
    · exact h

theorem runPap {c : HostCommand} (h : Ev.Leads e a) : Ev.Leads e (a.runPap c) := by
  unfold Ev.runPap; split
  · exact h.refuse
  · dsimp only; split
    · exact h.reply
    · next hf => exact (appendEntries _ h (by omega)).refreshCourse.reply

theorem runPld {c : HostCommand} (h : Ev.Leads e a) : Ev.Leads e (a.runPld c) := by
  unfold Ev.runPld; split
  · exact h.refuse
  · split
    · exact h.refuse
    · dsimp only; split
      · exact h.writeEntry.refreshCourse.reply
      · exact h.refuse

theorem runPrd {c : HostCommand} (h : Ev.Leads e a) : Ev.Leads e (a.runPrd c) := by
  unfold Ev.runPrd; split
  · exact h.refuse
  · dsimp only; split
    · exact h.refuse
    · exact h.reply

theorem applyMark {m : MarkOp} (h : Ev.Leads e a) : Ev.Leads e (a.applyMark m) := by
  unfold Ev.applyMark
  extract_lets plan sk e1 e2 e3
  have k1 : Ev.Leads e e1 := h.onPls (Pls.map_sound m.mark_fst)
  clear_value e1
  have k2 : Ev.Leads e e2 := by
    unfold e2; split
    · exact k1.promptSel
    · exact k1
  clear_value e2
  have k3 : ∀ (ps : Table Entry) (x : Ev), Ev.Leads e x → Ev.Leads e (x.noteSkips ps) :=
    foldl (f := fun (e : Ev) (p : Nat × Entry) => e.noteChange p.1 p.2.station) (fun _ _ k => k.noteChange)
  exact (k3 _ _ k2).reports.refreshCourse

theorem runMark {c : HostCommand} (h : Ev.Leads e a) : Ev.Leads e (a.runMark c) := by
  unfold Ev.runMark; dsimp only; split
  · exact h.refuse
  · split
    · exact h.refuse
    · split
      · exact h.refuse
      · split
        · exact h.refuse
        · exact h.applyMark.reply

theorem runRearm {c : HostCommand} (h : Ev.Leads e a) : Ev.Leads e (a.runRearm c) := by
  unfold Ev.runRearm; split
  · exact h.refuse
  · split
    · exact h.refuse
    · dsimp only; split
      · exact h.refuse
      · split
        · exact h.refuse
        · split
          · exact h.changeEntry.refreshCourse.promptSel.reply
          · exact h.refuse

theorem advance {c : HostCommand} (hs : byteAt c.payload 0 ≤ 63) (h : Ev.Leads e a) : Ev.Leads e (a.advance c) := by
  unfold Ev.advance
  extract_lets p old waived e1 e2 w src e3 e4 e5
  have k1 : Ev.Leads e e1 := h.onPls (Pls.map_sound (waiveEntry_fst old))
  clear_value e1
  have k2 : Ev.Leads e e2 := k1.reports
  clear_value e2
  have k3 : Ev.Leads e e3 := k2.onPls fun s => by
    have k := Pls.retire_sound (st := old) s
    exact k
  clear_value e3
  have k4 : Ev.Leads e e4 := k3.onRcu fun _ => hs
  clear_value e4
  have k5 : Ev.Leads e e5 := withRate k4.refreshCourse.onHsq
  exact k5.reply

theorem runAdv {c : HostCommand} (h : Ev.Leads e a) : Ev.Leads e (a.runAdv c) := by
  unfold Ev.runAdv; split
  · exact h.refuse
  · split
    · exact h.refuse
    · split
      · exact h.refuse
      · next hs =>
        dsimp only; split
        · exact h.reply
        · exact h.advance (by omega)

theorem runGo {c : HostCommand} (h : Ev.Leads e a) : Ev.Leads e (a.runGo c) := by
  unfold Ev.runGo; split
  · split
    · exact h.reply
    · unfold Ev.goIdle; dsimp only; split
      · exact h.refuse
      · split
        · exact h.reply
        · exact h.onRcu.onDfu.askBoom.reply
  · exact h.reply
  · exact h.reply
  · unfold Ev.goHolding; split
    · exact h.reply
    · exact h.onRcu.entryReport.reply.modeEntered
  all_goals exact h.refuse

theorem runHalt {c : HostCommand} (h : Ev.Leads e a) : Ev.Leads e (a.runHalt c) := by
  unfold Ev.runHalt; split
  · exact h.onRcu.flush.modeReport.reply.promptSel.promptDrain
  · exact h.onRcu.reply
  all_goals exact h.reply

theorem abortRun (h : Ev.Leads e a) : Ev.Leads e a.abortRun := by
  unfold Ev.abortRun
  extract_lets previous e1 e2
  have k0 : Ev.Leads e a.flush.stop.dropTrain := h.flush.stop.dropTrain
  have k1 : Ev.Leads e e1 := by
    unfold e1
    generalize a.flush.stop.dropTrain = x at k0
    exact k0.onHsq
  clear_value e1
  have k2 : Ev.Leads e e2 := k1.refreshCourse
  clear_value e2
  exact k2.onRcu.modeReport

theorem runAbort {c : HostCommand} (h : Ev.Leads e a) : Ev.Leads e (a.runAbort c) := by
  unfold Ev.runAbort; split
  · exact h.abortRun.reply
  · exact h.abortRun.reply
  · exact h.abortRun.reply
  all_goals exact h.reply

theorem clearBerths {bs : List Nat} (h : Ev.Leads e a) : Ev.Leads e (a.clearBerths bs) := by
  unfold Ev.clearBerths
  extract_lets e1 e2
  have k1 : Ev.Leads e e1 := by
    unfold e1; split
    · exact h.promptSel
    · exact h
  clear_value e1
  have k2 : Ev.Leads e e2 := k1.onRcu
  clear_value e2
  split
  · split
    · exact k2.enterIdle
    · exact k2.dropHold
  · exact k2

theorem runClear {c : HostCommand} (h : Ev.Leads e a) : Ev.Leads e (a.runClear c) := by
  unfold Ev.runClear; split
  · exact h.refuse
  · split
    · exact h.refuse
    · extract_lets bs cl
      clear_value bs cl
      split
      · exact h.refuse
      · split
        · exact h.refuse
        · exact h.clearBerths.reply

theorem runAccept {c : HostCommand} (h : Ev.Leads e a) : Ev.Leads e (a.runAccept c) := by
  unfold Ev.runAccept; split
  · exact h.refuse
  · split
    · exact h.refuse
    · extract_lets slot e1 e2
      split
      · exact h.refuse
      · split
        · exact h.refuse
        · have k1 : Ev.Leads e e1 := h.onRcu
          clear_value e1
          have k2 : Ev.Leads e e2 := by
            unfold e2; split
            · exact k1.dropHold
            · exact k1
          exact k2.reply

theorem runStow {c : HostCommand} (h : Ev.Leads e a) : Ev.Leads e (a.runStow c) := by
  unfold Ev.runStow; split
  · exact h.refuse
  · exact h.saveHealth.onDfu.onHsq.askBoom.onRcu.modeReport.reply

theorem runBin {c : HostCommand} (h : Ev.Leads e a) : Ev.Leads e (a.runBin c) := by
  unfold Ev.runBin; split
  · exact h.refuse
  · exact h.onBtc.dropHold.reply

theorem runCal {c : HostCommand} (h : Ev.Leads e a) : Ev.Leads e (a.runCal c) := by
  unfold Ev.runCal; split
  · exact h.refuse
  · split
    · exact h.refuse
    · split
      · unfold Ev.runCalStart
        split <;> first | exact h.refuse | exact h.reply.calStart
      · split
        · exact h.onDfu.reply
        · exact h.refuse

theorem resetRun (h : Ev.Leads e a) : Ev.Leads e a.resetRun := by
  unfold Ev.resetRun
  extract_lets e1 e2
  have k0 : Ev.Leads e a.stop.dropTrain := h.stop.dropTrain
  have k1 : Ev.Leads e e1 := by
    unfold e1
    generalize a.stop.dropTrain = x at k0
    exact k0.onHsq.onDfu
  clear_value e1
  have k2 : Ev.Leads e e2 := k1.onRcu
  clear_value e2
  refine (withRate (k2.onScp ?_)).refreshCourse
  rintro ⟨h1, h2, h3, h4, h5, h6⟩
  exact ⟨h1, h2, h3, h4, h5, ConfigItems.softReset_sound h6⟩

theorem resetMode {p : Mode} (h : Ev.Leads e a) : Ev.Leads e (a.resetMode p) := by
  unfold Ev.resetMode
  extract_lets e1
  have k1 : Ev.Leads e e1 := h.onRcu.modeReport
  clear_value e1
  split
  · exact k1.saveHealth.calResume
  · exact k1

theorem runRst {c : HostCommand} (h : Ev.Leads e a) : Ev.Leads e (a.runRst c) := by
  unfold Ev.runRst
  extract_lets p e1
  have k1 : Ev.Leads e e1 := h.flush.reply
  clear_value e1
  exact (k1.onScp fun s => ⟨Nat.zero_le _, s.2⟩).resetRun.resetMode

theorem runIdq {c : HostCommand} (h : Ev.Leads e a) : Ev.Leads e (a.runIdq c) := h.reply

theorem zeroCounters (h : Ev.Leads e a) : Ev.Leads e a.zeroCounters := by
  unfold Ev.zeroCounters
  refine ((h.onScp ?_).onTrk ?_).onSli ?_
  · exact fun ⟨h1, h2, h3, _, _, h6⟩ => ⟨h1, h2, h3, Nat.zero_le _, Nat.zero_le _, h6⟩
  · exact fun ⟨h1, h2, h3, h4, h5, h6, _, _⟩ => ⟨h1, h2, h3, h4, h5, h6, Nat.zero_le _, Nat.zero_le _⟩
  · exact fun s => ⟨s.1, Nat.zero_le _⟩

theorem runStq {c : HostCommand} (h : Ev.Leads e a) : Ev.Leads e (a.runStq c) := h.reply.zeroCounters
theorem runCfq {c : HostCommand} (h : Ev.Leads e a) : Ev.Leads e (a.runCfq c) := h.reply
theorem runCeilq {c : HostCommand} (h : Ev.Leads e a) : Ev.Leads e (a.runCeilq c) := h.reply

theorem runCfg {c : HostCommand} (h : Ev.Leads e a) : Ev.Leads e (a.runCfg c) := by
  unfold Ev.runCfg; split
  · exact h.refuse
  · split
    · exact h.refuse
    · dsimp only; split
      · next items hi =>
        refine (withRate (h.onScp ?_)).reply
        exact fun ⟨h1, h2, h3, h4, h5, h6⟩ => ⟨h1, h2, h3, h4, h5, ConfigItems.set_sound h6 hi⟩
      · split
        · refine (h.onScp ?_).refuse
          rintro ⟨h1, h2, h3, h4, h5, h6⟩
          obtain ⟨g1, g2, g3, g4, g5, g6, g7, g8, g9, g10, g11, g12, -⟩ := h6
          exact ⟨h1, h2, h3, h4, h5, g1, g2, g3, g4, g5, g6, g7, g8, g9, g10, g11, g12, by simp⟩
        · exact h.refuse

theorem runThresh {c : HostCommand} (h : Ev.Leads e a) : Ev.Leads e (a.runThresh c) := by
  unfold Ev.runThresh; dsimp only; split
  · exact h.refuse
  · split
    · exact h.refuse
    · next hv =>
      refine Ev.Leads.reply (saveHealth (evaluate (h.onAttr ?_)))
      exact fun s => ⟨s.1, by dsimp only; omega⟩

theorem runWearReset {c : HostCommand} (h : Ev.Leads e a) : Ev.Leads e (a.runWearReset c) := by
  unfold Ev.runWearReset; split
  · exact h.refuse
  · next k _ =>
    extract_lets was e1 e2
    have k1 : Ev.Leads e e1 := h.onAttr fun s => ⟨Nat.zero_le _, s.2⟩
    clear_value e1
    have k2 : Ev.Leads e e2 := by
      unfold e2; split
      · exact k1.uncrossEffect.saveHealth
      · exact k1.saveHealth
    exact k2.reply

theorem runHlth {c : HostCommand} (h : Ev.Leads e a) : Ev.Leads e (a.runHlth c) := by
  unfold Ev.runHlth; extract_lets w sh; clear_value w
  split
  · exact h.refuse
  · split
    · split
      · exact h.refuse
      · exact h.reply
    · split
      · exact h.refuse
      · exact h.reply
    · split
      · exact h.refuse
      · split
        · exact h.refuse
        · exact h.runThresh
    · split
      · exact h.refuse
      · split
        · exact h.refuse
        · exact h.runWearReset
    · exact h.refuse

theorem runCommand {c : HostCommand} (h : Ev.Leads e a) : Ev.Leads e (a.runCommand c) := by
  unfold Ev.runCommand
  split <;> first
    | with_reducible exact h.runIdq | with_reducible exact h.runStq | with_reducible exact h.runCfq
    | with_reducible exact h.runCfg | with_reducible exact h.runRst | with_reducible exact h.runPart
    | with_reducible exact h.runCls | with_reducible exact h.runLane | with_reducible exact h.runCeilq
    | with_reducible exact h.runCeil | with_reducible exact h.runPap | with_reducible exact h.runPld
    | with_reducible exact h.runPrd | with_reducible exact h.runMark | with_reducible exact h.runRearm
    | with_reducible exact h.runAdv | with_reducible exact h.runGo | with_reducible exact h.runHalt
    | with_reducible exact h.runAbort | with_reducible exact h.runClear | with_reducible exact h.runAccept
    | with_reducible exact h.runStow | with_reducible exact h.runBin | with_reducible exact h.runCal
    | with_reducible exact h.runHlth | with_reducible exact h.refuse

theorem evaluateLoaded (h : Ev.Leads e a) : Ev.Leads e a.evaluateLoaded :=
  foldl (f := fun e a => e.evaluate a .load) (fun _ _ k => k.evaluate) Attr.all a h

end Ev.Leads

/-! ### Whole events -/

/-- What one event, or several, make of a state. -/
abbrev State.Leads (s t : State) : Prop := Ev.Leads (Ev.start s) (Ev.start t)

theorem State.Leads.of_ev {s : State} {t : Ev} (h : Ev.Leads (Ev.start s) t) : s.Leads t.toState :=
  ⟨h.pending, h.now, h.hostTx, h.loopTx, h.sound⟩

theorem State.Leads.refl (s : State) : s.Leads s := Ev.Leads.refl _

theorem event_leads {f : Ev → Ev} (s : State) (h : ∀ e a, Ev.Leads e a → Ev.Leads e (f a)) : s.Leads (event f s) :=
  State.Leads.of_ev (h _ _ (Ev.Leads.refl _)).finish

theorem takeHost_leads {c : HostCommand} {run : Ev → Ev} (s : State)
    (h : ∀ e a, Ev.Leads e a → Ev.Leads e (run a)) : s.Leads (takeHost c run s) := by
  unfold takeHost; split
  · exact event_leads s fun e a k => k.take (h e)
  · split
    · exact State.Leads.refl s
    · exact event_leads s fun e a k => k.onScp Scp.offer_sound

theorem completion_leads (u : Nat) (t r c : Byte) (s : State) : s.Leads (completion u t r c s) :=
  event_leads s fun _ _ k => k.takeCompletion

theorem fireAt_leads {m : Option Nat} {f : Ev → Ev} (s : State) (h : ∀ e a, Ev.Leads e a → Ev.Leads e (f a)) :
    s.Leads (fireAt m f s) := by
  unfold fireAt; split
  · exact State.Leads.refl s
  · exact event_leads s fun e a k => h e _ k.until'

theorem orderTimesOut_leads (u : Nat) (s : State) : s.Leads (orderTimesOut u s) := by
  unfold orderTimesOut; split
  · exact State.Leads.refl s
  · split
    · exact State.Leads.refl s
    · exact event_leads s fun e a k => k.until'.endOrder

theorem pressLimitEnds_leads (s : State) : s.Leads (pressLimitEnds s) := by
  unfold pressLimitEnds; split
  · exact State.Leads.refl s
  · split
    · exact State.Leads.refl s
    · exact event_leads s fun e a k => k.until'.onLoopTx.endOrder

theorem foldl_leads {f : State → Byte → State} (h : ∀ (s : State) (b : Byte), s.Leads (f s b)) (bs : List Byte) :
    ∀ s : State, s.Leads (bs.foldl f s) := by
  induction bs with
  | nil => exact State.Leads.refl
  | cons b bs ih => exact fun s => (h s b).trans (ih _)

theorem hostBytes_leads (bs : List Byte) (s : State) : s.Leads (hostBytes bs s) :=
  foldl_leads (fun s _ => event_leads s fun _ _ k => k.hostByte) bs s

theorem waitGap_leads (s : State) : s.Leads (waitGap s) := by
  unfold waitGap; split
  · exact event_leads s fun _ _ k => k.until'
  · exact State.Leads.refl s

theorem loopBytes_leads (bs : List Byte) (s : State) : s.Leads (loopBytes bs s) :=
  foldl_leads (fun s _ => event_leads s fun _ _ k => k.loopByte) bs s

theorem trackerBytes_leads (bs : List Byte) (s : State) : s.Leads (trackerBytes bs s) :=
  foldl_leads (fun s _ => event_leads s fun _ _ k => k.trackerByte) bs s

theorem Pls.reset_sound (o : Option Nat) (h : ∀ v ∈ o, v ≤ 96) : (Pls.reset o).sound := by
  unfold Pls.sound Pls.reset
  refine ⟨by simp, by simp, by simp, by simp, ?_, h, rfl⟩
  cases o with
  | none => simp [Config.nativeCeiling]
  | some v => exact h v rfl

theorem Trk.reset_sound : Trk.reset.sound := by unfold Trk.sound Trk.reset; decide

theorem Scp.reset_sound (r : Nat) : (Scp.reset r).sound :=
  ⟨by simp [Scp.reset], by simp [Scp.reset], by simp [Scp.reset, Scp.reportCount], Nat.zero_le _, Nat.zero_le _,
    ConfigItems.defaults_sound⟩

/-- The power-on values are sound where the persistent store is. -/
theorem State.powered_sound (r : Nat) (s : State) (h : s.Sound) : (s.powered r).Sound where
  pls := Pls.reset_sound _ h.pls.2.2.2.2.2.1
  rcu := Nat.zero_le _
  sli := ⟨rfl, Nat.zero_le _⟩
  btc := rfl
  trk := Trk.reset_sound
  hsq := Nat.zero_le _
  hmn := fun j => by
    have hj := (h.hmn j).2
    cases j <;> exact ⟨hj, hj⟩
  scp := Scp.reset_sound r

theorem powerUp_leads (a b : Bool) (s : State) : s.Leads (powerUp a b s) := by
  have k : s.Leads (s.powered (bitRateOf a b)) :=
    ⟨rfl, le_refl _, List.prefix_refl _, List.prefix_append _ _, State.powered_sound _ s⟩
  exact k.trans (event_leads _ fun _ _ h => h.evaluateLoaded)

end Sys2Proof.Machine
end

