-- ==== Sys2Proof/Laws/Course.lean ====
section
/-! SUPPORT. What a change of an entry, a recomputation of the course state and MARK can do. -/

namespace Sys2Proof.Machine

-- One proof at a time, so that the package as one text needs few threads.
set_option Elab.async false

/-- The command queue and the configuration items stand. -/
structure Scp.SameQueueAndItems (p q : Scp) : Prop where
  commands : q.commands = p.commands
  config : q.config = p.config

theorem Scp.SameQueueAndItems.refl (p : Scp) : Scp.SameQueueAndItems p p := ⟨rfl, rfl⟩

theorem Scp.SameQueueAndItems.trans {a b c : Scp} (h : Scp.SameQueueAndItems a b)
    (k : Scp.SameQueueAndItems b c) : Scp.SameQueueAndItems a c := ⟨k.commands.trans h.commands,
    k.config.trans h.config⟩

theorem Scp.raise_same (d) (r) (p : Scp) : Scp.SameQueueAndItems p (p.raise d r) :=
    by unfold Scp.raise; split <;> exact ⟨rfl, rfl⟩

theorem Scp.flush_same (d) (p : Scp) : Scp.SameQueueAndItems p (p.flush d) := by
  unfold Scp.flush; split
  · exact .refl _
  · exact (Scp.raise_same d (.placed p.batch) p).trans ⟨rfl, rfl⟩

/-- What a recomputation of the course state leaves as it was. -/
structure Ev.SameRun (e t : Ev) : Prop where
  plan : t.pls.plan = e.pls.plan
  stocks : t.pls.stocks = e.pls.stocks
  btc : t.btc = e.btc
  sli : t.sli = e.sli
  loopTx : t.loopTx = e.loopTx
  stall : t.rsl.stall = e.rsl.stall
  starved : t.rsl.starved = e.rsl.starved
  rcu : t.rcu = e.rcu
  trk : t.trk = e.trk
  dfu : t.dfu = e.dfu
  hmn : t.hmn = e.hmn
  now : t.now = e.now
  scp : Scp.SameQueueAndItems e.scp t.scp
  pls : { t.pls with latches := e.pls.latches } = e.pls

theorem Ev.SameRun.trans {a b c : Ev} (h : Ev.SameRun a b) (k : Ev.SameRun b c) : Ev.SameRun a c := by
  constructor
  · exact k.plan.trans h.plan
  · exact k.stocks.trans h.stocks
  · exact k.btc.trans h.btc
  · exact k.sli.trans h.sli
  · exact k.loopTx.trans h.loopTx
  · exact k.stall.trans h.stall
  · exact k.starved.trans h.starved
  · exact k.rcu.trans h.rcu
  · exact k.trk.trans h.trk
  · exact k.dfu.trans h.dfu
  · exact k.hmn.trans h.hmn
  · exact k.now.trans h.now
  · exact h.scp.trans k.scp
  · have := k.pls; have h' := h.pls; cases ha : a.pls; cases hb : b.pls; cases hc : c.pls; simp_all

theorem Ev.SameRun.refl (a : Ev) : Ev.SameRun a a := ⟨rfl, rfl, rfl, rfl, rfl, rfl, rfl, rfl, rfl, rfl, rfl, rfl,
    .refl _, rfl⟩

theorem Ev.setLatch_sameRun (e : Ev) (c : Nat) : Ev.SameRun e (e.setLatch c) := by
  unfold Ev.setLatch; split <;> exact ⟨rfl, rfl, rfl, rfl, rfl, rfl, rfl, rfl, rfl, rfl, rfl, rfl, .refl _, rfl⟩

theorem Ev.setLatch_rsl (e : Ev) (c : Nat) : (e.setLatch c).rsl = e.rsl := by
  unfold Ev.setLatch; split <;> rfl

theorem Ev.report_sameRun (e : Ev) (r : Report) : Ev.SameRun e (e.report r) := ⟨rfl, rfl, rfl, rfl, rfl, rfl, rfl,
    rfl, rfl, rfl, rfl, rfl, Scp.raise_same _ _ _, rfl⟩

theorem Ev.flush_sameRun (e : Ev) : Ev.SameRun e e.flush := ⟨rfl, rfl, rfl, rfl, rfl, rfl, rfl, rfl, rfl, rfl, rfl,
    rfl, Scp.flush_same _ _, rfl⟩

theorem Ev.finishCourse_sameRun (e : Ev) (c : Nat) : Ev.SameRun e (e.finishCourse c) := by
  unfold Ev.finishCourse Ev.withRate
  extract_lets e1 e2 e3
  have h1 : Ev.SameRun e e1 := Ev.flush_sameRun e
  have h2 : Ev.SameRun e1 e2 := Ev.report_sameRun _ _
  have h3 : Ev.SameRun e2 e3 := ⟨rfl, rfl, rfl, rfl, rfl, rfl, rfl, rfl, rfl, rfl, rfl, rfl, .refl _, rfl⟩
  split
  · exact (h1.trans h2).trans h3
  · exact ((h1.trans h2).trans h3).trans (Ev.report_sameRun _ _)

theorem Ev.finishCourse_rsl (e : Ev) (c : Nat) : (e.finishCourse c).rsl = e.rsl := by
  unfold Ev.finishCourse Ev.withRate
  extract_lets
  split <;> rfl

theorem Ev.refreshLookahead_sameRun (e : Ev) : Ev.SameRun e e.refreshLookahead := by
  unfold Ev.refreshLookahead
  extract_lets e1
  have h : Ev.SameRun e e1 := ⟨rfl, rfl, rfl, rfl, rfl, rfl, rfl, rfl, rfl, rfl, rfl, rfl, .refl _, rfl⟩
  split
  · exact h
  · split
    · exact h.trans (Ev.setLatch_sameRun _ _)
    · exact h

theorem Ev.refreshLookahead_rsl (e : Ev) : e.refreshLookahead.rsl = { e.rsl with lookahead := e.lookaheadOpen } := by
  unfold Ev.refreshLookahead
  extract_lets e1
  have h : e1.rsl = { e.rsl with lookahead := e.lookaheadOpen } := rfl
  split
  · exact h
  · split
    · rw [Ev.setLatch_rsl]; exact h
    · exact h

theorem State.lookaheadOpen_congr (s t : State) (h1 : s.rsl.active = t.rsl.active) (h2 : s.pls.plan = t.pls.plan)
    (h3 : s.rcu = t.rcu) :
   s.lookaheadOpen = t.lookaheadOpen := by
  unfold State.lookaheadOpen State.countStation State.stationEntries; rw [h1, h2, h3]

/-- A recomputation of the course state: the active course, the lookahead flag, and everything that stands (R33,
    R35). -/
theorem Ev.refreshCourse_spec (e : Ev) (b : Refresh) : Ev.SameRun e (e.refreshCourse b) ∧
    (e.refreshCourse b).rsl.active = e.lowestCourse ∧
    (e.refreshCourse b).rsl.lookahead = (e.refreshCourse b).lookaheadOpen := by
  unfold Ev.refreshCourse
  extract_lets old new e1 changed e2 e3 e4
  have q1 : Ev.SameRun e e1 := ⟨rfl, rfl, rfl, rfl, rfl, rfl, rfl, rfl, rfl, rfl, rfl, rfl, .refl _, rfl⟩
  have a1 : e1.rsl.active = new := rfl
  have q2 : Ev.SameRun e1 e2 ∧ e2.rsl = e1.rsl := by
    unfold e2; cases old <;> simp only []
    rotate_left
    · split
      · exact ⟨Ev.finishCourse_sameRun _ _, Ev.finishCourse_rsl _ _⟩
      · exact ⟨.refl _, by trivial⟩
    · exact ⟨.refl _, by trivial⟩
  have q3 : Ev.SameRun e2 e3 ∧ e3.rsl = e2.rsl := by
    unfold e3; cases new <;> simp only []
    · exact ⟨.refl _, by trivial⟩
    · exact ⟨Ev.setLatch_sameRun _ _, Ev.setLatch_rsl _ _⟩
  have q4 : Ev.SameRun e3 e4 ∧ e4.rsl =
      { e3.rsl with lookahead := e3.lookaheadOpen } := ⟨Ev.refreshLookahead_sameRun e3, Ev.refreshLookahead_rsl e3⟩
  have hq := (q1.trans q2.1).trans (q3.1.trans q4.1)
  have ha : e4.rsl.active = new := by rw [q4.2]; show e3.rsl.active = new; rw [q3.2, q2.2, a1]
  have hl : e4.rsl.lookahead = e4.lookaheadOpen := by
    rw [State.lookaheadOpen_congr e4.toState e3.toState (by rw [q4.2]) q4.1.plan q4.1.rcu, q4.2]
  split
  · refine ⟨hq.trans ⟨rfl, rfl, rfl, rfl, rfl, rfl, rfl, rfl, rfl, rfl, rfl, rfl, .refl _, rfl⟩, ha, hl⟩
  · exact ⟨hq, ha, hl⟩

/-- Noting a change of an entry only prompts tests. -/
theorem Ev.noteChange_toState (slot st : Nat) (e : Ev) : (e.noteChange slot st).toState = e.toState := by
  unfold Ev.noteChange; extract_lets e1
  have : e1.toState = e.toState := by unfold e1; split <;> rfl
  split
  · exact this
  · exact this

/-- A change of an entry writes that entry alone. -/
theorem Ev.changeEntry_toState (slot : Nat) (f : Entry → Entry) (e : Ev) (en : Entry) (h : e.entryAt slot = some en) :
    (e.changeEntry slot f).toState = e.toState.withEntry slot (f en) := by
  unfold Ev.changeEntry; rw [h]; exact Ev.noteChange_toState _ _ _

theorem Ev.noteChange_selDue (slot st : Nat) (e : Ev) (h : st = e.rcu.station) : (e.noteChange slot st).selDue
    = true := by
  unfold Ev.noteChange
  rw [if_pos h]
  dsimp only
  split <;> rfl

theorem Ev.noteChange_replyDue (slot st : Nat) (e : Ev) : (e.noteChange slot st).replyDue = e.replyDue := by
  unfold Ev.noteChange; extract_lets e1
  have : e1.replyDue = e.replyDue := by unfold e1; split <;> rfl
  split
  · exact this
  · exact this

theorem Ev.changeEntry_rcu_hsq (e : Ev) (slot : Nat) (f : Entry → Entry) : (e.changeEntry slot f).rcu = e.rcu ∧
    (e.changeEntry slot f).hsq = e.hsq := by
  unfold Ev.changeEntry
  cases e.entryAt slot with
  | none => exact ⟨rfl, rfl⟩
  | some en =>
    have : ∀ x : Ev, ∀ st, (x.noteChange slot st).rcu = x.rcu ∧ (x.noteChange slot st).hsq = x.hsq := by
      intro x st; unfold Ev.noteChange; dsimp only; split <;> split <;> exact ⟨rfl, rfl⟩
    exact this _ _

theorem Ev.noteSkips_toState (ps : Table Entry) : ∀ e : Ev, (e.noteSkips ps).toState = e.toState := by
  unfold Ev.noteSkips
  induction ps with
  | nil => intro e; rfl
  | cons p ps ih => intro e; rw [List.foldl_cons, ih, Ev.noteChange_toState]

theorem Ev.reports_toState (rs : List Report) : ∀ e : Ev, (e.reports rs).toState = { e.toState with scp :=
    (e.reports rs).scp } := by
  unfold Ev.reports
  induction rs with
  | nil => intro e; rfl
  | cons p ps ih => intro e; rw [List.foldl_cons, ih]; rfl

/-- MARK changes the plan entry by entry (R25). -/
theorem Ev.applyMark_plan (m : MarkOp) (e : Ev) : (e.applyMark m).pls.plan = e.pls.plan.map m.mark := by
  unfold Ev.applyMark
  extract_lets plan skipped e1 e2 e3
  rw [(Ev.refreshCourse_spec _ _).1.plan, Ev.reports_toState, show e3.toState
      = e2.toState from Ev.noteSkips_toState _ _]
  unfold e2
  split <;> rfl

/-- The lowest course of a list of entries, from a start (R33). -/
theorem lowerCourse_foldl (l : Table Entry) : ∀ acc : Option Nat,
    (l.foldl (fun acc p => lowerCourse acc p.2.course) acc = none ↔ acc = none ∧ l = []) ∧
    ∀ a, l.foldl (fun acc p => lowerCourse acc p.2.course) acc = some a ↔
      ((acc = some a ∨ ∃ p ∈ l, p.2.course = a) ∧ (∀ b, acc = some b → a ≤ b) ∧ ∀ p ∈ l, a ≤ p.2.course) := by
  induction l with
  | nil => intro acc; simp; intro a h; simp [h]
  | cons q l ih =>
    intro acc
    rw [List.foldl_cons]
    obtain ⟨h1, h2⟩ := ih (lowerCourse acc q.2.course)
    constructor
    · rw [h1]; cases acc <;> simp [lowerCourse]
    · intro a
      rw [h2]
      cases acc with
      | none =>
        simp [lowerCourse]
      | some b =>
        simp [lowerCourse]
        constructor
        · rintro ⟨h, h3, h4⟩
          refine ⟨?_, ?_⟩
          · rcases h with h | h
            · rcases Nat.le_total b q.2.course with k | k
              · left; omega
              · right; left; omega
            · right; right; exact h
          · refine ⟨by omega, by omega, h4⟩
        · rintro ⟨h, h3, h4, h5⟩
          refine ⟨?_, ⟨h3, h4⟩, h5⟩
          rcases h with h | h | h
          · left; omega
          · left; omega
          · right; exact h

/-- Setting a latch writes an absent latch of that course, and no other (R36). -/
theorem Ev.setLatch_read (e : Ev) (c x : Nat) : Table.read (e.setLatch c).pls.latches x =
    if x = c ∧ Table.read e.pls.latches c = none then some
        (e.scp.config.direction c) else Table.read e.pls.latches x := by
  unfold Ev.setLatch
  cases h : Table.read e.pls.latches c with
  | some d => simp
  | none =>
    show Table.read (Table.write _ _ _) _ = _
    by_cases hx : x = c
    · subst hx; simp [Table.read_write_same]
    · rw [Table.read_write_other _ _ _ _ hx]; simp [hx]

theorem Ev.setLatch_scp_hsq (e : Ev) (c : Nat) : (e.setLatch c).scp = e.scp ∧ (e.setLatch c).hsq = e.hsq ∧
    (e.setLatch c).selDue = e.selDue := by
  unfold Ev.setLatch; split <;> exact ⟨rfl, rfl, rfl⟩

/-- A finished course leaves the plan, the Release Selector and the prompts (R46). -/
theorem Ev.finishCourse_pls_rsl (e : Ev) (c : Nat) : (e.finishCourse c).pls = e.pls ∧ (e.finishCourse c).selDue
    = e.selDue ∧ (e.finishCourse c).rsl = e.rsl := by
  unfold Ev.finishCourse Ev.withRate; extract_lets; split <;> exact ⟨rfl, rfl, rfl⟩

/-- What a recomputation of the lookahead flag does to the latches, and what it leaves (R35, R36). -/
theorem Ev.refreshLookahead_effects (e : Ev) : e.refreshLookahead.scp = e.scp ∧ e.refreshLookahead.hsq = e.hsq
    ∧ e.refreshLookahead.selDue = e.selDue
    ∧ ∀ x, Table.read e.refreshLookahead.pls.latches x =
      if (e.lookaheadOpen = true ∧ ∃ a, e.rsl.active = some a ∧ x = a + 1) ∧ Table.read e.pls.latches x
          = none then some (e.scp.config.direction x) else Table.read e.pls.latches x := by
  unfold Ev.refreshLookahead
  extract_lets e1
  have ha : e1.rsl.active = e.rsl.active := rfl
  have hl : e1.rsl.lookahead = e.lookaheadOpen := rfl
  cases h : e.rsl.active with
  | none => rw [ha, h]; exact ⟨rfl, rfl, rfl, fun x => by simp; rfl⟩
  | some a =>
    rw [ha, h]
    dsimp only
    rw [hl]
    split
    · next ho =>
      obtain ⟨h1, h2, h3⟩ := Ev.setLatch_scp_hsq e1 (a+1)
      refine ⟨h1, h2, h3, fun x => ?_⟩
      rw [Ev.setLatch_read]
      have : e1.pls = e.pls := rfl
      have hc : e1.scp = e.scp := rfl
      rw [this, hc]
      by_cases hx : x = a + 1
      · subst hx; simp [ho]
      · simp [hx]
    · next ho => exact ⟨rfl, rfl, rfl, fun x => by simp [ho]; rfl⟩

/-- Everything else a recomputation of the course state does: the finished course, the gust count, the prompted
selection, the latches (R34, R36, R46). -/
theorem Ev.refreshCourse_effects (e : Ev) (b : Refresh) :
    let t := e.refreshCourse b
    let seen : Ev := { e with rsl := { e.rsl with active := e.lowestCourse } }
    let mid := match e.rsl.active with
      | some c => if (b == Refresh.event && e.rsl.active != e.lowestCourse && risesFrom c e.lowestCourse)
          = true then seen.finishCourse c else seen
      | none => seen
    let changed := (e.rsl.active != e.lowestCourse || b == Refresh.adv)
    t.scp = mid.scp ∧ t.hsq = (if changed then { mid.hsq with gustCount := 0 } else mid.hsq) ∧ t.selDue =
        (e.selDue || changed)
    ∧ ∀ x, Table.read t.pls.latches x =
      if (e.lowestCourse = some x ∨ (t.rsl.lookahead = true ∧ ∃ a, e.lowestCourse = some a ∧ x = a + 1))
          ∧ Table.read e.pls.latches x = none then some
          (e.scp.config.direction x) else Table.read e.pls.latches x := by
  intro t seen mid changed
  have hm : mid.pls = e.pls ∧ mid.selDue = e.selDue ∧ mid.rsl = seen.rsl ∧ mid.scp.config = e.scp.config := by
    unfold mid; split
    · split
      · next c _ _ => exact ⟨(Ev.finishCourse_pls_rsl seen c).1, (Ev.finishCourse_pls_rsl seen c).2.1,
            (Ev.finishCourse_pls_rsl seen c).2.2, (Ev.finishCourse_sameRun seen c).scp.config⟩
      · exact ⟨rfl, rfl, rfl, rfl⟩
    · exact ⟨rfl, rfl, rfl, rfl⟩
  obtain ⟨m1, m2, m3, m4⟩ := hm
  let e3 : Ev := match e.lowestCourse with
    | some c => mid.setLatch c
    | none => mid
  have h3 : e3.scp = mid.scp ∧ e3.hsq = mid.hsq ∧ e3.selDue = mid.selDue ∧ e3.rsl = mid.rsl ∧ ∀ x,
      Table.read e3.pls.latches x = if e.lowestCourse = some x ∧ Table.read e.pls.latches x = none then some
      (e.scp.config.direction x) else Table.read e.pls.latches x := by
    unfold e3
    cases h : e.lowestCourse with
    | none => exact ⟨rfl, rfl, rfl, rfl, fun x => by simp [m1]⟩
    | some c =>
      obtain ⟨a1, a2, a3⟩ := Ev.setLatch_scp_hsq mid c
      refine ⟨a1, a2, a3, Ev.setLatch_rsl _ _, fun x => ?_⟩
      dsimp only
      rw [Ev.setLatch_read, m1, m4]
      by_cases hx : x = c
      · subst hx; simp
      · have : c ≠ x := fun k => hx k.symm
        simp [hx, this]
  obtain ⟨q1, q2, q3, q4, q5⟩ := h3
  obtain ⟨l1, l2, l3, l4⟩ := Ev.refreshLookahead_effects e3
  have ht : t = if changed then (e3.refreshLookahead.onHsq fun h =>
      { h with gustCount := 0 }).promptSel else e3.refreshLookahead := by
    unfold t Ev.refreshCourse
    rfl
  have hlk : t.rsl.lookahead = e3.lookaheadOpen := by
    rw [ht]; have := Ev.refreshLookahead_rsl e3
    split
    · show e3.refreshLookahead.rsl.lookahead = _; rw [this]
    · rw [this]
  have hact : e3.rsl.active = e.lowestCourse := by rw [q4, m3]
  have hc3 : e3.scp.config = e.scp.config := by rw [q1, m4]
  have hlat : ∀ x, Table.read t.pls.latches x = Table.read e3.refreshLookahead.pls.latches x := by
    intro x; rw [ht]; split <;> rfl
  refine ⟨?_, ?_, ?_, ?_⟩
  · rw [ht]
    split
    · show e3.refreshLookahead.scp = _; rw [l1, q1]
    · rw [l1, q1]
  · rw [ht]
    split
    · show ({ e3.refreshLookahead.hsq with gustCount := 0 } : Hsq) = _
      rw [l2, q2]
    · rw [l2, q2]
  · rw [ht]
    by_cases hch : changed = true
    · rw [if_pos hch, hch, Bool.or_true]; rfl
    · rw [if_neg hch, l3, q3, m2]; simp [hch]
  · intro x
    rw [hlat, l4, hlk, hact, hc3, q5]
    by_cases h1 : Table.read e.pls.latches x = none
    · by_cases h2 : e.lowestCourse = some x
      · simp [h1, h2]
      · simp [h1, h2]
    · simp [h1]

/-- Noting a change of an entry prompts the selection for an entry of the station and the head's retest for a bearer it
waits for (R43, R128). -/
theorem Ev.noteChange_eq (slot st : Nat) (e : Ev) : e.noteChange slot st =
    { e with selDue := e.selDue || decide (st = e.rcu.station), retestDue := e.retestDue || e.headWaitsFor slot } := by
  unfold Ev.noteChange
  by_cases h : st = e.rcu.station
  · simp only [if_pos h]
    have : e.promptSel.headWaitsFor slot = e.headWaitsFor slot := rfl
    rw [this]
    cases e.headWaitsFor slot <;> simp [h, Ev.promptSel, Ev.promptRetest]
  · simp only [if_neg h]
    cases e.headWaitsFor slot <;> simp [h, Ev.promptRetest]

theorem Ev.noteSkips_eq (ps : Table Entry) : ∀ e : Ev, e.noteSkips ps =
    { e with
      selDue := e.selDue || ps.any (fun p => decide (p.2.station = e.rcu.station))
      retestDue := e.retestDue || ps.any (fun p => e.headWaitsFor p.1) } := by
  induction ps with
  | nil => intro e; simp [Ev.noteSkips]
  | cons p ps ih =>
    intro e
    have : e.noteSkips (p :: ps) = (e.noteChange p.1 p.2.station).noteSkips ps := rfl
    rw [this, Ev.noteChange_eq, ih]
    simp only [List.any_cons, ← Bool.or_assoc]

theorem flatten_groups (ns : List Nat) : ∀ k, ((List.range k).map fun i => (ns.drop (i * 64)).take 64).flatten
    = ns.take (k * 64) := by
  intro k
  induction k with
  | zero => simp
  | succ k ih =>
    rw [List.range_succ, List.map_append, List.flatten_append, ih]
    simp only [List.map_cons, List.map_nil, List.flatten_cons, List.flatten_nil, List.append_nil]
    rw [← List.take_add]; congr 1; omega

/-- Reports go out whatever the plan holds. -/
theorem Ev.reports_with_pls (rs : List Report) : ∀ (e : Ev) (p : Pls),
    Ev.reports rs { e with pls := p } = { e.reports rs with pls := p } := by
  induction rs with
  | nil => intro e p; rfl
  | cons r rs ih => intro e p; exact ih (e.report r) p

/-- Groups of 64, the last one of the rest (R25). -/
theorem groupsOf64_spec (ns : List Nat) : (groupsOf64 ns).flatten = ns ∧ (∀ g ∈ groupsOf64 ns, g ≠ [] ∧ g.length ≤ 64)
    ∧ ∀ g ∈ (groupsOf64 ns).dropLast, g.length = 64 := by
  unfold groupsOf64
  refine ⟨?_, ?_, ?_⟩
  · rw [flatten_groups, List.take_of_length_le (by omega)]
  · intro g hg
    rw [List.mem_map] at hg
    obtain ⟨i, hi, rfl⟩ := hg
    rw [List.mem_range] at hi
    constructor
    · intro h
      have := congrArg List.length h
      simp at this; omega
    · simp
  · intro g hg
    rcases hk : (ns.length + 63) / 64 with _ | k
    · rw [hk] at hg; simp at hg
    · rw [hk, List.range_succ, List.map_append] at hg
      simp only [List.map_cons, List.map_nil, List.dropLast_concat] at hg
      rw [List.mem_map] at hg
      obtain ⟨i, hi, rfl⟩ := hg
      rw [List.mem_range] at hi
      simp; omega

/-- The slots a retirement of the ring vacates are its first positions (R29). -/
theorem Pls.retireRing_slots (n : Nat) : ∀ p : Pls, 0 < p.run → (Pls.retireRing n p).2 = (List.range
    (Pls.retireRing n p).2.length).map p.ringSlot := by
  induction n with
  | zero => intro p _; rfl
  | succ n ih =>
    intro p hn
    have key : Pls.retireRing (n+1) p = (p, []) ∨ ∃ p1 : Pls, p1.run = p.run ∧ p1.lead = p.lead ∧ p1.ringHead =
        (p.ringHead + 1) % p.run ∧
        Pls.retireRing (n+1) p = ((Pls.retireRing n p1).1, p.ringSlot 0 :: (Pls.retireRing n p1).2) := by
      rw [Pls.retireRing]
      split
      · exact .inl rfl
      · dsimp only
        split
        · exact .inl rfl
        · split
          · exact .inr ⟨{ p with plan := Table.strike p.plan (p.ringSlot 0), ringHead := (p.ringHead + 1) % p.run, ringCount := p.ringCount - 1 }, rfl, rfl, rfl, rfl⟩
          · exact .inl rfl
    rcases key with h | ⟨p1, h1, h2, h3, h4⟩
    · rw [h]; rfl
    · rw [h4]
      dsimp only
      rw [List.length_cons, List.range_succ_eq_map, List.map_cons, List.map_map]
      have hi := ih p1 (by omega)
      congr 1
      rw [hi]
      simp only [List.length_map, List.length_range]
      apply List.map_congr_left
      intro i _
      show p1.ringSlot i = p.ringSlot (i + 1)
      unfold Pls.ringSlot
      rw [h1, h2, h3, Nat.mod_add_mod]
      congr 2; omega

/-- When the head may press, spelled out (R127). -/
theorem State.pressAllowed_iff (e : State) : e.pressAllowed = true ↔
    ((e.rcu.mode = .laying ∨ e.rcu.mode = .draining) ∧ e.trk.locked = true
      ∧ (∃ l, e.hsq.latch = some l ∧ l.target ≤ e.hsq.settleCount)
      ∧ (∃ k, e.hsq.carrier = some k ∧ k.condemned = none ∧ k.expired = false) ∧ e.hsq.lockout = none
      ∧ ∃ en, e.headEntry = some en ∧ ∀ slot ∈ en.bearers, ∃ b, e.entryAt slot = some b
        ∧ (b.state = .placed ∨ b.state = .skipped)) := by
  unfold State.pressAllowed State.pressReady State.running State.bearersLaid
  have hb : (match e.headEntry with
    | none => false
    | some en => en.bearers.all
        fun slot => match e.entryAt slot with | none => false | some b => b.state == .placed || b.state == .skipped) = true ↔
      ∃ en, e.headEntry = some en ∧ ∀ slot ∈ en.bearers, ∃ b, e.entryAt slot = some b ∧ (b.state = .placed
          ∨ b.state = .skipped) := by
    cases e.headEntry with
    | none => simp
    | some en =>
      simp only [List.all_eq_true, Option.some.injEq, exists_eq_left']
      apply forall_congr'; intro slot; apply forall_congr'; intro _
      cases e.entryAt slot <;> simp
  simp only [Bool.and_eq_true]
  cases e.hsq.latch <;> cases e.hsq.carrier <;> simp
  constructor
  · rintro ⟨⟨⟨⟨⟨h1, h2⟩, h3⟩, h4⟩, h5⟩, h6⟩; exact ⟨h2, h1, h3, h4, h5, hb.1 h6⟩
  · rintro ⟨h2, h1, h3, h4, h5, h6⟩; exact ⟨⟨⟨⟨⟨h1, h2⟩, h3⟩, h4⟩, h5⟩, hb.2 h6⟩

end Sys2Proof.Machine
end

