-- ==== Sys2Proof/Laws/Event.lean ====
section
/-! SUPPORT. The end of an event: it changes nothing where nothing is prompted,
    and nothing where the mode is neither LAYING
nor DRAINING. Then: what taking a command, a matched completion and a running timer amount to. -/

namespace Sys2Proof.Machine

-- One proof at a time, so that the package as one text needs few threads.
set_option Elab.async false

theorem Ev.finish_none (e : Ev) (h1 : e.selDue = false) (h2 : e.xferDue = false) (h3 : e.drainDue = false)
    (h4 : e.retestDue = false) : e.finish = e := by
  simp [Ev.finish, Ev.whenDue, h1, h2, h3, h4]

theorem Ev.retestPress_quiet (e : Ev) (h : e.running = false) : e.retestPress = e := by
  simp [Ev.retestPress, State.pressAllowed, State.pressReady, h]

theorem Ev.transfer_quiet (e : Ev) (b : Nat) (h : e.running = false) : e.transfer b = e := by
  simp [Ev.transfer, State.transferable, h]

theorem Ev.runTransfers_quiet (e : Ev) (h : e.running = false) : e.runTransfers = e := by
  have k : ∀ l : List Nat, l.foldl (fun e i => e.transfer (8 - i)) e = e := by
    intro l
    induction l with
    | nil => rfl
    | cons i l ih => rw [List.foldl_cons, e.transfer_quiet _ h, ih]
  exact k _

theorem Ev.runSelection_quiet (e : Ev) (h : e.running = false) : e.runSelection = e := by
  have hm : e.mayRelease = false := by
    simp only [State.running, Bool.or_eq_false_iff] at h
    simp [State.mayRelease, h.1]
  simp [Ev.runSelection, Ev.selectRelease, hm, Ev.stationTest, h]

theorem Ev.drainTest_quiet (e : Ev) (h : e.running = false) : e.drainTest = e := by
  simp only [State.running, Bool.or_eq_false_iff] at h
  simp [Ev.drainTest, h.2]

theorem Ev.finish_quiet (e : Ev) (h : e.running = false) : e.finish = e := by
  simp [Ev.finish, Ev.whenDue, e.retestPress_quiet h, e.runTransfers_quiet h, e.runSelection_quiet h,
      e.drainTest_quiet h]

/-! ### Commands -/

theorem takeHost_taken {s : State} {c : HostCommand} {run : Ev → Ev} (h : s.takes c) :
    takeHost c run s = (run s.taking).finish.toState := by
  have h1 := h.1
  have h2 := h.2
  simp only [takeHost, h1, h2, Bool.and_self, if_true]
  rfl

theorem State.takes.room {s : State} {c : HostCommand} (h : s.takes c) : s.scp.outbound.length < 32 := by
  have h2 := h.2
  exact of_decide_eq_true h2

theorem Ev.reply_of_room {e : Ev} (c : HostCommand) (st : Status) (rs : List Byte) (h : e.scp.outbound.length < 32) :
    e.reply c st rs =
      { e with
        scp := { e.scp with outbound := e.scp.outbound ++ [.reply c.kind c.tag st rs] }
        rcu := { e.rcu with marker := some c.kind }
        replyDue := false } := by
  simp [Ev.reply, Ev.onScp, Ev.onRcu, Scp.pushReply, Config.outboundPlaces, h]

/-- A command that is only answered. -/
theorem takeHost_answered {s : State} {c : HostCommand} {st : Status} {rs : List Byte} {run : Ev → Ev} (h : s.takes c)
    (hr : run s.taking = s.taking.reply c st rs) : takeHost c run s = s.answered c st rs := by
  have room : s.taking.scp.outbound.length < 32 := h.room
  rw [takeHost_taken h, hr, Ev.reply_of_room _ _ _ room, Ev.finish_none _ rfl rfl rfl rfl]
  rfl

/-! ### Completions and timers -/

theorem completion_matched {s : State} {u : Nat} {t r c : Byte} {f : InFlight} (h : s.flight u = some f)
    (ht : f.tag = t) :
    completion u t r c s = ((Ev.start s).endOrder u f (.ofBytes r c)).finish.toState := by
  rw [completion, event, Ev.takeCompletion]
  simp [h, ht]

theorem completion_stale {s : State} {u : Nat} {t r c : Byte} (h : ∀ f, s.flight u = some f → f.tag ≠ t) :
    completion u t r c s = { s with sli := { s.sli with stale := satUp s.sli.stale } } := by
  have k : (Ev.start s).takeCompletion u t r c = (Ev.start s).countStale := by
    unfold Ev.takeCompletion
    split
    · rfl
    · next f hf => rw [if_neg (h f hf)]
  rw [completion, event, k, Ev.finish_none _ rfl rfl rfl rfl]
  rfl

theorem fireAt_running {s : State} {m : Option Nat} {t : Nat} {f : Ev → Ev} (h : m = some t) :
    fireAt m f s = (f ((Ev.start s).until t)).finish.toState := by
  subst h; rfl

theorem fireAt_stopped {s : State} {m : Option Nat} {f : Ev → Ev} (h : m = none) : fireAt m f s = s := by
  subst h; rfl

/-- An HLTH payload shorter than its six bytes is answered RANGE where its subfunction is taken (R192, R205). -/
theorem runHlth_short (s : State) (tag : Byte) (p : List Byte) (hl : p.length < 6) (hw : s.settledIdle = true
    ∨ s.rcu.mode = .holding ∨ (p.head? ≠ some 2 ∧ p.head? ≠ some 3)) :
   s.taking.runHlth ⟨0x28, tag, p⟩ = s.taking.reply ⟨0x28, tag, p⟩ .range [] := by
  unfold Ev.runHlth
  cases p with
  | nil => rfl
  | cons sub r =>
    dsimp only
    have e2 : ∀ (n : Nat), sub.toNat = n → sub = BitVec.ofNat 8 n := by intro n h; rw [← h]; simp
    have hwr : sub.toNat = 2 ∨ sub.toNat = 3 → (s.taking.settledIdle || s.taking.rcu.mode == .holding) = true := by
      intro k
      show (s.settledIdle || s.rcu.mode == .holding) = true
      rcases hw with h | h | h
      · simp [h]
      · simp [h]
      · exfalso
        rcases k with k | k
        · exact h.1 (by rw [e2 _ k]; rfl)
        · exact h.2 (by rw [e2 _ k]; rfl)
    split
    · rw [if_pos hl]; rfl
    · rw [if_pos hl]; rfl
    · next k => rw [hwr (.inl k)]; simp only [Bool.not_true, Bool.false_eq_true, if_false, if_pos hl]; rfl
    · next k => rw [hwr (.inr k)]; simp only [Bool.not_true, Bool.false_eq_true, if_false, if_pos hl]; rfl
    · rfl

end Sys2Proof.Machine
end

