-- ==== Sys2Proof/Laws/Orders.lean ====
section
/-! SUPPORT. What the ending of an order, a head order and a calibration slew can do. -/

namespace Sys2Proof.Machine

-- One proof at a time, so that the package as one text needs few threads.
set_option Elab.async false

/-- A completion of the order in flight at a unit other than BOOM: the record is cleared, the ending handed on (R55,
    R56). -/
theorem completion_ends {s : State} {u : Nat} {tag : Byte} {o : Order} {q : Requester} (h : s.awaits u tag o q)
    (hu : u ≠ boomUnit) (r c : Byte) :
   completion u tag r c s = ((Ev.start (s.ended u)).handOn u o q (.ofBytes r c)).finish.toState := by
  obtain ⟨a, h⟩ := h
  rw [completion_matched h rfl]
  unfold Ev.endOrder
  dsimp only
  rw [if_neg hu]; rfl

/-- The same at BOOM, where the request that waits is sent after it (R53). -/
theorem completion_ends_boom {s : State} {tag : Byte} {o : Order} {q : Requester} (h : s.awaits boomUnit tag o q)
    (r c : Byte) :
   completion boomUnit tag r c s = ((Ev.start (s.ended boomUnit)).handOn boomUnit o q
       (.ofBytes r c)).sendWaiting.finish.toState := by
  obtain ⟨a, h⟩ := h
  rw [completion_matched h rfl]
  unfold Ev.endOrder
  dsimp only
  rw [if_pos rfl]; rfl

theorem unit_busy {r : Bool} {f : Option InFlight} (h : r = false ∨ f ≠ none) : ¬ (r && f.isNone) = true := by
  rcases h with h | h
  · simp [h]
  · intro hx; simp at hx; exact h hx.2

theorem unit_free {r : Bool} {f : Option InFlight} (h : r = true) (k : f = none) : (r && f.isNone) = true := by
  rw [h, k]; rfl

/-- The head waits for an order of its own. -/
theorem State.headBusy_iff (s : State) : s.headBusy = true ↔ ∃ u ∈ [boomUnit, wristUnit, gripperUnit, pressUnit,
    chuteUnit], ∃ r, s.flight u = some r ∧ r.requester = .hsq := by
  unfold State.headBusy
  simp only [List.any_eq_true]
  apply exists_congr; intro u
  apply and_congr_right; intro _
  cases s.flight u with
  | none => simp
  | some r => simp

theorem Ev.sendHead_free (f : Ev) (unit : Nat) (o : Order) (h1 : f.running = true) (h2 : f.flight unit = none) :
      f.sendHead unit o = { f with toState := { f.toState.launched unit o .hsq with hsq :=
          { f.hsq with orderSent := true } } } := by
  unfold Ev.sendHead
  rw [if_pos (by rw [h1]; unfold State.unitFree; rw [h2]; rfl)]; rfl

theorem Ev.sendHead_not (f : Ev) (unit : Nat) (o : Order) (h : f.running = false ∨ f.flight unit ≠ none) :
      f.sendHead unit o = f := by
  unfold Ev.sendHead
  rw [if_neg (by unfold State.unitFree; exact unit_busy h)]

theorem State.ended_flight_other (s : State) (u v : Nat) (h : v ≠ u) : (s.ended u).flight v
    = s.flight v := Table.read_strike_other _ _ _ h

theorem State.running_iff (e : State) : e.running = true ↔ (e.rcu.mode = .laying ∨ e.rcu.mode = .draining) := by
  unfold State.running; simp

theorem State.not_running {e : State} (h : ¬ (e.rcu.mode = .laying ∨ e.rcu.mode = .draining)) : e.running
    = false := by
  cases hx : e.running
  · rfl
  · exact absurd ((State.running_iff e).1 hx) h

/-- A head order is sent in LAYING and DRAINING at a free unit, and not else (R141). -/
theorem Ev.sendHead_eq (e : Ev) (unit : Nat) (o : Order) :
  e.sendHead unit o = if (e.rcu.mode = .laying ∨ e.rcu.mode = .draining) ∧ e.flight unit = none then
        { e with toState := { e.toState.launched unit o .hsq with hsq := { e.hsq with orderSent := true } } }
      else e := by
  have hr : e.running = true ↔ (e.rcu.mode = .laying ∨ e.rcu.mode = .draining) := by
    unfold State.running; simp
  by_cases h : (e.rcu.mode = .laying ∨ e.rcu.mode = .draining) ∧ e.flight unit = none
  · rw [if_pos h, Ev.sendHead_free _ _ _ (hr.2 h.1) h.2]
  · rw [if_neg h, Ev.sendHead_not]
    by_cases h1 : e.running = true
    · right; intro h2; exact h ⟨hr.1 h1, h2⟩
    · left; simpa using h1

/-- The slew of a point waits for BOOM (R149). -/
theorem Ev.calSlew_busy (e : Ev) (h : e.flight boomUnit ≠ none) : e.calSlew = e := by
  unfold Ev.calSlew
  split
  · rw [if_neg]; rintro ⟨_, hx⟩; apply h; unfold State.unitFree at hx; simpa using hx
  all_goals rfl

/-- The slew of a point that is due, at a free BOOM (R149). -/
theorem Ev.calSlew_free (e : Ev) (k : Nat) (h1 : e.dfu.cal = .running k) (h2 : e.dfu.phase = .due)
    (h : e.flight boomUnit = none) :
  e.calSlew = ((e.send boomUnit (.slew (e.calPose k) .full) .dfu).leaveReceive).onDfu fun d =>
      { d with phase := .slewing, slew := .current, pointPose := e.calPose k } := by
  unfold Ev.calSlew
  rw [h1]; dsimp only; rw [if_pos ⟨h2, by unfold State.unitFree; rw [h]; rfl⟩]

theorem Ev.calSlew_cases (e : Ev) : e.calSlew = e
    ∨ ∃ k, e.calSlew = ((e.send boomUnit (.slew (e.calPose k) .full) .dfu).leaveReceive).onDfu fun d =>
        { d with phase := .slewing, slew := .current, pointPose := e.calPose k } := by
  unfold Ev.calSlew
  split
  · next k _ => split
                · exact .inr ⟨k, rfl⟩
                · exact .inl rfl
  all_goals exact .inl rfl

theorem Ev.calSlew_rcu (e : Ev) : e.calSlew.rcu = e.rcu := by
  rcases Ev.calSlew_cases e with h | ⟨k, h⟩
  · rw [h]
  · rw [h]; rfl

end Sys2Proof.Machine
end

