-- ==== Sys2Proof/Laws/Train.lean ====
section
/-! SUPPORT. What the cascade, a removal and the removal of the whole train can do. -/

namespace Sys2Proof.Machine

-- One proof at a time, so that the package as one text needs few threads.
set_option Elab.async false

theorem Ev.onCarrier_at {e : Ev} {b : Nat} {c : Carrier} (h : e.carrierAt b = some c) (f : Carrier → Carrier) :
   e.onCarrier b f = { e with toState := e.toState.withCarrier b (f c) } := by
  unfold Ev.onCarrier; rw [h]; rfl

theorem State.withCarrier_at (s : State) (b : Nat) (c : Carrier) : (s.withCarrier b c).carrierAt b = some c := by
  unfold State.withCarrier State.carrierAt; simp

theorem State.withCarrier_twice (s : State) (b : Nat) (c d : Carrier) : (s.withCarrier b c).withCarrier b d
    = s.withCarrier b d := by
  unfold State.withCarrier; dsimp only; rw [Table.write_write_same]

/-- What a cascade makes of the train: the carriers that fall, and everything that stands (R86). -/
structure Ev.Cascaded (e t : Ev) (falls : Nat → Prop) : Prop where
  hit : ∀ a c, e.carrierAt a = some c → falls a → t.carrierAt a = some { c with
          condemned := some .orphan, phase := if c.phase = .arriving then .ready else c.phase }
  miss : ∀ a, ¬falls a → t.carrierAt a = e.carrierAt a
  due : t.xferDue = true ↔ e.xferDue = true ∨ ∃ a c, falls a ∧ e.carrierAt a = some c ∧ c.phase = .arriving
  eq : t = { e with btc := { e.btc with train := t.btc.train }, xferDue := t.xferDue }

theorem Ev.sentence_at (e : Ev) (b : Nat) (c : Carrier) (r : Reason) (h : e.carrierAt b = some c) :
   e.sentence b r = { e with toState := e.toState.withCarrier b { c with condemned := some r, phase := if c.phase
       = .arriving then .ready else c.phase }, xferDue := e.xferDue || decide (c.phase = .arriving) } := by
  unfold Ev.sentence; rw [h]; dsimp only; rw [Ev.onCarrier_at h]
  unfold Carrier.condemn
  by_cases hp : c.phase = .arriving
  · simp only [hp, if_true, decide_true, Bool.or_true]; rfl
  · simp only [hp, if_false, decide_false, Bool.or_false]

theorem State.withCarrier_other (s : State) (b a : Nat) (c : Carrier) (h : a ≠ b) :
    (s.withCarrier b c).carrierAt a = s.carrierAt a := by
  unfold State.withCarrier State.carrierAt; exact Table.read_write_other _ _ _ _ h

/-- Which berths fall in a cascade behind a berth (R86). -/
def Ev.CascadeFalls (e : Ev) (b : Nat) (fallen : List Nat) (falls : Nat → Prop) : Prop :=
 ∀ a, falls a ↔ a < b ∧ ∃ c en, e.carrierAt a = some c ∧ c.condemned = none ∧ e.entryAt c.slot = some en
        ∧ ∃ slot ∈ en.bearers, slot ∈ fallen ∨ ∃ a' k, a < a' ∧ falls a' ∧ e.carrierAt a' = some k ∧ k.slot = slot

/-- What the cascade can do (R86). -/
theorem Ev.orphans_spec (b : Nat) : ∀ (e : Ev) (fallen : List Nat), ∃ falls, Ev.CascadeFalls e b fallen falls
    ∧ Ev.Cascaded e (e.orphans b fallen) falls := by
  induction b with
  | zero =>
    intro e fallen
    refine ⟨fun _ => False, fun a => by simp, fun a c _ h => h.elim, fun a _ => rfl, by simp [Ev.orphans], rfl⟩
  | succ b ih =>
    intro e fallen
    cases hc : e.carrierAt b with
    | none =>
      obtain ⟨falls, h1, h2⟩ := ih e fallen
      have : e.orphans (b + 1) fallen = e.orphans b fallen := by
        conv => lhs; unfold Ev.orphans
        rw [hc]
      rw [this]
      refine ⟨falls, ?_, h2⟩
      intro a; rw [h1 a]
      constructor
      · rintro ⟨x, y⟩; exact ⟨by omega, y⟩
      · rintro ⟨x, c, en, y, z⟩
        refine ⟨?_, c, en, y, z⟩
        rcases Nat.lt_succ_iff_lt_or_eq.1 x with x | x
        · exact x
        · subst x; rw [hc] at y; simp at y
    | some c =>
      by_cases hn : (c.condemned.isNone && e.namesAny c.slot fallen) = true
      · have hor : e.orphans (b + 1) fallen = Ev.orphans b (c.slot :: fallen) (e.sentence b .orphan) := by
          conv => lhs; unfold Ev.orphans
          rw [hc]; dsimp only; rw [if_pos hn]
        rw [hor]
        have hs := Ev.sentence_at e b c .orphan hc
        generalize e.sentence b .orphan = e' at hs
        obtain ⟨falls, h1, h2⟩ := ih e' (c.slot :: fallen)
        have hother : ∀ a, a ≠ b → e'.carrierAt a = e.carrierAt a := by
          intro a ha; rw [hs]; exact State.withCarrier_other _ _ _ _ ha
        have hb : e'.carrierAt b = some { c with condemned := some .orphan, phase := if c.phase
            = .arriving then .ready else c.phase } := by
          rw [hs]; exact State.withCarrier_at _ _ _
        have hent : e'.entryAt = e.entryAt := by rw [hs]; rfl
        have hlt : ∀ a, falls a → a < b := fun a h => ((h1 a).1 h).1
        rw [Bool.and_eq_true] at hn
        obtain ⟨hn1, hn2⟩ := hn
        unfold State.namesAny at hn2
        cases hen : e.entryAt c.slot with
        | none => rw [hen] at hn2; simp at hn2
        | some en =>
          rw [hen] at hn2
          simp only [List.any_eq_true, List.contains_iff_mem] at hn2
          refine ⟨fun a => a = b ∨ falls a, ?_, ?_, ?_, ?_, ?_⟩
          · intro a
            by_cases ha : a = b
            · subst ha
              constructor
              · intro _
                obtain ⟨x, hx1, hx2⟩ := hn2
                exact ⟨by omega, c, en, hc, by simpa using hn1, hen, x, hx1, .inl hx2⟩
              · intro _; exact .inl rfl
            · have := h1 a
              rw [hother a ha, hent] at this
              constructor
              · rintro (h | h)
                · exact absurd h ha
                obtain ⟨y1, k, ek, y2, y3, y4, sl, y5, y6⟩ := this.1 h
                refine ⟨by omega, k, ek, y2, y3, y4, sl, y5, ?_⟩
                rcases y6 with y6 | ⟨a', k', z1, z2, z3, z4⟩
                · rcases List.mem_cons.1 y6 with y6 | y6
                  · exact .inr ⟨b, c, by omega, .inl rfl, hc, y6.symm⟩
                  · exact .inl y6
                · rw [hother a' (by have := hlt a' z2; omega)] at z3
                  exact .inr ⟨a', k', z1, .inr z2, z3, z4⟩
              · rintro ⟨y1, k, ek, y2, y3, y4, sl, y5, y6⟩
                refine .inr (this.2 ⟨by omega, k, ek, y2, y3, y4, sl, y5, ?_⟩)
                rcases y6 with y6 | ⟨a', k', z1, z2, z3, z4⟩
                · exact .inl (List.mem_cons_of_mem _ y6)
                · rcases z2 with z2 | z2
                  · subst z2; rw [hc] at z3
                    rw [← Option.some.inj z3] at z4
                    exact .inl (by rw [← z4]; exact List.mem_cons_self)
                  · refine .inr ⟨a', k', z1, z2, ?_, z4⟩
                    rw [hother a' (by have := hlt a' z2; omega)]; exact z3
          · intro a k hk ha
            rcases ha with ha | ha
            · subst ha
              rw [h2.miss a (fun h => by have := hlt a h; omega), hb]
              rw [hc] at hk; rw [Option.some.inj hk]
            · rw [h2.hit a k (by rw [hother a (by have := hlt a ha; omega)]; exact hk) ha]
          · intro a ha
            rw [h2.miss a (fun h => ha (.inr h)), hother a (fun h => ha (.inl h))]
          · rw [h2.due]
            have hx : e'.xferDue = (e.xferDue || decide (c.phase = .arriving)) := by rw [hs]
            rw [hx]
            constructor
            · rintro (h | ⟨a, k, y1, y2, y3⟩)
              · rcases Bool.or_eq_true _ _ ▸ h with h | h
                · exact .inl h
                · exact .inr ⟨b, c, .inl rfl, hc, of_decide_eq_true h⟩
              · rw [hother a (by have := hlt a y1; omega)] at y2
                exact .inr ⟨a, k, .inr y1, y2, y3⟩
            · rintro (h | ⟨a, k, y1, y2, y3⟩)
              · left; rw [h]; rfl
              · rcases y1 with y1 | y1
                · subst y1; rw [hc] at y2; rw [← Option.some.inj y2] at y3
                  left; rw [decide_eq_true y3]; simp
                · right; exact ⟨a, k, y1, by rw [hother a (by have := hlt a y1; omega)]; exact y2, y3⟩
          · have := h2.eq
            rw [this, hs]; rfl
      · obtain ⟨falls, h1, h2⟩ := ih e fallen
        have : e.orphans (b + 1) fallen = e.orphans b fallen := by
          conv => lhs; unfold Ev.orphans
          rw [hc]; dsimp only; rw [if_neg hn]
        rw [this]
        refine ⟨falls, ?_, h2⟩
        intro a; rw [h1 a]
        constructor
        · rintro ⟨x, y⟩; exact ⟨by omega, y⟩
        · rintro ⟨x, k, en, y, z1, z2, sl, z3, z4⟩
          refine ⟨?_, k, en, y, z1, z2, sl, z3, z4⟩
          rcases Nat.lt_succ_iff_lt_or_eq.1 x with x | x
          · exact x
          · exfalso; subst x
            rw [hc] at y; have y := Option.some.inj y; subst y
            apply hn
            rw [Bool.and_eq_true]
            refine ⟨by rw [z1]; rfl, ?_⟩
            unfold State.namesAny; rw [z2]
            simp only [List.any_eq_true, List.contains_iff_mem]
            rcases z4 with z4 | ⟨a', k', w1, w2, w3, w4⟩
            · exact ⟨sl, z3, z4⟩
            · have := ((h1 a').1 w2).1; omega

theorem Ev.orphans_hsq_sli (e : Ev) (b : Nat) (f : List Nat) : (e.orphans b f).hsq = e.hsq ∧ (e.orphans b f).sli
    = e.sli := by
  obtain ⟨_, _, h⟩ := Ev.orphans_spec b e f
  rw [h.eq]; exact ⟨rfl, rfl⟩

theorem Ev.condemn_again (e : Ev) (b : Nat) (c : Carrier) (r : Reason) (h : e.carrierAt b = some c)
    (hn : c.condemned ≠ none) : e.condemn b r = e := by
  unfold Ev.condemn; rw [h]; dsimp only; rw [if_pos (by cases hx : c.condemned <;> simp_all)]

/-- What taking carriers out can do: the records are gone, their entries PLANNED again, and everything else stands
    (R91, R97). -/
structure Ev.Dropped (e t : Ev) (l : List Nat) : Prop where
  rcu : t.rcu = e.rcu
  rsl : t.rsl = e.rsl
  sli : t.sli = e.sli
  trk : t.trk = e.trk
  hsq : t.hsq = e.hsq
  dfu : t.dfu = e.dfu
  hmn : t.hmn = e.hmn
  scp : t.scp = e.scp
  now : t.now = e.now
  loopTx : t.loopTx = e.loopTx
  hostTx : t.hostTx = e.hostTx
  rel : t.btc.releases = e.btc.releases
  bin : t.btc.bin = e.btc.bin
  pls : { t.pls with plan := e.pls.plan } = e.pls
  carrier : ∀ k, t.carrierAt k = if k ∈ l then none else e.carrierAt k
  entry : ∀ slot, t.entryAt slot = (e.entryAt slot).map fun en => if l.any (fun b => (e.carrierAt b).any
      fun c => c.slot == slot) then { en with state := .planned } else en

/-- One removal (R91). -/
theorem Ev.removeCarrier_spec (e : Ev) (b : Nat) : Ev.Dropped e (e.removeCarrier b) [b] := by
  unfold Ev.removeCarrier
  cases hc : e.carrierAt b with
  | none =>
    refine ⟨rfl, rfl, rfl, rfl, rfl, rfl, rfl, rfl, rfl, rfl, rfl, rfl, rfl, rfl, ?_, ?_⟩
    · intro k; by_cases h : k = b <;> simp [h, hc]
    · intro slot; simp [hc]
  | some c =>
    have hd : (e.dropCarrier b).toState = e.toState.withoutCarrier b := rfl
    have he : ∀ slot, (e.dropCarrier b).entryAt slot = e.entryAt slot := fun _ => rfl
    cases hen : e.entryAt c.slot with
    | none =>
      have : ((e.dropCarrier b).changeEntry c.slot fun en => { en with state := .planned }).toState
          = e.toState.withoutCarrier b := by
        unfold Ev.changeEntry; rw [he, hen]; exact hd
      dsimp only
      constructor
      all_goals try (rw [this]; rfl)
      · intro k; rw [this]; unfold State.withoutCarrier State.carrierAt; dsimp only
        by_cases h : k = b
        · subst h; simp
        · rw [Table.read_strike_other _ _ _ h]; simp [h]
      · intro slot; rw [this]
        show e.entryAt slot = _
        simp only [List.any_cons, List.any_nil, hc, Option.any_some, Bool.or_false]
        cases hs : e.entryAt slot with
        | none => rfl
        | some en =>
          have : (c.slot == slot) = false := by
            simp; intro h; subst h; rw [hen] at hs; simp at hs
          rw [this]; rfl
    | some en =>
      have : ((e.dropCarrier b).changeEntry c.slot fun en => { en with state := .planned }).toState =
          (e.toState.withoutCarrier b).withEntry c.slot { en with state := .planned } := by
        unfold Ev.changeEntry; rw [he, hen]; exact (Ev.noteChange_toState _ _ _)
      dsimp only
      constructor
      all_goals try (rw [this]; rfl)
      · intro k; rw [this]; unfold State.withoutCarrier State.withEntry State.carrierAt; dsimp only
        by_cases h : k = b
        · subst h; simp
        · rw [Table.read_strike_other _ _ _ h]; simp [h]
      · intro slot; rw [this]
        simp only [List.any_cons, List.any_nil, hc, Option.any_some, Bool.or_false]
        unfold State.withoutCarrier State.withEntry State.entryAt; dsimp only
        by_cases h : slot = c.slot
        · subst h; rw [Table.read_write_same]
          have : Table.read e.pls.plan c.slot = some en := hen
          rw [this]; simp
        · rw [Table.read_write_other _ _ _ _ h]
          have : (c.slot == slot) = false := by simp; exact fun k => h k.symm
          rw [this]; simp

theorem Ev.removeCarriers_spec (l : List Nat) : ∀ e : Ev, l.Nodup → Ev.Dropped e (l.foldl
    (fun e b => e.removeCarrier b) e) l := by
  induction l with
  | nil => intro e _; exact ⟨rfl, rfl, rfl, rfl, rfl, rfl, rfl, rfl, rfl, rfl, rfl, rfl, rfl, rfl, fun k => by simp,
      fun slot => by simp⟩
  | cons b l ih =>
    intro e hn
    rw [List.foldl_cons]
    have h1 := Ev.removeCarrier_spec e b
    have h2 := ih (e.removeCarrier b) (List.nodup_cons.1 hn).2
    have hb := (List.nodup_cons.1 hn).1
    refine ⟨h2.rcu.trans h1.rcu, h2.rsl.trans h1.rsl, h2.sli.trans h1.sli, h2.trk.trans h1.trk, h2.hsq.trans h1.hsq,
        h2.dfu.trans h1.dfu, h2.hmn.trans h1.hmn, h2.scp.trans h1.scp, h2.now.trans h1.now,
        h2.loopTx.trans h1.loopTx, h2.hostTx.trans h1.hostTx, h2.rel.trans h1.rel, h2.bin.trans h1.bin, ?_, ?_, ?_⟩
    · have := congrArg (fun p : Pls => { p with plan := e.pls.plan }) h2.pls
      exact Eq.trans this h1.pls
    · intro k; rw [h2.carrier, h1.carrier]
      by_cases hk : k ∈ l <;> by_cases hkb : k = b <;> simp [hk, hkb]
    · intro slot; rw [h2.entry, h1.entry]
      have hany : l.any (fun k => ((e.removeCarrier b).carrierAt k).any fun c => c.slot == slot) = l.any (fun k =>
          (e.carrierAt k).any fun c => c.slot == slot) := by
        clear h2 ih hn
        induction l with
        | nil => rfl
        | cons a l ih =>
          have ha : a ≠ b := by intro x; apply hb; simp [x]
          rw [List.any_cons, List.any_cons, ih (fun x => hb (by simp [x])), h1.carrier]
          simp [ha]
      rw [hany]
      cases e.entryAt slot with
      | none => rfl
      | some en =>
        simp only [Option.map_some, List.any_cons, List.any_nil, Bool.or_false]
        by_cases q1 : (e.carrierAt b).any (fun c => c.slot == slot) = true <;> by_cases q2 : l.any (fun k =>
            (e.carrierAt k).any fun c => c.slot == slot) = true <;> simp only [q1, q2, if_true, Bool.true_or,
            Bool.or_true, Bool.or_self]
        all_goals rfl

theorem mem_setAdd (l : List Nat) (n m : Nat) : m ∈ setAdd l n ↔ m = n ∨ m ∈ l := by
  induction l with
  | nil => simp [setAdd]
  | cons a l ih =>
    unfold setAdd
    split
    · simp
    · split
      · next h => subst h; simp
      · simp [ih]; tauto

theorem mem_foldl_setAdd (h : List Nat) : ∀ (l : List Nat) (m : Nat), m ∈ h.foldl setAdd l ↔ m ∈ l ∨ m ∈ h := by
  induction h with
  | nil => intro l m; simp
  | cons a h ih => intro l m; rw [List.foldl_cons, ih, mem_setAdd]; simp; tauto

theorem Ev.dropCarriers_spec (l held : List Nat) (e : Ev) (h : l.Nodup) (t : Ev) (ht : t = (l.foldl
    (fun e b => e.removeCarrier b) e).onRcu fun r => { r with stranded := held.foldl setAdd r.stranded }) :
    Ev.Dropped { e with rcu := { e.rcu with stranded := t.rcu.stranded } } t l ∧
    (∀ b, b ∈ t.rcu.stranded ↔ b ∈ e.rcu.stranded ∨ b ∈ held) := by
  have h := Ev.removeCarriers_spec l e h
  generalize (l.foldl (fun e b => e.removeCarrier b) e) = z at h ht
  subst ht
  constructor
  · refine ⟨?_, h.rsl, h.sli, h.trk, h.hsq, h.dfu, h.hmn, h.scp, h.now, h.loopTx, h.hostTx, h.rel, h.bin, h.pls,
        h.carrier, h.entry⟩
    unfold Ev.onRcu; dsimp only; rw [h.rcu]
  · intro b
    unfold Ev.onRcu
    dsimp only
    rw [mem_foldl_setAdd, h.rcu]

/-- Every carrier removed and every held berth stranded (R97). -/
theorem Ev.dropTrain_spec (e : Ev) : Ev.Dropped { e with rcu :=
    { e.rcu with stranded := e.dropTrain.rcu.stranded } } e.dropTrain (List.range 10) ∧
    (∀ b, b ∈ e.dropTrain.rcu.stranded ↔ b ∈ e.rcu.stranded ∨ (b < 10 ∧ (e.carrierAt b ≠ none ∨ e.reserved b
        = true))) := by
  have h := Ev.dropCarriers_spec (List.range 10) e.heldBerths e List.nodup_range e.dropTrain
      (by unfold Ev.dropTrain; rfl)
  refine ⟨h.1, ?_⟩
  intro b
  rw [h.2]
  unfold State.heldBerths
  rw [List.mem_filter]
  simp only [List.mem_range, Bool.or_eq_true, Option.isSome_iff_ne_none]

/-! ### What the removal of the whole train leaves -/

theorem Ev.removeCarrier_keeps (e : Ev) (b : Nat) :
    (e.removeCarrier b).pending = e.pending ∧ (e.removeCarrier b).replyDue = e.replyDue := by
  unfold Ev.removeCarrier
  split
  · exact ⟨rfl, rfl⟩
  · next c _ =>
    unfold Ev.changeEntry
    split
    · exact ⟨rfl, rfl⟩
    · constructor
      · rw [Ev.noteChange_toState]; rfl
      · rw [Ev.noteChange_replyDue]; rfl

theorem Ev.dropCarriers_keeps (l held : List Nat) : ∀ e t : Ev, t = (l.foldl (fun e b => e.removeCarrier b) e).onRcu
    (fun r => { r with stranded := held.foldl setAdd r.stranded }) → t.pending = e.pending ∧ t.replyDue = e.replyDue := by
  induction l with
  | nil => rintro e _ rfl; exact ⟨rfl, rfl⟩
  | cons b l ih =>
    intro e t ht
    have h := ih (e.removeCarrier b) t (by rw [ht, List.foldl_cons])
    exact ⟨h.1.trans (e.removeCarrier_keeps b).1, h.2.trans (e.removeCarrier_keeps b).2⟩

/-- The removal of the whole train writes the plan, the stranded berths and the train, and nothing else (R97). -/
theorem Ev.dropTrain_toState (e : Ev) :
    e.dropTrain.toState = { e.toState with
      pls := { e.pls with plan := e.dropTrain.pls.plan }
      rcu := { e.rcu with stranded := e.dropTrain.rcu.stranded }
      btc := { e.btc with train := e.dropTrain.btc.train } }
    ∧ e.dropTrain.replyDue = e.replyDue := by
  have h := e.dropTrain_spec.1
  have hk : e.dropTrain.pending = e.pending ∧ e.dropTrain.replyDue = e.replyDue :=
    Ev.dropCarriers_keeps (List.range 10) e.heldBerths e e.dropTrain (by unfold Ev.dropTrain; rfl)
  generalize e.dropTrain = d at h hk
  refine ⟨?_, hk.2⟩
  have hp : ({ d.pls with plan := e.pls.plan } : Pls) = e.pls := h.pls
  have hb : d.btc.releases = e.btc.releases ∧ d.btc.bin = e.btc.bin := ⟨h.rel, h.bin⟩
  have ext : ∀ a b : State, a.pls = b.pls → a.rcu = b.rcu → a.rsl = b.rsl → a.sli = b.sli → a.btc = b.btc → a.trk = b.trk →
      a.hsq = b.hsq → a.dfu = b.dfu → a.hmn = b.hmn → a.scp = b.scp → a.now = b.now → a.hostTx = b.hostTx →
      a.loopTx = b.loopTx → a.pending = b.pending → a = b := by
    intro a b; cases a; cases b; simp_all
  refine ext _ _ ?_ h.rcu h.rsl h.sli ?_ h.trk h.hsq h.dfu h.hmn h.scp h.now h.hostTx h.loopTx hk.1
  · show d.pls = { e.pls with plan := d.pls.plan }
    rw [← hp]
  · show d.btc = ⟨d.btc.train, e.btc.releases, e.btc.bin⟩
    rw [← hb.1, ← hb.2]

/-- Rewriting a listed entry to one of the same station and course, both unfinished, leaves the lowest course. -/
theorem Table.foldl_lowerCourse_write (station : Nat) (plan : Table Entry) (slot : Nat) (en new : Entry)
    (hr : Table.rising plan = true) (hp : Table.read plan slot = some en) (h1 : new.station = en.station)
    (h2 : new.course = en.course) (h3 : en.state.unfinished = true) (h4 : new.state.unfinished = true) :
    ∀ acc : Option Nat,
      ((Table.write plan slot new).filter fun p => p.2.station == station && p.2.state.unfinished).foldl
          (fun acc p => lowerCourse acc p.2.course) acc
        = (plan.filter fun p => p.2.station == station && p.2.state.unfinished).foldl
          (fun acc p => lowerCourse acc p.2.course) acc := by
  induction plan with
  | nil => cases hp
  | cons q t ih =>
    obtain ⟨k, v⟩ := q
    intro acc
    rw [Table.read_cons] at hp
    by_cases hk : slot = k
    · subst hk
      rw [if_pos rfl, Option.some.injEq] at hp
      subst hp
      have hw : Table.write ((slot, v) :: t) slot new = (slot, new) :: t := by simp [Table.write]
      rw [hw]
      by_cases hs : v.station = station <;> simp [h1, h2, h3, h4, hs]
    · rw [if_neg hk] at hp
      have hrt : (∀ p ∈ t, k < p.1) ∧ Table.rising t = true := by
        simpa [Table.rising, List.all_eq_true] using hr
      have hlt : k < slot := hrt.1 (slot, en) (Table.mem_of_read t slot en hp)
      have hw : Table.write ((k, v) :: t) slot new = (k, v) :: Table.write t slot new := by
        simp [Table.write, hk, Nat.not_lt.2 (Nat.le_of_lt hlt)]
      rw [hw]
      have hi := ih hrt.2 hp
      rw [List.filter_cons, List.filter_cons]
      split
      · rw [List.foldl_cons, List.foldl_cons]; exact hi _
      · exact hi _

/-- The entries of the carriers are unfinished, and the plan is in its canonical form: what a removal needs to leave the
lowest course as it is. -/
def State.carriersUnfinished (s : State) : Prop :=
  Table.rising s.pls.plan = true
    ∧ ∀ b c, s.carrierAt b = some c → ∀ en, s.entryAt c.slot = some en → en.state.unfinished = true

theorem Ev.removeCarrier_lowestCourse (e : Ev) (b : Nat) (h : e.carriersUnfinished) :
    (e.removeCarrier b).lowestCourse = e.lowestCourse ∧ (e.removeCarrier b).carriersUnfinished := by
  have hs := e.removeCarrier_spec b
  have hc : ∀ k c, (e.removeCarrier b).carrierAt k = some c → e.carrierAt k = some c := by
    intro k c hk
    rw [hs.carrier] at hk
    split at hk
    · cases hk
    · exact hk
  have key : (e.removeCarrier b).pls.plan = e.pls.plan ∨ ∃ slot en, e.entryAt slot = some en ∧ en.state.unfinished = true
      ∧ (e.removeCarrier b).pls.plan = Table.write e.pls.plan slot { en with state := .planned } := by
    unfold Ev.removeCarrier
    cases hcb : e.carrierAt b with
    | none => exact .inl rfl
    | some c =>
      dsimp only
      unfold Ev.changeEntry
      cases hen : (e.dropCarrier b).entryAt c.slot with
      | none => exact .inl rfl
      | some en =>
        exact .inr ⟨c.slot, en, hen, h.2 b c hcb en hen, congrArg (fun s : State => s.pls.plan) (Ev.noteChange_toState _ _ _)⟩
  have hst : (e.removeCarrier b).rcu = e.rcu := hs.rcu
  rcases key with k | ⟨slot, en, k1, k2, k3⟩
  · refine ⟨?_, by rw [k]; exact h.1, fun a c ha en hen => ?_⟩
    · unfold State.lowestCourse State.stationEntries
      rw [k, hst]
    · unfold State.entryAt at hen
      rw [k] at hen
      exact h.2 a c (hc a c ha) en hen
  · refine ⟨?_, by rw [k3]; exact Table.rising_write _ _ _ h.1, fun a c ha d hd => ?_⟩
    · unfold State.lowestCourse State.stationEntries
      rw [k3, hst]
      exact Table.foldl_lowerCourse_write _ _ slot en { en with state := .planned } h.1 k1 rfl rfl k2 rfl none
    · unfold State.entryAt at hd
      rw [k3] at hd
      by_cases hsl : c.slot = slot
      · rw [hsl, Table.read_write_same, Option.some.injEq] at hd
        rw [← hd]; rfl
      · rw [Table.read_write_other _ _ _ _ hsl] at hd
        exact h.2 a c (hc a c ha) d hd

theorem Ev.dropCarriers_lowestCourse (l held : List Nat) : ∀ e t : Ev, e.carriersUnfinished →
    t = (l.foldl (fun e b => e.removeCarrier b) e).onRcu (fun r => { r with stranded := held.foldl setAdd r.stranded }) →
    t.lowestCourse = e.lowestCourse := by
  induction l with
  | nil => rintro e _ _ rfl; rfl
  | cons b l ih =>
    intro e t he ht
    have h := e.removeCarrier_lowestCourse b he
    exact (ih (e.removeCarrier b) t h.2 (by rw [ht, List.foldl_cons])).trans h.1

/-- With every carrier's entry unfinished, the removal of the whole train leaves the lowest course (R33, R97). -/
theorem Ev.dropTrain_lowestCourse (e : Ev) (h : e.carriersUnfinished) : e.dropTrain.lowestCourse = e.lowestCourse :=
  Ev.dropCarriers_lowestCourse (List.range 10) e.heldBerths e e.dropTrain h (by unfold Ev.dropTrain; rfl)

/-- An orderly state has every carrier's entry IN_TRAIN, so unfinished (R44). -/
theorem State.Orderly.carriersUnfinished {s : State} (h : s.Orderly) (hp : Table.rising s.pls.plan = true) :
    s.carriersUnfinished := by
  refine ⟨hp, fun b c hc en hen => ?_⟩
  obtain ⟨en', h1, h2⟩ := h.listed b c hc
  rw [hen, Option.some.injEq] at h1
  subst h1
  rw [h2]; rfl

end Sys2Proof.Machine
end

