-- ==== Sys2Proof/Laws/Orderly.lean ====
section
/-! SUPPORT. How the blocks agree (`State.Orderly`): the changes that keep it, and the shared operations. -/

namespace Sys2Proof.Machine

-- One proof at a time, so that the package as one text needs few threads.
set_option Elab.async false

/-! ### What the agreement depends on -/

/-- The part of the state the agreement of the blocks speaks of. -/
structure Core where
  plan : Table Entry
  lead : Nat
  run : Nat
  ringHead : Nat
  ringCount : Nat
  mode : Mode
  deploy : Bool
  holds : HoldSet
  stranded : List Nat
  inFlight : Table InFlight
  boomWaiting : Option BoomRequest
  train : Table Carrier
  bin : Nat
  head : HeadState
  atReceive : Bool
  slot : Option Nat
  cal : CalState

/-- That part of a state. -/
def State.core (s : State) : Core :=
  ⟨s.pls.plan, s.pls.lead, s.pls.run, s.pls.ringHead, s.pls.ringCount, s.rcu.mode, s.rcu.deploy, s.rcu.holds,
    s.rcu.stranded, s.sli.inFlight, s.sli.boomWaiting, s.btc.train, s.btc.bin, s.hsq.head, s.hsq.atReceive,
    s.hsq.carrier.map (·.slot), s.dfu.cal⟩

theorem State.holder_of_slot {h : Option HeadCarrier} {n : Nat} : (∃ k, h = some k ∧ k.slot = n) ↔ h.map (·.slot)
    = some n := by
  cases h <;> simp

namespace State.Orderly

/-- States with the same core agree alike. -/
theorem congr {s t : State} (h : s.Orderly) (hc : t.core = s.core) : t.Orderly := by
  unfold State.core at hc
  simp only [Core.mk.injEq] at hc
  obtain ⟨c1, c2, c3, c4, c5, c6, c7, c8, c9, c10, c11, c12, c13, c14, c15, c16, c17⟩ := hc
  have hca : ∀ b, t.carrierAt b = s.carrierAt b := fun b => by unfold State.carrierAt; rw [c12]
  have hen : ∀ b, t.entryAt b = s.entryAt b := fun b => by unfold State.entryAt; rw [c1]
  have hfl : ∀ b, t.flight b = s.flight b := fun b => by unfold State.flight; rw [c10]
  have hin : ∀ b, t.inTrainAt b ↔ s.inTrainAt b := fun b => by unfold State.inTrainAt; rw [hen]
  have hst : ∀ b p, t.standsAt b p ↔ s.standsAt b p := fun b p => by unfold State.standsAt; rw [hca]
  have hru : t.inRun ↔ s.inRun := by unfold State.inRun; rw [c6]
  have hrg : ∀ n, t.pls.region n = s.pls.region n := fun n => by unfold Pls.region; rw [c2, c3]
  have hrs : ∀ n, t.pls.ringSlot n = s.pls.ringSlot n := fun n => by unfold Pls.ringSlot; rw [c2, c3, c4]
  constructor
  · rw [c13]; exact h.bin
  · intro n; rw [hrg, hen, c5]; simp only [hrs]; exact h.ring n
  · intro b c; rw [hca, hin]; exact h.listed b c
  · intro n; rw [hin]; simp only [hca]; exact h.claimed n
  · intro a b c d; rw [hca, hca]; exact h.single a b c d
  · intro b c; rw [hca, c9]; exact h.berths b c
  · intro b; rw [hst, hca, c9, c14, c15]; exact h.leaving b
  · have := h.head
    simp only [hca, c14]
    rcases this with k | ⟨k, c, q, k1, k2, k3⟩
    · exact .inl k
    · refine .inr ⟨k, ?_⟩
      obtain ⟨q', e1, e2⟩ := State.holder_of_slot.2 (c16.trans (State.holder_of_slot.1 ⟨q, k2, k3⟩))
      exact ⟨c, q', k1, e1, e2⟩
  · intro u r; rw [hfl]
    intro k
    have := h.orders u r k
    unfold State.serves at this ⊢
    simp only [hst, c14, c6, c7, c13]
    exact this
  · intro q; rw [c11, hfl, c6, c7]; exact h.waiting q
  · intro k; rw [c17, c6, c7]; exact h.calibrating k
  · rw [hru, c14]; simp only [hca]; exact h.atRest
  · rw [c6, c8]; exact h.reasons
  · rw [c6, c9]; exact h.strandings
  · rw [c6, c8, c9]; exact h.jammed

/-! ### What follows from it -/

/-- A head that is not VACANT stands in a run. -/
theorem inRun_of_head {s : State} (h : s.Orderly) (k : s.hsq.head ≠ .vacant) : s.inRun :=
  by_contra fun n => k (h.atRest n).2

/-- A carrier stands in a run. -/
theorem inRun_of_carrier {s : State} (h : s.Orderly) {b : Nat} {c : Carrier} (k : s.carrierAt b = some c) : s.inRun :=
  by_contra fun n => by simp [(h.atRest n).1] at k

end State.Orderly

/-- No order of the head is in flight. -/
def State.headFree (s : State) : Prop := ∀ u r, s.flight u = some r → r.requester ≠ .hsq

/-- The unit whose order a head state waits for (R117). -/
def HeadState.unit : HeadState → Option Nat
  | .gripping | .releasing => some gripperUnit
  | .approaching | .retracting => some boomUnit
  | .settling | .lockHold => some wristUnit
  | .pressing => some pressUnit
  | .dumping => some chuteUnit
  | .vacant | .gustHold | .readyToPress | .measuring => none

namespace State.Orderly

/-- Where the unit of the head state has no order in flight, no order of the head is in flight. -/
theorem headFree {s : State} (h : s.Orderly) (k : ∀ u, s.hsq.head.unit = some u → s.flight u
    = none) : s.headFree := by
  intro u r hf hq
  have := h.orders u r hf
  unfold State.serves at this
  have k' : ∀ st : HeadState, s.hsq.head = st → st.unit ≠ some u := by
    intro st e1 e2
    have := k u (by rw [e1, e2]); rw [hf] at this; cases this
  split at this
  · simp [this.2.1] at hq
  · simp [this.2.1] at hq
  · simp [this.2.1] at hq
  · obtain ⟨_, _, _, e, _⟩ := this; simp [e] at hq
  · obtain ⟨rfl, ⟨_, e | e⟩ | ⟨e, _⟩⟩ := this
    · exact k' _ e rfl
    · exact k' _ e rfl
    · simp [e] at hq
  · simp [this.2.1] at hq
  · simp [this.2.1] at hq
  · obtain ⟨rfl, _, e | e⟩ := this <;> exact k' _ e rfl
  · obtain ⟨rfl, _, e⟩ := this; exact k' _ e rfl
  · obtain ⟨rfl, _, e⟩ := this; exact k' _ e rfl
  · obtain ⟨rfl, _, e⟩ := this; exact k' _ e rfl
  · obtain ⟨rfl, _, e, _⟩ := this; exact k' _ e rfl

/-- The head's own reading of its orders in flight is exact. -/
theorem headFree_of_headBusy {s : State} (h : s.Orderly) (k : s.headBusy = false) : s.headFree := by
  intro u r hf hq
  have n : ∀ u ∈ [boomUnit, wristUnit, gripperUnit, pressUnit, chuteUnit], s.flight u ≠ some r := by
    intro v hv e
    unfold State.headBusy at k
    rw [List.any_eq_false] at k
    have := k v hv
    rw [e] at this
    simp [hq] at this
  have := h.orders u r hf
  unfold State.serves at this
  split at this
  · simp [this.2.1] at hq
  · simp [this.2.1] at hq
  · simp [this.2.1] at hq
  · obtain ⟨_, _, _, e, _⟩ := this; simp [e] at hq
  · obtain ⟨rfl, _⟩ := this; exact n _ (by simp) hf
  · simp [this.2.1] at hq
  · simp [this.2.1] at hq
  all_goals obtain ⟨rfl, _⟩ := this; exact n _ (by simp) hf

/-- With an empty train and a VACANT head, only BOOM has an order in flight, in IDLE or STOWING. -/
theorem flights_at_rest {s : State} (h : s.Orderly) (h1 : ∀ b, s.carrierAt b = none) (h2 : s.hsq.head = .vacant)
    {u : Nat} {r : InFlight} (hf : s.flight u = some r) :
    u = boomUnit ∧ (s.rcu.mode = .idle ∨ s.rcu.mode = .stowing) := by
  have := h.orders u r hf
  have hs : ∀ b p, ¬ s.standsAt b p := fun b p => by rintro ⟨c, e, _⟩; simp [h1] at e
  unfold State.serves at this
  split at this
  case h_6 => exact ⟨this.1, .inl this.2.2.1⟩
  case h_7 => exact ⟨this.1, .inr this.2.2⟩
  all_goals simp [hs, h2] at this
  exact ⟨this.1, this.2.2⟩

/-- With an empty train, a VACANT head and no order in flight. -/
theorem bare {s : State} (bin : s.btc.bin ≤ 24)
    (ring : ∀ slot, s.pls.region slot = .run → s.entryAt slot ≠ none → ∃ i, i < s.pls.ringCount ∧ slot
        = s.pls.ringSlot i)
    (plan : ∀ slot, ¬s.inTrainAt slot) (train : ∀ b, s.carrierAt b = none) (head : s.hsq.head = .vacant)
    (flights : ∀ u, s.flight u = none) (waiting : s.sli.boomWaiting = none)
    (cal : ∀ k, s.dfu.cal = .running k → s.rcu.mode = .idle ∧ s.rcu.deploy = false)
    (reasons : s.rcu.mode ≠ .holding → s.rcu.holds = .none)
    (strandings : s.rcu.mode ≠ .holding → s.rcu.mode ≠ .aborted → s.rcu.stranded = [])
    (jammed : s.rcu.mode = .holding → s.rcu.stranded ≠ [] → s.rcu.holds.jam = true) : s.Orderly where
  bin := bin
  ring := ring
  listed b c k := by simp [train] at k
  claimed slot k := (plan slot k).elim
  single a b c d k := by simp [train] at k
  berths b c k := by simp [train] at k
  leaving b k := by obtain ⟨c, e, _⟩ := k; simp [train] at e
  head := .inl ⟨.inl head, train 9⟩
  orders u r k := by simp [flights] at k
  waiting q k := by simp [waiting] at k
  calibrating := cal
  atRest _ := ⟨train, head⟩
  reasons := reasons
  strandings := strandings
  jammed := jammed

end State.Orderly

/-! ### What an order in flight serves, carried over -/

/-- An order is served as before where the carrier it works on, the head, or the mode it waits for stands. -/
theorem State.serves.keep {s t : State} {u : Nat} {r : InFlight} (h : s.serves u r)
    (k1 : ∀ b p, (p = .working ∧ b ≤ 2 ∧ u = b ∨ p = .leaving ∧ u = xferUnit b) → s.standsAt b p → t.standsAt b p)
    (k2 : r.requester = .hsq → t.hsq.head = s.hsq.head ∧ t.btc.bin = s.btc.bin)
    (k3 : r.requester = .dfu ∨ r.requester = .rcu → t.rcu.mode = s.rcu.mode ∧ t.rcu.deploy = s.rcu.deploy) :
    t.serves u r := by
  unfold State.serves at h ⊢
  split at h
  · exact ⟨h.1, h.2.1, k1 0 _ (.inl ⟨rfl, by omega, h.1⟩) h.2.2⟩
  · exact ⟨h.1, h.2.1, k1 1 _ (.inl ⟨rfl, by omega, h.1⟩) h.2.2⟩
  · exact ⟨h.1, h.2.1, k1 2 _ (.inl ⟨rfl, by omega, h.1⟩) h.2.2⟩
  · obtain ⟨b, h1, h2, h3, h4⟩ := h
    exact ⟨b, h1, h2, h3, k1 _ _ (.inr ⟨rfl, h2⟩) h4⟩
  · obtain ⟨h1, ⟨h2, h3⟩ | ⟨h2, h3⟩⟩ := h
    · rw [(k2 h2).1]; exact ⟨h1, .inl ⟨h2, h3⟩⟩
    · rw [(k3 (.inl h2)).1]; exact ⟨h1, .inr ⟨h2, h3⟩⟩
  · rw [(k3 (.inr h.2.1)).1, (k3 (.inr h.2.1)).2]; exact h
  · rw [(k3 (.inr h.2.1)).1]; exact h
  all_goals rw [(k2 h.2.1).1]
  · exact h
  · exact h
  · exact h
  · exact h
  · rw [(k2 h.2.1).2]; exact h

/-- The orders of Run Control and of the Deflection Unit stand in IDLE and STOWING alone. -/
theorem State.serves.at_rest {s : State} {u : Nat} {r : InFlight} (h : s.serves u r)
    (k : r.requester = .dfu ∨ r.requester = .rcu) : u = boomUnit ∧ (s.rcu.mode = .idle ∨ s.rcu.mode = .stowing) := by
  unfold State.serves at h
  split at h
  case h_4 => obtain ⟨b, _, _, h3, _⟩ := h; simp [h3] at k
  case h_5 =>
    obtain ⟨h1, ⟨h2, h3⟩ | ⟨h2, h3⟩⟩ := h
    · simp [h2] at k
    · exact ⟨h1, h3⟩
  case h_6 => exact ⟨h.1, .inl h.2.2.1⟩
  case h_7 => exact ⟨h.1, .inr h.2.2⟩
  all_goals simp [h.2.1] at k

/-- The orders of the selector and of the train stand at the units of the berths. -/
theorem State.serves.of_train {s : State} {u : Nat} {r : InFlight} (h : s.serves u r)
    (k : r.requester = .rsl ∨ r.requester = .btc) : ∃ b p, (p = .working ∧ b ≤ 2 ∧ u = b ∨ p = .leaving ∧ u
        = xferUnit b)
      ∧ s.standsAt b p := by
  unfold State.serves at h
  split at h
  case h_1 => exact ⟨0, _, .inl ⟨rfl, by omega, h.1⟩, h.2.2⟩
  case h_2 => exact ⟨1, _, .inl ⟨rfl, by omega, h.1⟩, h.2.2⟩
  case h_3 => exact ⟨2, _, .inl ⟨rfl, by omega, h.1⟩, h.2.2⟩
  case h_4 => obtain ⟨b, _, h2, _, h4⟩ := h; exact ⟨b, _, .inr ⟨rfl, h2⟩, h4⟩
  case h_5 => obtain ⟨h1, ⟨h2, h3⟩ | ⟨h2, h3⟩⟩ := h <;> simp [h2] at k
  all_goals simp [h.2.1] at k

theorem State.not_rest_of_inRun {s : State} (h : s.inRun) : ¬(s.rcu.mode = .idle ∨ s.rcu.mode = .stowing) := by
  rcases h with h | h | h <;> simp [h]

theorem State.inRun_of_running {s : State} (h : s.running = true) : s.inRun := by
  rcases (State.running_iff s).1 h with k | k
  · exact .inl k
  · exact .inr (.inr k)

namespace State.Orderly

/-- In a run no order of Run Control or of the Deflection Unit is in flight, none waits, and no routine runs. -/
theorem of_run {s : State} (h : s.Orderly) (k : s.inRun) :
    (∀ u r, s.flight u = some r → ¬(r.requester = .dfu ∨ r.requester = .rcu)) ∧ s.sli.boomWaiting = none
      ∧ ∀ k, s.dfu.cal ≠ .running k := by
  have n := State.not_rest_of_inRun k
  refine ⟨fun u r hf hq => n ((h.orders u r hf).at_rest hq).2, ?_, ?_⟩
  · cases hw : s.sli.boomWaiting with
    | none => rfl
    | some q =>
      have := (h.waiting q hw).2
      cases q
      · exact (n (.inl this.1)).elim
      · exact (n (.inr this)).elim
  · intro j hj
    exact n (.inl (h.calibrating j hj).1)

/-- A request waits behind an order in flight at BOOM. -/
theorem not_waiting {s : State} (h : s.Orderly) (k : s.flight boomUnit = none) : s.sli.boomWaiting = none := by
  cases hw : s.sli.boomWaiting with
  | none => rfl
  | some q => obtain ⟨⟨r, _, _, e, _⟩, _⟩ := h.waiting q hw; simp [k] at e

/-! ### The changes that keep the agreement -/

/-- An order is sent to a free unit, where something waits for its ending. -/
theorem send {e : Ev} {u : Nat} {o : Order} {q : Requester} (h : e.toState.Orderly) (hu : e.flight u = none)
    (hs : ∀ tag n, e.toState.serves u ⟨o, tag, q, n⟩) : (e.send u o q).toState.Orderly := by
  have hf : ∀ v, (e.send u o q).flight v = if v = u then some ⟨o, e.tagOf u, q, e.now⟩ else e.flight v := by
    intro v
    show Table.read (Table.write e.sli.inFlight u _) v = _
    split
    · next hv => subst hv; exact Table.read_write_same _ _ _
    · next hv => exact Table.read_write_other _ _ _ _ hv
  have hw : (e.send u o q).sli.boomWaiting = e.sli.boomWaiting := rfl
  refine { h with orders := ?_, waiting := ?_ }
  · intro v r; rw [hf]
    split
    · next hv => intro k; cases k; subst hv; exact hs _ _
    · exact h.orders v r
  · intro b hb
    rw [hw] at hb
    obtain ⟨⟨r, p, v, k1, k2⟩, k3⟩ := h.waiting b hb
    refine ⟨⟨r, p, v, ?_, k2⟩, k3⟩
    rw [hf, if_neg]
    · exact k1
    · rintro rfl; rw [hu] at k1; cases k1

/-- The record of an order is cleared, where no request waits behind it. -/
theorem strike {e : Ev} (u : Nat) (h : e.toState.Orderly) (hw : u = boomUnit → e.sli.boomWaiting = none) :
    (e.onSli fun l => { l with inFlight := Table.strike l.inFlight u }).toState.Orderly := by
  have hf : ∀ v, (e.onSli fun l => { l with inFlight := Table.strike l.inFlight u }).flight v =
      if v = u then none else e.flight v := by
    intro v
    show Table.read (Table.strike e.sli.inFlight u) v = _
    split
    · next hv => subst hv; exact Table.read_strike_same _ _
    · next hv => exact Table.read_strike_other _ _ _ hv
  refine { h with orders := ?_, waiting := ?_ }
  · intro v r; rw [hf]
    split
    · intro k; cases k
    · exact h.orders v r
  · intro b hb
    obtain ⟨⟨r, p, v, k1, k2⟩, k3⟩ := h.waiting b hb
    refine ⟨⟨r, p, v, ?_, k2⟩, k3⟩
    rw [hf, if_neg]
    · exact k1
    · intro k; have := hw k.symm; rw [show e.sli.boomWaiting = some b from hb] at this; cases this

/-- The head goes to another state, and its orders in flight are what the new state waits for. -/
theorem setHead {s t : State} (h : s.Orderly)
    (hc : t.core = { s.core with head := t.hsq.head, atReceive := t.hsq.atReceive, slot := t.hsq.carrier.map (·.slot) })
    (hf : ∀ u r, s.flight u = some r → r.requester = .hsq → t.serves u r)
    (h8 : s.standsAt 8 .leaving → t.hsq.head = .vacant ∧ t.hsq.atReceive = true)
    (hh : ((t.hsq.head = .vacant ∨ t.hsq.head = .retracting) ∧ s.carrierAt 9 = none)
      ∨ ((t.hsq.head ≠ .vacant ∧ t.hsq.head ≠ .retracting)
        ∧ ∃ c k, s.carrierAt 9 = some c ∧ t.hsq.carrier = some k ∧ k.slot = c.slot))
    (hr : t.hsq.head ≠ .vacant → s.inRun) : t.Orderly := by
  unfold State.core at hc
  simp only [Core.mk.injEq] at hc
  obtain ⟨c1, c2, c3, c4, c5, c6, c7, c8, c9, c10, c11, c12, c13, -, -, -, c17⟩ := hc
  have hca : ∀ b, t.carrierAt b = s.carrierAt b := fun b => by unfold State.carrierAt; rw [c12]
  have hen : ∀ b, t.entryAt b = s.entryAt b := fun b => by unfold State.entryAt; rw [c1]
  have hfl : ∀ b, t.flight b = s.flight b := fun b => by unfold State.flight; rw [c10]
  have hin : ∀ b, t.inTrainAt b ↔ s.inTrainAt b := fun b => by unfold State.inTrainAt; rw [hen]
  have hst : ∀ b p, t.standsAt b p ↔ s.standsAt b p := fun b p => by unfold State.standsAt; rw [hca]
  have hru : t.inRun ↔ s.inRun := by unfold State.inRun; rw [c6]
  have hrg : ∀ n, t.pls.region n = s.pls.region n := fun n => by unfold Pls.region; rw [c2, c3]
  have hrs : ∀ n, t.pls.ringSlot n = s.pls.ringSlot n := fun n => by unfold Pls.ringSlot; rw [c2, c3, c4]
  constructor
  · rw [c13]; exact h.bin
  · intro n; rw [hrg, hen, c5]; simp only [hrs]; exact h.ring n
  · intro b c; rw [hca, hin]; exact h.listed b c
  · intro n; rw [hin]; simp only [hca]; exact h.claimed n
  · intro a b c d; rw [hca, hca]; exact h.single a b c d
  · intro b c; rw [hca, c9]; exact h.berths b c
  · intro b; rw [hst, hca, c9]
    intro k
    obtain ⟨k1, k2, k3, _⟩ := h.leaving b k
    exact ⟨k1, k2, k3, by rintro rfl; exact h8 k⟩
  · simp only [hca]; exact hh
  · intro u r; rw [hfl]
    intro k
    by_cases q : r.requester = .hsq
    · exact hf u r k q
    · exact (h.orders u r k).keep (fun b p _ => (hst b p).2) (fun x => (q x).elim) (fun _ => ⟨c6, c7⟩)
  · intro q; rw [c11, hfl, c6, c7]; exact h.waiting q
  · intro k; rw [c17, c6, c7]; exact h.calibrating k
  · rw [hru]; simp only [hca]
    intro k
    exact ⟨(h.atRest k).1, by_contra fun n => k (hr n)⟩
  · rw [c6, c8]; exact h.reasons
  · rw [c6, c9]; exact h.strandings
  · rw [c6, c8, c9]; exact h.jammed

/-- A head that holds a carrier goes to another state in which it holds it. -/
theorem headOn {s t : State} (h : s.Orderly) (hc : t.core = { s.core with head := t.hsq.head })
    (hf : ∀ u r, s.flight u = some r → r.requester = .hsq → t.serves u r)
    (hs : s.hsq.head ≠ .vacant ∧ s.hsq.head ≠ .retracting) (ht : t.hsq.head ≠ .vacant ∧ t.hsq.head ≠ .retracting) :
    t.Orderly := by
  have ha : t.hsq.atReceive = s.hsq.atReceive := congrArg Core.atReceive hc
  have hsl : t.hsq.carrier.map (·.slot) = s.hsq.carrier.map (·.slot) := congrArg Core.slot hc
  refine h.setHead (by rw [ha, hsl]; exact hc) hf ?_ ?_ (fun _ => h.inRun_of_head hs.1)
  · intro k; exact (hs.1 ((h.leaving 8 k).2.2.2 rfl).1).elim
  · rcases h.head with ⟨k, _⟩ | ⟨_, c, q, k1, k2, k3⟩
    · exact (k.elim hs.1 hs.2).elim
    · obtain ⟨q', e1, e2⟩ := State.holder_of_slot.2 (hsl.trans (State.holder_of_slot.1 ⟨q, k2, k3⟩))
      exact .inr ⟨ht, c, q', k1, e1, e2⟩

/-- The phase or another field of a carrier changes, not its slot. -/
theorem rephase {s t : State} {b : Nat} {c c' : Carrier} (h : s.Orderly) (hb : s.carrierAt b = some c)
    (hc : t.core = { s.core with train := Table.write s.btc.train b c' }) (hs : c'.slot = c.slot)
    (hl : c'.phase = c.phase ∨ c.phase ≠ .leaving ∧ (c.phase = .working → s.flight b = none ∨ 2 < b)
      ∧ (c'.phase = .leaving → b ≤ 8 ∧ s.carrierAt (b + 1) = none ∧ (b + 1) ∉ s.rcu.stranded
        ∧ (b = 8 → s.hsq.head = .vacant ∧ s.hsq.atReceive = true))) : t.Orderly := by
  unfold State.core at hc
  simp only [Core.mk.injEq] at hc
  obtain ⟨c1, c2, c3, c4, c5, c6, c7, c8, c9, c10, c11, c12, c13, c14, c15, c16, c17⟩ := hc
  have hca : ∀ a, t.carrierAt a = if a = b then some c' else s.carrierAt a := by
    intro a; unfold State.carrierAt; rw [c12]
    split
    · next e => subst e; exact Table.read_write_same _ _ _
    · next e => exact Table.read_write_other _ _ _ _ e
  have hno : ∀ a, t.carrierAt a = none ↔ s.carrierAt a = none := by
    intro a; rw [hca]; split
    · next e => subst e; simp [hb]
    · rfl
  have hsl : ∀ a x, t.carrierAt a = some x → ∃ y, s.carrierAt a = some y ∧ y.slot = x.slot := by
    intro a x; rw [hca]; split
    · next e => subst e; intro k; cases k; exact ⟨c, hb, hs.symm⟩
    · intro k; exact ⟨x, k, rfl⟩
  have hsl' : ∀ a x, s.carrierAt a = some x → ∃ y, t.carrierAt a = some y ∧ y.slot = x.slot := by
    intro a x k; rw [hca]; split
    · next e => subst e; rw [hb] at k; cases k; exact ⟨c', rfl, hs⟩
    · exact ⟨x, k, rfl⟩
  have hen : ∀ b, t.entryAt b = s.entryAt b := fun b => by unfold State.entryAt; rw [c1]
  have hfl : ∀ b, t.flight b = s.flight b := fun b => by unfold State.flight; rw [c10]
  have hin : ∀ b, t.inTrainAt b ↔ s.inTrainAt b := fun b => by unfold State.inTrainAt; rw [hen]
  have hru : t.inRun ↔ s.inRun := by unfold State.inRun; rw [c6]
  have hrg : ∀ n, t.pls.region n = s.pls.region n := fun n => by unfold Pls.region; rw [c2, c3]
  have hrs : ∀ n, t.pls.ringSlot n = s.pls.ringSlot n := fun n => by unfold Pls.ringSlot; rw [c2, c3, c4]
  constructor
  · rw [c13]; exact h.bin
  · intro n; rw [hrg, hen, c5]; simp only [hrs]; exact h.ring n
  · intro a x k; rw [hin]; obtain ⟨y, e1, e2⟩ := hsl a x k; rw [← e2]; exact h.listed a y e1
  · intro n; rw [hin]; intro k
    obtain ⟨a, x, e1, e2⟩ := h.claimed n k
    obtain ⟨y, e3, e4⟩ := hsl' a x e1
    exact ⟨a, y, e3, e4.trans e2⟩
  · intro a1 a2 x1 x2 k1 k2 k3
    obtain ⟨y1, e1, e2⟩ := hsl a1 x1 k1
    obtain ⟨y2, e3, e4⟩ := hsl a2 x2 k2
    exact h.single a1 a2 y1 y2 e1 e3 (by rw [e2, e4, k3])
  · intro a x k; rw [c9]; obtain ⟨y, e1, _⟩ := hsl a x k; exact h.berths a y e1
  · rintro a ⟨x, k1, k2⟩
    rw [hno, c9, c14, c15]
    rw [hca] at k1
    split at k1
    · next e =>
      subst e; cases k1
      rcases hl with hl | ⟨_, _, hl⟩
      · exact h.leaving a ⟨c, hb, by rw [← hl]; exact k2⟩
      · exact hl k2
    · exact h.leaving a ⟨x, k1, k2⟩
  · rw [c14, hno]
    rcases h.head with k | ⟨k, x, q, k1, k2, k3⟩
    · exact .inl k
    · obtain ⟨y, e3, e4⟩ := hsl' 9 x k1
      obtain ⟨q', e1, e2⟩ := State.holder_of_slot.2 (c16.trans (State.holder_of_slot.1 ⟨q, k2, k3.trans e4.symm⟩))
      exact .inr ⟨k, y, q', e3, e1, e2⟩
  · intro u r; rw [hfl]
    intro k
    refine (h.orders u r k).keep ?_ (fun _ => ⟨c14, c13⟩) (fun _ => ⟨c6, c7⟩)
    rintro a p hp ⟨x, k1, k2⟩
    by_cases e : a = b
    · subst e
      rw [hb] at k1; cases k1
      rcases hl with hl | ⟨n1, n2, _⟩
      · exact ⟨c', by rw [hca, if_pos rfl], hl.trans k2⟩
      · exfalso
        rcases hp with ⟨rfl, hb2, rfl⟩ | ⟨rfl, _⟩
        · rcases n2 k2 with n | n
          · rw [n] at k; cases k
          · omega
        · exact n1 k2
    · exact ⟨x, by rw [hca, if_neg e]; exact k1, k2⟩
  · intro q; rw [c11, hfl, c6, c7]; exact h.waiting q
  · intro k; rw [c17, c6, c7]; exact h.calibrating k
  · rw [hru, c14]; simp only [hno]; exact h.atRest
  · rw [c6, c8]; exact h.reasons
  · rw [c6, c9]; exact h.strandings
  · rw [c6, c8, c9]; exact h.jammed

/-- A carrier leaves the train, and its entry leaves IN_TRAIN; from berth 9 the head goes on without it. -/
theorem drop {s t : State} {b : Nat} {c : Carrier} {en : Entry} (h : s.Orderly) (hb : s.carrierAt b = some c)
    (hc : t.core = { s.core with
      plan := Table.write s.pls.plan c.slot en, train := Table.strike s.btc.train b, bin := t.btc.bin
      head := t.hsq.head, atReceive := t.hsq.atReceive, slot := t.hsq.carrier.map (·.slot) })
    (he : en.state ≠ .inTrain) (hw : c.phase = .working → s.flight b = none ∨ 2 < b)
    (hl : c.phase = .leaving → s.flight (xferUnit b) = none) (hbin : t.btc.bin ≤ 24)
    (h9 : b ≠ 9 → t.btc.bin = s.btc.bin ∧ t.hsq.head = s.hsq.head ∧ t.hsq.atReceive = s.hsq.atReceive
      ∧ t.hsq.carrier.map (·.slot) = s.hsq.carrier.map (·.slot))
    (h9' : b = 9 → s.headFree ∧ (t.hsq.head = .vacant ∨ t.hsq.head = .retracting)) : t.Orderly := by
  unfold State.core at hc
  simp only [Core.mk.injEq] at hc
  obtain ⟨c1, c2, c3, c4, c5, c6, c7, c8, c9, c10, c11, c12, -, -, -, -, c17⟩ := hc
  obtain ⟨en0, hen0, hen1⟩ := h.listed b c hb
  have hca : ∀ a, t.carrierAt a = if a = b then none else s.carrierAt a := by
    intro a; unfold State.carrierAt; rw [c12]
    split
    · next e => subst e; exact Table.read_strike_same _ _
    · next e => exact Table.read_strike_other _ _ _ e
  have hof : ∀ a x, t.carrierAt a = some x → a ≠ b ∧ s.carrierAt a = some x := by
    intro a x k; rw [hca] at k; split at k
    · cases k
    · next e => exact ⟨e, k⟩
  have hen : ∀ n, t.entryAt n = if n = c.slot then some en else s.entryAt n := by
    intro n; unfold State.entryAt; rw [c1]
    split
    · next e => subst e; exact Table.read_write_same _ _ _
    · next e => exact Table.read_write_other _ _ _ _ e
  have hin : ∀ n, t.inTrainAt n ↔ n ≠ c.slot ∧ s.inTrainAt n := by
    intro n; unfold State.inTrainAt; rw [hen]
    split
    · next e =>
      constructor
      · rintro ⟨x, k1, k2⟩; cases k1; exact (he k2).elim
      · rintro ⟨k, _⟩; exact (k e).elim
    · next e => simp [e]
  have hoc : ∀ n, t.entryAt n ≠ none → s.entryAt n ≠ none := by
    intro n k; rw [hen] at k; split at k
    · next e => rw [e, hen0]; simp
    · exact k
  have hfl : ∀ b, t.flight b = s.flight b := fun b => by unfold State.flight; rw [c10]
  have hrun : s.inRun := h.inRun_of_carrier hb
  have hru : t.inRun ↔ s.inRun := by unfold State.inRun; rw [c6]
  have hrg : ∀ n, t.pls.region n = s.pls.region n := fun n => by unfold Pls.region; rw [c2, c3]
  have hrs : ∀ n, t.pls.ringSlot n = s.pls.ringSlot n := fun n => by unfold Pls.ringSlot; rw [c2, c3, c4]
  constructor
  · exact hbin
  · intro n k1 k2; rw [c5]; simp only [hrs]; exact h.ring n (by rw [← hrg]; exact k1) (hoc n k2)
  · intro a x k
    obtain ⟨k1, k2⟩ := hof a x k
    rw [hin]
    exact ⟨fun k3 => k1 (h.single a b x c k2 hb k3), h.listed a x k2⟩
  · intro n k
    obtain ⟨k1, k2⟩ := (hin n).1 k
    obtain ⟨a, x, e1, e2⟩ := h.claimed n k2
    refine ⟨a, x, ?_, e2⟩
    rw [hca, if_neg]
    · exact e1
    · rintro rfl; rw [hb] at e1; cases e1; exact k1 e2.symm
  · intro a1 a2 x1 x2 k1 k2
    exact h.single a1 a2 x1 x2 (hof _ _ k1).2 (hof _ _ k2).2
  · intro a x k; rw [c9]; exact h.berths a x (hof _ _ k).2
  · rintro a ⟨x, k1, k2⟩
    obtain ⟨n1, n2⟩ := hof _ _ k1
    obtain ⟨l1, l2, l3, l4⟩ := h.leaving a ⟨x, n2, k2⟩
    refine ⟨l1, ?_, by rw [c9]; exact l3, ?_⟩
    · rw [hca]; split
      · rfl
      · exact l2
    · rintro rfl
      have : b ≠ 9 := by rintro rfl; rw [hb] at l2; cases l2
      obtain ⟨_, q1, q2, _⟩ := h9 this
      rw [q1, q2]; exact l4 rfl
  · by_cases e : b = 9
    · exact .inl ⟨(h9' e).2, by rw [hca, if_pos e.symm]⟩
    · obtain ⟨_, q1, _, q3⟩ := h9 e
      rw [q1, hca, if_neg (fun k => e k.symm)]
      rcases h.head with k | ⟨k, x, q, k1, k2, k3⟩
      · exact .inl k
      · obtain ⟨q', e1, e2⟩ := State.holder_of_slot.2 (q3.trans (State.holder_of_slot.1 ⟨q, k2, k3⟩))
        exact .inr ⟨k, x, q', k1, e1, e2⟩
  · intro u r; rw [hfl]
    intro k
    by_cases q9 : b = 9 ∧ r.requester = .hsq
    · exact ((h9' q9.1).1 u r k q9.2).elim
    · refine (h.orders u r k).keep ?_ (fun q => ?_) (fun _ => ⟨c6, c7⟩)
      · rintro a p hp ⟨x, k1, k2⟩
        refine ⟨x, ?_, k2⟩
        rw [hca, if_neg]
        · exact k1
        · rintro rfl
          rw [hb] at k1; cases k1
          rcases hp with ⟨rfl, hb2, rfl⟩ | ⟨rfl, rfl⟩
          · rcases hw k2 with n | n
            · rw [n] at k; cases k
            · omega
          · rw [hl k2] at k; cases k
      · have : b ≠ 9 := fun e => q9 ⟨e, q⟩
        exact ⟨(h9 this).2.1, (h9 this).1⟩
  · intro q; rw [c11, hfl, c6, c7]; exact h.waiting q
  · intro k; rw [c17, c6, c7]; exact h.calibrating k
  · intro k; exact (k (hru.2 hrun)).elim
  · rw [c6, c8]; exact h.reasons
  · rw [c6, c9]; exact h.strandings
  · rw [c6, c8, c9]; exact h.jammed

/-- A carrier takes up the next berth; in berth 9 the head takes it over. -/
theorem shift {s t : State} {b : Nat} {c c' : Carrier} (h : s.Orderly) (hb : s.carrierAt b = some c)
    (hp : c.phase = .leaving) (hm : s.flight (xferUnit b) = none)
    (hc : t.core = { s.core with
      train := Table.write (Table.strike s.btc.train b) (b + 1) c'
      head := t.hsq.head, atReceive := t.hsq.atReceive, slot := t.hsq.carrier.map (·.slot) })
    (hs : c'.slot = c.slot) (hp' : c'.phase ≠ .leaving)
    (h8 : b ≠ 8 → t.hsq.head = s.hsq.head ∧ t.hsq.atReceive = s.hsq.atReceive
      ∧ t.hsq.carrier.map (·.slot) = s.hsq.carrier.map (·.slot))
    (h8' : b = 8 → (t.hsq.head ≠ .vacant ∧ t.hsq.head ≠ .retracting)
      ∧ t.hsq.carrier.map (·.slot) = some c.slot) : t.Orderly := by
  unfold State.core at hc
  simp only [Core.mk.injEq] at hc
  obtain ⟨c1, c2, c3, c4, c5, c6, c7, c8, c9, c10, c11, c12, c13, -, -, -, c17⟩ := hc
  obtain ⟨l1, l2, l3, l4⟩ := h.leaving b ⟨c, hb, hp⟩
  have hca : ∀ a, t.carrierAt a = if a = b + 1 then some c' else if a = b then none else s.carrierAt a := by
    intro a; unfold State.carrierAt; rw [c12]
    split
    · next e => subst e; exact Table.read_write_same _ _ _
    · next e =>
      rw [Table.read_write_other _ _ _ _ e]
      split
      · next e' => subst e'; exact Table.read_strike_same _ _
      · next e' => exact Table.read_strike_other _ _ _ e'
  have hof : ∀ a x, t.carrierAt a = some x → a = b + 1 ∧ x = c' ∨ (a ≠ b + 1 ∧ a ≠ b) ∧ s.carrierAt a = some x := by
    intro a x k; rw [hca] at k; split at k
    · next e => cases k; exact .inl ⟨e, rfl⟩
    · split at k
      · cases k
      · next e1 e2 => exact .inr ⟨⟨e1, e2⟩, k⟩
  have hen : ∀ b, t.entryAt b = s.entryAt b := fun b => by unfold State.entryAt; rw [c1]
  have hfl : ∀ b, t.flight b = s.flight b := fun b => by unfold State.flight; rw [c10]
  have hin : ∀ b, t.inTrainAt b ↔ s.inTrainAt b := fun b => by unfold State.inTrainAt; rw [hen]
  have hrun : s.inRun := h.inRun_of_carrier hb
  have hru : t.inRun ↔ s.inRun := by unfold State.inRun; rw [c6]
  have hrg : ∀ n, t.pls.region n = s.pls.region n := fun n => by unfold Pls.region; rw [c2, c3]
  have hrs : ∀ n, t.pls.ringSlot n = s.pls.ringSlot n := fun n => by unfold Pls.ringSlot; rw [c2, c3, c4]
  constructor
  · rw [c13]; exact h.bin
  · intro n; rw [hrg, hen, c5]; simp only [hrs]; exact h.ring n
  · intro a x k; rw [hin]
    rcases hof a x k with ⟨_, rfl⟩ | ⟨_, k'⟩
    · rw [hs]; exact h.listed b c hb
    · exact h.listed a x k'
  · intro n; rw [hin]; intro k
    obtain ⟨a, x, e1, e2⟩ := h.claimed n k
    by_cases e : a = b
    · subst e; rw [hb] at e1; cases e1
      exact ⟨a + 1, c', by rw [hca, if_pos rfl], hs.trans e2⟩
    · refine ⟨a, x, ?_, e2⟩
      rw [hca, if_neg, if_neg e]
      · exact e1
      · rintro rfl; rw [l2] at e1; cases e1
  · intro a1 a2 x1 x2 k1 k2 k3
    rcases hof _ _ k1 with ⟨rfl, rfl⟩ | ⟨⟨n1, n2⟩, k1'⟩ <;> rcases hof _ _ k2 with ⟨rfl, rfl⟩ | ⟨⟨m1, m2⟩, k2'⟩
    · rfl
    · exact (m2 (h.single a2 b x2 c k2' hb (by rw [← k3, hs]))).elim
    · exact (n2 (h.single a1 b x1 c k1' hb (by rw [k3, hs]))).elim
    · exact h.single a1 a2 x1 x2 k1' k2' k3
  · intro a x k; rw [c9]
    rcases hof _ _ k with ⟨rfl, rfl⟩ | ⟨_, k'⟩
    · exact ⟨by omega, l3⟩
    · exact h.berths a x k'
  · rintro a ⟨x, k1, k2⟩
    rcases hof _ _ k1 with ⟨rfl, rfl⟩ | ⟨⟨n1, n2⟩, k1'⟩
    · exact (hp' k2).elim
    · obtain ⟨q1, q2, q3, q4⟩ := h.leaving a ⟨x, k1', k2⟩
      refine ⟨q1, ?_, by rw [c9]; exact q3, ?_⟩
      · rw [hca, if_neg (by omega), if_neg]
        · exact q2
        · intro e; rw [e, hb] at q2; cases q2
      · intro e8
        have : b ≠ 8 := by omega
        rw [(h8 this).1, (h8 this).2.1]; exact q4 e8
  · by_cases e : b = 8
    · obtain ⟨q1, q2⟩ := h8' e
      obtain ⟨k, e1, e2⟩ := State.holder_of_slot.2 q2
      exact .inr ⟨q1, c', k, by rw [hca, if_pos (by omega)], e1, e2.trans hs.symm⟩
    · obtain ⟨q1, _, q3⟩ := h8 e
      rw [q1, hca, if_neg (by omega)]
      split
      · next e9 => omega
      · rcases h.head with k | ⟨k, x, q, k1, k2, k3⟩
        · exact .inl k
        · obtain ⟨q', e1, e2⟩ := State.holder_of_slot.2 (q3.trans (State.holder_of_slot.1 ⟨q, k2, k3⟩))
          exact .inr ⟨k, x, q', k1, e1, e2⟩
  · intro u r; rw [hfl]
    intro k
    by_cases q8 : b = 8 ∧ r.requester = .hsq
    · exact (h.headFree (by rw [(l4 q8.1).1]; simp [HeadState.unit]) u r k q8.2).elim
    · refine (h.orders u r k).keep ?_ (fun q => ?_) (fun _ => ⟨c6, c7⟩)
      · rintro a p hp2 ⟨x, k1, k2⟩
        have n1 : a ≠ b + 1 := by rintro rfl; rw [l2] at k1; cases k1
        have n2 : a ≠ b := by
          rintro rfl
          rw [hb] at k1; cases k1
          rcases hp2 with ⟨rfl, _⟩ | ⟨_, rfl⟩
          · rw [hp] at k2; cases k2
          · rw [hm] at k; cases k
        exact ⟨x, by rw [hca, if_neg n1, if_neg n2]; exact k1, k2⟩
      · have : b ≠ 8 := fun e => q8 ⟨e, q⟩
        exact ⟨(h8 this).1, c13⟩
  · intro q; rw [c11, hfl, c6, c7]; exact h.waiting q
  · intro k; rw [c17, c6, c7]; exact h.calibrating k
  · intro k; exact (k (hru.2 hrun)).elim
  · rw [c6, c8]; exact h.reasons
  · rw [c6, c9]; exact h.strandings
  · rw [c6, c8, c9]; exact h.jammed

/-- A carrier is created in berth 0, WORKING, and its entry becomes IN_TRAIN. -/
theorem board {s t : State} {c : Carrier} {en en' : Entry} (h : s.Orderly) (h0 : s.carrierAt 0 = none)
    (hst : 0 ∉ s.rcu.stranded) (hru : s.inRun) (hn : s.entryAt c.slot = some en) (hni : en.state ≠ .inTrain)
    (hc : t.core = { s.core with
      plan := Table.write s.pls.plan c.slot en', train := Table.write s.btc.train 0 c })
    (he : en'.state = .inTrain) (hp : c.phase = .working) : t.Orderly := by
  unfold State.core at hc
  simp only [Core.mk.injEq] at hc
  obtain ⟨c1, c2, c3, c4, c5, c6, c7, c8, c9, c10, c11, c12, c13, c14, c15, c16, c17⟩ := hc
  have hca : ∀ a, t.carrierAt a = if a = 0 then some c else s.carrierAt a := by
    intro a; unfold State.carrierAt; rw [c12]
    split
    · next e => subst e; exact Table.read_write_same _ _ _
    · next e => exact Table.read_write_other _ _ _ _ e
  have hof : ∀ a x, t.carrierAt a = some x → a = 0 ∧ x = c ∨ a ≠ 0 ∧ s.carrierAt a = some x := by
    intro a x k; rw [hca] at k; split at k
    · next e => cases k; exact .inl ⟨e, rfl⟩
    · next e => exact .inr ⟨e, k⟩
  have hen : ∀ n, t.entryAt n = if n = c.slot then some en' else s.entryAt n := by
    intro n; unfold State.entryAt; rw [c1]
    split
    · next e => subst e; exact Table.read_write_same _ _ _
    · next e => exact Table.read_write_other _ _ _ _ e
  have hin : ∀ n, t.inTrainAt n ↔ n = c.slot ∨ s.inTrainAt n := by
    intro n; unfold State.inTrainAt; rw [hen]
    split
    · next e => simp [e, he]
    · next e => simp [e]
  have hnot : ¬ s.inTrainAt c.slot := by rintro ⟨x, k1, k2⟩; rw [hn] at k1; cases k1; exact hni k2
  have hoc : ∀ n, t.entryAt n ≠ none → s.entryAt n ≠ none := by
    intro n k; rw [hen] at k; split at k
    · next e => rw [e, hn]; simp
    · exact k
  have hfl : ∀ b, t.flight b = s.flight b := fun b => by unfold State.flight; rw [c10]
  have hru' : t.inRun ↔ s.inRun := by unfold State.inRun; rw [c6]
  have hrg : ∀ n, t.pls.region n = s.pls.region n := fun n => by unfold Pls.region; rw [c2, c3]
  have hrs : ∀ n, t.pls.ringSlot n = s.pls.ringSlot n := fun n => by unfold Pls.ringSlot; rw [c2, c3, c4]
  constructor
  · rw [c13]; exact h.bin
  · intro n k1 k2; rw [c5]; simp only [hrs]; exact h.ring n (by rw [← hrg]; exact k1) (hoc n k2)
  · intro a x k; rw [hin]
    rcases hof a x k with ⟨_, rfl⟩ | ⟨_, k'⟩
    · exact .inl rfl
    · exact .inr (h.listed a x k')
  · intro n k
    rcases (hin n).1 k with rfl | k
    · exact ⟨0, c, by rw [hca, if_pos rfl], rfl⟩
    · obtain ⟨a, x, e1, e2⟩ := h.claimed n k
      refine ⟨a, x, ?_, e2⟩
      rw [hca, if_neg]
      · exact e1
      · rintro rfl; rw [h0] at e1; cases e1
  · intro a1 a2 x1 x2 k1 k2 k3
    rcases hof _ _ k1 with ⟨rfl, rfl⟩ | ⟨n1, k1'⟩ <;> rcases hof _ _ k2 with ⟨rfl, rfl⟩ | ⟨m1, k2'⟩
    · rfl
    · exact (hnot (by rw [k3]; exact h.listed a2 x2 k2')).elim
    · exact (hnot (by rw [← k3]; exact h.listed a1 x1 k1')).elim
    · exact h.single a1 a2 x1 x2 k1' k2' k3
  · intro a x k; rw [c9]
    rcases hof _ _ k with ⟨rfl, rfl⟩ | ⟨_, k'⟩
    · exact ⟨by omega, hst⟩
    · exact h.berths a x k'
  · rintro a ⟨x, k1, k2⟩
    rcases hof _ _ k1 with ⟨rfl, rfl⟩ | ⟨n1, k1'⟩
    · rw [hp] at k2; cases k2
    · obtain ⟨q1, q2, q3, q4⟩ := h.leaving a ⟨x, k1', k2⟩
      refine ⟨q1, ?_, by rw [c9]; exact q3, by rw [c14, c15]; exact q4⟩
      rw [hca, if_neg (by omega)]; exact q2
  · rw [c14, hca, if_neg (by omega)]
    rcases h.head with k | ⟨k, x, q, k1, k2, k3⟩
    · exact .inl k
    · obtain ⟨q', e1, e2⟩ := State.holder_of_slot.2 (c16.trans (State.holder_of_slot.1 ⟨q, k2, k3⟩))
      exact .inr ⟨k, x, q', k1, e1, e2⟩
  · intro u r; rw [hfl]
    intro k
    refine (h.orders u r k).keep ?_ (fun _ => ⟨c14, c13⟩) (fun _ => ⟨c6, c7⟩)
    rintro a p _ ⟨x, k1, k2⟩
    refine ⟨x, ?_, k2⟩
    rw [hca, if_neg]
    · exact k1
    · rintro rfl; rw [h0] at k1; cases k1
  · intro q; rw [c11, hfl, c6, c7]; exact h.waiting q
  · intro k; rw [c17, c6, c7]; exact h.calibrating k
  · intro k; exact (k (hru'.2 hru)).elim
  · rw [c6, c8]; exact h.reasons
  · rw [c6, c9]; exact h.strandings
  · rw [c6, c8, c9]; exact h.jammed

/-- The plan or the ring changes, no entry enters or leaves IN_TRAIN, and the occupied Run slots stay in the ring. -/
theorem replan {s t : State} (h : s.Orderly)
    (hc : t.core = { s.core with
      plan := t.pls.plan, lead := t.pls.lead, run := t.pls.run, ringHead := t.pls.ringHead,
          ringCount := t.pls.ringCount })
    (hr : ∀ slot, t.pls.region slot = .run → t.entryAt slot ≠ none → ∃ i, i < t.pls.ringCount ∧ slot
        = t.pls.ringSlot i)
    (hin : ∀ slot, t.inTrainAt slot ↔ s.inTrainAt slot) : t.Orderly := by
  unfold State.core at hc
  simp only [Core.mk.injEq] at hc
  obtain ⟨-, -, -, -, -, c6, c7, c8, c9, c10, c11, c12, c13, c14, c15, c16, c17⟩ := hc
  have hca : ∀ b, t.carrierAt b = s.carrierAt b := fun b => by unfold State.carrierAt; rw [c12]
  have hfl : ∀ b, t.flight b = s.flight b := fun b => by unfold State.flight; rw [c10]
  have hst : ∀ b p, t.standsAt b p ↔ s.standsAt b p := fun b p => by unfold State.standsAt; rw [hca]
  have hru : t.inRun ↔ s.inRun := by unfold State.inRun; rw [c6]
  constructor
  · rw [c13]; exact h.bin
  · exact hr
  · intro b c; rw [hca, hin]; exact h.listed b c
  · intro n; rw [hin]; simp only [hca]; exact h.claimed n
  · intro a b c d; rw [hca, hca]; exact h.single a b c d
  · intro b c; rw [hca, c9]; exact h.berths b c
  · intro b; rw [hst, hca, c9, c14, c15]; exact h.leaving b
  · rw [c14]; simp only [hca]
    rcases h.head with k | ⟨k, c, q, k1, k2, k3⟩
    · exact .inl k
    · refine .inr ⟨k, ?_⟩
      obtain ⟨q', e1, e2⟩ := State.holder_of_slot.2 (c16.trans (State.holder_of_slot.1 ⟨q, k2, k3⟩))
      exact ⟨c, q', k1, e1, e2⟩
  · intro u r; rw [hfl]
    intro k
    exact (h.orders u r k).keep (fun b p _ => (hst b p).2) (fun _ => ⟨c14, c13⟩) (fun _ => ⟨c6, c7⟩)
  · intro q; rw [c11, hfl, c6, c7]; exact h.waiting q
  · intro k; rw [c17, c6, c7]; exact h.calibrating k
  · rw [hru, c14]; simp only [hca]; exact h.atRest
  · rw [c6, c8]; exact h.reasons
  · rw [c6, c9]; exact h.strandings
  · rw [c6, c8, c9]; exact h.jammed

/-- Run Control goes from a mode of a run to a mode of a run, with other reasons and other stranded berths. -/
theorem onRun {s t : State} (h : s.Orderly) (hs : s.inRun) (ht : t.inRun)
    (hc : t.core = { s.core with mode := t.rcu.mode, holds := t.rcu.holds, stranded := t.rcu.stranded })
    (hb : ∀ b ∈ t.rcu.stranded, b ∈ s.rcu.stranded ∨ s.carrierAt b = none ∧ ∀ a, b = a + 1 → ¬s.standsAt a .leaving)
    (h1 : t.rcu.mode ≠ .holding → t.rcu.holds = .none ∧ t.rcu.stranded = [])
    (h2 : t.rcu.mode = .holding → t.rcu.stranded ≠ [] → t.rcu.holds.jam = true) : t.Orderly := by
  unfold State.core at hc
  simp only [Core.mk.injEq] at hc
  obtain ⟨c1, c2, c3, c4, c5, -, c7, -, -, c10, c11, c12, c13, c14, c15, c16, c17⟩ := hc
  obtain ⟨r1, r2, r3⟩ := h.of_run hs
  have hca : ∀ b, t.carrierAt b = s.carrierAt b := fun b => by unfold State.carrierAt; rw [c12]
  have hen : ∀ b, t.entryAt b = s.entryAt b := fun b => by unfold State.entryAt; rw [c1]
  have hfl : ∀ b, t.flight b = s.flight b := fun b => by unfold State.flight; rw [c10]
  have hin : ∀ b, t.inTrainAt b ↔ s.inTrainAt b := fun b => by unfold State.inTrainAt; rw [hen]
  have hst : ∀ b p, t.standsAt b p ↔ s.standsAt b p := fun b p => by unfold State.standsAt; rw [hca]
  have hrg : ∀ n, t.pls.region n = s.pls.region n := fun n => by unfold Pls.region; rw [c2, c3]
  have hrs : ∀ n, t.pls.ringSlot n = s.pls.ringSlot n := fun n => by unfold Pls.ringSlot; rw [c2, c3, c4]
  constructor
  · rw [c13]; exact h.bin
  · intro n; rw [hrg, hen, c5]; simp only [hrs]; exact h.ring n
  · intro b c; rw [hca, hin]; exact h.listed b c
  · intro n; rw [hin]; simp only [hca]; exact h.claimed n
  · intro a b c d; rw [hca, hca]; exact h.single a b c d
  · intro b c; rw [hca]; intro k
    refine ⟨(h.berths b c k).1, fun n => ?_⟩
    rcases hb b n with n | ⟨n, _⟩
    · exact (h.berths b c k).2 n
    · rw [n] at k; cases k
  · intro b; rw [hst, hca, c14, c15]
    intro k
    obtain ⟨k1, k2, k3, k4⟩ := h.leaving b k
    refine ⟨k1, k2, fun n => ?_, k4⟩
    rcases hb _ n with n | ⟨_, n⟩
    · exact k3 n
    · exact n b rfl k
  · rw [c14]; simp only [hca]
    rcases h.head with k | ⟨k, c, q, k1, k2, k3⟩
    · exact .inl k
    · refine .inr ⟨k, ?_⟩
      obtain ⟨q', e1, e2⟩ := State.holder_of_slot.2 (c16.trans (State.holder_of_slot.1 ⟨q, k2, k3⟩))
      exact ⟨c, q', k1, e1, e2⟩
  · intro u r; rw [hfl]
    intro k
    exact (h.orders u r k).keep (fun b p _ => (hst b p).2) (fun _ => ⟨c14, c13⟩) (fun q => (r1 u r k q).elim)
  · intro q; rw [c11, r2]; intro k; cases k
  · intro k; rw [c17]; intro q; exact (r3 k q).elim
  · intro k; exact (k ht).elim
  · intro k; exact (h1 k).1
  · intro k _; exact (h1 k).2
  · exact h2

end State.Orderly

end Sys2Proof.Machine
end

