-- ==== Sys2Proof/Laws/OrderlyOps.lean ====
section
/-! SUPPORT. How the blocks agree, kept by the operations on Run Control, the plan, the course state and the train. -/

namespace Sys2Proof.Machine

-- One proof at a time, so that the package as one text needs few threads.
set_option Elab.async false

theorem HoldSet.put_none (r : Hold) : HoldSet.none.put r false = HoldSet.none := by cases r <;> rfl

theorem HoldSet.put_jam (s : HoldSet) (r : Hold) (h : s.jam = true) : (s.put r true).jam = true := by
  cases r <;> first | exact h | rfl

theorem HoldSet.drop_jam (s : HoldSet) (r : Hold) (k : r ≠ .jam) : (s.put r false).jam = s.jam := by
  cases r <;> first | rfl | exact (k rfl).elim

theorem setAdd_ne_nil (l : List Nat) (n : Nat) : setAdd l n ≠ [] := by
  cases l with
  | nil => simp [setAdd]
  | cons a l => unfold setAdd; split <;> [simp; (split <;> simp)]

theorem Ev.setLatch_core (e : Ev) (c : Nat) : (e.setLatch c).toState.core = e.toState.core := by
  unfold Ev.setLatch; split <;> rfl

theorem Ev.refreshLookahead_core (e : Ev) : e.refreshLookahead.toState.core = e.toState.core := by
  unfold Ev.refreshLookahead
  extract_lets e1
  have : e1.toState.core = e.toState.core := rfl
  split
  · exact this
  · split
    · rw [Ev.setLatch_core]; exact this
    · exact this

theorem Ev.finishCourse_core (e : Ev) (c : Nat) : (e.finishCourse c).toState.core = e.toState.core := by
  unfold Ev.finishCourse Ev.withRate; dsimp only; split <;> rfl

/-- A recomputation of the course state leaves the core as it is (R34). -/
theorem Ev.refreshCourse_core (e : Ev) (b : Refresh) : (e.refreshCourse b).toState.core = e.toState.core := by
  unfold Ev.refreshCourse
  extract_lets old new e1 changed e2 e3 e4
  have h1 : e1.toState.core = e.toState.core := rfl
  have h2 : e2.toState.core = e1.toState.core := by
    unfold e2
    cases old with
    | none => rfl
    | some c =>
      dsimp only
      split
      · exact Ev.finishCourse_core _ _
      · rfl
  have h3 : e3.toState.core = e2.toState.core := by
    unfold e3
    cases new with
    | none => rfl
    | some c => exact Ev.setLatch_core _ _
  have h4 : e4.toState.core = e.toState.core := by
    unfold e4; rw [Ev.refreshLookahead_core, h3, h2, h1]
  split
  · exact h4
  · exact h4

namespace State.Orderly

variable {e : Ev}

/-! ### Operations that leave the core as it is -/

theorem report {r : Report} (h : e.toState.Orderly) : (e.report r).toState.Orderly := h.congr rfl
theorem reports {rs : List Report} (h : e.toState.Orderly) : (e.reports rs).toState.Orderly := by
  rw [Ev.reports_toState]; exact h.congr rfl
theorem flush (h : e.toState.Orderly) : e.flush.toState.Orderly := h.congr rfl
theorem reply {c : HostCommand} {st : Status} {rs : List Byte} (h : e.toState.Orderly) :
    (e.reply c st rs).toState.Orderly := h.congr rfl
theorem refuse {c : HostCommand} {st : Status} (h : e.toState.Orderly) :
    (e.refuse c st).toState.Orderly := h.congr rfl
theorem modeReport {c : ModeCause} {p : Mode} (h : e.toState.Orderly) :
    (e.modeReport c p).toState.Orderly := h.congr rfl
theorem promptSel (h : e.toState.Orderly) : e.promptSel.toState.Orderly := h
theorem promptXfer (h : e.toState.Orderly) : e.promptXfer.toState.Orderly := h
theorem promptDrain (h : e.toState.Orderly) : e.promptDrain.toState.Orderly := h
theorem promptRetest (h : e.toState.Orderly) : e.promptRetest.toState.Orderly := h
theorem onTrk {f : Trk → Trk} (h : e.toState.Orderly) : (e.onTrk f).toState.Orderly := h.congr rfl
theorem onScp {f : Scp → Scp} (h : e.toState.Orderly) : (e.onScp f).toState.Orderly := h.congr rfl
theorem onHmn {f : Hmn → Hmn} (h : e.toState.Orderly) : (e.onHmn f).toState.Orderly := h.congr rfl
theorem onRsl {f : Rsl → Rsl} (h : e.toState.Orderly) : (e.onRsl f).toState.Orderly := h.congr rfl
theorem onAttr {a : Attr} {f : AttrRecord → AttrRecord} (h : e.toState.Orderly) : (e.onAttr a f).toState.Orderly :=
  h.congr rfl
theorem saveHealth (h : e.toState.Orderly) : e.saveHealth.toState.Orderly := h.congr rfl
theorem until' {n : Nat} (h : e.toState.Orderly) : (e.until n).toState.Orderly := h.congr rfl
theorem onLoopTx {bs : List Byte} (h : e.toState.Orderly) : (e.onLoopTx bs).toState.Orderly := h.congr rfl
theorem countStale (h : e.toState.Orderly) : e.countStale.toState.Orderly := h.congr rfl

theorem withRate {c : RateCause} {f : Ev → Ev} (h : (f e).toState.Orderly) : (e.withRate c f).toState.Orderly := by
  unfold Ev.withRate
  dsimp only
  split
  · exact h
  · exact h.report

/-! ### The hold reasons and the wear counts -/

/-- A hold reason is raised (R162). -/
theorem raiseHold {r : Hold} {slot : Option Nat} (h : e.toState.Orderly) : (e.raiseHold r slot).toState.Orderly := by
  unfold Ev.raiseHold
  split
  · next m =>
    refine State.Orderly.modeReport (State.Orderly.flush ?_)
    refine h.onRun (.inl m) (.inr (.inl rfl)) rfl (fun b hb => .inl hb) (fun k => (k rfl).elim) (fun _ k => ?_)
    exact (k (h.strandings (by simp [m]) (by simp [m]))).elim
  · next m =>
    refine State.Orderly.modeReport (State.Orderly.flush ?_)
    refine h.onRun (.inr (.inr m)) (.inr (.inl rfl)) rfl (fun b hb => .inl hb) (fun k => (k rfl).elim) (fun _ k => ?_)
    exact (k (h.strandings (by simp [m]) (by simp [m]))).elim
  · next m =>
    refine h.onRun (.inr (.inl m)) (.inr (.inl m)) rfl (fun b hb => .inl hb) (fun k => (k m).elim) (fun _ k => ?_)
    exact HoldSet.put_jam _ _ (h.jammed m k)
  all_goals exact h

/-- A hold reason but JAM goes out of the set (R162). -/
theorem dropHold {r : Hold} (k : r ≠ .jam) (h : e.toState.Orderly) : (e.dropHold r).toState.Orderly := by
  by_cases m : e.rcu.mode = .holding
  · refine h.onRun (.inr (.inl m)) (.inr (.inl m)) rfl (fun b hb => .inl hb) (fun x => (x m).elim) (fun _ x => ?_)
    exact (HoldSet.drop_jam _ _ k).trans (h.jammed m x)
  · refine h.congr ?_
    have : (e.dropHold r).rcu.holds = e.rcu.holds := by
      show e.rcu.holds.put r false = e.rcu.holds
      rw [h.reasons m]; exact HoldSet.put_none r
    show { e.toState.core with holds := (e.dropHold r).rcu.holds } = _
    rw [this]; rfl

theorem crossEffect {a : Attr} (h : e.toState.Orderly) : (e.crossEffect a).toState.Orderly := by
  cases a <;> first | exact h | exact h.raiseHold

theorem uncrossEffect {a : Attr} (h : e.toState.Orderly) : (e.uncrossEffect a).toState.Orderly := by
  cases a <;> first | exact h | exact h.dropHold (by simp)

theorem evaluate {a : Attr} {c : HealthCause} (h : e.toState.Orderly) : (e.evaluate a c).toState.Orderly := by
  unfold Ev.evaluate
  dsimp only
  split
  · exact (h.onAttr (a := a)).crossEffect.report
  · exact (h.onAttr (a := a)).uncrossEffect
  · exact h
  · exact h

/-- A wear event (R178). -/
theorem countWear {a : Attr} (h : e.toState.Orderly) : (e.countWear a).toState.Orderly := by
  unfold Ev.countWear
  split
  · exact (h.onAttr (a := a)).evaluate
  · exact h

/-- A berth is stranded (R92): it holds no carrier and no reservation. -/
theorem strand {b : Nat} (h : e.toState.Orderly) (hr : e.inRun) (hb : e.carrierAt b = none)
    (hl : ∀ a, b = a + 1 → ¬e.standsAt a .leaving) : (e.strand b).toState.Orderly := by
  unfold Ev.strand
  refine countWear ?_
  have hm : ∀ x ∈ setAdd e.rcu.stranded b, x ∈ e.rcu.stranded ∨ e.carrierAt x = none ∧ ∀ a, x = a + 1
      → ¬e.standsAt a .leaving := by
    intro x hx
    rcases (mem_setAdd _ _ _).1 hx with rfl | hx
    · exact .inr ⟨hb, hl⟩
    · exact .inl hx
  have key : ∀ t : State, t.rcu.mode = .holding → t.rcu.stranded = setAdd e.rcu.stranded b → t.rcu.holds.jam = true →
      t.core = { e.toState.core with mode := t.rcu.mode, holds := t.rcu.holds, stranded := t.rcu.stranded } →
      t.Orderly := by
    intro t h1 h2 h3 h4
    exact h.onRun hr (.inr (.inl h1)) h4 (by rw [h2]; exact hm) (fun k => (k h1).elim) (fun _ _ => h3)
  unfold Ev.raiseHold
  split
  · exact State.Orderly.modeReport (State.Orderly.flush (key _ rfl rfl rfl rfl))
  · exact State.Orderly.modeReport (State.Orderly.flush (key _ rfl rfl rfl rfl))
  · next m => exact key _ m rfl rfl rfl
  all_goals
    next m =>
      rcases hr with k | k | k <;> (rw [show e.rcu.mode = _ from m] at k; cases k)

/-! ### The course state and the plan -/

theorem refreshCourse {b : Refresh} (h : e.toState.Orderly) : (e.refreshCourse b).toState.Orderly :=
  h.congr (Ev.refreshCourse_core e b)

theorem noteChange {slot st : Nat} (h : e.toState.Orderly) : (e.noteChange slot st).toState.Orderly := by
  rw [Ev.noteChange_toState]; exact h

/-- A change of an entry that neither enters nor leaves IN_TRAIN. -/
theorem changeEntry {slot : Nat} {f : Entry → Entry} (h : e.toState.Orderly)
    (hf : ∀ en, e.entryAt slot = some en → en.state ≠ .inTrain ∧ (f en).state ≠ .inTrain) :
    (e.changeEntry slot f).toState.Orderly := by
  cases he : e.entryAt slot with
  | none => unfold Ev.changeEntry; rw [he]; exact h
  | some en =>
    rw [Ev.changeEntry_toState slot f e en he]
    have hen : ∀ n, (e.toState.withEntry slot (f en)).entryAt n = if n = slot then some (f en) else e.entryAt n := by
      intro n
      show Table.read (Table.write e.pls.plan slot (f en)) n = _
      split
      · next k => subst k; exact Table.read_write_same _ _ _
      · next k => exact Table.read_write_other _ _ _ _ k
    refine h.replan rfl ?_ ?_
    · intro n k1 k2
      refine h.ring n k1 ?_
      rw [hen] at k2
      split at k2
      · next k => rw [k, he]; simp
      · exact k2
    · intro n
      unfold State.inTrainAt
      rw [hen]
      split
      · next k =>
        subst k
        constructor
        · rintro ⟨x, k1, k2⟩; cases k1; exact ((hf en he).2 k2).elim
        · rintro ⟨x, k1, k2⟩; rw [he] at k1; cases k1; exact ((hf en he).1 k2).elim
      · rfl

/-! ### Carriers -/

/-- A carrier record is rewritten, its slot and its phase kept. -/
theorem onCarrier {b : Nat} {f : Carrier → Carrier} (h : e.toState.Orderly)
    (hf : ∀ c, (f c).slot = c.slot ∧ (f c).phase = c.phase) : (e.onCarrier b f).toState.Orderly := by
  unfold Ev.onCarrier
  split
  · exact h
  · next c hc => exact h.rephase hc rfl (hf c).1 (.inl (hf c).2)

/-- A condemnation leaves every phase but ARRIVING (R71). -/
theorem sentence {b : Nat} {r : Reason} (h : e.toState.Orderly) : (e.sentence b r).toState.Orderly := by
  unfold Ev.sentence
  split
  · exact h
  · next c hc =>
    have : (e.onCarrier b (Carrier.condemn r)).toState.Orderly := by
      unfold Ev.onCarrier; rw [hc]
      refine h.rephase hc rfl rfl ?_
      unfold Carrier.condemn
      by_cases k : c.phase = .arriving
      · right; simp [k]
      · left; simp [k]
    dsimp only
    split
    · exact this
    · exact this

theorem orphans (n : Nat) : ∀ {e : Ev} {fallen : List Nat}, e.toState.Orderly →
    (Ev.orphans n fallen e).toState.Orderly := by
  induction n with
  | zero => intro e fallen h; exact h
  | succ n ih =>
    intro e fallen h
    unfold Ev.orphans
    split
    · exact ih h
    · split
      · exact ih h.sentence
      · exact ih h

/-- A condemnation with its cascade (R85, R86). -/
theorem condemn {b : Nat} {r : Reason} (h : e.toState.Orderly) : (e.condemn b r).toState.Orderly := by
  unfold Ev.condemn
  split
  · exact h
  · split
    · exact h
    · dsimp only
      refine State.Orderly.orphans b ?_
      split
      · refine (h.sentence (b := b) (r := r)).congr ?_
        unfold State.core Ev.onHsq
        dsimp only
        cases (e.sentence b r).hsq.carrier <;> rfl
      · exact h.sentence

/-- A carrier is removed from a berth before the head, with its cascade (R91). -/
theorem removeAndCascade {b : Nat} {c : Carrier} (h : e.toState.Orderly) (hc : e.carrierAt b = some c) (h9 : b ≠ 9)
    (hw : c.phase = .working → e.flight b = none ∨ 2 < b) (hl : c.phase = .leaving → e.flight (xferUnit b) = none) :
    (e.removeAndCascade b).toState.Orderly := by
  unfold Ev.removeAndCascade
  rw [hc]
  dsimp only
  refine State.Orderly.refreshCourse (State.Orderly.orphans b ?_)
  unfold Ev.removeCarrier
  rw [hc]
  dsimp only
  obtain ⟨en, he, _⟩ := h.listed b c hc
  rw [Ev.changeEntry_toState c.slot _ (e.dropCarrier b) en he]
  exact h.drop hc rfl (by simp) hw hl h.bin (fun _ => ⟨rfl, rfl, rfl, rfl⟩) (fun k => (h9 k).elim)

end State.Orderly

end Sys2Proof.Machine
end

