-- ==== Sys2Proof/Laws/OrderlyHead.lean ====
section
/-! SUPPORT. How the blocks agree, kept by the head's cycle, the work at the berths and the transfers. -/

namespace Sys2Proof.Machine

-- One proof at a time, so that the package as one text needs few threads.
set_option Elab.async false

/-- A head state in which the head holds a carrier (R117). -/
def HeadState.holding (st : HeadState) : Prop := st ≠ .vacant ∧ st ≠ .retracting

theorem State.unitFree_iff (s : State) (u : Nat) : s.unitFree u = true ↔ s.flight u = none := by
  unfold State.unitFree; simp

/-- After a removal with its cascade the berth is empty, and no other carrier has become LEAVING. -/
theorem Ev.removeAndCascade_after (e : Ev) (b : Nat) : (e.removeAndCascade b).rcu = e.rcu
    ∧ (e.removeAndCascade b).carrierAt b = none
    ∧ ∀ a, (e.removeAndCascade b).standsAt a .leaving → a ≠ b ∧ e.standsAt a .leaving := by
  unfold Ev.removeAndCascade
  cases hc : e.carrierAt b with
  | none =>
    refine ⟨rfl, hc, fun a k => ⟨?_, k⟩⟩
    rintro rfl; obtain ⟨x, k, _⟩ := k; rw [show e.carrierAt a = some x from k] at hc; cases hc
  | some c =>
    dsimp only
    have d := Ev.removeCarrier_spec e b
    obtain ⟨falls, -, k⟩ := Ev.orphans_spec b (e.removeCarrier b) [c.slot]
    obtain ⟨q, -, -⟩ := Ev.refreshCourse_spec ((e.removeCarrier b).orphans b [c.slot]) .event
    have hca : ∀ a, (((e.removeCarrier b).orphans b [c.slot]).refreshCourse .event).carrierAt a
        = ((e.removeCarrier b).orphans b [c.slot]).carrierAt a := fun a => by unfold State.carrierAt; rw [q.btc]
    have hfrom : ∀ a x, ((e.removeCarrier b).orphans b [c.slot]).carrierAt a = some x →
        ∃ y, a ≠ b ∧ e.carrierAt a = some y ∧ (x.phase = .leaving → y.phase = .leaving) := by
      intro a x hx
      by_cases hf : falls a
      · cases hy : (e.removeCarrier b).carrierAt a with
        | none =>
          exfalso
          have : ∀ n : Nat, ∀ z : Ev, ∀ f, z.carrierAt a = none → (z.orphans n f).carrierAt a = none := by
            intro n
            induction n with
            | zero => intro z f hz; exact hz
            | succ n ih =>
              intro z f hz
              unfold Ev.orphans
              split
              · exact ih _ _ hz
              · next w hw =>
                split
                · refine ih _ _ ?_
                  rw [Ev.sentence_at z n w _ hw]
                  have : a ≠ n := by rintro rfl; rw [hw] at hz; cases hz
                  exact (State.withCarrier_other _ _ _ _ this).trans hz
                · exact ih _ _ hz
          rw [this _ _ _ hy] at hx; cases hx
        | some y =>
          rw [k.hit a y hy hf] at hx
          rw [d.carrier] at hy
          split at hy
          · cases hy
          · next n =>
            refine ⟨y, by simpa using n, hy, ?_⟩
            cases hx
            dsimp only
            split
            · intro z; cases z
            · exact id
      · rw [k.miss a hf, d.carrier] at hx
        split at hx
        · cases hx
        · next n => exact ⟨x, by simpa using n, hx, id⟩
    refine ⟨?_, ?_, ?_⟩
    · rw [q.rcu, k.eq]; exact d.rcu
    · rw [hca]
      cases hx : ((e.removeCarrier b).orphans b [c.slot]).carrierAt b with
      | none => rfl
      | some x => obtain ⟨_, n, _⟩ := hfrom b x hx; exact (n rfl).elim
    · rintro a ⟨x, k1, k2⟩
      rw [hca] at k1
      obtain ⟨y, n, e1, e2⟩ := hfrom a x k1
      exact ⟨n, y, e1, e2 k2⟩

/-- A condemnation leaves the head's state and the orders in flight. -/
theorem Ev.condemn_head (e : Ev) (b : Nat) (r : Reason) :
    (e.condemn b r).hsq.head = e.hsq.head ∧ (e.condemn b r).sli = e.sli := by
  unfold Ev.condemn
  have hs : ∀ x : Ev, (x.sentence b r).hsq = x.hsq ∧ (x.sentence b r).sli = x.sli := by
    intro x; unfold Ev.sentence Ev.onCarrier
    split
    · exact ⟨rfl, rfl⟩
    · dsimp only; split <;> exact ⟨rfl, rfl⟩
  split
  · exact ⟨rfl, rfl⟩
  · split
    · exact ⟨rfl, rfl⟩
    · dsimp only
      rw [(Ev.orphans_hsq_sli _ _ _).1, (Ev.orphans_hsq_sli _ _ _).2]
      have k := congrArg Hsq.head (hs e).1
      split
      · exact ⟨k, (hs e).2⟩
      · exact ⟨k, (hs e).2⟩

/-- A hold reason does not look at the head. -/
theorem Ev.raiseHold_enterHead (e : Ev) (r : Hold) (slot : Option Nat) (st : HeadState) :
    ((e.raiseHold r slot).enterHead st).toState.core = ((e.enterHead st).raiseHold r slot).toState.core := by
  unfold Ev.raiseHold
  have : (e.enterHead st).rcu = e.rcu := rfl
  rw [this]
  cases e.rcu.mode <;> rfl

/-- REJECTS raises no hold, so its count leaves the core as it is (R178). -/
theorem Ev.countWear_rejects_core (e : Ev) : (e.countWear .rejects).toState.core = e.toState.core := by
  unfold Ev.countWear
  split
  · unfold Ev.evaluate
    dsimp only
    split <;> rfl
  · rfl

namespace State.Orderly

variable {e : Ev}

/-! ### Entries and orders -/

/-- With a carrier in the head, no carrier is on its way to berth 9. -/
theorem not_leaving_8 {s : State} (h : s.Orderly) (k : s.hsq.head ≠ .vacant) : ¬s.standsAt 8 .leaving :=
  fun n => k ((h.leaving 8 n).2.2.2 rfl).1

theorem leaveReceive (h : e.toState.Orderly) (k : ¬e.standsAt 8 .leaving) : e.leaveReceive.toState.Orderly := by
  refine h.setHead rfl ?_ (fun n => (k n).elim) h.head (fun n => h.inRun_of_head n)
  intro u r hf _
  exact h.orders u r hf

/-- A head order is sent, or stays unsent (R141). -/
theorem sendHead {u : Nat} {o : Order} (h : e.toState.Orderly) (hs : ∀ tag n, e.toState.serves u ⟨o, tag, .hsq, n⟩) :
    (e.sendHead u o).toState.Orderly := by
  unfold Ev.sendHead
  split
  · next k =>
    rw [Bool.and_eq_true, State.unitFree_iff] at k
    exact (h.send k.2 hs).congr rfl
  · exact h

/-- A head that holds a carrier, with none of its orders in flight, enters another state in which it holds it. -/
theorem enterHead {st : HeadState} (h : e.toState.Orderly) (hf : e.headFree) (hs : e.hsq.head.holding)
    (ht : st.holding) :
    (e.enterHead st).toState.Orderly := by
  refine h.headOn rfl ?_ hs ht
  intro u r k q; exact (hf u r k q).elim

/-- SETTLING and LOCK_HOLD alike wait for a TRIM in flight (R117). -/
theorem enterSettle {st : HeadState} (h : e.toState.Orderly) (hs : e.hsq.head = .settling ∨ e.hsq.head = .lockHold)
    (ht : st = .settling ∨ st = .lockHold) : (e.enterHead st).toState.Orderly := by
  refine h.headOn rfl ?_ (by rcases hs with k | k <;> simp [k]) ?_
  · intro u r k q
    have := h.orders u r k
    have hu : (e.enterHead st).hsq.head = st := rfl
    unfold State.serves at this ⊢
    split at this
    case h_8 =>
      exact ⟨this.1, this.2.1, by rw [hu]; exact ht⟩
    case h_4 => obtain ⟨_, _, _, x, _⟩ := this; simp [q] at x
    case h_5 => obtain ⟨_, ⟨_, x⟩ | ⟨x, _⟩⟩ := this <;> rcases hs with k | k <;> simp_all
    all_goals first
      | (simp [q] at this; done)
      | (exfalso; rcases hs with k | k <;> simp [k] at this)
  · show st ≠ .vacant ∧ st ≠ .retracting
    rcases ht with k | k <;> simp [k]

/-- SETTLING (R123). -/
theorem enterSettling (h : e.toState.Orderly) (hs : (e.hsq.head = .settling ∨ e.hsq.head = .lockHold) ∨ e.headFree
    ∧ e.hsq.head.holding) :
    e.enterSettling.toState.Orderly := by
  have : (e.enterHead .settling).toState.Orderly := by
    rcases hs with k | ⟨k1, k2⟩
    · exact h.enterSettle k (.inl rfl)
    · exact h.enterHead k1 k2 (by unfold HeadState.holding; simp)
  exact this.congr rfl

/-- LOCK_HOLD (R131). -/
theorem enterLockHold (h : e.toState.Orderly) (hs : (e.hsq.head = .settling ∨ e.hsq.head = .lockHold) ∨ e.headFree
    ∧ e.hsq.head.holding) :
    e.enterLockHold.toState.Orderly := by
  have : (e.enterHead .lockHold).toState.Orderly := by
    rcases hs with k | ⟨k1, k2⟩
    · exact h.enterSettle k (.inr rfl)
    · exact h.enterHead k1 k2 (by unfold HeadState.holding; simp)
  exact this.congr rfl

theorem settlePhase (h : e.toState.Orderly) (hs : (e.hsq.head = .settling ∨ e.hsq.head = .lockHold) ∨ e.headFree
    ∧ e.hsq.head.holding) :
    e.settlePhase.toState.Orderly := by
  unfold Ev.settlePhase
  split
  · exact h.enterSettling hs
  · exact h.enterLockHold hs

theorem countGust (h : e.toState.Orderly) : e.countGust.toState.Orderly := by
  unfold Ev.countGust
  exact State.Orderly.withRate (h.congr rfl)

theorem enterGustHold {b : Bool} (h : e.toState.Orderly) (hf : e.headFree) (hs : e.hsq.head.holding) :
    (e.enterGustHold b).toState.Orderly := by
  have : (e.enterHead .gustHold).toState.Orderly := h.enterHead hf hs (by unfold HeadState.holding; simp)
  unfold Ev.enterGustHold
  dsimp only
  split
  · exact State.Orderly.countGust (this.congr rfl)
  · exact this.congr rfl

/-- The bin claim (R88, R134). -/
theorem binClaim (h : e.toState.Orderly) : e.binClaim.toState.Orderly := by
  unfold Ev.binClaim
  split
  · next k =>
    split
    · next k2 =>
      refine h.sendHead fun tag n => ⟨rfl, rfl, ?_, k2⟩
      simp at k; exact k.1.2
    · exact h.raiseHold
  · exact h

/-- DUMPING (R134). -/
theorem enterDumping (h : e.toState.Orderly) (hf : e.headFree)
    (hs : e.hsq.head.holding) : e.enterDumping.toState.Orderly := by
  have : (e.enterHead .dumping).toState.Orderly := h.enterHead hf hs (by unfold HeadState.holding; simp)
  unfold Ev.enterDumping
  exact State.Orderly.binClaim (this.congr rfl)

theorem sendApproach (h : e.toState.Orderly) (k : e.hsq.head = .approaching) : e.sendApproach.toState.Orderly := by
  unfold Ev.sendApproach
  split
  · exact h
  · split
    · refine State.Orderly.leaveReceive (h.sendHead fun tag n => ⟨rfl, .inl ⟨rfl, .inl k⟩⟩) ?_
      have := h.not_leaving_8 (by simp [k])
      rintro ⟨c, k1, k2⟩
      refine this ⟨c, ?_, k2⟩
      rw [← k1]
      unfold State.carrierAt Ev.sendHead
      split <;> rfl
    · exact h

theorem enterApproaching (h : e.toState.Orderly) (hf : e.headFree) (hs : e.hsq.head.holding) :
    e.enterApproaching.toState.Orderly :=
  (h.enterHead hf hs (by unfold HeadState.holding; simp)).sendApproach rfl

theorem sendRetract (h : e.toState.Orderly) (k : e.hsq.head = .retracting) : e.sendRetract.toState.Orderly :=
  h.sendHead fun _ _ => ⟨rfl, .inl ⟨rfl, .inr k⟩⟩

theorem enterReleasing (h : e.toState.Orderly) (hf : e.headFree) (hs : e.hsq.head.holding) :
    e.enterReleasing.toState.Orderly :=
  (h.enterHead hf hs (by unfold HeadState.holding; simp)).sendHead fun _ _ => ⟨rfl, rfl, rfl⟩

/-- VACANT off the receive pose: the head retracts without a carrier (R119). -/
theorem enterRetracting (h : e.toState.Orderly) (hv : e.hsq.head = .vacant) (ha : e.hsq.atReceive = false)
    (hr : e.inRun) :
    e.enterRetracting.toState.Orderly := by
  have h9 : e.carrierAt 9 = none := by
    rcases h.head with ⟨_, k⟩ | ⟨k, _⟩
    · exact k
    · exact (k.1 hv).elim
  have : (e.enterHead .retracting).toState.Orderly := by
    refine h.setHead rfl ?_ ?_ (.inl ⟨.inr rfl, h9⟩) (fun _ => hr)
    · intro u r k q
      exact (h.headFree (by rw [hv]; simp [HeadState.unit]) u r k q).elim
    · intro k
      have := ((h.leaving 8 k).2.2.2 rfl).2
      rw [ha] at this; cases this
  exact this.sendRetract rfl

/-- VACANT at the receive pose (R119). -/
theorem vacantAtReceive (h : e.toState.Orderly) (hf : e.headFree) (h9 : e.carrierAt 9
    = none) : e.vacantAtReceive.toState.Orderly := by
  have : ((e.enterHead .vacant).onHsq fun h => { h with atReceive := true }).toState.Orderly := by
    refine h.setHead rfl ?_ (fun _ => ⟨rfl, rfl⟩) (.inl ⟨.inl rfl, h9⟩) (fun k => (k rfl).elim)
    intro u r k q; exact (hf u r k q).elim
  exact this

/-! ### The carrier's fate -/

theorem headCondemned (h : e.toState.Orderly) : e.headCondemned.toState.Orderly := by
  unfold Ev.headCondemned
  have pre : ∀ st : HeadState, e.hsq.head = st → st.holding →
      (if e.headBusy = true then e.onHsq fun h =>
          { h with dumpPending := true } else e.enterDumping).toState.Orderly := by
    intro st k1 k2
    split
    · exact h.congr rfl
    · next k => exact h.enterDumping (h.headFree_of_headBusy (by simpa using k)) (by rw [k1]; exact k2)
  split
  case h_1 k => exact pre _ k (by unfold HeadState.holding; simp)
  case h_2 k => exact pre _ k (by unfold HeadState.holding; simp)
  case h_3 k => exact pre _ k (by unfold HeadState.holding; simp)
  case h_4 k => exact pre _ k (by unfold HeadState.holding; simp)
  case h_5 k => exact pre _ k (by unfold HeadState.holding; simp)
  case h_6 k => exact pre _ k (by unfold HeadState.holding; simp)
  all_goals exact h

/-- A glue deadline is reached (R84). -/
theorem expire {b : Nat} (h : e.toState.Orderly) : (e.expire b).toState.Orderly := by
  unfold Ev.expire
  split
  · exact h
  · next c hc =>
    extract_lets e1 e2 e3
    have h1 : e1.toState.Orderly := h.onCarrier fun c => ⟨rfl, rfl⟩
    have h2 : e2.toState.Orderly := by
      unfold e2
      split
      · refine h1.congr ?_
        unfold State.core Ev.onHsq
        dsimp only
        cases e1.hsq.carrier <;> rfl
      · exact h1
    split
    · exact h2
    · have h3 : e3.toState.Orderly := h2.condemn
      split
      · exact h3.headCondemned
      · exact h3

/-- A head jam (R96). -/
theorem headJam (h : e.toState.Orderly) (hf : e.headFree)
    (hv : e.hsq.head ≠ .vacant) : e.headJam.toState.Orderly := by
  have hrun : e.inRun := h.inRun_of_head hv
  have h8 := h.not_leaving_8 hv
  unfold Ev.headJam
  extract_lets e1
  obtain ⟨a1, a2, a3⟩ := Ev.removeAndCascade_after e1 9
  refine State.Orderly.strand ?_ (by unfold State.inRun; rw [a1]; exact hrun) a2 ?_
  · cases hc : e.carrierAt 9 with
    | none =>
      have : e1.removeAndCascade 9 = e1 := by
        unfold Ev.removeAndCascade; rw [show e1.carrierAt 9 = none from hc]
      rw [this]
      refine h.setHead rfl ?_ (fun k => (h8 k).elim) (.inl ⟨.inl rfl, hc⟩) (fun k => (k rfl).elim)
      intro u r k q; exact (hf u r k q).elim
    | some c =>
      have hc1 : e1.carrierAt 9 = some c := hc
      unfold Ev.removeAndCascade
      rw [hc1]
      dsimp only
      obtain ⟨en, he, _⟩ := h.listed 9 c hc
      refine State.Orderly.refreshCourse (State.Orderly.orphans 9 ?_)
      unfold Ev.removeCarrier
      rw [hc1]
      dsimp only
      rw [Ev.changeEntry_toState c.slot _ (e1.dropCarrier 9) en he]
      refine h.drop hc rfl (by simp) (fun _ => .inr (by omega)) ?_ h.bin (fun k => (k rfl).elim) (fun _ => ⟨hf, .inl rfl⟩)
      intro k
      have := (h.leaving 9 ⟨c, hc, k⟩).1
      omega
  · intro a ha k
    obtain rfl : a = 8 := by omega
    exact h8 (a3 8 k).2

/-! ### The press and the frames -/

/-- With no order of the head in flight, the head's own units are free. -/
theorem unit_free {s : State} (h : s.Orderly) (hf : s.headFree) {u : Nat} (hu : 12 < u) : s.flight u = none := by
  cases hw : s.flight u with
  | none => rfl
  | some r =>
    exfalso
    have := h.orders _ r hw
    have hb := this.at_rest
    have ht := this.of_train
    have far : ∀ b p, (p = Phase.working ∧ b ≤ 2 ∧ u = b ∨ p = .leaving ∧ u = xferUnit b) → ¬s.standsAt b p := by
      rintro b p k ⟨c, h4, _⟩
      have := (h.berths b c h4).1
      unfold xferUnit at k
      omega
    cases hq : r.requester with
    | hsq => exact hf _ r hw hq
    | dfu => have := (hb (.inl hq)).1; unfold boomUnit at this; omega
    | rcu => have := (hb (.inr hq)).1; unfold boomUnit at this; omega
    | rsl => obtain ⟨b, p, k1, k2⟩ := ht (.inl hq); exact far b p k1 k2
    | btc => obtain ⟨b, p, k1, k2⟩ := ht (.inr hq); exact far b p k1 k2

theorem enterPressing (h : e.toState.Orderly) (hf : e.headFree)
    (hs : e.hsq.head.holding) : e.enterPressing.toState.Orderly := by
  have h1 : (e.onCarrier 9 fun c => { c with deadline := none }).toState.Orderly := h.onCarrier fun c => ⟨rfl, rfl⟩
  have h2 : (e.onCarrier 9 fun c => { c with deadline := none }).hsq = e.hsq := by unfold Ev.onCarrier; split <;> rfl
  have h3 : (e.onCarrier 9 fun c => { c with deadline := none }).sli = e.sli := by unfold Ev.onCarrier; split <;> rfl
  unfold Ev.enterPressing
  refine State.Orderly.sendHead (h1.enterHead ?_ (by rw [h2]; exact hs) (by unfold HeadState.holding; simp))
    fun _ _ => ⟨rfl, rfl, rfl⟩
  intro u r k
  unfold State.flight at k; rw [h3] at k
  exact hf u r k

theorem pressDecision (h : e.toState.Orderly) (hf : e.headFree)
    (hs : e.hsq.head.holding) : e.pressDecision.toState.Orderly := by
  unfold Ev.pressDecision
  split
  · exact h.enterPressing hf hs
  · split
    · exact h.enterHead hf hs (by unfold HeadState.holding; simp)
    · exact h

/-- The retest of READY_TO_PRESS (R128). -/
theorem retestPress (h : e.toState.Orderly) : e.retestPress.toState.Orderly := by
  unfold Ev.retestPress
  split
  · next k =>
    have k : e.hsq.head = .readyToPress := by simp at k; exact k.1
    exact h.enterPressing (h.headFree (by rw [k]; simp [HeadState.unit])) (by rw [k]; unfold HeadState.holding; simp)
  · exact h

theorem trim {o : Offset} (h : e.toState.Orderly) (k : e.hsq.head = .settling) (hw : e.flight wristUnit = none) :
    (e.trim o).toState.Orderly := by
  have h1 : (e.onHsq fun h => { h with settleCount := 0 }).toState.Orderly := h.congr rfl
  exact h1.send hw fun _ _ => ⟨rfl, rfl, .inl k⟩

theorem settle {o : Offset} (h : e.toState.Orderly) (k : e.hsq.head = .settling) (hw : e.flight wristUnit = none) :
    (e.settle o).toState.Orderly := by
  have hf : e.headFree := h.headFree (by rw [k]; simp [HeadState.unit, hw])
  have hs : e.hsq.head.holding := by rw [k]; unfold HeadState.holding; simp
  unfold Ev.settle
  split
  · exact h
  · split
    · exact h.enterGustHold hf hs
    · split
      · have h1 : (e.onHsq fun h => { h with settleCount := h.settleCount + 1 }).toState.Orderly := h.congr rfl
        dsimp only
        split
        · exact h1.pressDecision hf hs
        · exact h1
      · exact h.trim k hw

theorem rideGust {o : Offset} (h : e.toState.Orderly) (k : e.hsq.head = .gustHold) :
    (e.rideGust o).toState.Orderly := by
  have hf : e.headFree := h.headFree (by rw [k]; simp [HeadState.unit])
  have hs : e.hsq.head.holding := by rw [k]; unfold HeadState.holding; simp
  unfold Ev.rideGust
  split
  · have h1 : (e.onHsq fun h => { h with gustRun := h.gustRun + 1 }).toState.Orderly := h.congr rfl
    dsimp only
    split
    · exact h1.enterSettling (.inr ⟨hf, hs⟩)
    · exact h1
  · exact h.congr rfl

theorem waitPress {o : Offset} (h : e.toState.Orderly) (k : e.hsq.head = .readyToPress) :
    (e.waitPress o).toState.Orderly := by
  have hf : e.headFree := h.headFree (by rw [k]; simp [HeadState.unit])
  have hs : e.hsq.head.holding := by rw [k]; unfold HeadState.holding; simp
  unfold Ev.waitPress
  split
  · exact h
  · split
    · exact h.enterGustHold hf hs
    · split
      · exact h
      · exact State.Orderly.trim (h.enterSettling (.inr ⟨hf, hs⟩)) rfl (h.unit_free hf (by decide))

theorem measure {o : Offset} (h : e.toState.Orderly) (k : e.hsq.head = .measuring) :
    (e.measure o).toState.Orderly := by
  have hf : e.headFree := h.headFree (by rw [k]; simp [HeadState.unit])
  have hs : e.hsq.head.holding := by rw [k]; unfold HeadState.holding; simp
  unfold Ev.measure
  dsimp only
  refine State.Orderly.enterReleasing (h.congr rfl) hf hs

/-- A frame is offered to the head (R113). -/
theorem offerToHead {p : Pose} (h : e.toState.Orderly) : (e.offerToHead p).toState.Orderly := by
  unfold Ev.offerToHead
  split
  · exact h
  · dsimp only
    split
    · next k =>
      split
      · next c => rw [Bool.and_eq_true, State.unitFree_iff] at c; exact h.settle k c.2
      · exact h
    · next k =>
      split
      · exact h.rideGust k
      · exact h
    · next k =>
      split
      · exact h.waitPress k
      · exact h
    · next k => exact h.measure k
    all_goals exact h

theorem headLockLost (h : e.toState.Orderly) : e.headLockLost.toState.Orderly := by
  unfold Ev.headLockLost
  split
  · next k => split
              · exact h.enterLockHold (.inl (.inl k))
              · exact h
  · next k =>
    split
    · exact h.enterLockHold (.inr ⟨h.headFree (by rw [k]; simp [HeadState.unit]), by rw [k]; unfold HeadState.holding; simp⟩)
    · exact h
  · next k =>
    split
    · exact h.enterLockHold (.inr ⟨h.headFree (by rw [k]; simp [HeadState.unit]), by rw [k]; unfold HeadState.holding; simp⟩)
    · exact h
  · exact h.congr rfl
  all_goals exact h

theorem headLockGained (h : e.toState.Orderly) : e.headLockGained.toState.Orderly := by
  unfold Ev.headLockGained
  split
  · next k =>
    split
    · exact h.enterSettling (.inl (.inr k))
    · exact h
  all_goals exact h

/-! ### Endings of the head's orders -/

theorem takeEnd (h : e.toState.Orderly) (hf : e.headFree) (hs : e.hsq.head.holding) : e.takeEnd.toState.Orderly := by
  unfold Ev.takeEnd
  refine State.Orderly.countWear ?_
  split
  · exact h.enterDumping hf hs
  · exact h.enterApproaching hf hs

/-- The carrier at the head is condemned, and the head goes on to DUMPING. -/
theorem condemnAndDump {r : Reason} (h : e.toState.Orderly) (hf : e.headFree) (hs : e.hsq.head.holding) :
    ((e.condemn 9 r).enterDumping).toState.Orderly := by
  obtain ⟨k1, k2⟩ := Ev.condemn_head e 9 r
  refine h.condemn.enterDumping ?_ (by rw [k1]; exact hs)
  intro u q k
  unfold State.flight at k; rw [k2] at k
  exact hf u q k

theorem approachEnd (h : e.toState.Orderly) (hf : e.headFree)
    (hs : e.hsq.head.holding) : e.approachEnd.toState.Orderly := by
  unfold Ev.approachEnd
  split
  · exact h.enterDumping hf hs
  · exact h.settlePhase (.inr ⟨hf, hs⟩)

theorem trimEnd {failed : Bool} (h : e.toState.Orderly) (hf : e.headFree) (hs : e.hsq.head.holding) :
    (e.trimEnd failed).toState.Orderly := by
  unfold Ev.trimEnd
  split
  · exact h
  · split
    · exact h.enterDumping hf hs
    · split
      · exact h.enterGustHold hf hs
      · exact h

theorem afterPress (h : e.toState.Orderly) (hf : e.headFree)
    (hs : e.hsq.head.holding) : e.afterPress.toState.Orderly := by
  unfold Ev.afterPress
  extract_lets inspected
  split
  · exact (h.enterHead (st := .measuring) hf hs (by unfold HeadState.holding; simp)).congr rfl
  · exact h.enterReleasing hf hs

theorem pressCutoff (h : e.toState.Orderly) (hf : e.headFree)
    (hs : e.hsq.head.holding) : e.pressCutoff.toState.Orderly := by
  unfold Ev.pressCutoff
  refine State.Orderly.countWear (State.Orderly.afterPress (h.congr rfl) hf hs)

/-- A head that holds a carrier knows it. -/
theorem held {s : State} (h : s.Orderly) (hs : s.hsq.head.holding) :
    ∃ c k, s.carrierAt 9 = some c ∧ s.hsq.carrier = some k ∧ k.slot = c.slot := by
  rcases h.head with ⟨k, _⟩ | ⟨_, k⟩
  · exact (k.elim hs.1 hs.2).elim
  · exact k

theorem not_leaving_9 {s : State} (h : s.Orderly) {c : Carrier} (hc : s.carrierAt 9
    = some c) : c.phase ≠ .leaving := by
  intro k
  have := (h.leaving 9 ⟨c, hc, k⟩).1
  omega

/-- OPEN DONE: the placement (R137). -/
theorem openEnd (h : e.toState.Orderly) (hf : e.headFree) (hs : e.hsq.head.holding) : e.openEnd.toState.Orderly := by
  obtain ⟨c, k, h9, hk, hsl⟩ := h.held hs
  obtain ⟨en, he, _⟩ := h.listed 9 c h9
  unfold Ev.openEnd
  rw [hk]
  dsimp only
  rw [hsl]
  set e1 := e.onScp (Scp.handOver e.replyDue c.slot e.hsq.outcome) with he1
  set f : Entry → Entry := fun en => { en with state := .placed, outcome := some e.hsq.outcome } with hfdef
  set e3 := (((e1.dropCarrier 9).changeEntry c.slot f).onHsq fun h =>
      { h with carrier := none }).refreshCourse .event with he3
  have c3 : e3.toState.core = { e.toState.core with
      plan := Table.write e.pls.plan c.slot (f en), train := Table.strike e.btc.train 9, slot := none } := by
    rw [he3, Ev.refreshCourse_core]
    have : ((e1.dropCarrier 9).changeEntry c.slot f).toState = (e1.dropCarrier 9).toState.withEntry c.slot (f en) :=
      Ev.changeEntry_toState c.slot f (e1.dropCarrier 9) en he
    show ({ ((e1.dropCarrier 9).changeEntry c.slot f).toState.core with slot := none } : Core) = _
    rw [this]; rfl
  have o3 : (e3.enterHead .retracting).toState.Orderly := by
    have cc : (e3.enterHead .retracting).toState.core = { e.toState.core with
        plan := Table.write e.pls.plan c.slot (f en), train := Table.strike e.btc.train 9, head := .retracting
        slot := none } := by
      show ({ e3.toState.core with head := .retracting } : Core) = _
      rw [c3]
    have hbin : (e3.enterHead .retracting).btc.bin = e.btc.bin := congrArg Core.bin cc
    have har : (e3.enterHead .retracting).hsq.atReceive = e.hsq.atReceive := congrArg Core.atReceive cc
    have hsn : (e3.enterHead .retracting).hsq.carrier.map (·.slot) = none := congrArg Core.slot cc
    refine h.drop (en := f en) h9 ?_ (by simp [hfdef]) (fun _ => .inr (by omega)) (fun n => (h.not_leaving_9 h9 n).elim)
      (by rw [hbin]; exact h.bin) (fun n => (n rfl).elim) (fun _ => ⟨hf, .inr rfl⟩)
    rw [hbin, har, hsn]; exact cc
  unfold Ev.enterRetracting
  split
  · refine State.Orderly.sendRetract (o3.raiseHold.congr (Ev.raiseHold_enterHead _ _ _ _)) rfl
  · exact o3.sendRetract rfl

/-- DUMP DONE: the brick is in the bin (R89). -/
theorem dumpEnd (h : e.toState.Orderly) (hf : e.headFree) (hs : e.hsq.head.holding) (hb : e.btc.bin < 24) :
    e.dumpEnd.toState.Orderly := by
  obtain ⟨c, k, h9, hk, hsl⟩ := h.held hs
  obtain ⟨en, he, _⟩ := h.listed 9 c h9
  unfold Ev.dumpEnd
  rw [h9]
  dsimp only
  set e1 := (e.dropCarrier 9).onBtc fun t => { t with bin := t.bin + 1 } with he1
  set e2 := e1.changeEntry c.slot (Entry.dumped c.condemned) with he2
  have t2 : e2.toState = e1.toState.withEntry c.slot
      (Entry.dumped c.condemned en) := Ev.changeEntry_toState _ _ e1 en he
  set e3 : Ev := (match e2.entryAt c.slot with
    | none => e2
    | some en => e2.reports (.rejected c.slot c.release c.condemned c.expired en.rejects :: en.dumpReport c.slot)) with he3
  have c3 : e3.toState.core = e2.toState.core := by
    rw [he3]; split
    · rfl
    · rw [Ev.reports_toState]; rfl
  have hd : (Entry.dumped c.condemned en).state ≠ .inTrain := by
    unfold Entry.dumped
    split
    · simp
    · dsimp only; split <;> (split <;> simp)
  have cc : (((((e3.refreshCourse .event).countWear .rejects).onHsq fun h =>
      { h with carrier := none }).vacantAtReceive).toState).core
      = { e.toState.core with
        plan := Table.write e.pls.plan c.slot (Entry.dumped c.condemned en), train := Table.strike e.btc.train 9
        bin := e.btc.bin + 1, head := .vacant, atReceive := true, slot := none } := by
    show ({ ((e3.refreshCourse .event).countWear .rejects).toState.core with
      head := .vacant, atReceive := true, slot := none } : Core) = _
    rw [Ev.countWear_rejects_core, Ev.refreshCourse_core, c3, t2]; rfl
  show ((((e3.refreshCourse .event).countWear .rejects).onHsq fun h =>
      { h with carrier := none }).vacantAtReceive).toState.Orderly
  set t := ((((e3.refreshCourse .event).countWear .rejects).onHsq fun h =>
      { h with carrier := none }).vacantAtReceive).toState
  have hbin : t.btc.bin = e.btc.bin + 1 := congrArg Core.bin cc
  have hhd : t.hsq.head = .vacant := congrArg Core.head cc
  have har : t.hsq.atReceive = true := congrArg Core.atReceive cc
  have hsn : t.hsq.carrier.map (·.slot) = none := congrArg Core.slot cc
  refine h.drop (en := Entry.dumped c.condemned en) h9 ?_ hd (fun _ => .inr (by omega)) (fun n => (h.not_leaving_9 h9 n).elim)
    (by rw [hbin]; omega) (fun n => (n rfl).elim) (fun _ => ⟨hf, .inl hhd⟩)
  rw [hbin, har, hsn, hhd]; exact cc

/-- The head resumes as the mode enters LAYING or DRAINING (R142). -/
theorem headResume (h : e.toState.Orderly) (hr : e.inRun) : e.headResume.toState.Orderly := by
  unfold Ev.headResume
  split
  · next k =>
    split
    · exact h
    · next n => exact h.enterRetracting k (by simpa using n) hr
  · next k =>
    split
    · exact h
    · exact h.sendHead fun _ _ => ⟨rfl, rfl, k⟩
  · next k =>
    split
    · exact h
    · exact h.sendApproach k
  · next k =>
    split
    · exact h
    · exact h.sendHead fun _ _ => ⟨rfl, rfl, k⟩
  · next k =>
    split
    · exact h
    · exact h.sendRetract k
  · next k => exact h.settlePhase (.inl (.inl k))
  · next k => exact h.settlePhase (.inr ⟨h.headFree (by rw [k]; simp [HeadState.unit]), by rw [k]; unfold HeadState.holding; simp⟩)
  · next k => exact h.settlePhase (.inr ⟨h.headFree (by rw [k]; simp [HeadState.unit]), by rw [k]; unfold HeadState.holding; simp⟩)
  · next k => exact h.settlePhase (.inl (.inr k))
  · exact h.binClaim
  · exact h
  · exact h

end State.Orderly

end Sys2Proof.Machine
end

