-- ==== Sys2Proof/Laws/OrderlyTrain.lean ====
section
/-! SUPPORT. How the blocks agree, kept by the work at the berths, the transfers, the calibration routine, a selection
and the end of an event. -/

namespace Sys2Proof.Machine

-- One proof at a time, so that the package as one text needs few threads.
set_option Elab.async false

theorem Ev.onCarrier_core {e : Ev} {b : Nat} {c : Carrier} (h : e.carrierAt b = some c) (f : Carrier → Carrier) :
    (e.onCarrier b f).toState.core = { e.toState.core with train := Table.write e.btc.train b (f c) } := by
  rw [Ev.onCarrier_at h]; rfl

theorem Ev.onCarrier_none {e : Ev} {b : Nat} (h : e.carrierAt b = none) (f : Carrier → Carrier) : e.onCarrier b f
    = e := by
  unfold Ev.onCarrier; rw [h]

theorem Ev.onCarrier_sli (e : Ev) (b : Nat) (f : Carrier → Carrier) : (e.onCarrier b f).sli = e.sli
    ∧ (e.onCarrier b f).rcu = e.rcu ∧ (e.onCarrier b f).hsq = e.hsq := by
  unfold Ev.onCarrier; split <;> exact ⟨rfl, rfl, rfl⟩

theorem Ev.onCarrier_read (e : Ev) (b : Nat) (f : Carrier → Carrier) : (e.onCarrier b f).carrierAt b =
    (e.carrierAt b).map f := by
  cases h : e.carrierAt b with
  | none => rw [Ev.onCarrier_none h, h]; rfl
  | some c => rw [Ev.onCarrier_at h]; exact State.withCarrier_at _ _ _

/-- The carrier in a berth is not LEAVING, and no order in flight works on it. -/
def State.unserved (s : State) (b : Nat) : Prop :=
  ∀ c, s.carrierAt b = some c → c.phase ≠ .leaving ∧ (c.phase = .working → s.flight b = none ∨ 2 < b)

namespace State.Orderly

variable {e : Ev}

/-! ### The berths -/

/-- A carrier that nothing serves goes to another phase, but LEAVING. -/
theorem setPhase {b : Nat} {f : Carrier → Carrier} (h : e.toState.Orderly) (hu : e.toState.unserved b)
    (hs : ∀ c, (f c).slot = c.slot) (hp : ∀ c, (f c).phase ≠ .leaving) : (e.onCarrier b f).toState.Orderly := by
  cases hc : e.carrierAt b with
  | none => rw [Ev.onCarrier_none hc]; exact h
  | some c =>
    obtain ⟨u1, u2⟩ := hu c hc
    exact h.rephase hc (Ev.onCarrier_core hc f) (hs c) (.inr ⟨u1, u2, fun k => (hp c k).elim⟩)

theorem makeReady {b : Nat} (h : e.toState.Orderly) (hu : e.toState.unserved b) : (e.makeReady b).toState.Orderly :=
  h.setPhase hu (fun _ => rfl) (fun _ => by simp)

/-- The carrier of an order that has ended is served no more. -/
theorem unserved_of_worked {s : State} {b : Nat} (h : s.standsAt b .working) (hf : s.flight b
    = none) : s.unserved b := by
  intro c hc
  obtain ⟨c', h1, h2⟩ := h
  rw [hc] at h1; cases h1
  exact ⟨by simp [h2], fun _ => .inl hf⟩

/-- Work at SAW or GLUE is sent, its carrier WORKING (R73, R75). -/
theorem sendWork {b : Nat} {c : Carrier} {o : Order} (h : e.toState.Orderly) (hb : b = 1 ∨ b = 2)
    (hc : e.carrierAt b = some c)
    (hp : c.phase = .working) (s : State) (x : Carrier) (hw : s.workDue b x = some o) (hf : e.flight (workUnit b)
        = none) :
    (e.send (workUnit b) o .btc).toState.Orderly := by
  have hst : e.standsAt b .working := ⟨c, hc, hp⟩
  unfold State.workDue at hw
  split at hw
  · cases hw
  · split at hw
    · cases hw
    · next en _ =>
      rcases hb with rfl | rfl
      · rw [if_pos rfl] at hw
        cases hcut : en.cut with
        | none => rw [hcut] at hw; cases hw
        | some n =>
          rw [hcut] at hw; cases hw
          exact h.send hf fun _ _ => ⟨rfl, rfl, hst⟩
      · rw [if_neg (by decide), if_pos rfl] at hw
        cases hw
        exact h.send hf fun _ _ => ⟨rfl, rfl, hst⟩

/-- Work starts where every new phase of the carrier keeps the agreement. -/
theorem startWork {b : Nat} {x : Carrier} (hb : b = 1 ∨ b = 2) (hc : ∃ c, e.carrierAt b = some c)
    (h : ∀ p : Phase, p ≠ .leaving → (e.onCarrier b fun c => { c with phase := p }).toState.Orderly) :
    (e.startWork b x).toState.Orderly := by
  unfold Ev.startWork
  split
  · exact h .ready (by simp)
  · next o ho =>
    split
    · next k =>
      rw [Bool.and_eq_true, State.unitFree_iff] at k
      obtain ⟨c, hc⟩ := hc
      have hr := Ev.onCarrier_read e b fun c => { c with phase := .working }
      rw [hc] at hr
      refine State.Orderly.sendWork (h .working (by simp)) hb hr rfl e.toState x ho ?_
      have := (Ev.onCarrier_sli e b fun c => { c with phase := .working }).1
      unfold State.flight; rw [this]; exact k.2
    · exact h .arriving (by simp)

theorem resumeWork {b : Nat} (hb : b = 1 ∨ b = 2) (h : e.toState.Orderly) : (e.resumeWork b).toState.Orderly := by
  unfold Ev.resumeWork
  split
  · exact h
  · next c hc =>
    split
    · next k =>
      refine startWork hb ⟨c, hc⟩ fun p hp => h.setPhase ?_ (fun _ => rfl) (fun _ => hp)
      intro c' hc'
      rw [hc] at hc'; cases hc'
      simp [k]
    · exact h

/-- A transfer (R78). -/
theorem transfer {b : Nat} (hb : b ≤ 8) (h : e.toState.Orderly) : (e.transfer b).toState.Orderly := by
  unfold Ev.transfer
  split
  · next k =>
    unfold State.transferable at k
    simp only [Bool.and_eq_true, Bool.or_eq_true, State.unitFree_iff] at k
    obtain ⟨⟨⟨⟨⟨k1, k2⟩, k3⟩, k4⟩, k5⟩, k6⟩ := k
    cases hc : e.carrierAt b with
    | none => rw [hc] at k1; cases k1
    | some c =>
      rw [hc] at k1
      have k1 : c.phase = .ready := by simpa using k1
      have hr := Ev.onCarrier_read e b fun c => { c with phase := .leaving }
      rw [hc] at hr
      have h1 : (e.onCarrier b fun c => { c with phase := .leaving }).toState.Orderly := by
        refine h.rephase hc (Ev.onCarrier_core hc _) rfl (.inr ⟨by simp [k1], by simp [k1], fun _ => ⟨hb, ?_, ?_,
            ?_⟩⟩)
        · simpa using k3
        · simpa using k4
        · rintro rfl
          simpa using k6
      refine h1.send ?_ fun _ _ => ⟨b, hb, rfl, rfl, _, hr, rfl⟩
      have := (Ev.onCarrier_sli e b fun c => { c with phase := .leaving }).1
      unfold State.flight; rw [this]; exact k5
  · exact h

theorem runTransfers (h : e.toState.Orderly) : e.runTransfers.toState.Orderly := by
  unfold Ev.runTransfers
  have : ∀ l : List Nat, ∀ e : Ev, e.toState.Orderly → (l.foldl (fun e i => e.transfer
      (8 - i)) e).toState.Orderly := by
    intro l
    induction l with
    | nil => intro e h; exact h
    | cons i l ih => intro e h; exact ih _ (h.transfer (by omega))
  exact this _ _ h

/-! ### Endings at the berths -/

theorem loadEnd (h : e.toState.Orderly) (hs : e.standsAt 0 .working) (hf : e.flight 0
    = none) : e.loadEnd.toState.Orderly :=
  h.makeReady (unserved_of_worked hs hf)

theorem onStocks {f : Table Nat → Table Nat} (h : e.toState.Orderly) :
    (e.onPls fun p => { p with stocks := f p.stocks }).toState.Orderly := h.congr rfl

theorem loadEmptyEnd {lane : Nat} (h : e.toState.Orderly) (hs : e.standsAt 0 .working) (hf : e.flight 0 = none) :
    (e.loadEmptyEnd lane).toState.Orderly := by
  obtain ⟨c, h1, h2⟩ := hs
  exact State.Orderly.removeAndCascade (h.onStocks (f := fun t => Table.strike t lane)) h1 (by decide) (fun _ => .inl hf)
    (fun k => by rw [h2] at k; cases k)

/-- A removal at a jam, and its stranding (R92). -/
theorem removeAndStrand {b : Nat} {c : Carrier} (h : e.toState.Orderly) (hc : e.carrierAt b = some c) (h9 : b ≠ 9)
    (hw : c.phase = .working → e.flight b = none ∨ 2 < b) (hl : c.phase = .leaving → e.flight (xferUnit b) = none)
    : ((e.removeAndCascade b).strand b).toState.Orderly := by
  obtain ⟨a1, a2, a3⟩ := Ev.removeAndCascade_after e b
  refine State.Orderly.strand (h.removeAndCascade hc h9 hw hl) ?_ a2 ?_
  · unfold State.inRun; rw [a1]; exact h.inRun_of_carrier hc
  · rintro a rfl k
    have := (h.leaving a (a3 a k).2).2.1
    rw [hc] at this; cases this

theorem loadJam (h : e.toState.Orderly) (hs : e.standsAt 0 .working) (hf : e.flight 0
    = none) : e.loadJam.toState.Orderly := by
  obtain ⟨c, h1, h2⟩ := hs
  exact h.removeAndStrand h1 (by decide) (fun _ => .inl hf) (fun k => by rw [h2] at k; cases k)

theorem cutEnd (h : e.toState.Orderly) (hs : e.standsAt 1 .working) (hf : e.flight 1
    = none) : e.cutEnd.toState.Orderly :=
  State.Orderly.countWear (h.makeReady (unserved_of_worked hs hf))

theorem cutFail (h : e.toState.Orderly) (hs : e.standsAt 1 .working) (hf : e.flight 1
    = none) : e.cutFail.toState.Orderly :=
  State.Orderly.condemn (h.makeReady (unserved_of_worked hs hf))

theorem glueEnd (h : e.toState.Orderly) (hs : e.standsAt 2 .working) (hf : e.flight 2
    = none) : e.glueEnd.toState.Orderly :=
  State.Orderly.onCarrier (h.makeReady (unserved_of_worked hs hf)) fun _ => ⟨rfl, rfl⟩

theorem glueFail (h : e.toState.Orderly) (hs : e.standsAt 2 .working) (hf : e.flight 2
    = none) : e.glueFail.toState.Orderly :=
  State.Orderly.countWear (State.Orderly.condemn (h.makeReady (unserved_of_worked hs hf)))

theorem moveJam {b : Nat} (h : e.toState.Orderly) (hb : b ≤ 8) (hs : e.standsAt b .leaving) (hf : e.flight
    (xferUnit b) = none) :
    (e.moveJam b).toState.Orderly := by
  obtain ⟨c, h1, h2⟩ := hs
  exact h.removeAndStrand h1 (by omega) (fun k => by rw [h2] at k; cases k) (fun _ => hf)

/-- A carrier that has moved up, once it takes a phase in its new berth but LEAVING. -/
theorem arrived {b : Nat} {c : Carrier} {m : Ev} {f : Carrier → Carrier} (h : e.toState.Orderly)
    (hc : e.carrierAt b = some c)
    (hp : c.phase = .leaving) (hf : e.flight (xferUnit b) = none) (h8 : b ≠ 8)
    (hm : m.toState.core = { e.toState.core with train := Table.write (Table.strike e.btc.train b) (b + 1) c })
    (hs : (f c).slot = c.slot) (hl : (f c).phase ≠ .leaving) : (m.onCarrier (b + 1) f).toState.Orderly := by
  have ht : m.btc.train = Table.write (Table.strike e.btc.train b) (b + 1) c := congrArg Core.train hm
  have hc' : m.carrierAt (b + 1) = some c := by unfold State.carrierAt; rw [ht]; exact Table.read_write_same _ _ _
  have hcore : (m.onCarrier (b + 1) f).toState.core =
      { e.toState.core with train := Table.write (Table.strike e.btc.train b) (b + 1) (f c) } := by
    rw [Ev.onCarrier_core hc' f, hm, ht, Table.write_write_same]
  have e1 : (m.onCarrier (b + 1) f).hsq.head = e.hsq.head := congrArg Core.head hcore
  have e2 : (m.onCarrier (b + 1) f).hsq.atReceive = e.hsq.atReceive := congrArg Core.atReceive hcore
  have e3 : (m.onCarrier (b + 1) f).hsq.carrier.map (·.slot) = e.hsq.carrier.map (·.slot) := congrArg Core.slot hcore
  refine h.shift hc hp hf ?_ hs hl (fun _ => ⟨e1, e2, e3⟩) (fun k => (h8 k).elim)
  rw [hcore, e1, e2, e3]; rfl

/-- The head takes over the carrier that has moved up to berth 9 (R77, R118). -/
theorem takenOver {c : Carrier} {m : Ev} (h : e.toState.Orderly) (hc : e.carrierAt 8 = some c)
    (hp : c.phase = .leaving) (hf : e.flight (xferUnit 8) = none)
    (hm : m.toState.core = { e.toState.core with train := Table.write (Table.strike e.btc.train 8) 9 c }) :
    ((m.onCarrier 9 fun c => { c with phase := .working }).takeOver c).toState.Orderly := by
  have ht : m.btc.train = Table.write (Table.strike e.btc.train 8) 9 c := congrArg Core.train hm
  have hc' : m.carrierAt 9 = some c := by unfold State.carrierAt; rw [ht]; exact Table.read_write_same _ _ _
  have hcore : (m.onCarrier 9 fun c => { c with phase := .working }).toState.core =
      { e.toState.core with train := Table.write (Table.strike e.btc.train 8) 9 { c with phase := .working } } := by
    rw [Ev.onCarrier_core hc', hm, ht, Table.write_write_same]
  have key : ∀ t : State, t.hsq.head.holding →
      t.core = { (m.onCarrier 9 fun c => { c with phase := .working }).toState.core with
        head := t.hsq.head, atReceive := t.hsq.atReceive, slot := t.hsq.carrier.map (·.slot) } →
      t.hsq.carrier.map (·.slot) = some c.slot → t.Orderly := by
    intro t k1 k2 k3
    refine h.shift (c' := { c with phase := .working }) hc hp hf ?_ rfl (by simp) (fun k => (k rfl).elim) (fun _ => ⟨k1, k3⟩)
    rw [k2, hcore]
  unfold Ev.takeOver
  dsimp only
  split
  · unfold Ev.enterDumping
    refine State.Orderly.binClaim (key _ ?_ rfl rfl)
    unfold HeadState.holding; simp [Ev.onHsq, Ev.enterHead]
  · unfold Ev.enterGripping
    refine State.Orderly.sendHead (key _ ?_ rfl rfl) fun _ _ => ⟨rfl, rfl, rfl⟩
    unfold HeadState.holding; simp [Ev.onHsq, Ev.enterHead]

/-- MOVE DONE (R80). -/
theorem moveEnd {b : Nat} (h : e.toState.Orderly) (hb : b ≤ 8) (hs : e.standsAt b .leaving) (hf : e.flight
    (xferUnit b) = none) :
    (e.moveEnd b).toState.Orderly := by
  obtain ⟨c, h1, h2⟩ := hs
  unfold Ev.moveEnd
  rw [h1]
  dsimp -zeta only
  extract_lets e1 e2
  have hm : e2.toState.core =
      { e.toState.core with train := Table.write (Table.strike e.btc.train b) (b + 1) c } := by
    unfold e2; split <;> rfl
  have hc2 : e2.carrierAt (b + 1) = some c := by
    unfold State.carrierAt
    rw [show e2.btc.train = _ from congrArg Core.train hm]
    exact Table.read_write_same _ _ _
  unfold Ev.arrive
  split
  · next k =>
    refine startWork k ⟨c, hc2⟩ fun p hp => h.arrived h1 h2 hf (by omega) hm rfl hp
  · split
    · next k =>
      obtain rfl : b = 8 := by omega
      exact h.takenOver h1 h2 hf hm
    · next k => exact h.arrived h1 h2 hf (by omega) hm rfl (by simp)

/-! ### The calibration routine -/

/-- The routine goes to another state; RUNNING alone needs settled IDLE. -/
theorem onDfu {f : Dfu → Dfu} (h : e.toState.Orderly)
    (hc : ∀ k, (f e.dfu).cal = .running k → e.rcu.mode = .idle ∧ e.rcu.deploy = false) :
        (e.onDfu f).toState.Orderly :=
  { h with calibrating := hc }

/-- The routine's state as it was. -/
theorem onDfuKeep {f : Dfu → Dfu} (h : e.toState.Orderly) (hc : (f e.dfu).cal = e.dfu.cal) :
    (e.onDfu f).toState.Orderly :=
  h.onDfu fun k hk => h.calibrating k (hc ▸ hk)

theorem leaveReceiveAtRest (h : e.toState.Orderly) (hm : ¬e.inRun) : e.leaveReceive.toState.Orderly :=
  h.leaveReceive fun ⟨c, k, _⟩ => by rw [(h.atRest hm).1] at k; cases k

theorem not_inRun_of_idle {s : State} (k : s.rcu.mode = .idle ∨ s.rcu.mode = .stowing) : ¬s.inRun :=
  fun n => State.not_rest_of_inRun n k

theorem calSlew (h : e.toState.Orderly) : e.calSlew.toState.Orderly := by
  unfold Ev.calSlew
  split
  · next k hk =>
    split
    · next n =>
      obtain ⟨m, d⟩ := h.calibrating k hk
      dsimp only
      refine State.Orderly.onDfuKeep (State.Orderly.leaveReceiveAtRest (h.send ((State.unitFree_iff _ _).1 n.2) ?_)
        (State.Orderly.not_inRun_of_idle (.inl m))) rfl
      intro _ _
      exact ⟨rfl, .inr ⟨rfl, .inl m⟩⟩
    · exact h
  all_goals exact h

theorem startPoint {k : Nat} (h : e.toState.Orderly) (hm : e.rcu.mode = .idle) (hd : e.rcu.deploy = false) :
    (e.startPoint k).toState.Orderly :=
  State.Orderly.calSlew (h.onDfu fun _ _ => ⟨hm, hd⟩)

theorem failAttempt {k : Nat} {c : CalCause} (h : e.toState.Orderly) : (e.failAttempt k c).toState.Orderly := by
  unfold Ev.failAttempt
  dsimp only
  have h1 : (e.onDfu fun d =>
      { d with cause := some c, limitTimer := none, samples := [], slew := .none }).toState.Orderly :=
    h.onDfuKeep rfl
  split
  · exact State.Orderly.calSlew (h1.onDfuKeep rfl)
  · exact State.Orderly.report (h1.onDfu fun _ n => by cases n)

theorem recordPoint {k : Nat} {run : List Sample} (h : e.toState.Orderly) (hk : e.dfu.cal = .running k) :
    (e.recordPoint k run).toState.Orderly := by
  unfold Ev.recordPoint
  dsimp only
  obtain ⟨m, d⟩ := h.calibrating k hk
  split
  · refine State.Orderly.startPoint (h.onDfuKeep rfl) m d
  · refine State.Orderly.report (State.Orderly.onDfu (h.onDfuKeep rfl) fun _ n => by cases n)

theorem offerToDfu {p : Pose} (h : e.toState.Orderly) : (e.offerToDfu p).toState.Orderly := by
  unfold Ev.offerToDfu
  split
  · next k hk =>
    dsimp only
    split
    · split
      · exact h.recordPoint hk
      · exact h.onDfuKeep rfl
    · exact h
  all_goals exact h

theorem failSampling {c : CalCause} (h : e.toState.Orderly) : (e.failSampling c).toState.Orderly := by
  unfold Ev.failSampling
  split
  · split
    · exact h.failAttempt
    · exact h
  all_goals exact h

theorem calSlewDone (h : e.toState.Orderly) : e.calSlewDone.toState.Orderly := by
  unfold Ev.calSlewDone
  split
  · exact h.onDfuKeep rfl
  · exact State.Orderly.calSlew (h.onDfuKeep rfl)
  · exact h

theorem calSlewFault (h : e.toState.Orderly) : e.calSlewFault.toState.Orderly := by
  unfold Ev.calSlewFault
  split
  · split
    · exact h.failAttempt
    all_goals exact h.onDfuKeep rfl
  · exact State.Orderly.calSlew (h.onDfuKeep rfl)
  · exact h

theorem calStart (h : e.toState.Orderly) (hm : e.rcu.mode = .idle) (hd : e.rcu.deploy
    = false) : e.calStart.toState.Orderly :=
  State.Orderly.startPoint (h.onDfuKeep rfl) hm hd

theorem calResume (h : e.toState.Orderly) (hm : e.rcu.mode = .idle) (hd : e.rcu.deploy
    = false) : e.calResume.toState.Orderly := by
  unfold Ev.calResume
  split
  · exact h.startPoint hm hd
  all_goals exact h

/-! ### The timers of the head, the train and the routine -/

theorem gustOut (h : e.toState.Orderly) : e.gustOut.toState.Orderly := by
  unfold Ev.gustOut
  extract_lets e1
  have h1 : e1.toState.Orderly := h.congr rfl
  split
  · next k =>
    exact h1.condemnAndDump (h1.headFree (by rw [k]; simp [HeadState.unit])) (by rw [k]; unfold HeadState.holding; simp)
  · exact h1

theorem lockHoldOut (h : e.toState.Orderly) : e.lockHoldOut.toState.Orderly := by
  have h1 : (e.onHsq fun h => { h with lockHoldTimer := none }).toState.Orderly := h.congr rfl
  exact h1.raiseHold

theorem measuringOut (h : e.toState.Orderly) : e.measuringOut.toState.Orderly := by
  unfold Ev.measuringOut
  extract_lets e1
  have h1 : e1.toState.Orderly := h.congr rfl
  split
  · next k =>
    have h2 : (e1.onHsq fun h =>
        { h with outcome := { h.outcome with unverified := true } }).toState.Orderly := h1.congr rfl
    have k2 : (e1.onHsq fun h => { h with outcome := { h.outcome with unverified := true } }).hsq.head
        = .measuring := k
    exact h2.enterReleasing (h2.headFree (by rw [k2]; simp [HeadState.unit])) (by rw [k2]; unfold HeadState.holding; simp)
  · exact h1

theorem lockoutOut (h : e.toState.Orderly) : e.lockoutOut.toState.Orderly := h.congr rfl

theorem pointOut (h : e.toState.Orderly) : e.pointOut.toState.Orderly := State.Orderly.failSampling (h.onDfuKeep rfl)

/-! ### A selection -/

theorem starvedTest {cands : Table Entry} (h : e.toState.Orderly) : (e.starvedTest cands).toState.Orderly := by
  unfold Ev.starvedTest
  split
  · exact h
  · dsimp only
    split
    · exact State.Orderly.onRsl h.report
    · exact h

theorem stallTest {cands : Table Entry} (h : e.toState.Orderly) : (e.stallTest cands).toState.Orderly := by
  unfold Ev.stallTest
  split
  · exact State.Orderly.onRsl h.report
  · exact h

/-- A release (R44, R70). -/
theorem release {slot : Nat} {en : Entry} (h : e.toState.Orderly) (hr : e.mayRelease = true)
    {en' : Entry} (hn : e.entryAt slot = some en') (hni : en'.state ≠ .inTrain) :
        (e.release slot en).toState.Orderly := by
  unfold State.mayRelease at hr
  simp only [Bool.and_eq_true, State.unitFree_iff] at hr
  obtain ⟨⟨⟨k1, k2⟩, k3⟩, k4⟩ := hr
  unfold Ev.release
  extract_lets lane e1 e2 e3 e4
  have c1 : e1.toState = e.toState.withEntry slot { en' with state := .inTrain } := Ev.changeEntry_toState _ _ _ _ hn
  have hcore : e3.toState.core = { e.toState.core with
      plan := Table.write e.pls.plan slot { en' with state := .inTrain }
      train := Table.write e.btc.train 0 ⟨e.btc.releases, slot, .working, none, false, none⟩ } := by
    show ({ e2.toState.core with
      train := Table.write e1.btc.train 0 ⟨e1.btc.releases, slot, .working, none, false, none⟩ } : Core) = _
    have : e2.toState.core = e1.toState.core := rfl
    rw [this, c1]; rfl
  have h3 : e3.toState.Orderly := by
    refine h.board (c := ⟨e.btc.releases, slot, .working, none, false, none⟩) ?_ ?_ ?_ hn hni hcore rfl rfl
    · simpa using k2
    · simpa using k3
    · exact .inl (by simpa using k1)
  have f3 : e3.flight pickUnit = none := by
    have : e3.sli = e.sli := by
      show e1.toState.sli = e.sli
      rw [c1]; rfl
    unfold State.flight; rw [this]; exact k4
  have ht : e3.carrierAt 0 = some ⟨e.btc.releases, slot, .working, none, false, none⟩ := by
    unfold State.carrierAt
    rw [show e3.btc.train = _ from congrArg Core.train hcore]
    exact Table.read_write_same _ _ _
  refine State.Orderly.refreshCourse (State.Orderly.onRsl (h3.send f3 fun _ _ => ⟨rfl, rfl, _, ht, rfl⟩))

end State.Orderly

end Sys2Proof.Machine
end

