-- ==== Sys2Proof/Laws/OrderlyRun.lean ====
section
/-! SUPPORT. How the blocks agree, kept by a selection, the ends of a run, the end of an event,
    the endings of orders and
the bytes of the lines. -/

namespace Sys2Proof.Machine

-- One proof at a time, so that the package as one text needs few threads.
set_option Elab.async false

theorem State.mem_layInsert (s : State) (p q : Nat × Entry) : ∀ l : Table Entry, q ∈ s.layInsert p l → q = p
    ∨ q ∈ l := by
  intro l
  induction l with
  | nil => intro h; exact .inl (by simpa [State.layInsert] using h)
  | cons a l ih =>
    unfold State.layInsert
    split
    · intro h; simpa using h
    · intro h
      rcases List.mem_cons.1 h with h | h
      · exact .inr (by simp [h])
      · rcases ih h with h | h
        · exact .inl h
        · exact .inr (by simp [h])

/-- A candidate stands in the plan (R37). -/
theorem State.mem_candidates (s : State) (q : Nat × Entry) (h : q ∈ s.candidates) : q ∈ s.pls.plan
    ∧ s.isCandidate q.2 = true := by
  unfold State.candidates at h
  have : ∀ l : Table Entry, q ∈ l.foldr s.layInsert [] → q ∈ l := by
    intro l
    induction l with
    | nil => intro h; simp at h
    | cons a l ih =>
      intro h
      rcases s.mem_layInsert a q _ h with h | h
      · simp [h]
      · exact List.mem_cons_of_mem _ (ih h)
  exact List.mem_filter.1 (this _ h)

theorem Ev.starvedTest_core (e : Ev) (cands : Table Entry) : (e.starvedTest cands).toState.core = e.toState.core
    ∧ (e.starvedTest cands).rcu = e.rcu := by
  unfold Ev.starvedTest
  split
  · exact ⟨rfl, rfl⟩
  · dsimp only; split <;> exact ⟨rfl, rfl⟩

theorem Ev.makeReady_rcu (e : Ev) (b : Nat) : (e.makeReady b).rcu = e.rcu := (e.onCarrier_sli b _).2.1

theorem Ev.startWork_rcu (e : Ev) (b : Nat) (c : Carrier) : (e.startWork b c).rcu = e.rcu := by
  unfold Ev.startWork
  split
  · exact e.makeReady_rcu b
  · split
    · exact (e.onCarrier_sli b _).2.1
    · exact (e.onCarrier_sli b _).2.1

theorem Ev.resumeWork_rcu (e : Ev) (b : Nat) : (e.resumeWork b).rcu = e.rcu := by
  unfold Ev.resumeWork
  split
  · rfl
  · split
    · exact e.startWork_rcu b _
    · rfl

theorem Ev.runTransfers_rcu (e : Ev) : e.runTransfers.rcu = e.rcu := by
  unfold Ev.runTransfers
  have : ∀ l : List Nat, ∀ e : Ev, (l.foldl (fun e i => e.transfer (8 - i)) e).rcu = e.rcu := by
    intro l
    induction l with
    | nil => intro e; rfl
    | cons i l ih =>
      intro e
      rw [List.foldl_cons, ih]
      unfold Ev.transfer
      split
      · exact (e.onCarrier_sli _ _).2.1
      · rfl
  exact this _ _

/-- With no routine RUNNING, the ending of a calibration slew leaves the core as it is (R153). -/
theorem Ev.calSlewEnd_core (e : Ev) (h : ∀ k, e.dfu.cal ≠ .running k) :
    e.calSlewDone.toState.core = e.toState.core ∧ e.calSlewFault.toState.core = e.toState.core := by
  have hs : ∀ f : Dfu → Dfu, (f e.dfu).cal = e.dfu.cal → (e.onDfu f).calSlew.toState.core = e.toState.core := by
    intro f hf
    have : (e.onDfu f).dfu.cal = e.dfu.cal := hf
    have hc : (e.onDfu f).toState.core = e.toState.core := by
      show ({ e.toState.core with cal := (f e.dfu).cal } : Core) = _
      rw [hf]; rfl
    unfold Ev.calSlew
    split
    · next k hk => rw [this] at hk; exact (h k hk).elim
    all_goals exact hc
  constructor
  · unfold Ev.calSlewDone
    split
    · rfl
    · exact hs _ rfl
    · rfl
  · unfold Ev.calSlewFault
    split
    · split
      · next k hk => exact (h k hk).elim
      all_goals rfl
    · exact hs _ rfl
    · rfl

namespace State.Orderly

variable {e : Ev}

/-- The release part of a selection (R42). -/
theorem selectRelease (h : e.toState.Orderly) (hp : Table.rising e.pls.plan
    = true) : e.selectRelease.toState.Orderly := by
  unfold Ev.selectRelease
  split
  · next k =>
    dsimp only
    obtain ⟨c, r⟩ := e.starvedTest_core e.candidates
    split
    · next q hq =>
      obtain ⟨m1, m2⟩ := e.toState.mem_candidates q (List.mem_of_find?_eq_some hq)
      have he : e.entryAt q.1 = some q.2 := Table.read_of_mem _ hp q m1
      refine h.starvedTest.release ?_ (en' := q.2) ?_ ?_
      · unfold State.mayRelease State.carrierAt State.unitFree State.flight at k ⊢
        rw [r, show (e.starvedTest e.candidates).btc.train = _ from congrArg Core.train c,
          show (e.starvedTest e.candidates).sli.inFlight = _ from congrArg Core.inFlight c]
        exact k
      · unfold State.entryAt at he ⊢
        rw [show (e.starvedTest e.candidates).pls.plan = _ from congrArg Core.plan c]
        exact he
      · unfold State.isCandidate at m2
        simp only [Bool.and_eq_true] at m2
        have := m2.1.1
        intro n; rw [n] at this; cases this
    · exact h.starvedTest.stallTest
  · exact h

/-! ### The ends of a run -/

/-- With an empty train, a VACANT head and no order in flight, in another mode. -/
theorem atRestAs {s t : State} (h : s.Orderly) (h1 : ∀ b, s.carrierAt b = none) (h2 : s.hsq.head = .vacant)
    (h3 : ∀ u, s.flight u = none)
    (hc : t.core = { s.core with
      mode := t.rcu.mode, deploy := t.rcu.deploy, holds := t.rcu.holds, stranded := t.rcu.stranded,
          cal := t.dfu.cal })
    (cal : ∀ k, t.dfu.cal = .running k → t.rcu.mode = .idle ∧ t.rcu.deploy = false)
    (reasons : t.rcu.mode ≠ .holding → t.rcu.holds = .none)
    (strandings : t.rcu.mode ≠ .holding → t.rcu.mode ≠ .aborted → t.rcu.stranded = [])
    (jammed : t.rcu.mode = .holding → t.rcu.stranded ≠ [] → t.rcu.holds.jam = true) : t.Orderly := by
  unfold State.core at hc
  simp only [Core.mk.injEq] at hc
  obtain ⟨c1, c2, c3, c4, c5, -, -, -, -, c10, c11, c12, c13, c14, -, -, -⟩ := hc
  have hen : ∀ b, t.entryAt b = s.entryAt b := fun b => by unfold State.entryAt; rw [c1]
  have hrg : ∀ n, t.pls.region n = s.pls.region n := fun n => by unfold Pls.region; rw [c2, c3]
  have hrs : ∀ n, t.pls.ringSlot n = s.pls.ringSlot n := fun n => by unfold Pls.ringSlot; rw [c2, c3, c4]
  refine State.Orderly.bare (by rw [c13]; exact h.bin) ?_ ?_ ?_ (c14.trans h2) ?_ (c11.trans (h.not_waiting (h3 _)))
    cal reasons strandings jammed
  · intro n; rw [hrg, hen, c5]; simp only [hrs]; exact h.ring n
  · intro n k
    have : s.inTrainAt n := by unfold State.inTrainAt at k ⊢; rw [← hen]; exact k
    obtain ⟨b, c, k1, _⟩ := h.claimed n this
    rw [h1] at k1; cases k1
  · intro b; unfold State.carrierAt; rw [c12]; exact h1 b
  · intro u; unfold State.flight; rw [c10]; exact h3 u

/-- An entry into settled IDLE (R160). -/
theorem enterIdle {cause : ModeCause} (h : e.toState.Orderly) (h1 : ∀ b, e.carrierAt b = none) (h2 : e.hsq.head
    = .vacant)
    (h3 : ∀ u, e.flight u = none) (h4 : e.rcu.stranded = []) (h5 : e.rcu.mode ≠ .holding) :
    (e.enterIdle cause).toState.Orderly := by
  unfold Ev.enterIdle
  dsimp only
  refine State.Orderly.calResume (State.Orderly.modeReport (State.Orderly.saveHealth
      (State.Orderly.flush ?_))) rfl rfl
  refine h.atRestAs h1 h2 h3 rfl (fun _ _ => ⟨rfl, rfl⟩) (fun _ => h.reasons h5) (fun _ _ => h4) (fun k => by cases k)

theorem no_carriers {s : State} (h : s.trainEmpty = true) : (∀ b, s.carrierAt b = none) ∧ s.hsq.head = .vacant := by
  unfold State.trainEmpty at h
  simp only [Bool.and_eq_true, List.isEmpty_iff, beq_iff_eq] at h
  exact ⟨fun b => by unfold State.carrierAt; rw [h.1]; rfl, h.2⟩

/-- A run with an empty train ends. -/
theorem endRun {cause : ModeCause} (h : e.toState.Orderly) (hr : e.running = true) (ht : e.trainEmpty = true) :
    (e.enterIdle cause).toState.Orderly := by
  obtain ⟨h1, h2⟩ := no_carriers ht
  have hm : e.rcu.mode ≠ .holding ∧ e.rcu.mode ≠ .aborted := by
    rcases (State.running_iff _).1 hr with k | k <;> simp [k]
  refine h.enterIdle h1 h2 ?_ (h.strandings hm.1 hm.2) hm.1
  intro u
  cases hf : e.flight u with
  | none => rfl
  | some r => exact (State.not_rest_of_inRun (State.inRun_of_running hr) (h.flights_at_rest h1 h2 hf).2).elim

theorem stationTest (h : e.toState.Orderly) : e.stationTest.toState.Orderly := by
  unfold Ev.stationTest
  split
  · next k =>
    rw [Bool.and_eq_true] at k
    have k2 := k.2
    unfold State.stationComplete at k2
    rw [Bool.and_eq_true] at k2
    exact State.Orderly.endRun h.report k.1 k2.2
  · exact h

theorem drainTest (h : e.toState.Orderly) : e.drainTest.toState.Orderly := by
  unfold Ev.drainTest
  split
  · next k =>
    simp only [Bool.and_eq_true] at k
    refine h.endRun ((State.running_iff _).2 (.inr ?_)) k.1.2
    simpa using k.1.1
  · exact h

theorem runSelection (h : e.toState.Orderly) (hp : Table.rising e.pls.plan = true) : e.runSelection.toState.Orderly :=
  (h.selectRelease hp).stationTest

theorem whenDue {d : Bool} {f : Ev → Ev} (h : e.toState.Orderly) (hf : e.toState.Orderly → (f e).toState.Orderly) :
    (e.whenDue d f).toState.Orderly := by
  unfold Ev.whenDue
  split
  · exact hf h
  · exact h

/-- The prompted tests at the end of an event. -/
theorem finish (h : e.toState.Orderly) (hs : e.toState.Sound) : e.finish.toState.Orderly := by
  unfold Ev.finish
  extract_lets e1 e2 e3
  have h1 : e1.toState.Orderly := h.whenDue fun k => k.retestPress
  have h2 : e2.toState.Orderly := h1.whenDue fun k => k.runTransfers
  have l2 : Ev.Leads e e2 := ((Ev.Leads.refl e).whenDue fun _ k => k.retestPress).whenDue fun _ k => k.runTransfers
  have h3 : e3.toState.Orderly := h2.whenDue fun k => k.runSelection (l2.sound hs).pls.2.2.2.2.2.2
  exact h3.whenDue fun k => k.drainTest

theorem entryReport {c : ModeCause} {p : Mode} (h : e.toState.Orderly) : (e.entryReport c p).toState.Orderly :=
  h.congr rfl

/-- The mode enters LAYING or DRAINING (R165, R166). -/
theorem modeEntered (h : e.toState.Orderly) (hr : e.running = true) : e.modeEntered.toState.Orderly := by
  unfold Ev.modeEntered
  have h1 : ((e.resumeWork 1).resumeWork 2).toState.Orderly :=
    State.Orderly.resumeWork (.inr rfl) (h.resumeWork (.inl rfl))
  refine State.Orderly.promptDrain (State.Orderly.promptSel (State.Orderly.promptXfer (h1.headResume ?_)))
  have : ((e.resumeWork 1).resumeWork 2).rcu = e.rcu := by rw [Ev.resumeWork_rcu, Ev.resumeWork_rcu]
  unfold State.inRun; rw [this]; exact State.inRun_of_running hr

/-! ### The endings of orders -/

/-- In IDLE or STOWING, with BOOM free, no order is in flight. -/
theorem no_flights {s : State} (h : s.Orderly) (hm : s.rcu.mode = .idle ∨ s.rcu.mode = .stowing)
    (hb : s.flight boomUnit = none) : ∀ u, s.flight u = none := by
  intro u
  cases hf : s.flight u with
  | none => rfl
  | some r =>
    obtain ⟨k1, k2⟩ := h.atRest (not_inRun_of_idle hm)
    have := (h.flights_at_rest k1 k2 hf).1
    rw [this, hb] at hf; cases hf

theorem deployEnd {x : Ending} (h : e.toState.Orderly) (hm : e.rcu.mode = .idle) (hd : e.rcu.deploy = true)
    (hb : e.flight boomUnit = none) : (e.deployEnd x).toState.Orderly := by
  obtain ⟨k1, k2⟩ := h.atRest (not_inRun_of_idle (.inl hm))
  have k3 := h.no_flights (.inl hm) hb
  have idle : ∀ c, (e.enterIdle c).toState.Orderly := fun c =>
    h.enterIdle k1 k2 k3 (h.strandings (by simp [hm]) (by simp [hm])) (by simp [hm])
  unfold Ev.deployEnd
  split
  · dsimp only
    refine State.Orderly.modeEntered (State.Orderly.entryReport (h.atRestAs k1 k2 k3 rfl ?_ ?_ ?_ ?_)) ?_
    · intro k hk
      have := (h.calibrating k hk).2
      rw [hd] at this; cases this
    · intro _; exact h.reasons (by simp [hm])
    · intro _ _; exact h.strandings (by simp [hm]) (by simp [hm])
    · intro k; cases k
    · exact (State.running_iff _).2 (.inl rfl)
  · exact idle _
  · exact idle _

theorem foldEnd {x : Ending} (h : e.toState.Orderly) (hm : e.rcu.mode = .stowing)
    (hb : e.flight boomUnit = none) : (e.foldEnd x).toState.Orderly := by
  obtain ⟨k1, k2⟩ := h.atRest (not_inRun_of_idle (.inr hm))
  have k3 := h.no_flights (.inr hm) hb
  have idle : ∀ c, (e.enterIdle c).toState.Orderly := fun c =>
    h.enterIdle k1 k2 k3 (h.strandings (by simp [hm]) (by simp [hm])) (by simp [hm])
  unfold Ev.foldEnd
  split
  · dsimp only
    refine State.Orderly.modeReport (h.atRestAs k1 k2 k3 rfl ?_ ?_ ?_ ?_)
    · intro k hk
      have := (h.calibrating k hk).1
      rw [hm] at this; cases this
    · intro _; exact h.reasons (by simp [hm])
    · intro _ _; exact h.strandings (by simp [hm]) (by simp [hm])
    · intro k; cases k
  · exact idle _
  · exact idle _

theorem headSlewEnd {x : Ending} (h : e.toState.Orderly) (hf : e.headFree)
    (hs : e.hsq.head = .approaching ∨ e.hsq.head = .retracting) : (e.headSlewEnd x).toState.Orderly := by
  have hv : e.hsq.head ≠ .vacant := by rcases hs with k | k <;> simp [k]
  unfold Ev.headSlewEnd
  split
  · split
    · next k => exact h.approachEnd hf (by rw [k]; unfold HeadState.holding; simp)
    · next k =>
      refine h.vacantAtReceive hf ?_
      rcases h.head with ⟨_, q⟩ | ⟨q, _⟩
      · exact q
      · exact (q.2 k).elim
    all_goals exact h
  · exact h.headJam hf hv
  · exact h.headJam hf hv

/-- An ending, its record cleared, is handed on (R56). -/
theorem handOn {u : Nat} {r : InFlight} {x : Ending} (h : e.toState.Orderly) (hu : e.flight u = none)
    (hs : e.toState.serves u r) : (e.handOn u r.order r.requester x).toState.Orderly := by
  have free : e.hsq.head.unit = some u → e.headFree := fun k => h.headFree (fun v hv => by
    rw [k] at hv; cases hv; exact hu)
  unfold State.serves at hs
  generalize r.order = o at hs
  generalize r.requester = q at hs
  cases o with
  | load lane =>
    obtain ⟨rfl, _, hs⟩ := hs
    cases x with
    | done => exact h.loadEnd hs hu
    | fault c => cases c <;> first | exact h.loadEmptyEnd hs hu | exact h.loadJam hs hu
    | cutoff => exact h.loadJam hs hu
  | cut n =>
    obtain ⟨rfl, _, hs⟩ := hs
    cases x with
    | done => exact h.cutEnd hs hu
    | fault c => exact h.cutFail hs hu
    | cutoff => exact h.cutFail hs hu
  | glue n =>
    obtain ⟨rfl, _, hs⟩ := hs
    cases x with
    | done => exact h.glueEnd hs hu
    | fault c => exact h.glueFail hs hu
    | cutoff => exact h.glueFail hs hu
  | move =>
    obtain ⟨b, hb, rfl, _, hs⟩ := hs
    have hb' : xferUnit b - xferUnit 0 = b := by unfold xferUnit; omega
    cases x with
    | done => show (e.moveEnd (xferUnit b - xferUnit 0)).toState.Orderly; rw [hb']; exact h.moveEnd hb hs hu
    | fault c => show (e.moveJam (xferUnit b - xferUnit 0)).toState.Orderly; rw [hb']; exact h.moveJam hb hs hu
    | cutoff => show (e.moveJam (xferUnit b - xferUnit 0)).toState.Orderly; rw [hb']; exact h.moveJam hb hs hu
  | slew p v =>
    obtain ⟨rfl, ⟨rfl, hs⟩ | ⟨rfl, hs⟩⟩ := hs
    · exact h.headSlewEnd (free (by rcases hs with k | k <;> rw [k] <;> rfl)) hs
    · cases x with
      | done => exact h.calSlewDone
      | fault c => exact h.calSlewFault
      | cutoff => exact h.calSlewFault
  | deploy =>
    obtain ⟨rfl, _, hm, hd⟩ := hs
    exact h.deployEnd hm hd hu
  | fold =>
    obtain ⟨rfl, _, hm⟩ := hs
    exact h.foldEnd hm hu
  | trim a b c d =>
    obtain ⟨rfl, _, hs⟩ := hs
    exact h.trimEnd (free (by rcases hs with k | k <;> rw [k] <;> rfl))
      (by unfold HeadState.holding; rcases hs with k | k <;> simp [k])
  | take =>
    obtain ⟨rfl, _, hs⟩ := hs
    have hf := free (by rw [hs]; rfl)
    have hh : e.hsq.head.holding := by unfold HeadState.holding; simp [hs]
    cases x with
    | done => exact h.takeEnd hf hh
    | fault c => cases c <;> first | exact h.condemnAndDump hf hh | exact h.headJam hf hh.1
    | cutoff => exact h.headJam hf hh.1
  | openGrip =>
    obtain ⟨rfl, _, hs⟩ := hs
    have hf := free (by rw [hs]; rfl)
    have hh : e.hsq.head.holding := by unfold HeadState.holding; simp [hs]
    cases x with
    | done => exact h.openEnd hf hh
    | fault c => exact h.headJam hf hh.1
    | cutoff => exact h.headJam hf hh.1
  | press =>
    obtain ⟨rfl, _, hs⟩ := hs
    have hf := free (by rw [hs]; rfl)
    have hh : e.hsq.head.holding := by unfold HeadState.holding; simp [hs]
    cases x with
    | done => exact h.afterPress hf hh
    | fault c => exact h.headJam hf hh.1
    | cutoff => exact h.pressCutoff hf hh
  | dump =>
    obtain ⟨rfl, _, hs, hb⟩ := hs
    have hf := free (by rw [hs]; rfl)
    have hh : e.hsq.head.holding := by unfold HeadState.holding; simp [hs]
    cases x with
    | done => exact h.dumpEnd hf hh hb
    | fault c => exact h.headJam hf hh.1
    | cutoff => exact h.headJam hf hh.1

/-- A request waits only behind a slew in flight, so none is sent (R53). -/
theorem sendWaiting (h : e.toState.Orderly) : e.sendWaiting.toState.Orderly := by
  unfold Ev.sendWaiting
  split
  · exact h
  · next q hq =>
    obtain ⟨⟨r, _, _, k, _⟩, _⟩ := h.waiting q hq
    rw [if_neg (fun n => by rw [(State.unitFree_iff _ _).1 n] at k; cases k)]
    exact h

/-- The waiting request is sent once the slew it waits behind has ended (R53, R56). -/
theorem sendWaited {q : BoomRequest} {t : Ev} (h : e.toState.Orderly) (hq : e.sli.boomWaiting = some q)
    (ht : t.toState.core = (e.onSli fun l => { l with inFlight := Table.strike l.inFlight boomUnit }).toState.core) :
    t.sendWaiting.toState.Orderly := by
  obtain ⟨_, hm⟩ := h.waiting q hq
  have tq : t.sli.boomWaiting = some q := (congrArg Core.boomWaiting ht).trans hq
  have ti : t.sli.inFlight = Table.strike e.sli.inFlight boomUnit := congrArg Core.inFlight ht
  have tf : t.flight boomUnit = none := by unfold State.flight; rw [ti]; exact Table.read_strike_same _ _
  unfold Ev.sendWaiting
  rw [tq]
  dsimp only
  rw [if_pos ((State.unitFree_iff _ _).2 tf)]
  set m := t.onSli fun l => { l with boomWaiting := none } with hm'
  have mc : m.toState.core =
      { e.toState.core with inFlight := Table.strike e.sli.inFlight boomUnit, boomWaiting := none } := by
    rw [hm']
    show ({ t.toState.core with boomWaiting := none } : Core) = _
    rw [ht]; rfl
  have e0 : ((e.onSli fun l => { l with boomWaiting := none }).onSli fun l =>
      { l with inFlight := Table.strike l.inFlight boomUnit
      }).toState.Orderly := by
    refine State.Orderly.strike boomUnit ?_ (fun _ => rfl)
    exact { h with waiting := fun q k => by cases k }
  have hmo : m.toState.Orderly := e0.congr mc
  have mf : m.flight boomUnit = none := tf
  have mm : m.rcu.mode = e.rcu.mode := congrArg Core.mode mc
  have md : m.rcu.deploy = e.rcu.deploy := congrArg Core.deploy mc
  unfold Ev.sendBoom
  refine State.Orderly.leaveReceiveAtRest (hmo.send mf ?_) ?_
  · intro _ _
    cases q with
    | deploy => exact ⟨rfl, rfl, mm.trans hm.1, md.trans hm.2⟩
    | fold => exact ⟨rfl, rfl, mm.trans hm⟩
  · refine State.Orderly.not_inRun_of_idle ?_
    show m.rcu.mode = _ ∨ m.rcu.mode = _
    rw [mm]
    cases q with
    | deploy => exact .inl hm.1
    | fold => exact .inr hm

/-- An order ends (R56). -/
theorem endOrder {u : Nat} {r : InFlight} {x : Ending} (h : e.toState.Orderly) (hf : e.flight u = some r) :
    (e.endOrder u r x).toState.Orderly := by
  unfold Ev.endOrder
  set e1 := e.onSli fun l => { l with inFlight := Table.strike l.inFlight u } with he1
  have f1 : e1.flight u = none := Table.read_strike_same _ _
  by_cases hw : u = boomUnit ∧ e.sli.boomWaiting ≠ none
  · obtain ⟨rfl, hw⟩ := hw
    cases hq : e.sli.boomWaiting with
    | none => exact (hw hq).elim
    | some q =>
      obtain ⟨⟨r', p, v, k1, k2, k3⟩, hm⟩ := h.waiting q hq
      rw [hf] at k1; cases k1
      have hc : ∀ k, e1.dfu.cal ≠ .running k := by
        intro k hk
        obtain ⟨c1, c2⟩ := h.calibrating k hk
        cases q with
        | deploy => rw [hm.2] at c2; cases c2
        | fold => rw [hm] at c1; cases c1
      obtain ⟨d1, d2⟩ := e1.calSlewEnd_core hc
      dsimp only
      rw [if_pos rfl]
      refine h.sendWaited hq (t := e1.handOn boomUnit r.order r.requester x) ?_
      rw [k2, k3]
      cases x with
      | done => exact d1
      | fault c => exact d2
      | cutoff => exact d2
  · have h1 : e1.toState.Orderly := h.strike u fun k => by
      by_contra n; exact hw ⟨k, n⟩
    have hs : e1.toState.serves u r := h.orders u r hf
    have h2 : (e1.handOn u r.order r.requester x).toState.Orderly := h1.handOn f1 hs
    dsimp only
    split
    · exact h2.sendWaiting
    · exact h2

theorem takeCompletion {u : Nat} {t r c : Byte} (h : e.toState.Orderly) :
    (e.takeCompletion u t r c).toState.Orderly := by
  unfold Ev.takeCompletion
  split
  · exact h.countStale
  · next f hf =>
    split
    · exact h.endOrder hf
    · exact h.countStale

theorem takeCompletionFrame {bs : List Byte} (h : e.toState.Orderly) :
    (e.takeCompletionFrame bs).toState.Orderly := by
  unfold Ev.takeCompletionFrame
  dsimp only
  split
  · split
    · exact h.takeCompletion
    · exact h.countStale
  · exact h.countStale

theorem loopByte {b : Byte} (h : e.toState.Orderly) : (e.loopByte b).toState.Orderly := by
  have rx : ∀ bs : List Byte, (e.onSli fun l => { l with rx := bs }).toState.Orderly := fun _ => h.congr rfl
  unfold Ev.loopByte
  split
  · split
    · exact rx _
    · exact h
  · dsimp only
    split
    · split
      · exact (rx _).takeCompletionFrame
      · exact rx _
    · split
      · exact rx _
      · exact rx _

end State.Orderly

end Sys2Proof.Machine
end

