-- ==== Sys2Proof/Laws/Entry.lean ====
section
/-! SUPPORT. What an entry into LAYING or DRAINING makes of the hold reasons: the set its MODE report carries is the set
that stands at the end of the event (R161). -/

namespace Sys2Proof.Machine

-- One proof at a time, so that the package as one text needs few threads.
set_option Elab.async false

/-- All that a bin claim reads stands as it stood. -/
structure Ev.SameClaim (e a : Ev) : Prop where
  rcu : a.rcu = e.rcu
  hsq : a.hsq = e.hsq
  bin : a.btc.bin = e.btc.bin
  busy : a.headBusy = e.headBusy

namespace Ev.SameClaim

theorem refl (e : Ev) : Ev.SameClaim e e := ⟨rfl, rfl, rfl, rfl⟩

theorem trans {e a b : Ev} (h : Ev.SameClaim e a) (k : Ev.SameClaim a b) : Ev.SameClaim e b :=
  ⟨k.rcu.trans h.rcu, k.hsq.trans h.hsq, k.bin.trans h.bin, k.busy.trans h.busy⟩

theorem onCarrier (e : Ev) (b : Nat) (f : Carrier → Carrier) : Ev.SameClaim e (e.onCarrier b f) := by
  unfold Ev.onCarrier
  split
  · exact .refl e
  · exact ⟨rfl, rfl, rfl, rfl⟩

/-- An order the train sends to a free unit is no order of the head's. -/
theorem send {e : Ev} {u : Nat} {o : Order} (h : e.unitFree u = true) : Ev.SameClaim e (e.send u o .btc) := by
  refine ⟨rfl, rfl, rfl, ?_⟩
  have same (v : Nat) (hv : v ≠ u) : (e.send u o .btc).flight v = e.flight v := Table.read_write_other _ _ _ _ hv
  have own : (e.send u o .btc).flight u = some ⟨o, e.tagOf u, .btc, e.now⟩ := Table.read_write_same _ _ _
  rw [Bool.eq_iff_iff, State.headBusy_iff, State.headBusy_iff]
  refine exists_congr fun v => and_congr_right fun _ => exists_congr fun r => and_congr_left fun hr => ?_
  by_cases hv : v = u
  · subst hv
    rw [own, (State.unitFree_iff _ _).1 h]
    refine ⟨fun k => ?_, fun k => (nomatch k)⟩
    cases k; cases hr
  · rw [same v hv]

theorem makeReady (e : Ev) (b : Nat) : Ev.SameClaim e (e.makeReady b) := (onCarrier e b _).trans ⟨rfl, rfl, rfl, rfl⟩

theorem onCarrier_unitFree (e : Ev) (b u : Nat) (f : Carrier → Carrier) :
    (e.onCarrier b f).unitFree u = e.unitFree u := by
  unfold Ev.onCarrier; split <;> rfl

theorem startWork (e : Ev) (b : Nat) (c : Carrier) : Ev.SameClaim e (e.startWork b c) := by
  unfold Ev.startWork
  split
  · exact makeReady e b
  · split
    · next h =>
      refine (onCarrier e b _).trans (send ?_)
      rw [onCarrier_unitFree]; simp only [Bool.and_eq_true] at h; exact h.2
    · exact onCarrier e b _

theorem resumeWork (e : Ev) (b : Nat) : Ev.SameClaim e (e.resumeWork b) := by
  unfold Ev.resumeWork
  split
  · exact .refl e
  · split
    · exact startWork e b _
    · exact .refl e

end Ev.SameClaim

/-! ### The reasons as the head resumes -/

theorem Ev.sendHead_rcu (e : Ev) (u : Nat) (o : Order) : (e.sendHead u o).rcu = e.rcu := by
  unfold Ev.sendHead; split <;> rfl

theorem Ev.settlePhase_rcu (e : Ev) : e.settlePhase.rcu = e.rcu := by
  unfold Ev.settlePhase; split <;> rfl

theorem Ev.sendApproach_rcu (e : Ev) : e.sendApproach.rcu = e.rcu := by
  unfold Ev.sendApproach
  split
  · rfl
  · split
    · exact e.sendHead_rcu _ _
    · rfl

/-- A bin claim adds BIN_FULL where it is refused, and no other reason (R88). -/
theorem Ev.binClaim_holds (e : Ev) (hr : e.running = true) (hd : e.hsq.head = .dumping) :
    e.binClaim.rcu.holds = e.holdsOnEntry := by
  unfold Ev.binClaim State.holdsOnEntry State.binRefuses
  simp only [hr, hd, beq_self_eq_true, Bool.true_and]
  cases hb : e.headBusy
  · simp only [Bool.not_false, if_true, Bool.true_and, decide_eq_true_eq]
    by_cases hc : e.btc.bin < Config.binPlaces
    · rw [if_pos hc, if_neg (by omega), Ev.sendHead_rcu]
    · rw [if_neg hc, if_pos (by omega)]
      unfold Ev.raiseHold
      rcases (State.running_iff _).1 hr with m | m <;> rw [m] <;> rfl
  · simp

/-- The head's resumption leaves the reasons that `holdsOnEntry` names (R142). -/
theorem Ev.headResume_holds (e : Ev) (hr : e.running = true) : e.headResume.rcu.holds = e.holdsOnEntry := by
  have other (hd : e.hsq.head ≠ .dumping) (x : Ev) (hx : x.rcu = e.rcu) : x.rcu.holds = e.holdsOnEntry := by
    unfold State.holdsOnEntry State.binRefuses
    rw [beq_eq_false_iff_ne.2 hd, hx]; rfl
  unfold Ev.headResume
  split
  all_goals
    next m =>
      first
      | exact e.binClaim_holds hr m
      | (refine other (by rw [m]; simp) _ ?_
         first
         | rfl
         | exact e.settlePhase_rcu
         | (split <;> first | rfl | exact e.sendHead_rcu _ _ | exact e.sendApproach_rcu | exact Ev.sendHead_rcu _ _ _))

/-- The entry into LAYING or DRAINING leaves the reasons its MODE report carries (R161). -/
theorem Ev.modeEntered_holds (e : Ev) (hr : e.running = true) : e.modeEntered.rcu.holds = e.holdsOnEntry := by
  unfold Ev.modeEntered
  have k : Ev.SameClaim e ((e.resumeWork 1).resumeWork 2) := (Ev.SameClaim.resumeWork e 1).trans (.resumeWork _ 2)
  generalize (e.resumeWork 1).resumeWork 2 = a at k
  have h2 : a.running = true := by rw [State.running_iff, k.rcu]; exact (State.running_iff _).1 hr
  refine (a.headResume_holds h2).trans ?_
  unfold State.holdsOnEntry State.binRefuses
  rw [k.rcu, k.hsq, k.bin, k.busy]

/-! ### The reasons at the end of an event -/

theorem Ev.retestPress_rcu (e : Ev) : e.retestPress.rcu = e.rcu := by
  unfold Ev.retestPress
  split
  · unfold Ev.enterPressing
    rw [Ev.sendHead_rcu]
    exact (e.onCarrier_sli _ _).2.1
  · rfl

theorem Ev.calResume_rcu (e : Ev) : e.calResume.rcu = e.rcu := by
  unfold Ev.calResume Ev.startPoint
  split
  · rw [Ev.calSlew_rcu]; rfl
  all_goals rfl

theorem Ev.enterIdle_holds (e : Ev) (c : ModeCause) : (e.enterIdle c).rcu.holds = e.rcu.holds := by
  unfold Ev.enterIdle; dsimp only; rw [Ev.calResume_rcu]; rfl

theorem Ev.release_holds (e : Ev) (slot : Nat) (en : Entry) : (e.release slot en).rcu.holds = e.rcu.holds := by
  unfold Ev.release
  extract_lets lane e1 e2 e3 e4
  have h1 : e1.rcu = e.rcu := (e.changeEntry_rcu_hsq slot _).1
  have h4 : e4.rcu = e.rcu := h1
  clear_value e4
  have := congrArg Core.holds ((e4.onRsl fun r => { r with stall := false }).refreshCourse_core .event)
  exact this.trans (congrArg Rcu.holds h4)

theorem Ev.selectRelease_holds (e : Ev) : e.selectRelease.rcu.holds = e.rcu.holds := by
  unfold Ev.selectRelease
  split
  · extract_lets cands e1
    have h1 : e1.rcu = e.rcu := (e.starvedTest_core cands).2
    clear_value e1
    split
    · rw [Ev.release_holds, h1]
    · unfold Ev.stallTest
      split
      · exact congrArg Rcu.holds h1
      · rw [h1]
  · rfl

theorem Ev.runSelection_holds (e : Ev) : e.runSelection.rcu.holds = e.rcu.holds := by
  unfold Ev.runSelection Ev.stationTest
  split
  · rw [Ev.enterIdle_holds]; exact e.selectRelease_holds
  · exact e.selectRelease_holds

theorem Ev.drainTest_holds (e : Ev) : e.drainTest.rcu.holds = e.rcu.holds := by
  unfold Ev.drainTest
  split
  · exact e.enterIdle_holds _
  · rfl

theorem Ev.whenDue_holds (e : Ev) (due : Bool) (test : Ev → Ev) (h : ∀ x : Ev, (test x).rcu.holds = x.rcu.holds) :
    (e.whenDue due test).rcu.holds = e.rcu.holds := by
  unfold Ev.whenDue
  split
  · exact h e
  · rfl

/-- The tests prompted at the end of an event leave the reasons as they are. -/
theorem Ev.finish_holds (e : Ev) : e.finish.rcu.holds = e.rcu.holds := by
  unfold Ev.finish
  dsimp only
  rw [Ev.whenDue_holds _ _ _ Ev.drainTest_holds, Ev.whenDue_holds _ _ _ Ev.runSelection_holds,
    Ev.whenDue_holds _ _ _ fun x => congrArg Rcu.holds x.runTransfers_rcu,
    Ev.whenDue_holds _ _ _ fun x => congrArg Rcu.holds x.retestPress_rcu]

end Sys2Proof.Machine
end

