-- ==== Sys2Proof/Laws/Lines.lean ====
section
/-! SUPPORT. What whole frames on the host line and the tracker line can do. -/

namespace Sys2Proof.Machine

-- One proof at a time, so that the package as one text needs few threads.
set_option Elab.async false

theorem event_hostByte (s : State) (b : Byte) : event (Ev.hostByte b) s =
    { s with scp := Scp.hostByte s.now b s.scp } := by
  rw [event, Ev.finish_none _ rfl rfl rfl rfl]; rfl

/-- Bytes of the host line, coming without a gap, change the port alone. -/
theorem hostBytes_eq (bs : List Byte) : ∀ s : State, hostBytes bs s =
    { s with scp := bs.foldl (fun p b => Scp.hostByte s.now b p) s.scp } := by
  induction bs with
  | nil => intro s; rfl
  | cons b bs ih =>
    intro s
    show hostBytes bs (event (Ev.hostByte b) s) = _
    rw [event_hostByte, ih]; rfl

theorem Scp.hostByte_no_gap (now : Nat) (b : Byte) (p : Scp) (h : p.rx = .hunt ∨ p.rxLast
    = now) : Scp.hostByte now b p = p.takeByte now b := by
  unfold Scp.hostByte Scp.inFrame
  rw [if_neg]
  simp
  rcases h with h | h
  · intro k; exact absurd h k
  · intro _; omega

def Scp.inState (p : Scp) (now : Nat) (rx : RxState) (bs : List Byte) : Scp :=
    { p with rx := rx, rxBytes := bs, rxLast := now }

theorem Scp.hostByte_inState (now : Nat) (b : Byte) (p : Scp) (rx) (bs) : Scp.hostByte now b
    (Scp.inState p now rx bs) = (Scp.inState p now rx bs).takeByte now b := Scp.hostByte_no_gap _ _ _ (.inr rfl)

theorem frameLength_le (n : Nat) (h : n < 65536) (rest : List Byte) : frameLength (le 2 n ++ rest) = n := by
  unfold frameLength
  have : (le 2 n ++ rest).take 2 = le 2 n := by simp [le]
  rw [this]; exact unle_le_of_lt (by omega)

theorem Scp.body_bytes (p : Scp) (now n : Nat) (hn : n < 65536) (_ : 2 ≤ n) (done rest : List Byte)
    (hlen : done.length + rest.length = n) (hr : rest ≠ []) :
   rest.foldl (fun p b => Scp.hostByte now b p) (Scp.inState p now .body (le 2 n ++ done))
       = Scp.inState p now .check (le 2 n ++ done ++ rest) := by
  induction rest generalizing done with
  | nil => exact absurd rfl hr
  | cons b rest ih =>
    rw [List.foldl_cons]
    have h1 : Scp.hostByte now b (Scp.inState p now .body (le 2 n ++ done)) = Scp.inState p now
        (if done.length + 1 < n then .body else .check) (le 2 n ++ (done ++ [b])) := by
      rw [Scp.hostByte_inState]
      unfold Scp.takeByte Scp.inState
      simp only [List.append_assoc, frameLength_le n hn]
      have : (le 2 n ++ (done ++ [b])).length = done.length + 3 := by simp [le]
      rw [this]
      split
      · rw [if_pos (by omega)]
      · rw [if_neg (by omega)]
    rw [h1]
    cases rest with
    | nil =>
      rw [if_neg (by simp at hlen; omega)]; simp
    | cons c rest =>
      rw [if_pos (by simp at hlen; omega), ih (done ++ [b]) (by simp at hlen ⊢; omega) (by simp)]
      try simp

/-- The bytes of a host frame lead to its check (R189). -/
theorem Scp.frame_bytes (p : Scp) (now : Nat) (kind tag c0 c1 : Byte) (payload : List Byte)
    (hp : payload.length ≤ 1024) (hx : p.rx = .hunt) :
   let body := le 2 (payload.length + 2) ++ kind :: tag :: payload
   (0xA5 :: body ++ [c0, c1]).foldl (fun p b => Scp.hostByte now b p) p = Scp.closeFrame (body ++ [c0, c1])
       (Scp.inState p now .check (body ++ [c0])) := by
  intro body
  have hn : payload.length + 2 < 65536 := by omega
  rw [List.cons_append, List.foldl_cons, List.foldl_append]
  have h0 : Scp.hostByte now 0xA5 p = Scp.inState p now .length [] := by
    rw [Scp.hostByte_no_gap _ _ _ (.inl hx)]; unfold Scp.takeByte; simp only [hx, if_true]; rfl
  rw [h0]
  have hb2 : body.foldl (fun p b => Scp.hostByte now b p) (Scp.inState p now .length [])
      = Scp.inState p now .check body := by
    unfold body
    rw [List.foldl_append]
    have hl : (le 2 (payload.length + 2)).foldl (fun p b => Scp.hostByte now b p) (Scp.inState p now .length [])
        = Scp.inState p now .body (le 2 (payload.length + 2) ++ []) := by
      simp only [le, List.foldl_cons, List.foldl_nil]
      have e1 : Scp.hostByte now (byte (payload.length + 2)) (Scp.inState p now .length [])
          = Scp.inState p now .length [byte (payload.length + 2)] := by
        rw [Scp.hostByte_inState]; rfl
      rw [e1, Scp.hostByte_inState]
      have e2 := frameLength_le _ hn []
      simp only [le, List.append_nil] at e2
      unfold Scp.takeByte Scp.inState
      simp only [List.cons_append, List.nil_append, List.append_nil, e2]
      rw [if_neg (by simp), if_pos (by omega)]
    rw [hl, Scp.body_bytes _ _ _ hn (by omega) _ _ (by simp) (by simp)]
    simp
  rw [hb2]
  simp only [List.foldl_cons, List.foldl_nil]
  have hlen : body.length = payload.length + 4 := by simp [body, le]
  have fl : ∀ r, frameLength (body ++ r) = payload.length + 2 := by
    intro r; unfold body; rw [List.append_assoc]; exact frameLength_le _ hn _
  have e3 : Scp.hostByte now c0 (Scp.inState p now .check body) = Scp.inState p now .check (body ++ [c0]) := by
    rw [Scp.hostByte_inState]
    unfold Scp.takeByte Scp.inState
    simp only [fl]
    rw [if_pos (by simp [hlen])]
  rw [e3, Scp.hostByte_inState]
  unfold Scp.takeByte Scp.inState
  simp only [List.append_assoc, List.cons_append, List.nil_append, fl]
  rw [if_neg (by simp [hlen])]

/-- At the last check byte: offered, or counted (R190, R191). -/
theorem Scp.closeFrame_body (p : Scp) (kind tag c0 c1 : Byte) (payload : List Byte) (hp : payload.length ≤ 1024)
    (now : Nat)  (junk : List Byte):
   let body := le 2 (payload.length + 2) ++ kind :: tag :: payload
   Scp.closeFrame (body ++ [c0, c1]) (Scp.inState p now .check junk) = if crc16 body = unle [c0, c1] then
     Scp.offer ⟨kind, tag, payload⟩ (Scp.inState p now .hunt []) else Scp.frameError (Scp.inState p now .hunt
         []) := by
  intro body
  have hn : payload.length + 2 < 65536 := by omega
  have hlen : body.length = payload.length + 4 := by simp [body, le]
  have fl : ∀ r, frameLength (body ++ r) = payload.length + 2 := by
    intro r; unfold body; rw [List.append_assoc]; exact frameLength_le _ hn _
  have t1 : (body ++ [c0, c1]).take (payload.length + 2 + 2) = body := by
    rw [List.take_append_of_le_length (by omega), List.take_of_length_le (by omega)]
  have t2 : (body ++ [c0, c1]).drop (payload.length + 2 + 2) = [c0, c1] := by
    rw [show payload.length + 2 + 2 = body.length by omega, List.drop_left]
  have t3 : body.drop 2 = kind :: tag :: payload := by simp [body, le]
  unfold Scp.closeFrame
  simp only [fl, t1, t2, t3]
  rfl

def State.withTrk (s : State) (t : Trk) : State := { s with trk := t }

def Trk.collecting (t : Trk) (c : Bool) (buf : List Byte) : Trk :=
    { t with framing := .collect, complemented := c, buffer := buf }

theorem event_trackerByte (s : State) (t t' : Trk) (raw : Byte) (h : (Ev.start
    (State.withTrk s t)).trackerByte raw = { Ev.start (State.withTrk s t) with trk := t' }) : event
    (Ev.trackerByte raw) (State.withTrk s t) = State.withTrk s t' := by
  unfold event; rw [h, Ev.finish_none _ rfl rfl rfl rfl]; rfl

theorem trackerByte_inside (s : State) (t : Trk) (c : Bool) (buf : List Byte) (raw b : Byte) (hd : t.decode raw
    = b) (h2 : 2 ≤ buf.length) (h3 : buf.length < 19) :
   event (Ev.trackerByte raw) (State.withTrk s (Trk.collecting t c buf)) = State.withTrk s (Trk.collecting t c
       (buf ++ [b])) := by
  apply event_trackerByte
  unfold Ev.trackerByte
  rw [show (Ev.start (State.withTrk s (Trk.collecting t c buf))).trk.decode raw = b from hd]
  show (Ev.start (State.withTrk s (Trk.collecting t c buf))).collectByte b = _
  unfold Ev.collectByte
  rw [if_neg (by show ¬ ((buf ++ [b]).length = 2 ∧ _); simp; omega), if_pos (by show (buf ++ [b]).length < 20; simp; omega)]
  rfl

theorem trackerBytes_inside (s : State) (t : Trk) (c : Bool) (enc : Byte → Byte) (he : ∀ b, t.decode (enc b) = b)
    (bs : List Byte) :
  ∀ buf : List Byte, 2 ≤ buf.length → buf.length + bs.length ≤ 19 → trackerBytes (bs.map enc) (State.withTrk s
      (Trk.collecting t c buf)) = State.withTrk s (Trk.collecting t c (buf ++ bs)) := by
  induction bs with
  | nil => intro buf _ _; simp [trackerBytes]
  | cons b bs ih =>
    intro buf h1 h2
    simp only [List.length_cons] at h2
    have : trackerBytes ((b :: bs).map enc) (State.withTrk s (Trk.collecting t c buf)) = trackerBytes (bs.map enc)
        (event (Ev.trackerByte (enc b)) (State.withTrk s (Trk.collecting t c buf))) := rfl
    rw [this, trackerByte_inside s t c buf _ b (he b) h1 (by omega), ih (buf ++ [b]) (by simp; omega) (by simp; omega)]
    simp

theorem trackerBytes_start (s : State) (t : Trk) (c : Bool) (enc : Byte → Byte) (he : ∀ b, t.decode (enc b) = b)
    (hf : t.framing = .hunt) (hi : c = true → t.inverted = false)
   (m1 m2 : Byte) (h1 : m1 = if c then 0x2C else 0xD3) (h2 : m2 = if c then 0xD3 else 0x2C) (rest : List Byte) :
   trackerBytes ((m1 :: m2 :: rest).map enc) (State.withTrk s t) = trackerBytes (rest.map enc) (State.withTrk s
       (Trk.collecting t c [m1, m2])) := by
  have e1 : event (Ev.trackerByte (enc m1)) (State.withTrk s t) = State.withTrk s (Trk.collecting t c [m1]) := by
    apply event_trackerByte
    unfold Ev.trackerByte
    rw [show (Ev.start (State.withTrk s t)).trk.decode (enc m1) = m1 from he _, show (Ev.start
        (State.withTrk s t)).trk.framing = .hunt from hf]
    show (Ev.start (State.withTrk s t)).onTrk (Trk.huntByte m1) = _
    have : Trk.huntByte m1 t = Trk.collecting t c [m1] := by
      unfold Trk.huntByte
      cases c with
      | true =>
        have := hi rfl
        simp at h1; subst h1
        rw [if_neg (by unfold Trk.isIdle; rw [this]; decide), if_neg (by decide), if_pos ⟨rfl, this⟩]; rfl
      | false =>
        simp at h1; subst h1
        rw [if_neg (by unfold Trk.isIdle; cases t.inverted <;> decide), if_pos (by decide)]; rfl
    unfold Ev.onTrk
    rw [show (Ev.start (State.withTrk s t)).trk = t from rfl, this]
  have e2 : event (Ev.trackerByte (enc m2)) (State.withTrk s (Trk.collecting t c [m1])) = State.withTrk s
      (Trk.collecting t c [m1, m2]) := by
    apply event_trackerByte
    unfold Ev.trackerByte
    rw [show (Ev.start (State.withTrk s (Trk.collecting t c [m1]))).trk.decode (enc m2) = m2 from he _]
    show (Ev.start (State.withTrk s (Trk.collecting t c [m1]))).collectByte m2 = _
    unfold Ev.collectByte
    rw [if_neg (by
      rintro ⟨_, h⟩; apply h
      show m2 = if c then 0xD3 else 0x2C
      exact h2), if_pos (by show ([m1] ++ [m2]).length < 20; simp)]
    rfl
  show trackerBytes (rest.map enc) (event (Ev.trackerByte (enc m2)) (event (Ev.trackerByte (enc m1))
      (State.withTrk s t))) = _
  rw [e1, e2]

/-- Twenty bytes between frames are read as one frame (R103, R104). -/
theorem trackerBytes_frame (s : State) (t : Trk) (c : Bool) (enc : Byte → Byte) (he : ∀ b, t.decode (enc b) = b)
    (hf : t.framing = .hunt) (hi : c = true → t.inverted = false)
   (m1 m2 : Byte) (h1 : m1 = if c then 0x2C else 0xD3) (h2 : m2 = if c then 0xD3 else 0x2C) (content : List Byte)
       (hl : content.length = 17) (check : Byte) :
   trackerBytes ((m1 :: m2 :: (content ++ [check])).map enc) (State.withTrk s t) =
     event (fun e => if c then e.onTrk (Trk.complementedFrame content check) else e.trueFrame content check)
         (State.withTrk s { t with complemented := c, buffer := [] }) := by
  rw [trackerBytes_start s t c enc he hf hi m1 m2 h1 h2, List.map_append]
  have : ∀ a b x, trackerBytes (a ++ b) x = trackerBytes b (trackerBytes a x) := fun a b x => List.foldl_append
  rw [this, trackerBytes_inside s t c enc he content [m1, m2] (by simp) (by simp [hl])]
  show event (Ev.trackerByte (enc check)) (State.withTrk s (Trk.collecting t c ([m1, m2] ++ content))) = _
  unfold event
  congr 2
  unfold Ev.trackerByte
  rw [show (Ev.start (State.withTrk s (Trk.collecting t c ([m1, m2] ++ content)))).trk.decode (enc check)
      = check from he _]
  show (Ev.start (State.withTrk s (Trk.collecting t c ([m1, m2] ++ content)))).collectByte check = _
  unfold Ev.collectByte
  have hlen : (([m1, m2] ++ content) ++ [check]).length = 20 := by simp [hl]
  rw [if_neg (by show ¬ ((([m1, m2] ++ content) ++ [check]).length = 2 ∧ _); rw [hlen]; omega), if_neg (by show ¬ (([m1, m2] ++ content) ++ [check]).length < 20; rw [hlen]; omega)]
  show Ev.closeFrame (([m1, m2] ++ content) ++ [check]) _ = _
  unfold Ev.closeFrame
  have hc : ((([m1, m2] ++ content) ++ [check]).drop 2).take 17 = content := by
    show (content ++ [check]).take 17 = content
    rw [List.take_append_of_le_length (by omega), List.take_of_length_le (by omega)]
  have hk : (([m1, m2] ++ content) ++ [check]).getD 19 0 = check := by
    rw [List.getD_append_right _ _ _ _ (by simp [hl])]; simp [hl]
  dsimp only
  rw [hc, hk]
  have hx : ((Ev.start (State.withTrk s (Trk.collecting t c ([m1, m2] ++ content)))).onTrk fun t =>
      { t with framing := .hunt, buffer := [] }) = Ev.start (State.withTrk s
      { t with complemented := c, buffer := [] }) := by
    unfold Ev.onTrk Ev.start State.withTrk Trk.collecting
    dsimp only
    rw [← hf]
  rw [hx]
  rfl

theorem frameContent_length (q : Word16) (p : Pose) (k : Byte) : (le 2 q.toNat ++ poseBytes p ++ [k]).length
    = 17 := by
  unfold poseBytes
  simp only [List.length_append, le32s_length, le16s_length, List.length_singleton]
  rfl

/-- The content of a frame reads back as what was sent, whatever yaw its field holds (R101). -/
theorem frameContent_read_field (q : Word16) (p : Pose) (k : Byte) (h : Pose.fits { p with yaw := 0 })
    (w1 : -32768 ≤ p.yaw) (w2 : p.yaw ≤ 32767) :
    PoseFrame.ofContent (le 2 q.toNat ++ poseBytes p ++ [k]) = ⟨q, p, k.toNat⟩ := by
  obtain ⟨x1, x2, y1, y2, z1, z2, -, -⟩ := h
  unfold PoseFrame.ofContent
  dsimp only
  have hcat : le 2 q.toNat ++ poseBytes p ++ [k] = le 2 q.toNat ++ (le32s p.x ++ (le32s p.y ++ (le32s p.z ++
      (le16s p.yaw ++ [k])))) := by
    unfold poseBytes; simp
  rw [hcat]
  have a0 : unle (((le 2 q.toNat ++ (le32s p.x ++ (le32s p.y ++ (le32s p.z ++ (le16s p.yaw ++
      [k])))) : List Byte).drop 0).take 2) = q.toNat := u16At_le q.isLt _
  have sk : ∀ (a b : List Byte) (n i m : Nat), a.length = n → unle (((a ++ b).drop (n + i)).take m) = unle
      ((b.drop i).take m) := by
    intro a b n i m hn
    rw [List.drop_append, List.drop_of_length_le (by omega), List.nil_append, hn, Nat.add_sub_cancel_left]
  have l2 : (le 2 q.toNat).length = 2 := rfl
  have a1 : signedOf 32 (unle (((le 2 q.toNat ++ (le32s p.x ++ (le32s p.y ++ (le32s p.z ++ (le16s p.yaw ++
      [k])))) : List Byte).drop 2).take 4)) = p.x := by
    rw [show (2 : Nat) = 2 + 0 from rfl, sk _ _ 2 0 4 l2]; exact s32At_le p.x x1 x2 _
  have a2 : signedOf 32 (unle (((le 2 q.toNat ++ (le32s p.x ++ (le32s p.y ++ (le32s p.z ++ (le16s p.yaw ++
      [k])))) : List Byte).drop 6).take 4)) = p.y := by
    rw [show (6 : Nat) = 2 + (4 + 0) from rfl, sk _ _ 2 _ 4 l2, sk _ _ 4 0 4
        (le32s_length _)]; exact s32At_le p.y y1 y2 _
  have a3 : signedOf 32 (unle (((le 2 q.toNat ++ (le32s p.x ++ (le32s p.y ++ (le32s p.z ++ (le16s p.yaw ++
      [k])))) : List Byte).drop 10).take 4)) = p.z := by
    rw [show (10 : Nat) = 2 + (4 + (4 + 0)) from rfl, sk _ _ 2 _ 4 l2, sk _ _ 4 _ 4 (le32s_length _), sk _ _ 4 0 4
        (le32s_length _)]; exact s32At_le p.z z1 z2 _
  have a4 : signedOf 16 (unle (((le 2 q.toNat ++ (le32s p.x ++ (le32s p.y ++ (le32s p.z ++ (le16s p.yaw ++
      [k])))) : List Byte).drop 14).take 2)) = p.yaw := by
    rw [show (14 : Nat) = 2 + (4 + (4 + (4 + 0))) from rfl, sk _ _ 2 _ 2 l2, sk _ _ 4 _ 2 (le32s_length _), sk _ _ 4 _ 2 (le32s_length _), sk _ _ 4 0 2 (le32s_length _)]; exact s16At_le p.yaw (by omega) (by omega) _
  have a5 : unle (((le 2 q.toNat ++ (le32s p.x ++ (le32s p.y ++ (le32s p.z ++ (le16s p.yaw ++
      [k])))) : List Byte).drop 16).take 1) = k.toNat := by
    have e16 : ∀ l : List Byte, (l.drop 16).take 1 = (l.drop (2 + (4 + (4 + (4 + (2 + 0)))))).take 1 := fun _ => rfl
    rw [e16, sk _ _ 2 _ 1 l2, sk _ _ 4 _ 1 (le32s_length _), sk _ _ 4 _ 1 (le32s_length _), sk _ _ 4 _ 1
        (le32s_length _), sk _ _ 2 0 1 (le16s_length _)]
    show k.toNat + 256 * 0 = _; omega
  rw [a0, a1, a2, a3, a4, a5]
  simp

/-- The content of a frame with a yaw a good frame may have reads back as what was sent (R101, R106). -/
theorem frameContent_read (q : Word16) (p : Pose) (k : Byte) (h : Pose.fits p) :
    PoseFrame.ofContent (le 2 q.toNat ++ poseBytes p ++ [k]) = ⟨q, p, k.toNat⟩ := by
  obtain ⟨x1, x2, y1, y2, z1, z2, w1, w2⟩ := h
  exact frameContent_read_field q p k
    ⟨x1, x2, y1, y2, z1, z2, by show (-18000 : Int) ≤ 0; omega, by show (0 : Int) ≤ 17999; omega⟩ (by omega) (by omega)

/-- With no frame in progress there is no gap (R190). -/
theorem waitGap_hunt (s : State) (h : s.scp.rx = .hunt) : waitGap s = s := by
  unfold waitGap; rw [if_neg]; simp [Scp.inFrame, h]

/-- Inside a frame the clock goes past the gap (R190). -/
theorem waitGap_inFrame (s : State) (h : s.scp.rx ≠ .hunt) : waitGap s =
    { s with now := max s.now (s.scp.rxLast + 21) } := by
  have hin : s.scp.inFrame = true := by simp [Scp.inFrame, h]
  unfold waitGap; rw [if_pos hin, event, Ev.finish_none _ rfl rfl rfl rfl]; rfl

/-- A whole frame of sense TRUE, as it stands on the line under the polarity latch (R103, R107). -/
theorem trackerBytes_trueLine (s : State) (content : List Byte) (check : Byte) (hl : content.length = 17)
    (hf : s.trk.framing = .hunt) :
    let bytes := [0xD3#8, 0x2C#8] ++ content ++ [check]
    trackerBytes (if s.trk.inverted then bytes.map (~~~·) else bytes) s =
      event (fun e => e.trueFrame content check)
        (State.withTrk s { s.trk with complemented := false, buffer := [] }) := by
  intro bytes
  let enc : Byte → Byte := fun b => if s.trk.inverted then ~~~b else b
  have he : ∀ b, s.trk.decode (enc b) = b := by
    intro b; unfold Trk.decode enc; cases s.trk.inverted <;> simp
  have hbytes : bytes = 0xD3#8 :: 0x2C#8 :: (content ++ [check]) := by unfold bytes; simp
  have hline : (if s.trk.inverted then bytes.map (~~~·) else bytes)
      = (0xD3#8 :: 0x2C#8 :: (content ++ [check])).map enc := by
    rw [← hbytes]; unfold enc; cases s.trk.inverted <;> simp
  rw [hline]
  exact trackerBytes_frame s s.trk false enc he hf (by simp) 0xD3 0x2C rfl rfl content hl check

end Sys2Proof.Machine
end

