-- ==== Sys2Proof/Laws/Numbers.lean ====
section
/-! SUPPORT. The arithmetic of the feedforward and the residual. -/

namespace Sys2Proof.Machine

-- One proof at a time, so that the package as one text needs few threads.
set_option Elab.async false

/-- The root by bits keeps its bracket. -/
theorem rootBits_spec (n : Nat) : ∀ k r, r * r ≤ n → n < (r + 2 ^ k) * (r + 2 ^ k) → (rootBits n k r) *
    (rootBits n k r) ≤ n ∧ n < (rootBits n k r + 1) * (rootBits n k r + 1) := by
  intro k
  induction k with
  | zero => intro r h1 h2; exact ⟨h1, by show n < (r + 1) * (r + 1); simpa using h2⟩
  | succ k ih =>
    intro r h1 h2
    unfold rootBits
    split
    · next h => exact ih _ h (by rw [Nat.pow_succ] at h2; have : r + 2 ^ k + 2 ^ k = r + 2 ^ k * 2 := by omega
                                 rw [this]; exact h2)
    · next h => exact ih _ h1 (by omega)

/-- The square root rounded down (R121). -/
theorem isqrt_spec (n : Nat) : isqrt n ^ 2 ≤ n ∧ n < (isqrt n + 1) ^ 2 := by
  rw [Nat.pow_two, Nat.pow_two]
  unfold isqrt
  apply rootBits_spec
  · simp
  · have h : n < 2 ^ (n.log2 + 1) := Nat.lt_log2_self
    calc n < 2 ^ (n.log2 + 1) := h
      _ ≤ 2 ^ ((n.log2 / 2 + 1) + (n.log2 / 2 + 1)) := Nat.pow_le_pow_right (by decide) (by omega)
      _ = _ := by rw [Nat.pow_add]; simp

/-- The quotient rounded to the nearest whole number, halves away from zero (R121). -/
theorem roundDiv_nearest (a : Int) (b : Nat) (hb : 0 < b) : 2 * |roundDiv a b * b - a| ≤ b ∧
    (2 * |roundDiv a b * b - a| = b → |a| ≤ |roundDiv a b * b|) := by
  have key : ∀ n : Nat, let q := (2 * n + b) / (2 * b); 2 * (q * b) ≤ 2 * n + b ∧ 2 * n < 2 * (q * b) + b := by
    intro n q
    have h1 : q * (2 * b) ≤ 2 * n + b := Nat.div_mul_le_self _ _
    have h2 : 2 * n + b < (q + 1) * (2 * b) := Nat.lt_mul_of_div_lt (Nat.lt_succ_self _) (by omega)
    have h3 : q * (2 * b) = 2 * (q * b) := by ring
    have h4 : (q + 1) * (2 * b) = 2 * (q * b) + 2 * b := by ring
    omega
  obtain ⟨k1, k2⟩ := key a.natAbs
  unfold roundDiv
  dsimp only
  generalize (2 * a.natAbs + b) / (2 * b) = q at k1 k2
  have hq : ((q * b : Nat) : Int) = (q : Int) * b := by push_cast; ring
  split
  · next h =>
    have ha : (a.natAbs : Int) = -a := by omega
    have e1 : -(q : Int) * b = -((q * b : Nat) : Int) := by rw [hq]; ring
    rw [e1]
    generalize q * b = m at k1 k2
    rw [Int.abs_eq_natAbs, Int.abs_eq_natAbs, Int.abs_eq_natAbs]
    omega
  · next h =>
    have e1 : (q : Int) * b = ((q * b : Nat) : Int) := hq.symm
    rw [e1]
    generalize q * b = m at k1 k2
    rw [Int.abs_eq_natAbs, Int.abs_eq_natAbs, Int.abs_eq_natAbs]
    omega

/-- Between two points the correction is the rounded straight line (R146). -/
theorem interpolate_between (v : Nat → Int) (r k : Nat) (hk : k < 7) (h1 : 40000 + 30000 * k ≤ r)
    (h2 : r ≤ 40000 + 30000 * (k + 1)) :
   2 * |interpolate v r * (30000 : Nat) - (v k * 30000 + (v (k + 1) - v k) * ((r : Int) - (40000 + 30000 * k)))| ≤
       (30000 : Nat) ∧
   (2 * |interpolate v r * (30000 : Nat) - (v k * 30000 + (v (k + 1) - v k) * ((r : Int) - (40000 + 30000 * k)))| =
       (30000 : Nat) → |v k * 30000 + (v (k + 1) - v k) * ((r : Int) - (40000 + 30000 * k))| ≤ |interpolate v r *
       (30000 : Nat)|) := by
  by_cases ha : r = 40000 + 30000 * k
  · -- at the lower point
    have hx : interpolate v r = v k := by
      subst ha
      unfold interpolate
      by_cases h0 : k = 0
      · subst h0; rfl
      · rw [if_neg (by omega), if_neg (by omega)]
        have : (40000 + 30000 * k - 40000) / 30000 = k := by omega
        dsimp only; rw [this]
        have : (((40000 + 30000 * k : Nat) : Int) - (pointReach k : Nat)) = 0 := by unfold pointReach; omega
        rw [this, Int.mul_zero, Int.add_zero]
        have h := roundDiv_nearest (v k * 30000) 30000 (by decide)
        generalize roundDiv (v k * 30000) 30000 = q at h
        generalize v k = w at h ⊢
        rw [Int.abs_eq_natAbs] at h
        have := h.1; push_cast at this; omega
    rw [hx]
    have : ((r : Int) - (40000 + 30000 * k)) = 0 := by omega
    rw [this]; simp
  by_cases hb : r = 40000 + 30000 * (k + 1)
  · have hx : interpolate v r = v (k + 1) := by
      subst hb
      unfold interpolate
      rw [if_neg (by omega)]
      by_cases h0 : k = 6
      · subst h0; rfl
      · rw [if_neg (by omega)]
        have : (40000 + 30000 * (k + 1) - 40000) / 30000 = k + 1 := by omega
        dsimp only; rw [this]
        have : (((40000 + 30000 * (k + 1) : Nat) : Int) - (pointReach (k + 1) : Nat)) = 0 :=
            by unfold pointReach; omega
        rw [this, Int.mul_zero, Int.add_zero]
        have h := roundDiv_nearest (v (k + 1) * 30000) 30000 (by decide)
        generalize roundDiv (v (k + 1) * 30000) 30000 = q at h
        generalize v (k + 1) = w at h ⊢
        rw [Int.abs_eq_natAbs] at h
        have := h.1; push_cast at this; omega
    rw [hx]
    have : ((r : Int) - (40000 + 30000 * k)) = 30000 := by omega
    rw [this]
    have : v (k + 1) * (30000 : Nat) - (v k * 30000 + (v (k + 1) - v k) * 30000) = 0 := by push_cast; ring
    rw [this]; simp
  · have hx : interpolate v r = roundDiv (v k * 30000 + (v (k + 1) - v k) * ((r : Int) -
        (40000 + 30000 * k))) 30000 := by
      unfold interpolate
      rw [if_neg (by omega), if_neg (by omega)]
      have : (r - 40000) / 30000 = k := by omega
      dsimp only; rw [this]
      unfold pointReach; push_cast; rfl
    rw [hx]
    exact roundDiv_nearest _ _ (by decide)

/-- At a point the correction is that point (R146). -/
theorem interpolate_at (v : Nat → Int) (k : Nat) (hk : k < 8) : interpolate v (40000 + 30000 * k) = v k := by
  rcases Nat.lt_or_ge k 7 with h | h
  · have := interpolate_between v (40000 + 30000 * k) k h (by omega) (by omega)
    have h0 : (((40000 + 30000 * k : Nat) : Int) - (40000 + 30000 * k)) = 0 := by push_cast; ring
    rw [h0, Int.mul_zero, Int.add_zero] at this
    have := this.1
    generalize interpolate v (40000 + 30000 * k) = q at *
    generalize v k = w at *
    push_cast at this; rw [Int.abs_eq_natAbs] at this; omega
  · have : k = 7 := by omega
    subst this; rfl

/-- The yaw residual is the one in -180.00 to 179.99 degrees (R124). -/
theorem wrapYaw_unique (d yaw : Int) (h1 : -18000 ≤ yaw) (h2 : yaw ≤ 17999) (h : ∃ t : Int, d
    = yaw + 36000 * t) : wrapYaw d = yaw := by
  obtain ⟨t, rfl⟩ := h; unfold wrapYaw; omega

theorem abs_le_iff_natAbs (x : Int) (n : Nat) : (|x| ≤ (n : Int)) ↔ x.natAbs ≤ n := by
  rw [Int.abs_eq_natAbs]; exact Int.ofNat_le

end Sys2Proof.Machine
end

