-- ==== Sys2Proof/Laws/OrderlyCommands.lean ====
section
/-! SUPPORT. How the blocks agree, kept by the frames of the tracker, the host line,
    and the host commands but those of
the plan. -/

namespace Sys2Proof.Machine

-- One proof at a time, so that the package as one text needs few threads.
set_option Elab.async false

namespace State.Orderly

variable {e : Ev}

/-! ### The tracker -/

theorem offerFrame {f : PoseFrame} (h : e.toState.Orderly) :
    (e.offerFrame f).toState.Orderly := h.offerToHead.offerToDfu

theorem gainLock {f : PoseFrame} (h : e.toState.Orderly) : (e.gainLock f).toState.Orderly := by
  unfold Ev.gainLock
  dsimp only
  exact State.Orderly.offerFrame (State.Orderly.headLockGained (State.Orderly.dropHold (by simp) (State.Orderly.report h.onTrk)))

theorem goodFrame {f : PoseFrame} (h : e.toState.Orderly) : (e.goodFrame f).toState.Orderly := by
  unfold Ev.goodFrame
  split
  · exact State.Orderly.offerFrame h.onTrk
  · dsimp only
    split
    · exact State.Orderly.gainLock h.onTrk
    · exact h.onTrk

theorem badFrame (h : e.toState.Orderly) : e.badFrame.toState.Orderly := h.onTrk

theorem trueFrame {c : List Byte} {b : Byte} (h : e.toState.Orderly) : (e.trueFrame c b).toState.Orderly := by
  unfold Ev.trueFrame
  dsimp only
  split
  · split
    · exact State.Orderly.goodFrame h.onTrk
    · exact State.Orderly.badFrame h.onTrk
  · exact State.Orderly.badFrame (State.Orderly.onTrk h.onTrk)

theorem closeFrame {f : List Byte} (h : e.toState.Orderly) : (e.closeFrame f).toState.Orderly := by
  unfold Ev.closeFrame
  dsimp only
  split
  · exact State.Orderly.onTrk h.onTrk
  · exact State.Orderly.trueFrame h.onTrk

theorem trackerByte {b : Byte} (h : e.toState.Orderly) : (e.trackerByte b).toState.Orderly := by
  unfold Ev.trackerByte
  dsimp only
  split
  · exact h.onTrk
  · unfold Ev.collectByte
    dsimp only
    split
    · exact h.onTrk
    · split
      · exact h.onTrk
      · exact h.closeFrame
  · exact h.onTrk

theorem loseLock (h : e.toState.Orderly) : e.loseLock.toState.Orderly := by
  unfold Ev.loseLock
  dsimp only
  exact State.Orderly.failSampling (State.Orderly.headLockLost (State.Orderly.countWear
      (State.Orderly.report h.onTrk)))

theorem windowOut (h : e.toState.Orderly) : e.windowOut.toState.Orderly := by
  unfold Ev.windowOut
  split
  · exact h.onTrk
  · exact h.loseLock

/-! ### The host line -/

theorem hostByte {b : Byte} (h : e.toState.Orderly) : (e.hostByte b).toState.Orderly := h.onScp

theorem messageSent (h : e.toState.Orderly) : e.messageSent.toState.Orderly := by
  unfold Ev.messageSent
  split
  · exact h
  · exact h.congr rfl

theorem take {run : Ev → Ev} (h : e.toState.Orderly) (hr : ∀ x : Ev, x.toState.Orderly → (run x).toState.Orderly) :
    (e.take run).toState.Orderly := hr _ (h.congr rfl)

/-! ### Queries, configuration, health -/

theorem runStq {c : HostCommand} (h : e.toState.Orderly) : (e.runStq c).toState.Orderly := h.congr rfl

theorem runCfg {c : HostCommand} (h : e.toState.Orderly) : (e.runCfg c).toState.Orderly := by
  unfold Ev.runCfg
  split
  · exact h.refuse
  · split
    · exact h.refuse
    · dsimp only
      split
      · exact State.Orderly.reply (State.Orderly.withRate h.onScp)
      · split
        · exact State.Orderly.refuse h.onScp
        · exact h.refuse

theorem runThresh {c : HostCommand} (h : e.toState.Orderly) : (e.runThresh c).toState.Orderly := by
  unfold Ev.runThresh
  dsimp only
  split
  · exact h.refuse
  · split
    · exact h.refuse
    · exact State.Orderly.reply (State.Orderly.saveHealth (State.Orderly.evaluate h.onAttr))

theorem runWearReset {c : HostCommand} (h : e.toState.Orderly) : (e.runWearReset c).toState.Orderly := by
  unfold Ev.runWearReset
  split
  · exact h.refuse
  · dsimp only
    refine State.Orderly.reply (State.Orderly.saveHealth ?_)
    split
    · exact State.Orderly.uncrossEffect h.onAttr
    · exact h.onAttr

theorem runHlth {c : HostCommand} (h : e.toState.Orderly) : (e.runHlth c).toState.Orderly := by
  unfold Ev.runHlth
  dsimp only
  split
  · exact h.refuse
  · split
    · split
      · exact h.refuse
      · exact h.reply
    · split
      · exact h.refuse
      · exact h.reply
    · split
      · exact h.refuse
      · split
        · exact h.refuse
        · exact h.runThresh
    · split
      · exact h.refuse
      · split
        · exact h.refuse
        · exact h.runWearReset
    · exact h.refuse

/-! ### GO, HALT, ABORT -/

theorem settled {s : State} (h : s.settledIdle = true) : s.rcu.mode = .idle ∧ s.rcu.deploy = false := by
  unfold State.settledIdle at h
  simpa using h

/-- Settled IDLE becomes the deploy interval or STOWING,
    no routine RUNNING: BOOM carries a calibration slew at most. -/
theorem leaveSettled {s t : State} (h : s.Orderly) (hs : s.settledIdle = true)
    (ht : t.core = { s.core with mode := t.rcu.mode, deploy := t.rcu.deploy, cal := t.dfu.cal })
    (hm : t.rcu.mode = .idle ∨ t.rcu.mode = .stowing) (hc : ∀ k, t.dfu.cal ≠ .running k) :
    t.Orderly ∧ t.sli.boomWaiting = none
      ∧ ∀ r, t.flight boomUnit = some r → r.requester = .dfu ∧ ∃ p v, r.order = .slew p v := by
  obtain ⟨m, d⟩ := settled hs
  obtain ⟨a1, a2⟩ := h.atRest (not_inRun_of_idle (.inl m))
  unfold State.core at ht
  simp only [Core.mk.injEq] at ht
  obtain ⟨c1, c2, c3, c4, c5, -, -, c8, c9, c10, c11, c12, c13, c14, c15, c16, -⟩ := ht
  have hca : ∀ b, t.carrierAt b = s.carrierAt b := fun b => by unfold State.carrierAt; rw [c12]
  have hen : ∀ b, t.entryAt b = s.entryAt b := fun b => by unfold State.entryAt; rw [c1]
  have hfl : ∀ b, t.flight b = s.flight b := fun b => by unfold State.flight; rw [c10]
  have hin : ∀ b, t.inTrainAt b ↔ s.inTrainAt b := fun b => by unfold State.inTrainAt; rw [hen]
  have hrg : ∀ n, t.pls.region n = s.pls.region n := fun n => by unfold Pls.region; rw [c2, c3]
  have hrs : ∀ n, t.pls.ringSlot n = s.pls.ringSlot n := fun n => by unfold Pls.ringSlot; rw [c2, c3, c4]
  have hw : s.sli.boomWaiting = none := by
    cases q : s.sli.boomWaiting with
    | none => rfl
    | some q' =>
      have := (h.waiting q' q).2
      cases q' with
      | deploy => rw [d] at this; cases this.2
      | fold => rw [m] at this; cases this
  have hdfu : ∀ u r, s.flight u = some r → u = boomUnit ∧ r.requester = .dfu ∧ ∃ p v, r.order = .slew p v := by
    intro u r hf
    refine ⟨(h.flights_at_rest a1 a2 hf).1, ?_⟩
    have := h.orders u r hf
    have ns : ∀ b p, ¬s.standsAt b p := fun b p ⟨c, k, _⟩ => by rw [a1] at k; cases k
    unfold State.serves at this
    split at this
    case h_5 p v ho =>
      rcases this.2 with ⟨_, k⟩ | ⟨k, _⟩
      · rw [a2] at k; rcases k with k | k <;> cases k
      · exact ⟨k, p, v, ho⟩
    case h_6 => rw [d] at this; cases this.2.2.2
    case h_7 => rw [m] at this; cases this.2.2
    all_goals
      exfalso
      simp [ns, a2] at this
  refine ⟨?_, c11.trans hw, fun r k => ?_⟩
  · constructor
    · rw [c13]; exact h.bin
    · intro n; rw [hrg, hen, c5]; simp only [hrs]; exact h.ring n
    · intro b c; rw [hca, hin]; exact h.listed b c
    · intro n; rw [hin]; simp only [hca]; exact h.claimed n
    · intro a b c d; rw [hca, hca]; exact h.single a b c d
    · intro b c; rw [hca, c9]; exact h.berths b c
    · rintro b ⟨c, k, _⟩; rw [hca, a1] at k; cases k
    · rw [c14, hca, a1]; exact .inl ⟨.inl a2, rfl⟩
    · intro u r; rw [hfl]; intro k
      obtain ⟨rfl, k1, p, v, k2⟩ := hdfu u r k
      unfold State.serves
      rw [k2]
      exact ⟨rfl, .inr ⟨k1, hm⟩⟩
    · intro q; rw [c11, hw]; intro k; cases k
    · intro k hk; exact (hc k hk).elim
    · rw [c14]; simp only [hca]; exact fun _ => ⟨a1, a2⟩
    · intro _; rw [c8]; exact h.reasons (by simp [m])
    · intro _ _; rw [c9]; exact h.strandings (by simp [m]) (by simp [m])
    · intro k; rcases hm with n | n <;> rw [n] at k <;> cases k
  · rw [hfl] at k
    exact (hdfu _ r k).2

/-- DEPLOY or FOLD is asked for, in its mode (R53, R164, R172). -/
theorem askBoom {q : BoomRequest} (h : e.toState.Orderly)
    (hb : ∀ r, e.flight boomUnit = some r → r.requester = .dfu ∧ ∃ p v, r.order = .slew p v)
    (hq : match q with
      | .deploy => e.rcu.mode = .idle ∧ e.rcu.deploy = true
      | .fold => e.rcu.mode = .stowing) : (e.askBoom q).toState.Orderly := by
  have hm : e.rcu.mode = .idle ∨ e.rcu.mode = .stowing := by
    cases q with
    | deploy => exact .inl hq.1
    | fold => exact .inr hq
  unfold Ev.askBoom
  split
  · next k =>
    refine State.Orderly.leaveReceiveAtRest (h.send ((State.unitFree_iff _ _).1 k) ?_) (not_inRun_of_idle hm)
    intro _ _
    cases q with
    | deploy => exact ⟨rfl, rfl, hq⟩
    | fold => exact ⟨rfl, rfl, hq⟩
  · next k =>
    refine { h with waiting := ?_ }
    rintro _ ⟨⟩
    cases hf : e.flight boomUnit with
    | none => exact (k ((State.unitFree_iff _ _).2 hf)).elim
    | some r =>
      obtain ⟨k1, p, v, k2⟩ := hb r hf
      exact ⟨⟨r, p, v, hf, k1, k2⟩, hq⟩

theorem suspend_cal (d : Dfu) (k : Nat) : d.suspend.cal ≠ .running k := by
  unfold Dfu.suspend
  split
  · simp
  all_goals
    next h => rw [h]; simp

theorem goIdle {c : HostCommand} (h : e.toState.Orderly) (hs : e.settledIdle = true) :
    (e.goIdle c).toState.Orderly := by
  unfold Ev.goIdle
  dsimp only
  split
  · exact h.refuse
  · split
    · exact h.reply
    · obtain ⟨k1, _, k3⟩ := h.leaveSettled (t := ((e.onRcu fun r =>
          { r with deploy := true }).onDfu Dfu.suspend).toState) hs rfl
        (.inl (settled hs).1) (suspend_cal _)
      exact State.Orderly.reply (State.Orderly.askBoom k1 k3 ⟨(settled hs).1, rfl⟩)

theorem goHolding {c : HostCommand} (h : e.toState.Orderly) (hm : e.rcu.mode = .holding) :
    (e.goHolding c).toState.Orderly := by
  unfold Ev.goHolding
  split
  · exact h.reply
  · next k =>
    have k : e.rcu.holds = .none := by simpa using k
    have hst : e.rcu.stranded = [] := by
      by_contra n
      have := h.jammed hm n
      rw [k] at this; cases this
    dsimp only
    have hmode : ∀ b : Bool, (if b then Mode.draining else Mode.laying) ≠ Mode.holding := by intro b; cases b <;> simp
    have key : (e.onRcu fun r => { r with mode := if r.haltPending then .draining else .laying, haltPending := false
        }).toState.Orderly := by
      refine h.onRun (.inr (.inl hm)) ?_ rfl (fun b hb => .inl hb) (fun _ => ⟨k, hst⟩) (fun n => (hmode _ n).elim)
      show (if e.rcu.haltPending then Mode.draining else Mode.laying) = .laying
        ∨ (if e.rcu.haltPending then Mode.draining else Mode.laying) = .holding
        ∨ (if e.rcu.haltPending then Mode.draining else Mode.laying) = .draining
      split <;> simp
    refine State.Orderly.modeEntered (State.Orderly.reply (State.Orderly.entryReport key)) ?_
    refine (State.running_iff _).2 ?_
    show (if e.rcu.haltPending then Mode.draining else Mode.laying) = _ ∨
        (if e.rcu.haltPending then Mode.draining else Mode.laying) = _
    cases e.rcu.haltPending <;> simp

theorem runGo {c : HostCommand} (h : e.toState.Orderly) : (e.runGo c).toState.Orderly := by
  unfold Ev.runGo
  split
  · next m =>
    split
    · exact h.reply
    · next d => exact h.goIdle (by unfold State.settledIdle; simp [m, d])
  · exact h.reply
  · exact h.reply
  · next m => exact h.goHolding m
  all_goals exact h.refuse

theorem runHalt {c : HostCommand} (h : e.toState.Orderly) : (e.runHalt c).toState.Orderly := by
  unfold Ev.runHalt
  split
  · next m =>
    dsimp only
    have key : (e.onRcu fun r => { r with mode := .draining }).toState.Orderly :=
      h.onRun (.inl m) (.inr (.inr rfl)) rfl (fun b hb => .inl hb)
        (fun _ => ⟨h.reasons (by simp [m]), h.strandings (by simp [m]) (by simp [m])⟩) (fun n => by cases n)
    exact State.Orderly.promptDrain (State.Orderly.promptSel (State.Orderly.reply
        (State.Orderly.modeReport key.flush)))
  · refine State.Orderly.reply (h.congr rfl)
  all_goals exact h.reply

/-! ### The train dropped -/

/-- The train is dropped, the head VACANT, no order in flight (R169, R173). -/
theorem dropped {t : State} {x : Ev} (h : e.toState.Orderly)
    (hx : x.toState.core = { e.toState.core with inFlight := [], boomWaiting := none })
    (ht : t.core = { x.dropTrain.toState.core with
      mode := t.rcu.mode, deploy := t.rcu.deploy, holds := .none, head := .vacant, atReceive := t.hsq.atReceive
      slot := t.hsq.carrier.map (·.slot), cal := t.dfu.cal })
    (cal : ∀ k, t.dfu.cal ≠ .running k) (hh : t.rcu.mode ≠ .holding)
    (hst : t.rcu.mode ≠ .aborted → t.rcu.stranded = []) : t.Orderly := by
  obtain ⟨d, -⟩ := Ev.dropTrain_spec x
  generalize x.dropTrain = D at d ht
  have dp : ∀ s, D.pls.region s = x.pls.region s ∧ D.pls.ringSlot s = x.pls.ringSlot s := by
    intro s
    have k : D.pls = { x.pls with plan := D.pls.plan } := by
      have := d.pls
      rw [← show ({ D.pls with plan := x.pls.plan } : Pls) = x.pls from this]
    rw [k]; exact ⟨rfl, rfl⟩
  have dpls : ({ D.pls with plan := x.pls.plan } : Pls) = x.pls := d.pls
  have dr : D.pls.ringCount = x.pls.ringCount := by
    have := congrArg Pls.ringCount dpls; exact this
  have ds : D.sli = x.sli := d.sli
  unfold State.core at hx ht
  simp only [Core.mk.injEq] at hx ht
  obtain ⟨x1, x2, x3, x4, x5, -, -, -, -, x10, x11, x12, x13, -, -, -, -⟩ := hx
  obtain ⟨t1, t2, t3, t4, t5, -, -, t8, t9, t10, t11, t12, t13, t14, -, -, -⟩ := ht
  have hca : ∀ b, x.carrierAt b = e.carrierAt b := fun b => by unfold State.carrierAt; rw [x12]
  have hen : ∀ b, x.entryAt b = e.entryAt b := fun b => by unfold State.entryAt; rw [x1]
  have hrg : ∀ n, t.pls.region n = e.pls.region n := fun n => by
    rw [show t.pls.region n = D.pls.region n by unfold Pls.region; rw [t2, t3], (dp n).1]
    unfold Pls.region; rw [x2, x3]
  have hrs : ∀ n, t.pls.ringSlot n = e.pls.ringSlot n := fun n => by
    rw [show t.pls.ringSlot n = D.pls.ringSlot n by unfold Pls.ringSlot; rw [t2, t3, t4], (dp n).2]
    unfold Pls.ringSlot; rw [x2, x3, x4]
  have hen' : ∀ n, t.entryAt n = D.entryAt n := fun b => by unfold State.entryAt; rw [t1]
  refine State.Orderly.bare ?_ ?_ ?_ ?_ t14 ?_ ?_ (fun k hk => (cal k hk).elim) (fun _ => t8) (fun _ k => hst k)
    (fun k => (hh k).elim)
  · rw [t13, show D.btc.bin = x.btc.bin from d.bin, x13]; exact h.bin
  · intro n k1 k2
    rw [hen', d.entry] at k2
    rw [t5, dr, x5]
    simp only [hrs]
    refine h.ring n (by rw [← hrg]; exact k1) fun k => k2 ?_
    have : x.entryAt n = none := (hen n).trans k
    exact congrArg _ this
  · rintro n ⟨en, k1, k2⟩
    rw [hen', d.entry] at k1
    change Option.map _ (x.entryAt n) = _ at k1
    rw [hen] at k1
    cases hq : e.entryAt n with
    | none => rw [hq] at k1; cases k1
    | some en0 =>
      rw [hq] at k1
      simp only [Option.map_some, Option.some.injEq] at k1
      by_cases hi : en0.state = .inTrain
      · obtain ⟨b, c, q1, q2⟩ := h.claimed n ⟨en0, hq, hi⟩
        have hb := (h.berths b c q1).1
        rw [if_pos] at k1
        · subst k1; cases k2
        · rw [List.any_eq_true]
          refine ⟨b, List.mem_range.2 (by omega), ?_⟩
          change (x.carrierAt b).any _ = true
          rw [hca, q1]; simp [q2]
      · split at k1
        · subst k1; cases k2
        · subst k1; exact hi k2
  · intro b
    have k : t.carrierAt b = D.carrierAt b := by unfold State.carrierAt; rw [t12]
    rw [k, d.carrier]
    split
    · rfl
    · next n =>
      change x.carrierAt b = none
      rw [hca]
      cases hq : e.carrierAt b with
      | none => rfl
      | some c =>
        have := (h.berths b c hq).1
        exact (n (List.mem_range.2 (by omega))).elim
  · intro u; unfold State.flight; rw [t10, ds, x10]; rfl
  · rw [t11, ds, x11]

theorem abortRun (h : e.toState.Orderly) (hr : e.inRun) : e.abortRun.toState.Orderly := by
  have key := fun t => h.dropped (t := t) (x := e.flush.stop) rfl
  have hcal : e.flush.stop.dropTrain.dfu = e.dfu := (Ev.dropTrain_spec e.flush.stop).1.dfu
  unfold Ev.abortRun
  generalize e.flush.stop.dropTrain = D at key hcal ⊢
  extract_lets previous e1 e2
  have c2 : e2.toState.core = e1.toState.core := Ev.refreshCourse_core _ _
  have d2 : e2.dfu.cal = e.dfu.cal := (congrArg Core.cal c2).trans (congrArg Dfu.cal hcal)
  refine State.Orderly.modeReport (key _ ?_ ?_ ?_ ?_)
  · show ({ e2.toState.core with holds := .none, mode := .aborted } : Core) = _
    have c3 : e2.hsq.atReceive = false := congrArg Core.atReceive c2
    have c4 : e2.hsq.carrier.map (·.slot) = none := congrArg Core.slot c2
    show _ = ({ D.toState.core with
      mode := .aborted, deploy := e2.rcu.deploy, holds := .none, head := .vacant, atReceive := e2.hsq.atReceive
      slot := e2.hsq.carrier.map (·.slot), cal := e2.dfu.cal } : Core)
    rw [c3, c4, show e2.rcu.deploy = e1.rcu.deploy from congrArg Core.deploy c2,
      show e2.dfu.cal = e1.dfu.cal from congrArg Core.cal c2, c2]
    rfl
  · intro k; exact fun n => (h.of_run hr).2.2 k (d2.symm.trans n)
  · simp [Ev.onRcu]
  · intro k; exact (k rfl).elim

theorem runAbort {c : HostCommand} (h : e.toState.Orderly) : (e.runAbort c).toState.Orderly := by
  unfold Ev.runAbort
  split
  · next m => exact State.Orderly.reply (h.abortRun (.inl m))
  · next m => exact State.Orderly.reply (h.abortRun (.inr (.inl m)))
  · next m => exact State.Orderly.reply (h.abortRun (.inr (.inr m)))
  all_goals exact h.reply

/-! ### CLEAR, ACCEPT, STOW, BIN -/

/-- Berths leave the stranded set (R170). -/
theorem clearBerths {bs : List Nat} (h : e.toState.Orderly) (hm : e.rcu.mode = .holding ∨ e.rcu.mode = .aborted) :
    (e.clearBerths bs).toState.Orderly := by
  unfold Ev.clearBerths
  extract_lets e1 e2
  have h1 : e1.toState = e.toState := by unfold e1; split <;> rfl
  have c2 : e2.toState.core = { e.toState.core with stranded := e2.rcu.stranded } := by
    show ({ e1.toState.core with stranded := e2.rcu.stranded } : Core) = _
    rw [h1]
  have s2 : ∀ b ∈ e2.rcu.stranded, b ∈ e.rcu.stranded := by
    intro b hb
    have : b ∈ e1.rcu.stranded := (List.mem_filter.1 hb).1
    rw [h1] at this; exact this
  have m2 : e2.rcu.mode = e.rcu.mode := congrArg Core.mode c2
  have o2 : e2.rcu.holds = e.rcu.holds := congrArg Core.holds c2
  have sub : e2.rcu.stranded ≠ [] → e.rcu.stranded ≠ [] := by
    intro n k
    obtain ⟨b, l, hl⟩ := List.exists_cons_of_ne_nil n
    have := s2 b (by rw [hl]; simp)
    rw [k] at this; cases this
  rcases hm with hm | hm
  · have hrun : ∀ t : State, t.rcu.mode = .holding → t.rcu.stranded = e2.rcu.stranded →
        t.core = { e.toState.core with mode := t.rcu.mode, holds := t.rcu.holds, stranded := t.rcu.stranded } →
        (t.rcu.stranded ≠ [] → t.rcu.holds.jam = true) → t.Orderly := by
      intro t k1 k2 k3 k4
      exact h.onRun (.inr (.inl hm)) (.inr (.inl k1)) k3 (fun b hb => .inl (s2 b (k2 ▸ hb))) (fun n => (n k1).elim)
        (fun _ => k4)
    split
    · next k =>
      rw [if_neg (by rw [m2, hm]; simp)]
      refine hrun _ (m2.trans hm) rfl ?_ ?_
      · show ({ e2.toState.core with holds := e2.rcu.holds.put .jam false } : Core) = _
        rw [c2]
        show _ = ({ e.toState.core with mode := e2.rcu.mode, holds := e2.rcu.holds.put .jam false, stranded := e2.rcu.stranded } : Core)
        rw [m2]; rfl
      · intro n; exact (n (List.isEmpty_iff.1 k)).elim
    · refine hrun _ (m2.trans hm) rfl ?_ ?_
      · rw [c2, m2, o2]; rfl
      · intro n; rw [o2]; exact h.jammed hm (sub n)
  · have nr : ¬e.inRun := by unfold State.inRun; simp [hm]
    obtain ⟨a1, a2⟩ := h.atRest nr
    have a3 : ∀ u, e.flight u = none := by
      intro u
      cases hf : e.flight u with
      | none => rfl
      | some r =>
        have := (h.flights_at_rest a1 a2 hf).2
        rw [hm] at this; rcases this with k | k <;> cases k
    have h2 : e2.toState.Orderly := by
      refine h.atRestAs a1 a2 a3 ?_ ?_ ?_ ?_ ?_
      · rw [c2, m2, o2, show e2.rcu.deploy = _ from congrArg Core.deploy c2, show e2.dfu.cal
            = _ from congrArg Core.cal c2]; rfl
      · intro k hk
        rw [show e2.dfu.cal = _ from congrArg Core.cal c2] at hk
        have := (h.calibrating k hk).1
        rw [hm] at this; cases this
      · intro _; rw [o2]; exact h.reasons (by simp [hm])
      · intro _ k; exact (k (m2.trans hm)).elim
      · intro k; rw [m2, hm] at k; cases k
    split
    · next k =>
      rw [if_pos (m2.trans hm)]
      have a2' : e2.hsq.head = .vacant := (congrArg Core.head c2).trans a2
      refine h2.enterIdle ?_ a2' ?_ (List.isEmpty_iff.1 k) (by simp [m2, hm])
      · intro b; unfold State.carrierAt; rw [show e2.btc.train = _ from congrArg Core.train c2]; exact a1 b
      · intro u; unfold State.flight; rw [show e2.sli.inFlight = _ from congrArg Core.inFlight c2]; exact a3 u
    · exact h2

theorem runClear {c : HostCommand} (h : e.toState.Orderly) : (e.runClear c).toState.Orderly := by
  unfold Ev.runClear
  split
  · exact h.refuse
  · next m =>
    have hm : e.rcu.mode = .holding ∨ e.rcu.mode = .aborted := by
      by_contra n
      exact m ⟨fun k => n (.inl k), fun k => n (.inr k)⟩
    split
    · exact h.refuse
    · dsimp only
      split
      · exact h.refuse
      · split
        · exact h.refuse
        · exact State.Orderly.reply (h.clearBerths hm)

theorem runAccept {c : HostCommand} (h : e.toState.Orderly) : (e.runAccept c).toState.Orderly := by
  unfold Ev.runAccept
  split
  · exact h.refuse
  · split
    · exact h.refuse
    · dsimp only
      split
      · exact h.refuse
      · split
        · exact h.refuse
        · refine State.Orderly.reply ?_
          split
          · exact State.Orderly.dropHold (by simp) (h.congr rfl)
          · exact h.congr rfl

theorem runStow {c : HostCommand} (h : e.toState.Orderly) : (e.runStow c).toState.Orderly := by
  unfold Ev.runStow
  split
  · exact h.refuse
  · next k =>
    have hs : e.settledIdle = true := by simpa using k
    extract_lets previous e1
    set m := (((e.saveHealth).onDfu Dfu.stow).onHsq Hsq.stowed).onRcu fun r => { r with mode := .stowing } with hm
    obtain ⟨k1, _, k3⟩ := h.leaveSettled (t := m.toState) hs rfl (.inr rfl) (by intro k n; cases n)
    have key : (m.askBoom .fold).toState.Orderly := k1.askBoom k3 rfl
    refine State.Orderly.reply (State.Orderly.modeReport (key.congr ?_))
    have hu : m.unitFree boomUnit = (((e.saveHealth).onDfu Dfu.stow).onHsq Hsq.stowed).unitFree boomUnit := rfl
    unfold e1 Ev.askBoom
    rw [hu]
    cases (((e.saveHealth).onDfu Dfu.stow).onHsq Hsq.stowed).unitFree boomUnit <;> rfl

theorem runBin {c : HostCommand} (h : e.toState.Orderly) : (e.runBin c).toState.Orderly := by
  unfold Ev.runBin
  split
  · exact h.refuse
  · refine State.Orderly.reply (State.Orderly.dropHold (by simp) ?_)
    refine { h with bin := by show (0 : Nat) ≤ 24; omega, orders := ?_ }
    intro u r hf
    have := h.orders u r hf
    unfold State.serves at this ⊢
    split at this
    case h_12 => exact ⟨this.1, this.2.1, this.2.2.1, by show (0 : Nat) < 24; omega⟩
    all_goals exact this

theorem runCal {c : HostCommand} (h : e.toState.Orderly) : (e.runCal c).toState.Orderly := by
  unfold Ev.runCal
  split
  · exact h.refuse
  · next k =>
    have hs : e.settledIdle = true := by simpa using k
    obtain ⟨m, d⟩ := settled hs
    split
    · exact h.refuse
    · split
      · unfold Ev.runCalStart
        split
        · exact h.refuse
        · exact h.refuse
        all_goals exact State.Orderly.calStart (h.reply (c := c)) m d
      · split
        · exact State.Orderly.reply (h.onDfu fun _ n => by cases n)
        · exact h.refuse

/-! ### The soft reset -/

theorem withRate_core {c : RateCause} {f : Ev → Ev} : (e.withRate c f).toState.core = (f e).toState.core := by
  unfold Ev.withRate; dsimp only; split <;> rfl

theorem runRst {c : HostCommand} (h : e.toState.Orderly) : (e.runRst c).toState.Orderly := by
  unfold Ev.runRst
  extract_lets previous e0
  have key := fun t => h.dropped (t := t) (x := (e0.onScp fun p => { p with commands := [] }).stop) rfl
  unfold Ev.resetRun
  generalize (e0.onScp fun p => { p with commands := [] }).stop.dropTrain = D at key ⊢
  extract_lets e1 e2
  have c2 : e2.toState.core = { D.toState.core with
      deploy := false, holds := .none, head := .vacant, atReceive := false, slot := none, cal := .none } := rfl
  generalize hR : (e2.withRate .cfg fun e => e.onScp fun p =>
      { p with config := p.config.softReset }).refreshCourse .reset = R
  have cR : R.toState.core = { D.toState.core with
      deploy := false, holds := .none, head := .vacant, atReceive := false, slot := none, cal := .none } := by
    rw [← hR, Ev.refreshCourse_core, withRate_core]; exact c2
  unfold Ev.resetMode
  extract_lets e3
  have m3 : e3.rcu.mode = if R.rcu.stranded.isEmpty then .idle else .aborted := rfl
  have h3 : e3.toState.Orderly := by
    have c3 : e3.toState.core = { R.toState.core with mode := e3.rcu.mode } := rfl
    refine key _ ?_ ?_ ?_ ?_
    · rw [c3, cR]
      rw [show e3.rcu.deploy = false from congrArg Core.deploy cR,
        show e3.hsq.atReceive = false from congrArg Core.atReceive cR,
        show e3.hsq.carrier.map (·.slot) = none from congrArg Core.slot cR,
        show e3.dfu.cal = .none from congrArg Core.cal cR]
    · intro k; rw [show e3.dfu.cal = .none from congrArg Core.cal cR]; simp
    · rw [m3]; split <;> simp
    · rw [m3]
      intro k
      show R.rcu.stranded = []
      split at k
      · next n => exact List.isEmpty_iff.1 n
      · exact (k rfl).elim
  split
  · next k =>
    exact State.Orderly.calResume h3.saveHealth k (congrArg Core.deploy cR)
  · exact h3

end State.Orderly

end Sys2Proof.Machine
end

