-- ==== Sys2Proof/Laws/OrderlyPlan.lean ====
section
/-! SUPPORT. How the blocks agree, kept by the commands of the plan, by every event and by the resets. -/

namespace Sys2Proof.Machine

-- One proof at a time, so that the package as one text needs few threads.
set_option Elab.async false

theorem Table.read_ne_none {α : Type} (t : Table α) (n : Nat) : Table.read t n ≠ none ↔ ∃ v, (n, v) ∈ t := by
  constructor
  · intro h
    obtain ⟨v, hv⟩ := Option.ne_none_iff_exists'.1 h
    exact ⟨v, Table.mem_of_read t n v hv⟩
  · rintro ⟨v, hv⟩
    induction t with
    | nil => cases hv
    | cons p t ih =>
      obtain ⟨k, w⟩ := p
      rw [Table.read_cons]
      split
      · simp
      · next hk =>
        rcases List.mem_cons.1 hv with h | h
        · cases h; exact (hk rfl).elim
        · exact ih h

theorem Table.read_map {α : Type} (t : Table α) (f : Nat × α → Nat × α) (hf : ∀ p, (f p).1 = p.1) (n : Nat) :
    Table.read (t.map f) n = (Table.read t n).map fun v => (f (n, v)).2 := by
  induction t with
  | nil => rfl
  | cons p t ih =>
    obtain ⟨k, w⟩ := p
    have : f (k, w) = (k, (f (k, w)).2) := Prod.ext (hf (k, w)) rfl
    rw [List.map_cons, this, Table.read_cons, Table.read_cons, ih]
    by_cases h : n = k
    · subst h; simp
    · simp [h]

/-- The occupied Run slots are inside the ring (R1). -/
def Pls.ringed (p : Pls) : Prop :=
  ∀ slot, p.region slot = .run → Table.read p.plan slot ≠ none → ∃ i, i < p.ringCount ∧ slot = p.ringSlot i

/-- What a walk of the ring leaves (R29). -/
theorem Pls.retireRing_ringed (n : Nat) : ∀ p : Pls, p.ringed → (p.retireRing n).1.ringed
    ∧ (p.retireRing n).1.lead = p.lead ∧ (p.retireRing n).1.run = p.run
    ∧ ∀ x ∈ (p.retireRing n).1.plan, x ∈ p.plan := by
  induction n with
  | zero => intro p h; exact ⟨h, rfl, rfl, fun _ k => k⟩
  | succ n ih =>
    intro p h
    unfold Pls.retireRing
    split
    · exact ⟨h, rfl, rfl, fun _ k => k⟩
    · next hc =>
      dsimp only
      split
      · exact ⟨h, rfl, rfl, fun _ k => k⟩
      · split
        · have hr : ({ p with plan := Table.strike p.plan (p.ringSlot 0), ringHead := (p.ringHead + 1) % p.run
                              ringCount := p.ringCount - 1 } : Pls).ringed := by
            intro slot k1 k2
            dsimp only at k2 ⊢
            by_cases e : slot = p.ringSlot 0
            · rw [e, Table.read_strike_same] at k2; exact (k2 rfl).elim
            · rw [Table.read_strike_other _ _ _ e] at k2
              obtain ⟨i, hi, hs⟩ := h slot k1 k2
              have i0 : i ≠ 0 := by rintro rfl; exact e hs
              refine ⟨i - 1, by omega, ?_⟩
              rw [hs]
              unfold Pls.ringSlot
              dsimp only
              rw [Nat.mod_add_mod]
              congr 2
              omega
          obtain ⟨q1, q2, q3, q4⟩ := ih _ hr
          refine ⟨q1, q2, q3, fun x hx => ?_⟩
          have := q4 x hx
          dsimp only at this
          rw [Table.strike_eq_filter] at this
          exact (List.mem_filter.1 this).1
        · exact ⟨h, rfl, rfl, fun _ k => k⟩

theorem Pls.retire_ringed {p : Pls} (h : p.ringed) (st : Nat) : (p.retire st).1.ringed
    ∧ ∀ x ∈ (p.retire st).1.plan, ∃ y ∈ p.plan, y.1 = x.1 ∧ y.2.state = x.2.state := by
  unfold Pls.retire
  extract_lets first w vacated
  have h0 : ({ p with plan := p.plan.filter fun q => !p.retires st q } : Pls).ringed := by
    intro slot k1 k2
    refine h slot k1 ?_
    rw [Table.read_ne_none] at k2 ⊢
    obtain ⟨v, hv⟩ := k2
    exact ⟨v, (List.mem_filter.1 hv).1⟩
  obtain ⟨q1, q2, q3, q4⟩ := Pls.retireRing_ringed p.ringCount _ h0
  constructor
  · intro slot k1 k2
    refine q1 slot k1 ?_
    rw [Table.read_ne_none] at k2 ⊢
    obtain ⟨v, hv⟩ := k2
    obtain ⟨y, hy, e⟩ := List.mem_map.1 hv
    refine ⟨y.2, ?_⟩
    have : y.1 = slot := congrArg Prod.fst e
    rw [← this]; exact hy
  · intro x hx
    obtain ⟨y, hy, e⟩ := List.mem_map.1 hx
    exact ⟨y, (List.mem_filter.1 (q4 y hy)).1, by have := congrArg Prod.fst e; exact this,
      by have := congrArg (fun z => z.2.state) e; exact this⟩

theorem Pls.writeClasses_rest (rs : List ClassRecord) : ∀ (i n : Nat) (p : Pls),
    { (p.writeClasses rs i n).1 with classes := p.classes } = p := by
  induction rs with
  | nil => intro i n p; rfl
  | cons r rs ih =>
    intro i n p
    unfold Pls.writeClasses
    dsimp only
    split
    · exact ih _ _ { p with classes := Table.writeD p.classes i r .blank } |> fun k => by
        have := congrArg (fun q : Pls => { q with classes := p.classes }) k
        exact this
    · rfl

namespace State.Orderly

variable {e : Ev}

theorem runPart {c : HostCommand} (h : e.toState.Orderly) : (e.runPart c).toState.Orderly := by
  unfold Ev.runPart
  split
  · exact h.refuse
  · split
    · exact h.refuse
    · dsimp only
      split
      · next k =>
        have hp : e.pls.plan = [] := by
          unfold Pls.partStatus at k
          split at k
          · cases k
          · next n => simpa using n
        refine State.Orderly.reply (h.replan rfl ?_ fun _ => Iff.rfl)
        intro slot _ n
        refine (n ?_).elim
        show Table.read e.pls.plan slot = none
        rw [hp]; rfl
      · exact h.refuse

theorem runCls {c : HostCommand} (h : e.toState.Orderly) : (e.runCls c).toState.Orderly := by
  unfold Ev.runCls
  split
  · exact h.refuse
  · split
    · exact h.reply
    · dsimp only
      split
      · exact h.reply
      · refine State.Orderly.reply (h.congr ?_)
        generalize byteAt c.payload 0 = i
        generalize List.map _ _ = rs
        have := Pls.writeClasses_rest rs i 0 e.pls
        have := congrArg (fun p : Pls => ({ e.toState.core with
          plan := p.plan, lead := p.lead, run := p.run, ringHead := p.ringHead,
              ringCount := p.ringCount } : Core)) this
        exact this

theorem runLane {c : HostCommand} (h : e.toState.Orderly) : (e.runLane c).toState.Orderly := by
  unfold Ev.runLane
  split
  · exact h.refuse
  · split
    · exact h.refuse
    · dsimp only
      split
      · exact h.refuse
      · exact h.congr rfl

theorem runCeil {c : HostCommand} (h : e.toState.Orderly) : (e.runCeil c).toState.Orderly := by
  unfold Ev.runCeil
  split
  · exact h.refuse
  · split
    · exact h.refuse
    · split
      · unfold Ev.runCeilSetForm
        dsimp only
        split
        · exact h.refuse
        · split
          · exact h.refuse
          · exact h.congr rfl
      · unfold Ev.runCeilLockForm
        split
        · exact h.congr rfl
        · exact h.refuse

theorem runPrd {c : HostCommand} (h : e.toState.Orderly) : (e.runPrd c).toState.Orderly := by
  unfold Ev.runPrd
  split
  · exact h.refuse
  · dsimp only
    split
    · exact h.refuse
    · exact h.reply

/-! ### Loading -/

theorem writeEntry_core {slot : Nat} {f : EntryFields} : (e.writeEntry slot f).toState.core =
    { e.toState.core with plan := Table.write e.pls.plan slot f.entry } := by
  unfold Ev.writeEntry
  dsimp only
  split
  · show ((e.onPls fun p => { p with plan := Table.write p.plan slot f.entry }).noteChange slot f.station).toState.core = _
    rw [Ev.noteChange_toState]; rfl
  · rw [Ev.noteChange_toState]; rfl

/-- An entry written in a slot that is in the ring or no Run slot, and was not IN_TRAIN. -/
theorem written {s t : State} {slot : Nat} {f : EntryFields} (h : s.Orderly) (hs : ¬s.inTrainAt slot)
    (ht : t.core = { s.core with plan := Table.write s.pls.plan slot f.entry, ringCount := t.pls.ringCount })
    (hc : s.pls.ringCount ≤ t.pls.ringCount)
    (hr : s.pls.region slot = .run → ∃ i, i < t.pls.ringCount ∧ slot = s.pls.ringSlot i) : t.Orderly := by
  have e1 : t.pls.plan = Table.write s.pls.plan slot f.entry := congrArg Core.plan ht
  have e2 : t.pls.lead = s.pls.lead := congrArg Core.lead ht
  have e3 : t.pls.run = s.pls.run := congrArg Core.run ht
  have e4 : t.pls.ringHead = s.pls.ringHead := congrArg Core.ringHead ht
  have hen : ∀ n, t.entryAt n = if n = slot then some f.entry else s.entryAt n := by
    intro n; unfold State.entryAt; rw [e1]
    split
    · next k => subst k; exact Table.read_write_same _ _ _
    · next k => exact Table.read_write_other _ _ _ _ k
  have hrg : ∀ n, t.pls.region n = s.pls.region n := fun n => by unfold Pls.region; rw [e2, e3]
  have hrs : ∀ n, t.pls.ringSlot n = s.pls.ringSlot n := fun n => by unfold Pls.ringSlot; rw [e2, e3, e4]
  refine h.replan (by rw [ht, e1, e2, e3, e4]; rfl) ?_ ?_
  · intro n k1 k2
    simp only [hrs]
    rw [hrg] at k1
    rw [hen] at k2
    split at k2
    · next k => subst k; exact hr k1
    · obtain ⟨i, hi, e⟩ := h.ring n k1 k2
      exact ⟨i, by omega, e⟩
  · intro n
    by_cases k : n = slot
    · subst k
      refine iff_of_false ?_ hs
      rintro ⟨x, k1, k2⟩
      rw [hen, if_pos rfl] at k1
      cases k1
      unfold EntryFields.entry at k2
      dsimp only at k2
      split at k2 <;> cases k2
    · unfold State.inTrainAt; rw [hen, if_neg k]

/-- The next free position of the ring holds no entry (R1). -/
theorem ring_free {s : State} (h : s.Orderly) (hr : s.pls.ringCount < s.pls.run) : s.pls.region
    (s.pls.ringSlot s.pls.ringCount) = .run
    ∧ s.entryAt (s.pls.ringSlot s.pls.ringCount) = none := by
  have hm : (s.pls.ringHead + s.pls.ringCount) % s.pls.run < s.pls.run := Nat.mod_lt _ (by omega)
  have h1 : s.pls.region (s.pls.ringSlot s.pls.ringCount) = .run := by
    unfold Pls.region Pls.ringSlot
    rw [if_neg (by omega), if_pos (by omega)]
  refine ⟨h1, ?_⟩
  by_contra n
  obtain ⟨i, hi, e⟩ := h.ring _ h1 n
  unfold Pls.ringSlot at e
  have e' : (s.pls.ringHead + s.pls.ringCount) % s.pls.run = (s.pls.ringHead + i) % s.pls.run := by omega
  have := (Nat.ModEq.add_left_cancel' _ e' : s.pls.ringCount ≡ i [MOD s.pls.run])
  rw [Nat.ModEq, Nat.mod_eq_of_lt hr, Nat.mod_eq_of_lt (by omega)] at this
  omega

theorem appendEntries (fs : List EntryFields) : ∀ {e : Ev} {n : Nat}, e.toState.Orderly →
    e.pls.ringCount + fs.length ≤ e.pls.run → (e.appendEntries fs n).1.toState.Orderly := by
  induction fs with
  | nil => intro e n h _; exact h
  | cons f fs ih =>
    intro e n h hr
    simp only [List.length_cons] at hr
    unfold Ev.appendEntries
    extract_lets slot st
    obtain ⟨k1, k2⟩ := h.ring_free (by omega)
    split
    · obtain ⟨w1, w2⟩ := e.writeEntry_ring slot f
      refine ih ?_ ?_
      · refine h.written (slot := slot) (f := f) ?_ ?_ ?_ ?_
        · rintro ⟨x, q, _⟩; rw [show e.entryAt slot = none from k2] at q; cases q
        · show ({ (e.writeEntry slot f).toState.core with ringCount := _ } : Core) = _
          rw [writeEntry_core]
        · show e.pls.ringCount ≤ (e.writeEntry slot f).pls.ringCount + 1
          omega
        · intro _
          refine ⟨e.pls.ringCount, ?_, rfl⟩
          show e.pls.ringCount < (e.writeEntry slot f).pls.ringCount + 1
          omega
      · show (e.writeEntry slot f).pls.ringCount + 1 + fs.length ≤ (e.writeEntry slot f).pls.run
        omega
    · exact h

theorem runPap {c : HostCommand} (h : e.toState.Orderly) : (e.runPap c).toState.Orderly := by
  unfold Ev.runPap
  split
  · exact h.refuse
  · dsimp only
    split
    · exact h.reply
    · next hf => exact State.Orderly.reply (State.Orderly.refreshCourse (appendEntries _ h (by omega)))

theorem runPld {c : HostCommand} (h : e.toState.Orderly) : (e.runPld c).toState.Orderly := by
  unfold Ev.runPld
  split
  · exact h.refuse
  · split
    · exact h.refuse
    · extract_lets slot f st
      split
      · next k =>
        have hb : e.pls.pldBarred slot = false := by
          unfold st Pls.pldStatus at k
          split at k
          · cases k
          · split at k
            · cases k
            · split at k
              · cases k
              · next n => simpa using n
        refine State.Orderly.reply (State.Orderly.refreshCourse (h.written (slot := slot) (f := f) ?_ ?_ ?_ ?_))
        · rintro ⟨x, q1, q2⟩
          unfold Pls.pldBarred at hb
          rw [show Table.read e.pls.plan slot = some x from q1] at hb
          dsimp only at hb
          rw [q2] at hb; cases hb
        · rw [writeEntry_core]
          have : (e.writeEntry slot f).pls.ringCount = e.pls.ringCount := congrArg Core.ringCount writeEntry_core
          rw [this]; rfl
        · exact le_of_eq (congrArg Core.ringCount writeEntry_core).symm
        · intro q
          rw [show (e.writeEntry slot f).pls.ringCount = e.pls.ringCount from congrArg Core.ringCount writeEntry_core]
          refine h.ring slot q fun n => ?_
          unfold Pls.pldBarred at hb
          rw [show Table.read e.pls.plan slot = none from n] at hb
          dsimp only at hb
          rw [q] at hb; cases hb
      · exact h.refuse

/-! ### Marks, rearming, station advance -/

theorem applyMark {m : MarkOp} (h : e.toState.Orderly) : (e.applyMark m).toState.Orderly := by
  unfold Ev.applyMark
  extract_lets plan sk e1 e2 e3
  have h1 : e1.toState.Orderly := by
    have hen : ∀ n, e1.entryAt n = (e.entryAt n).map fun v => (m.mark (n, v)).2 := fun n =>
      Table.read_map _ _ m.mark_fst n
    refine h.replan rfl ?_ ?_
    · intro n k1 k2
      refine h.ring n k1 fun k => k2 ?_
      rw [hen, k]; rfl
    · intro n
      have hmk : ∀ v : Entry, (m.mark (n, v)).2.state = .inTrain ↔ v.state = .inTrain := by
        intro v
        unfold MarkOp.mark
        split
        · dsimp only
          split
          · next k =>
            unfold MarkOp.skips at k
            simp only [Bool.and_eq_true] at k
            refine iff_of_false (by simp) ?_
            intro q
            have := k.2
            rw [show (v.state.open = true) = ((EntryState.inTrain).open = true) by rw [q]] at this
            cases this
          · rfl
        · rfl
      unfold State.inTrainAt
      rw [hen]
      constructor
      · rintro ⟨x, k1, k2⟩
        obtain ⟨v, q1, q2⟩ := Option.map_eq_some_iff.1 k1
        exact ⟨v, q1, (hmk v).1 (q2 ▸ k2)⟩
      · rintro ⟨v, k1, k2⟩
        exact ⟨_, by rw [k1]; rfl, (hmk v).2 k2⟩
  clear_value e1
  have h2 : e2.toState.Orderly := by
    unfold e2; split
    · exact h1.promptSel
    · exact h1
  refine State.Orderly.refreshCourse (State.Orderly.reports ?_)
  unfold e3
  rw [Ev.noteSkips_toState]
  exact h2

theorem runMark {c : HostCommand} (h : e.toState.Orderly) : (e.runMark c).toState.Orderly := by
  unfold Ev.runMark
  dsimp only
  split
  · exact h.refuse
  · split
    · exact h.refuse
    · split
      · exact h.refuse
      · split
        · exact h.refuse
        · exact State.Orderly.reply h.applyMark

theorem runRearm {c : HostCommand} (h : e.toState.Orderly) : (e.runRearm c).toState.Orderly := by
  unfold Ev.runRearm
  split
  · exact h.refuse
  · split
    · exact h.refuse
    · dsimp only
      split
      · exact h.refuse
      · split
        · exact h.refuse
        · next en hen =>
          split
          · next k =>
            refine State.Orderly.reply (State.Orderly.promptSel (State.Orderly.refreshCourse (h.changeEntry ?_)))
            intro x hx
            rw [hen] at hx; cases hx
            simp [k]
          · exact h.refuse

/-- Station advance, in settled IDLE (R28 to R30). -/
theorem advance {c : HostCommand} (h : e.toState.Orderly) (hs : e.settledIdle = true)
    (hp : Table.rising e.pls.plan = true) :
    (e.advance c).toState.Orderly := by
  obtain ⟨m, d⟩ := settled hs
  obtain ⟨a1, a2⟩ := h.atRest (not_inRun_of_idle (.inl m))
  have none0 : ∀ n, ¬e.inTrainAt n := by
    intro n k
    obtain ⟨b, x, q, _⟩ := h.claimed n k
    rw [a1] at q; cases q
  have none1 : ∀ q ∈ e.pls.plan, q.2.state ≠ .inTrain := fun q hq k =>
    none0 q.1 ⟨q.2, Table.read_of_mem _ hp q hq, k⟩
  unfold Ev.advance
  extract_lets p old waived e1 e2 w e3 e4 e5
  have p2 : e2.pls = { e.pls with plan := e.pls.plan.map (waiveEntry old) } := by
    unfold e2; rw [Ev.reports_toState]; rfl
  have r2 : e2.pls.ringed := by
    rw [p2]
    intro slot k1 k2
    refine h.ring slot k1 fun k => k2 ?_
    show Table.read (e.pls.plan.map (waiveEntry old)) slot = none
    rw [Table.read_map _ _ (waiveEntry_fst old), show Table.read e.pls.plan slot = none from k]; rfl
  obtain ⟨r3, s3⟩ := Pls.retire_ringed r2 old
  have h4 : e4.toState.Orderly := by
    have c4 : e4.toState.core = { e.toState.core with
        plan := w.1.plan, lead := w.1.lead, run := w.1.run, ringHead := w.1.ringHead,
            ringCount := w.1.ringCount } := by
      have : e2.toState.core = e1.toState.core := by unfold e2; rw [Ev.reports_toState]; rfl
      show ({ e2.toState.core with
        plan := w.1.plan, lead := w.1.lead, run := w.1.run, ringHead := w.1.ringHead,
            ringCount := w.1.ringCount } : Core) = _
      rw [this]; rfl
    refine h.replan c4 ?_ ?_
    · exact r3
    · intro n
      refine iff_of_false ?_ (none0 n)
      rintro ⟨x, k1, k2⟩
      have k1 := Table.mem_of_read _ _ _ k1
      obtain ⟨y, y1, y2, y3⟩ := s3 _ k1
      rw [p2] at y1
      obtain ⟨z, z1, z2⟩ := List.mem_map.1 y1
      have : z.2.state = .inTrain := by
        have k : y.2.state = .inTrain := y3.trans k2
        rw [← z2] at k
        unfold waiveEntry at k
        split at k
        · cases k
        · exact k
      exact none1 z z1 this
  have h5 : e5.toState.Orderly := h4.congr rfl
  refine State.Orderly.reply (State.Orderly.withRate ?_)
  exact (h5.refreshCourse (b := .adv)).congr rfl

theorem runAdv {c : HostCommand} (h : e.toState.Orderly) (hp : Table.rising e.pls.plan = true) :
    (e.runAdv c).toState.Orderly := by
  unfold Ev.runAdv
  split
  · exact h.refuse
  · next k =>
    split
    · exact h.refuse
    · split
      · exact h.refuse
      · dsimp only
        split
        · exact h.reply
        · exact h.advance (by simpa using k) hp

/-! ### Every command -/

theorem runCommand {c : HostCommand} (h : e.toState.Orderly) (hp : Table.rising e.pls.plan = true) :
    (e.runCommand c).toState.Orderly := by
  unfold Ev.runCommand
  split
  case h_1 => exact h.reply
  case h_2 => exact h.runStq
  case h_3 => exact h.reply
  case h_4 => exact h.runCfg
  case h_5 => exact h.runRst
  case h_6 => exact h.runPart
  case h_7 => exact h.runCls
  case h_8 => exact h.runLane
  case h_9 => exact h.reply
  case h_10 => exact h.runCeil
  case h_11 => exact h.runPap
  case h_12 => exact h.runPld
  case h_13 => exact h.runPrd
  case h_14 => exact h.runMark
  case h_15 => exact h.runRearm
  case h_16 => exact h.runAdv hp
  case h_17 => exact h.runGo
  case h_18 => exact h.runHalt
  case h_19 => exact h.runAbort
  case h_20 => exact h.runClear
  case h_21 => exact h.runAccept
  case h_22 => exact h.runStow
  case h_23 => exact h.runBin
  case h_24 => exact h.runCal
  case h_25 => exact h.runHlth
  case h_26 => exact h.refuse

/-! ### The resets -/

/-- The part right after a reset: an empty plan and train, in settled IDLE (R174). -/
theorem fresh {s : State} (h : s.core = ⟨[], 64, 896, 0, 0, .idle, false, .none, [], [], none, [], 0, .vacant,
    false, none, .none⟩) :
    s.Orderly := by
  unfold State.core at h
  simp only [Core.mk.injEq] at h
  obtain ⟨c1, -, -, -, -, c6, c7, c8, c9, c10, c11, c12, c13, c14, -, -, c17⟩ := h
  have hen : ∀ n, s.entryAt n = none := fun n => by unfold State.entryAt; rw [c1]; rfl
  refine State.Orderly.bare (by rw [c13]; omega) (fun n _ k => (k (hen n)).elim) ?_ ?_ c14 ?_ c11 ?_ (fun _ => c8)
    (fun _ _ => c9) (fun k => by rw [c6] at k; cases k)
  · rintro n ⟨x, k, _⟩; rw [hen] at k; cases k
  · intro b; unfold State.carrierAt; rw [c12]; rfl
  · intro u; unfold State.flight; rw [c10]; rfl
  · intro k hk; exact ⟨c6, c7⟩

theorem evaluateLoaded (h : e.toState.Orderly) : e.evaluateLoaded.toState.Orderly := by
  unfold Ev.evaluateLoaded
  have : ∀ (l : List Attr) (e : Ev), e.toState.Orderly → (l.foldl
      (fun e a => e.evaluate a .load) e).toState.Orderly := by
    intro l
    induction l with
    | nil => intro e h; exact h
    | cons a l ih => intro e h; exact ih _ h.evaluate
  exact this _ _ h

end State.Orderly

/-! ### Whole events -/

/-- An event whose changes keep the agreement keeps it. -/
theorem event_orderly {f : Ev → Ev} {s : State} (hs : s.Sound) (hl : ∀ e a, Ev.Leads e a → Ev.Leads e (f a))
    (h : (f (Ev.start s)).toState.Orderly) : (event f s).Orderly :=
  h.finish ((hl _ _ (Ev.Leads.refl (Ev.start s))).sound hs)

/-- A command row keeps the agreement where its run does. -/
theorem takeHost_orderly {c : HostCommand} {run : Ev → Ev} {s : State} (hs : s.Sound) (h : s.Orderly)
    (hl : ∀ e a, Ev.Leads e a → Ev.Leads e (run a))
    (hr : ∀ x : Ev, x.toState.Orderly → Table.rising x.pls.plan = true → (run x).toState.Orderly) :
    (takeHost c run s).Orderly := by
  unfold takeHost
  split
  · exact event_orderly hs (fun e a k => k.take (hl e)) (hr _ (h.congr rfl) hs.pls.2.2.2.2.2.2)
  · split
    · exact h
    · exact event_orderly hs (fun _ _ k => k.onScp Scp.offer_sound) (h.congr rfl)

theorem completion_orderly {u : Nat} {t r c : Byte} {s : State} (hs : s.Sound) (h : s.Orderly) :
    (completion u t r c s).Orderly :=
  event_orderly hs (fun _ _ k => k.takeCompletion) (State.Orderly.takeCompletion (e := Ev.start s) h)

theorem fireAt_orderly {m : Option Nat} {f : Ev → Ev} {s : State} (hs : s.Sound) (h : s.Orderly)
    (hl : ∀ e a, Ev.Leads e a → Ev.Leads e (f a)) (hf : ∀ e : Ev, e.toState.Orderly → (f e).toState.Orderly) :
    (fireAt m f s).Orderly := by
  unfold fireAt
  split
  · exact h
  · exact event_orderly hs (fun e a k => hl e _ k.until') (hf _ (State.Orderly.until' (e := Ev.start s) h))

theorem orderTimesOut_orderly {u : Nat} {s : State} (hs : s.Sound) (h : s.Orderly) : (orderTimesOut u s).Orderly := by
  unfold orderTimesOut
  split
  · exact h
  · next r hf =>
    split
    · exact h
    · next t _ =>
      exact event_orderly hs (fun _ _ k => k.until'.endOrder)
        (State.Orderly.endOrder (e := (Ev.start s).until t) (State.Orderly.until' (e := Ev.start s) h) hf)

theorem pressLimitEnds_orderly {s : State} (hs : s.Sound) (h : s.Orderly) : (pressLimitEnds s).Orderly := by
  unfold pressLimitEnds
  split
  · exact h
  · next r hf =>
    split
    · exact h
    · next t _ =>
      exact event_orderly hs (fun _ _ k => k.until'.onLoopTx.endOrder)
        (State.Orderly.endOrder (e := ((Ev.start s).until t).onLoopTx liftFrame)
          (State.Orderly.onLoopTx (State.Orderly.until' (e := Ev.start s) h)) hf)

/-- Bytes of a line keep the agreement where each of them does. -/
theorem foldl_orderly {f : Byte → Ev → Ev} (hl : ∀ (b : Byte) (e a : Ev), Ev.Leads e a → Ev.Leads e (f b a))
    (hf : ∀ (b : Byte) (e : Ev), e.toState.Orderly → (f b e).toState.Orderly) (bs : List Byte) :
    ∀ s : State, s.Sound → s.Orderly → (bs.foldl (fun s b => event (f b) s) s).Orderly := by
  induction bs with
  | nil => exact fun _ _ h => h
  | cons b bs ih =>
    exact fun s hs h => ih _ ((event_leads s (hl b)).sound hs) (event_orderly hs (hl b) (hf b _ h))

theorem hostBytes_orderly {bs : List Byte} {s : State} (hs : s.Sound) (h : s.Orderly) : (hostBytes bs s).Orderly :=
  foldl_orderly (fun _ _ _ k => k.hostByte) (fun _ _ k => k.hostByte) bs s hs h

theorem loopBytes_orderly {bs : List Byte} {s : State} (hs : s.Sound) (h : s.Orderly) : (loopBytes bs s).Orderly :=
  foldl_orderly (fun _ _ _ k => k.loopByte) (fun _ _ k => k.loopByte) bs s hs h

theorem trackerBytes_orderly {bs : List Byte} {s : State} (hs : s.Sound) (h : s.Orderly) :
    (trackerBytes bs s).Orderly :=
  foldl_orderly (fun _ _ _ k => k.trackerByte) (fun _ _ k => k.trackerByte) bs s hs h

theorem waitGap_orderly {s : State} (hs : s.Sound) (h : s.Orderly) : (waitGap s).Orderly := by
  unfold waitGap
  split
  · exact event_orderly hs (fun _ _ k => k.until') (State.Orderly.until' (e := Ev.start s) h)
  · exact h

theorem powerUp_orderly {a b : Bool} {s : State} (hs : s.Sound) : (powerUp a b s).Orderly :=
  event_orderly (State.powered_sound _ s hs) (fun _ _ k => k.evaluateLoaded)
    (State.Orderly.evaluateLoaded (e := Ev.start (s.powered (bitRateOf a b))) (State.Orderly.fresh rfl))

end Sys2Proof.Machine
end

