-- ==== Sys2Proof/Tests/Slice0.lean ====
section
/-! SUPPORT. Small tests of the model, and for every statement with hypotheses a state and operands that meet them
(`test_hypotheses_<statement>`). -/

namespace Sys2Proof.Tests

open Sys2Proof Sys2Proof.Machine

-- One test at a time: a test waits for the kernel, and many waiting tests would each hold a thread.
set_option Elab.async false

/-! ### Well-formed terms: one ill-formed term per check -/

theorem test_wf_hostFrame : (Instr.hostFrame (List.replicate 1032 0)).wellFormed = false := by decide +kernel
theorem test_wf_hostGap : (Instr.hostGap (List.replicate 1032 0)).wellFormed = false := by decide +kernel
theorem test_wf_unknownKind : (Instr.unknownCommand 0x13 0 []).wellFormed = false := by decide
theorem test_wf_unknownPayload : (Instr.unknownCommand 0x99 0 (List.replicate 1025 0)).wellFormed = false := by decide +kernel
theorem test_wf_payload : (Instr.pap 0 (List.replicate 1025 0)).wellFormed = false := by decide +kernel
theorem test_wf_calStart : (Instr.calStart 0 [1]).wellFormed = false := by decide
theorem test_wf_calCancel : (Instr.calCancel 0 [0]).wellFormed = false := by decide
theorem test_wf_hlthRead : (Instr.hlthRead 0 [3, 1, 0, 0, 0, 0]).wellFormed = false := by decide
theorem test_wf_hlthStatus : (Instr.hlthStatus 0 [0]).wellFormed = false := by decide
theorem test_wf_hlthThresh : (Instr.hlthThresh 0 [3]).wellFormed = false := by decide
theorem test_wf_hlthReset : (Instr.hlthReset 0 [2]).wellFormed = false := by decide
theorem test_wf_loadFault : (Instr.loadFault 0 1).wellFormed = false := by decide
theorem test_wf_staleLength : (Instr.staleCompletion [0x3C, 0]).wellFormed = false := by decide
theorem test_wf_staleStart : (Instr.staleCompletion [0xC3, 0, 0, 0, 0, 0, 0]).wellFormed = false := by decide
theorem test_wf_orderEcho : (Instr.orderEcho [0x3C, 0, 0, 0, 0, 0, 0]).wellFormed = false := by decide
theorem test_wf_trackerFrame : (Instr.trackerFrame []).wellFormed = false := by decide
theorem test_wf_good : (Instr.idq 0 []).wellFormed = true ∧ (Instr.hlthReset 0 [3, 1, 0, 0, 0, 0]).wellFormed = true := by
  decide

/-! ### The checks and the layouts -/

/-- CRC-16 of "123456789" (R204). -/
theorem test_crc16 : crc16 [0x31, 0x32, 0x33, 0x34, 0x35, 0x36, 0x37, 0x38, 0x39] = 0x29B1 := by decide +kernel

/-- CRC-8 of "123456789" (R204). -/
theorem test_crc8 : crc8 [0x31, 0x32, 0x33, 0x34, 0x35, 0x36, 0x37, 0x38, 0x39] = 0xF4 := by decide +kernel

/-- The row bits: the table gives no row bits. -/
theorem test_decodeTableWord : decodeTableWord 8 0 = none := by decide

/-! ### Small states -/

/-- An entry of station 0 in a course: 10 m out, class 0, no bearers. -/
def brick (course : Nat) (state : EntryState) : Entry :=
  ⟨0, course, 1, 0, ⟨100000, 0, 5000, 0⟩, none, [], ⟨false, false, false⟩, state, 0, none⟩

/-- The part in a mode, with a brick in the first slot of the ring, its class defined, and stock in its lane. -/
def part (m : Mode) (state : EntryState := .planned) : State :=
  { State.reset with
    pls := { Pls.reset none with
      plan := [(64, brick 1 state)], ringCount := 1, stocks := [(0, 5)]
      classes := [(0, ⟨2000, 1000, 500, 0, 1, true, true⟩)] }
    rcu := { Rcu.reset with mode := m }
    rsl := { Rsl.reset with active := some 1 } }

/-- The carrier of that brick in a berth. -/
def carried (b : Nat) (phase : Phase) (s : State) : State :=
  { s with btc := { s.btc with train := [(b, ⟨0, 64, phase, none, false, none⟩)] } }

/-- An order in flight with tag 7, sent at moment 0. -/
def flying (unit : Nat) (o : Order) (q : Requester) (s : State) : State :=
  { s with sli := { s.sli with inFlight := [(unit, ⟨o, 7, q, 0⟩)] } }

/-- The brick in the head, in a head state, with the values latched at SETTLING and lock held. -/
def gripped (h : HeadState) (s : State) : State :=
  { carried 9 .working s with
    hsq := { s.hsq with head := h, carrier := some ⟨0, 64, none, false⟩, latch := some ⟨5, 15, 10⟩ }
    trk := { s.trk with locked := true } }

/-- Commands in the command queue. -/
def queued (cs : List HostCommand) (s : State) : State := { s with scp := { s.scp with commands := cs } }

/-- A full outbound queue. -/
def choked (s : State) : State := { s with scp := { s.scp with outbound := List.replicate 32 (.reply 1 0 .ok []) } }

/-- What a command row leaves in the outbound queue. -/
def outboundAfter (i : Instr) (s : State) : List Message :=
  match exec i s with
  | .next t => t.scp.outbound
  | _ => []

/-- What a row makes of the state. -/
def after (i : Instr) (s : State) : State :=
  match exec i s with
  | .next t => t
  | _ => s

/-! ### A few whole steps -/

/-- IDQ answers the identity at reset (R198). -/
theorem test_idq : outboundAfter (.idq 9 []) State.reset =
    [.reply 1 9 .ok [0x4B, 0x18, 0x4C, 0x01, 0x00, 0x04, 10, 32, 8, 96]] := by decide +kernel

/-- GO right after reset is refused: the table is not valid (R164). -/
theorem test_go : outboundAfter (.go 1 []) State.reset = [.reply 0x20 1 .notCalibrated []] := by decide +kernel

/-- CEIL with CEILQ before it sets the ceiling, and without it names a wrong sequence (R15, R16). -/
theorem test_ceil : (after (.ceilSet 2 [40, 0, 0]) (after (.ceilq 1 []) State.reset)).pls.ceiling = 40
    ∧ outboundAfter (.ceilFreeze 2 [40, 0, 0]) State.reset = [.reply 0x14 2 .sequence []] := by decide +kernel

/-- LANE in LAYING: the stock is set, the brick is released into berth 0 and LOAD is sent to PICK (R12, R44). -/
theorem test_laneReleases : let t := after (.lane 1 [0, 9, 0]) (part .laying)
    t.carrierAt 0 = some ⟨0, 64, .working, none, false, none⟩ ∧ t.stockOf 0 = 8
      ∧ t.flight pickUnit = some ⟨.load 0, 0, .rsl, 0⟩ := by decide +kernel

/-- LOAD_DONE: the carrier is transferred on its way to SAW at once (R72, R78). -/
theorem test_loadDone : let t := after (.loadDone 7) (flying pickUnit (.load 0) .rsl (carried 0 .working (part .laying)))
    t.carrierAt 0 = some ⟨0, 64, .leaving, none, false, none⟩ ∧ t.flight (xferUnit 0) = some ⟨.move, 0, .btc, 0⟩ := by
  decide +kernel

/-- A placement empties berth 9 and ends the station with the last entry (R137, R47). -/
theorem test_placement : let s := flying gripperUnit .openGrip .hsq (gripped .releasing (part .laying .inTrain))
    ((after (.openDone 7) s).entryAt 64).map (·.state) = some .placed ∧ (after (.openDone 7) s).carrierAt 9 = none
      ∧ (after (.openDone 7) s).hsq.head = .retracting := by decide +kernel

/-- GO with the head in DUMPING: with the bin full its MODE report carries BIN_FULL, the mode is HOLDING again and no MOVE
is sent; with a place in the bin the DUMP and the MOVE go out (R88, R161, R79). -/
theorem test_goBinFull :
    let at_ (n : Nat) : State :=
      { gripped .dumping (part .holding .inTrain) with
        btc := { Btc.reset with
          bin := n, train := [(3, ⟨1, 65, .ready, none, false, none⟩), (9, ⟨0, 64, .working, none, false, none⟩)] } }
    let full : HoldSet := { HoldSet.none with binFull := true }
    outboundAfter (.go 1 []) (at_ 24) =
      [.report 0 (.mode .laying .holding false .go full false []), .reply 0x20 1 .ok [],
        .report 1 (.mode .holding .laying false (.hold .binFull) full false [])]
      ∧ (after (.go 1 []) (at_ 24)).sli.inFlight = []
      ∧ outboundAfter (.go 1 []) (at_ 23) =
        [.report 0 (.mode .laying .holding false .go .none false []), .reply 0x20 1 .ok []]
      ∧ (after (.go 1 []) (at_ 23)).sli.inFlight =
        [(xferUnit 3, ⟨.move, 0, .btc, 0⟩), (chuteUnit, ⟨.dump, 0, .hsq, 0⟩)] := by decide +kernel

/-- Eight good frames in sequence gain lock, and 20 ms with fewer than six lose it (R110, R112). -/
theorem test_lock :
    let frames := (List.range 8).foldl (fun s i => after (.trackerFrame (trackerFrameBytes (BitVec.ofNat 16 i) ⟨1, 2, 3, 4⟩ 90)) s) State.reset
    frames.trk.locked = true ∧ (after .holdWindowEnd frames).trk.locked = false := by decide +kernel

/-! ### What the statements assume can be met -/

/-- An outbound queue of one reply less than its size. -/
def nearlyChoked (s : State) : State :=
  { s with scp := { s.scp with outbound := List.replicate 31 (.reply 1 0 .ok []) } }

/-- Two carriers in the train. -/
def two (a : Nat × Carrier) (b : Nat × Carrier) (s : State) : State := { s with btc := { s.btc with train := [a, b] } }

theorem test_hypotheses_StepOnAnEmptyQueue :
    (part .idle).pending = [] ∧ (part .idle).scp.commands = [] ∧ (part .idle).timerDue = none
      ∧ (queued [⟨1, 0, []⟩] (part .idle)).scp.commands = [⟨1, 0, []⟩] ∧ (part .idle).scp.outbound.length < 32
      ∧ 32 ≤ (choked (part .idle)).scp.outbound.length
      ∧ (let s := { part .idle with now := 3000, hsq := { Hsq.reset with lockout := some 0 } }
         s.timerDue = some .pressLockout ∧ s.scp.commands = []) := by decide +kernel

theorem test_hypotheses_StepKeepsSound : (part .laying).Sound ∧ ∃ t, step (part .laying) = .next t :=
  ⟨⟨by unfold Pls.sound; decide +kernel, by unfold Rcu.sound; decide +kernel, by unfold Sli.sound; decide +kernel,
      by unfold Btc.sound; decide +kernel, Trk.reset_sound, by unfold Hsq.sound; decide +kernel,
      by unfold Hmn.sound AttrRecord.sound SavedAttr.sound; intro a; cases a <;> decide +kernel, Scp.reset_sound _⟩,
    _, rfl⟩

/-- In LAYING, with nothing in the train. -/
theorem part_orderly : (part .laying).Orderly := by
  have slot : ∀ n, (part .laying).entryAt n ≠ none → n = 64 := by
    intro n k
    by_contra h
    exact k (show (if n = 64 then some (brick 1 .planned) else none) = none from if_neg h)
  refine State.Orderly.bare (by decide) ?_ ?_ (fun _ => rfl) rfl (fun _ => rfl) rfl (fun k h => by cases h) (fun _ => rfl)
    (fun _ _ => rfl) (fun h => by cases h)
  · intro n _ k; exact ⟨0, by decide, (slot n k).trans (by decide)⟩
  · rintro n ⟨en, k1, k2⟩
    obtain rfl := slot n (by rw [k1]; simp)
    cases (show some (brick 1 .planned) = some en from k1)
    cases k2

/-- The bounds and the agreement hold together of a run with a carrier WORKING at PICK and its LOAD in flight. -/
theorem test_hypotheses_StepKeepsSound_orderly :
    (flying 0 (.load 0) .rsl (carried 0 .working (part .laying .inTrain))).Sound
      ∧ (flying 0 (.load 0) .rsl (carried 0 .working (part .laying .inTrain))).Orderly
      ∧ ∃ t, step (flying 0 (.load 0) .rsl (carried 0 .working (part .laying .inTrain))) = .next t := by
  refine ⟨⟨by unfold Pls.sound; decide +kernel, by unfold Rcu.sound; decide +kernel, by unfold Sli.sound; decide +kernel,
    by unfold Btc.sound; decide +kernel, Trk.reset_sound, by unfold Hsq.sound; decide +kernel,
    by unfold Hmn.sound AttrRecord.sound SavedAttr.sound; intro a; cases a <;> decide +kernel, Scp.reset_sound _⟩, ?_, _, rfl⟩
  have h : (carried 0 .working (part .laying .inTrain)).Orderly :=
    part_orderly.board (c := ⟨0, 64, .working, none, false, none⟩) (en := brick 1 .planned) (en' := brick 1 .inTrain) rfl
      (by decide) (.inl rfl) rfl (by decide) rfl rfl rfl
  refine { h with orders := ?_, waiting := ?_ }
  · intro u r k
    have k : (if u = 0 then some (⟨.load 0, 7, .rsl, 0⟩ : InFlight) else none) = some r := k
    split at k
    · next hu => subst hu; cases k; exact ⟨rfl, rfl, _, rfl, rfl⟩
    · cases k
  · intro q k; cases k

theorem test_hypotheses_TransferableCarriersMove :
    (carried 0 .ready (part .laying .inTrain)).transferable 0 = true
      ∧ (carried 0 .working (part .laying .inTrain)).transferable 0 = false
      ∧ (let s := carried 8 .ready (part .draining .inTrain)
         ({ s with hsq := { s.hsq with atReceive := true } }).transferable 8 = true ∧ s.transferable 8 = false) := by
  decide +kernel

theorem test_hypotheses_ReleaseClaimsTheEntry : (Ev.start (part .laying)).entryAt 64 = some (brick 1 .planned) := by
  decide +kernel

/-- Nothing blocks the brick; it is blocked by its HOLD mark; by the stock alone; and STALLED has its conditions. -/
theorem test_hypotheses_SelectionReleasesOrReports :
    let e := Ev.start (part .laying)
    let held := { e with pls := { e.pls with plan := [(64, { brick 1 .planned with marks := ⟨true, false, false⟩ })] } }
    let bare := { e with pls := { e.pls with stocks := [] } }
    (e.rcu.mode = .laying ∧ e.carrierAt 0 = none ∧ 0 ∉ e.rcu.stranded ∧ e.flight pickUnit = none)
      ∧ e.candidates = [] ++ (64, brick 1 .planned) :: [] ∧ e.blockOf (64, brick 1 .planned) = none
      ∧ (∀ q ∈ held.candidates, q.2.marks.hold = true) ∧ (∀ q ∈ held.candidates, held.blockOf q ≠ none)
      ∧ bare.candidates = [] ++ (64, brick 1 .planned) :: [] ∧ bare.stockAlone (64, brick 1 .planned) = true
      ∧ 0 ∉ bare.rsl.starved
      ∧ (e.btc.train = [] ∧ e.hsq.head = .vacant ∧ e.rsl.stall = false ∧ e.pls.plan ≠ []) := by decide +kernel

/-- A latch absent and set; the active course rises to none, falls from 2 to 1, stays, and was absent; gust-reduced rate
that a finished course turns off, and none. -/
theorem test_hypotheses_ActiveCourseAndLookahead :
    Table.read State.reset.pls.latches 255 = none
      ∧ Table.read (Table.write State.reset.pls.latches 255 Dir.desc) 255 = some .desc
      ∧ ((part .laying .placed).rsl.active = some 1 ∧ (part .laying .placed).lowestCourse = none)
      ∧ (let s := { part .laying with rsl := { Rsl.reset with active := some 2 } }
         s.rsl.active = some 2 ∧ s.lowestCourse = some 1 ∧ 1 ≤ 2)
      ∧ ((part .laying).rsl.active = some 1 ∧ (part .laying).lowestCourse = some 1)
      ∧ State.reset.rsl.active = none
      ∧ (State.reset.scp.config.rate = .auto ∧ ({ Hsq.reset with gustReduced := true } : Hsq).gustReduced = true
        ∧ Hsq.reset.gustReduced = false) := by decide +kernel

/-- The brick in the plan; READY_TO_PRESS with every condition of R127, and with the lockout running. -/
theorem test_hypotheses_EntryChangePrompts :
    (Ev.start (part .laying)).entryAt 64 = some (brick 1 .planned)
      ∧ (let s := gripped .readyToPress (part .laying .inTrain)
         let e := Ev.start { s with hsq := { s.hsq with settleCount := 5, lockout := none } }
         e.hsq.head = .readyToPress ∧ e.rcu.mode = .laying ∧ e.trk.locked = true
          ∧ e.hsq.latch = some ⟨5, 15, 10⟩ ∧ (⟨5, 15, 10⟩ : SettleLatch).target ≤ e.hsq.settleCount
          ∧ e.hsq.carrier = some ⟨0, 64, none, false⟩ ∧ e.headEntry = some (brick 1 .inTrain)
          ∧ (brick 1 .inTrain).bearers = [] ∧ e.carrierAt 9 = some ⟨0, 64, .working, none, false, none⟩
          ∧ e.flight pressUnit = none
          ∧ ({ e with hsq := { e.hsq with lockout := some 0 } } : Ev).hsq.lockout ≠ none) := by
  decide +kernel

theorem test_hypotheses_RunEndsInSettledIdle :
    let ended := { part .draining .placed with rsl := Rsl.reset, hsq := { Hsq.reset with atReceive := true } }
    ((ended.rcu.mode = .laying ∨ ended.rcu.mode = .draining) ∧ ended.rsl.active = none ∧ ended.btc.train = []
        ∧ ended.hsq.head = .vacant) ∧ ended.hsq.atReceive = true
      ∧ (part .laying).rsl.active ≠ none ∧ (part .laying).rcu.mode ≠ .draining := by decide +kernel

/-- A SUSPENDED routine, with BOOM free and with BOOM busy. -/
theorem test_hypotheses_RunEndsInSettledIdle_resumes :
    let s := { part .draining with dfu := { Dfu.reset with cal := .suspended 7 } }
    s.dfu.cal = .suspended 7 ∧ s.flight boomUnit = none ∧ (part .draining).dfu.cal = .none
      ∧ (flying boomUnit .deploy .rcu s).flight boomUnit ≠ none := by decide +kernel

theorem test_hypotheses_ReportsRepliesAndTheBatch :
    let e := Ev.start (part .laying)
    let near := Ev.start (nearlyChoked (part .laying))
    (e.scp.outbound.length < 32 ∧ e.scp.reportCount < 28 ∧ (e.replyDue = true → e.scp.outbound.length < 31))
      ∧ near.scp.outbound.length = 31 ∧ ({ near with replyDue := true }).scp.outbound.length ≥ 31
      ∧ ¬(choked (part .laying)).scp.outbound.length < 32
      ∧ e.scp.batch = [] ∧ (Scp.reset 115200).config.batch = 1 := by decide +kernel

theorem test_hypotheses_HoldReasonsJoin :
    (part .laying).rcu.mode = .laying ∧ (part .draining).rcu.mode = .draining ∧ (part .holding).rcu.mode = .holding
      ∧ (part .idle).rcu.mode = .idle := by decide +kernel

/-- At the top, below the threshold, at it with the flag set, and at it with the flag clear. -/
theorem test_hypotheses_WearIsCounted :
    let r (value threshold : Nat) (crossed : Bool) : AttrRecord :=
      (State.reset.hmn.live.write .jams ⟨value, threshold, crossed⟩).read .jams
    999999 ≤ (r 999999 50 false).value ∧ (r 48 50 false).value + 1 < (r 48 50 false).threshold
      ∧ ((r 999998 50 true).value < 999999 ∧ (r 999998 50 true).crossed = true)
      ∧ ((r 49 50 false).threshold ≤ (r 49 50 false).value + 1 ∧ (r 49 50 false).crossed = false) := by decide +kernel

theorem test_hypotheses_GoodHostFrameIsOffered :
    let full := queued (List.replicate 4 ⟨1, 0, []⟩) State.reset
    State.reset.scp.rx = .hunt ∧ (List.replicate 1024 (0 : Byte)).length ≤ 1024
      ∧ (queued (List.replicate 3 ⟨1, 0, []⟩) State.reset).scp.commands.length < 4
      ∧ 4 ≤ full.scp.commands.length ∧ (nearlyChoked full).scp.outbound.length < 32
      ∧ 32 ≤ (choked full).scp.outbound.length ∧ 4 ≤ (choked full).scp.commands.length := by decide +kernel

theorem test_hypotheses_HostReceiveErrors :
    State.reset.scp.rx = .hunt ∧ unle [0, 0] ≠ crc16 (le 2 2 ++ [1, 0]) ∧ (1 < 2 ∨ 1026 < 1) ∧ (1027 < 2 ∨ 1026 < 1027)
      ∧ (0x5A : Byte) ≠ 0xA5 ∧ (after (.hostFrame [0xA5]) State.reset).scp.rx ≠ .hunt
      ∧ (let s := after (.hostFrame [0xA5, 2]) State.reset
         let full := queued (List.replicate 4 ⟨1, 0, []⟩) s
         s.scp.rx ≠ .hunt ∧ s.scp.commands.length < 4 ∧ full.scp.rx ≠ .hunt ∧ 4 ≤ full.scp.commands.length
          ∧ (nearlyChoked full).scp.outbound.length < 32 ∧ (nearlyChoked full).scp.rx ≠ .hunt
          ∧ 32 ≤ (choked full).scp.outbound.length ∧ (choked full).scp.rx ≠ .hunt) := by decide +kernel

theorem test_hypotheses_OldestMessageIsSent :
    (nearlyChoked State.reset).scp.outbound = .reply 1 0 .ok [] :: List.replicate 30 (.reply 1 0 .ok [])
      ∧ State.reset.scp.outbound = [] := by decide +kernel

theorem test_hypotheses_CommandWaitsItsTurn :
    let c : HostCommand := ⟨1, 0, []⟩
    let d : HostCommand := ⟨2, 0, []⟩
    let full := queued (List.replicate 4 d) State.reset
    ((choked (queued [c] State.reset)).scp.commands.head? = some c ∧ 32 ≤ (choked (queued [c] State.reset)).scp.outbound.length)
      ∧ (let s := queued [d, d, d] State.reset
         s.scp.commands ≠ [] ∧ s.scp.commands.head? ≠ some c ∧ s.scp.commands.length < 4)
      ∧ (full.scp.commands.head? ≠ some c ∧ 4 ≤ full.scp.commands.length ∧ (nearlyChoked full).scp.outbound.length < 32
         ∧ (choked full).scp.commands.head? ≠ some c ∧ 32 ≤ (choked full).scp.outbound.length)
      -- an empty command queue with no reply place
      ∧ (32 ≤ (choked State.reset).scp.outbound.length ∧ (choked State.reset).scp.commands.head? ≠ some c
         ∧ (choked State.reset).scp.commands.length < 4) := by decide +kernel

/-- A command is taken on an empty command queue, and when it is the oldest one. -/
theorem takes_of (s : State) (c : HostCommand) (h : s.isNext c = true) (h' : s.replyPlace = true) : s.takes c := ⟨h, h'⟩

theorem test_hypotheses_IdqReturnsIdentity :
    (part .idle).takes ⟨0x01, 0, []⟩ ∧ (nearlyChoked (queued [⟨1, 9, [3]⟩, ⟨2, 0, []⟩] (part .stowed))).takes ⟨0x01, 9, [3]⟩ := by
  unfold State.takes; decide +kernel

theorem test_hypotheses_QueriesAndUnknownChangeNothing :
    let s := part .laying
    s.takes ⟨0x03, 0, []⟩ ∧ s.takes ⟨0x13, 0, []⟩ ∧ s.takes ⟨0x28, 0, 0 :: [0, 0, 0, 0, 0]⟩
      ∧ s.takes ⟨0x28, 0, 1 :: [0, 0, 0, 0, 0]⟩ ∧ s.takes ⟨0x28, 0, 4 :: []⟩ ∧ 4 ≤ (4 : Byte).toNat
      ∧ s.takes ⟨0x29, 0, []⟩ ∧ (0x29 : Byte) ∉ Instr.commandKinds := by unfold State.takes; decide +kernel

theorem test_hypotheses_PrdReadsTheSlots :
    let s := part .laying
    s.takes ⟨0x17, 0, le 2 1008 ++ [16]⟩ ∧ (1 ≤ (16 : Byte).toNat ∧ (16 : Byte).toNat ≤ 16 ∧ 1008 + (16 : Byte).toNat ≤ 1024)
      ∧ s.takes ⟨0x17, 0, le 2 1009 ++ [16]⟩ ∧ 1024 < 1009 + (16 : Byte).toNat := by unfold State.takes; decide +kernel

theorem test_hypotheses_StqReadsAndZeroesCounters : (part .laying).takes ⟨0x02, 0, []⟩ := by
  unfold State.takes; decide +kernel

theorem test_hypotheses_CfgSetsOneItem :
    (part .idle).takes ⟨0x04, 0, 10 :: (le 2 10 ++ [])⟩ ∧ (part .idle).settledIdle = true
      ∧ (part .holding).takes ⟨0x04, 0, 3 :: (le 2 101 ++ [])⟩ ∧ (part .holding).rcu.mode = .holding
      ∧ (10 ∈ [1, 2, 4, 6, 10]) ∧ ¬(2 ≤ 101 ∧ 101 ≤ 100) ∧ (3 : Nat) ≠ 10 ∧ (3 : Nat) ∉ [1, 2, 4, 6, 10]
      -- ALTERNATE and KEEP with the value 2, the choice of log entry 15, and with 1
      ∧ (part .idle).takes ⟨0x04, 0, 2 :: (le 2 2 ++ [])⟩ ∧ ((2 : Byte).toNat ∈ [1, 2, 11] ∧ ¬2 ≤ 1)
      ∧ (part .idle).takes ⟨0x04, 0, 11 :: (le 2 2 ++ [])⟩ ∧ ((11 : Byte).toNat ∈ [1, 2, 11] ∧ 1 ≤ 1) := by
  unfold State.takes; decide +kernel

/-- The choice of log entry 15 at work: CFG of ALTERNATE with the value 2 is refused with RANGE. -/
theorem test_cfg_alternate_two_refused :
    exec (.cfg 0 [2, 2, 0]) (part .idle) = .next ((part .idle).answered ⟨0x04, 0, [2, 2, 0]⟩ .range []) := rfl

/-- A mode for each clause. -/
theorem test_hypotheses_ModeCheck :
    (part .laying).settledIdle = false ∧ (part .laying).rcu.mode ≠ .holding ∧ (part .laying).takes ⟨0x04, 0, []⟩
      ∧ [(2 : Byte)].head? = some 2 ∧ [(3 : Byte)].head? = some 3
      ∧ (part .stowed).rcu.mode = .stowed ∧ (part .stowed).takes ⟨0x12, 0, []⟩
      ∧ (part .aborted).rcu.mode = .aborted ∧ (part .aborted).takes ⟨0x20, 0, []⟩
      ∧ ({ part .idle with rcu := { Rcu.reset with deploy := true } } : State).takes ⟨0x20, 0, []⟩
      ∧ (part .draining).takes ⟨0x20, 0, []⟩ ∧ (part .draining).takes ⟨0x21, 0, []⟩ ∧ (part .idle).takes ⟨0x22, 0, []⟩
      ∧ (part .idle).takes ⟨0x23, 0, []⟩ ∧ (part .holding).rcu.holds.inspect = false
      ∧ (part .holding).takes ⟨0x24, 0, []⟩ := by unfold State.takes; decide +kernel

/-- The longest payload that is still too short, in a mode that takes the command. -/
theorem test_hypotheses_ModeCheck_short :
    let p (n : Nat) : List Byte := List.replicate n 0
    let inspecting : State := { part .holding with rcu := { (part .holding).rcu with
      holds := { (part .holding).rcu.holds with inspect := true } } }
    ((part .idle).settledIdle = true ∧ (part .idle).takes ⟨0x10, 0, p 5⟩ ∧ (part .idle).takes ⟨0x11, 0, p 0⟩
        ∧ (part .idle).takes ⟨0x14, 0, p 2⟩ ∧ (part .idle).takes ⟨0x1A, 0, p 13⟩ ∧ (part .idle).takes ⟨0x27, 0, p 0⟩)
      ∧ ((part .laying).rcu.mode ≠ .stowed ∧ (part .laying).takes ⟨0x12, 0, p 2⟩ ∧ (part .laying).takes ⟨0x16, 0, p 30⟩
        ∧ (part .laying).takes ⟨0x18, 0, p 8⟩ ∧ (part .laying).takes ⟨0x19, 0, p 1⟩ ∧ (part .laying).takes ⟨0x17, 0, p 2⟩)
      ∧ ((part .idle).takes ⟨0x04, 0, p 2⟩ ∧ (part .holding).takes ⟨0x28, 0, 2 :: p 4⟩
        ∧ (part .laying).takes ⟨0x28, 0, p 5⟩ ∧ (p 5).head? ≠ some 2 ∧ (p 5).head? ≠ some 3)
      ∧ (part .holding).takes ⟨0x23, 0, p 0⟩ ∧ (part .aborted).takes ⟨0x23, 0, p 0⟩
      ∧ (inspecting.rcu.mode = .holding ∧ inspecting.rcu.holds.inspect = true ∧ inspecting.takes ⟨0x24, 0, p 1⟩) := by
  unfold State.takes; decide +kernel

/-- An empty plan in settled IDLE, at the edges of each check of PART. -/
theorem test_hypotheses_PartSetsThePartition :
    State.reset.takes ⟨0x10, 0, le 2 256 ++ (le 2 512 ++ (le 2 256 ++ []))⟩ ∧ State.reset.settledIdle = true
      ∧ State.reset.pls.plan = [] ∧ 256 + 512 + 256 = 1024 ∧ (257 > 256 ∨ 63 < 64) ∧ 64 + 895 + 64 ≠ 1024
      ∧ (part .idle).takes ⟨0x10, 0, []⟩ ∧ (part .idle).pls.plan ≠ []
      ∧ (part .laying).takes ⟨0x10, 0, []⟩ ∧ (part .laying).settledIdle = false := by unfold State.takes; decide +kernel

theorem test_hypotheses_ClsWritesRecords :
    (part .idle).takes ⟨0x11, 0, 31 :: []⟩ ∧ (part .idle).settledIdle = true ∧ (31 : Byte).toNat ≤ 31
      ∧ 31 < (32 : Byte).toNat ∧ (0 < 10 ∧ (∀ i ∈ [List.replicate 10 (0 : Byte)], i.length = 10) ∧ [(0 : Byte)].length < 10)
      -- a record that fits, one that conflicts with the brick of class 0, and one that does not fit
      ∧ (let r : ClassRecord := ⟨6000, 200, 200, 7, 3, false, true⟩
         let p := (part .idle).pls
         (200 ≤ r.height ∧ r.length ≤ 6000 ∧ r.width ≤ r.length ∧ r.lane ≤ 7 ∧ 1 ≤ r.glue ∧ r.glue ≤ 3)
         ∧ (p.writeClasses [r] 31 0).2 = (1, .ok) ∧ (p.writeClasses [{ r with defined := false }] 0 0).2 = (0, .cls)
         ∧ (p.writeClasses [{ r with length := 199 }] 31 0).2 = (0, .range)) := by unfold State.takes; decide +kernel

theorem test_hypotheses_LaneAndBinSetTheirCounts :
    (part .laying).takes ⟨0x12, 0, 7 :: (le 2 999 ++ [])⟩ ∧ (part .laying).rcu.mode ≠ .stowed ∧ (7 : Byte).toNat ≤ 7
      ∧ 7 < (8 : Byte).toNat ∧ 999 < 1000 ∧ (part .aborted).takes ⟨0x26, 0, []⟩ ∧ (part .aborted).rcu.mode ≠ .stowed
      ∧ (part .stowed).takes ⟨0x12, 0, []⟩ ∧ (part .stowed).takes ⟨0x26, 0, []⟩ ∧ (part .stowed).rcu.mode = .stowed := by
  unfold State.takes; decide +kernel

theorem test_hypotheses_CeilSetsOrFreezes :
    let s := { part .idle with rcu := { Rcu.reset with marker := some 0x13 } }
    s.takes ⟨0x14, 0, [96, 1, 0]⟩ ∧ s.settledIdle = true ∧ s.rcu.marker = some 0x13 ∧ s.pls.frozen = false
      ∧ (96 : Byte).toNat ≤ 96 ∧ 96 < (97 : Byte).toNat
      ∧ ({ s.pls with frozen := true } : Pls).frozen = true
      ∧ (part .laying).takes ⟨0x14, 0, [0, 0, 1]⟩ ∧ (part .laying).settledIdle = false
      ∧ (part .idle).takes ⟨0x14, 0, [0, 0, 1]⟩ ∧ (part .idle).rcu.marker ≠ some 0x13 ∧ (2 : Byte) ≠ 1 := by
  unfold State.takes; decide +kernel

theorem test_hypotheses_EntryChecksAndWriting :
    let f : EntryFields := ⟨63, 255, 4095, 0, ⟨0, 0, 0, 17999⟩, some 1999, 0, [], ⟨false, false, false⟩⟩
    f.marks.skip = false ∧ ({ f with marks := ⟨false, true, false⟩ } : EntryFields).marks.skip = true
      ∧ ({ f with station := 0 } : EntryFields).station = (part .laying).rcu.station
      ∧ (part .laying).pls.entryStatus 65 f = .ok
      ∧ (part .laying).pls.entryStatus 65 { f with cut := some 2000 } = .range := by decide +kernel

/-- A ring with one place left, and one more item than it holds; a slot of the ring with a PLANNED entry, a vacant Lead
slot, a Run slot outside the ring, and an entry that is not PLANNED. -/
theorem test_hypotheses_PapAndPldLoadEntries :
    let item : List Byte := [0, 1, 5, 0, 0] ++ List.replicate 24 0
    let s := part .laying
    s.takes ⟨0x15, 0, item⟩ ∧ s.rcu.mode ≠ .stowed ∧ (completeItems 29 item).length = 1
      ∧ ({ s.pls with ringCount := 895 } : Pls).ringCount + 1 ≤ s.pls.run
      ∧ s.pls.run < ({ s.pls with ringCount := 896 } : Pls).ringCount + 1
      ∧ s.pls.entryStatus 65 (EntryFields.ofBytes item) = .ok
      ∧ item.length = 29 ∧ s.takes ⟨0x16, 0, le 2 64 ++ (item ++ [])⟩ ∧ s.pls.region 64 = .run
      ∧ s.pls.insideRing 64 = true ∧ s.entryAt 64 = some (brick 1 .planned) ∧ (brick 1 .planned).state = .planned
      ∧ s.pls.insideRing 65 = false ∧ s.pls.region 65 = .run ∧ s.pls.region 63 = .lead ∧ s.entryAt 63 = none
      ∧ (brick 1 .placed).state ≠ .planned ∧ 1023 < 1024 := by unfold State.takes; decide +kernel

theorem test_hypotheses_EntryFieldsReadBack :
    let f : EntryFields := ⟨255, 255, 65535, 255, ⟨-2147483648, 2147483647, 0, -32768⟩, some 65535, 3, [1023, 0, 65535],
      ⟨true, true, true⟩⟩
    f.station < 256 ∧ f.seq < 65536 ∧ f.bearerCount < 256 ∧ -2147483648 ≤ f.target.x ∧ f.target.y ≤ 2147483647
      ∧ -32768 ≤ f.target.yaw ∧ (∀ n ∈ f.cut.toList, 0 < n ∧ n < 65536) ∧ f.bearers = [1023, 0, 65535].take f.bearerCount := by
  decide +kernel

theorem test_hypotheses_MarkChangesMatchingEntries :
    (part .laying).takes ⟨0x18, 0, le 2 0 ++ (le 2 1023 ++ 31 :: 0 :: 7 :: 2 :: 3 :: [])⟩
      ∧ (part .laying).rcu.mode ≠ .stowed ∧ (3 : Byte).toNat ≤ 3 ∧ 3 < (4 : Byte).toNat ∧ (31 : Byte).toNat ≤ 31
      ∧ 31 < (32 : Byte).toNat := by unfold State.takes; decide +kernel

/-- A MARK that skips the brick reports its slot, replies, and then ends the course (R25, R46). -/
theorem test_markSkips : (after (.mark 0 (le 2 0 ++ le 2 1023 ++ [0, 1, 2, 2, 1])) (part .idle)).scp.outbound =
    [.report 0 (.skipped [64]), .report 1 (.course 0 1 0 1 0), .reply 0x18 0 .ok [1, 0]] := by decide +kernel

theorem test_hypotheses_RearmReturnsFaultedEntry :
    let s := part .laying .faulted
    s.takes ⟨0x19, 0, le 2 64 ++ []⟩ ∧ s.rcu.mode ≠ .stowed ∧ s.entryAt 64 = some (brick 1 .faulted)
      ∧ (brick 1 .faulted).state = .faulted ∧ s.entryAt 1023 = none ∧ 1023 < 1024
      ∧ (part .stowed).takes ⟨0x19, 0, le 2 64 ++ []⟩ ∧ (part .stowed).rcu.mode = .stowed := by
  unfold State.takes; decide +kernel

/-- The brick PLANNED, with and without the waive flag; and a plan with nothing unresolved. -/
theorem test_hypotheses_AdvTakesTheNextStation :
    let unresolved (s : State) := s.pls.plan.filter fun p : Nat × Entry =>
      decide (p.2.station = s.rcu.station ∧ (p.2.state = EntryState.planned ∨ p.2.state = EntryState.faulted))
    let payload (w : Bool) : List Byte := 63 :: (le32s (-2147483648) ++ (le32s 2147483647 ++ (le32s 0 ++ flagByte w :: [])))
    (part .idle).takes ⟨0x1A, 0, payload false⟩ ∧ (part .idle).takes ⟨0x1A, 0, payload true⟩
      ∧ (part .idle).settledIdle = true ∧ (63 : Byte).toNat ≤ 63 ∧ 63 < (64 : Byte).toNat ∧ unresolved (part .idle) ≠ []
      ∧ unresolved (part .idle .placed) = [] := by unfold State.takes; decide +kernel

theorem test_hypotheses_RetirementVacatesResolvedEntries :
    (part .idle .placed).pls.sound ∧ ((part .idle .placed).pls.retire 0).2 = [64] ∧ ((part .idle).pls.retire 0).2 = []
      ∧ (part .idle .placed).pls.region 64 = .run ∧ (part .idle .placed).pls.region 65 = .run := by
  unfold Pls.sound; decide +kernel

theorem test_hypotheses_GoDeploysOrResumes :
    let s := { part .idle with dfu := { Dfu.reset with valid := true } }
    let worn := { s with hmn := { s.hmn with live := s.hmn.live.write .glueFaults ⟨20, 20, true⟩ } }
    s.takes ⟨0x20, 0, []⟩ ∧ s.settledIdle = true ∧ (part .idle).dfu.valid = false ∧ s.dfu.valid = true
      ∧ ([Attr.glueFaults, .pressCutoffs].filter fun a => (s.hmn.live.read a).crossed) = []
      ∧ ([Attr.glueFaults, .pressCutoffs].filter fun a => (worn.hmn.live.read a).crossed) ≠ []
      ∧ s.flight boomUnit = none ∧ (flying boomUnit (.slew ⟨0, 0, 0, 0⟩ .full) .dfu s).flight boomUnit ≠ none
      ∧ (part .holding).takes ⟨0x20, 0, []⟩ ∧ (part .holding).rcu.holds = .none
      ∧ (let full (n : Nat) : State := { gripped .dumping (part .holding) with btc := { Btc.reset with bin := n } }
        (full 24).takes ⟨0x20, 0, []⟩ ∧ (full 24).rcu.holds = .none ∧ (full 24).hsq.head = .dumping ∧ 24 ≤ (full 24).btc.bin
          ∧ (∀ u ∈ [boomUnit, wristUnit, gripperUnit, pressUnit, chuteUnit], (full 24).flight u = none)
          ∧ ¬24 ≤ (full 23).btc.bin)
      ∧ HoldSet.none.put .jam true ≠ .none := by unfold State.takes; decide +kernel

/-- A head state for each clause. -/
theorem test_hypotheses_HeadResumesByState :
    let s := part .laying .inTrain
    let e (h : HeadState) := Ev.start (gripped h s)
    s.running = true ∧ s.hsq.head = .vacant ∧ s.hsq.atReceive = false ∧ s.flight boomUnit = none
      ∧ (∀ h ∈ [HeadState.gripping, .approaching, .releasing, .retracting], (e h).hsq.orderSent = false)
      ∧ (e .approaching).headEntry = some (brick 1 .inTrain) ∧ (e .settling).trk.locked = true
      ∧ ({ e .lockHold with trk := Trk.reset } : Ev).trk.locked = false ∧ (e .dumping).headBusy = false
      ∧ (e .dumping).btc.bin < 24 ∧ (e .dumping).flight chuteUnit = none
      ∧ (flying chuteUnit .dump .hsq (gripped .dumping s)).headBusy = true
      ∧ 24 ≤ ({ s.btc with bin := 24 } : Btc).bin ∧ (e .pressing).hsq.head = .pressing
      ∧ (e .measuring).hsq.head = .measuring
      ∧ (flying gripperUnit .take .hsq { gripped .gripping s with hsq := { s.hsq with head := .gripping, orderSent := true } }).hsq.orderSent
          = true := by decide +kernel

theorem test_hypotheses_HaltAndAbort :
    (part .laying).takes ⟨0x21, 0, []⟩ ∧ (part .laying).rcu.mode = .laying ∧ (part .holding).takes ⟨0x21, 0, []⟩
      ∧ (carried 3 .leaving (part .draining .inTrain)).takes ⟨0x22, 0, []⟩
      ∧ (carried 3 .leaving (part .draining .inTrain)).rcu.mode = .draining
      ∧ (carried 3 .leaving (part .draining .inTrain)).reserved 4 = true := by unfold State.takes; decide +kernel

/-- Two berths stranded and one named, the last one named, and a berth that is none. -/
theorem test_hypotheses_ClearAndAccept :
    let s (m : Mode) := { part m with rcu := { Rcu.reset with
      mode := m, stranded := [3, 9], holds := HoldSet.none.put .inspect true, inspects := [64, 1023] } }
    (s .holding).takes ⟨0x23, 0, 0 :: [9]⟩ ∧ (s .holding).rcu.mode = .holding ∧ (s .aborted).rcu.mode = .aborted
      ∧ ((s .holding).rcu.stranded.filter fun b => decide (b ∉ [(9 : Byte)].map (·.toNat))) ≠ []
      ∧ ((s .aborted).rcu.stranded.filter fun b => decide (b ∉ List.range 10)) = [] ∧ (s .aborted).takes ⟨0x23, 0, 1 :: []⟩
      ∧ ((2 : Byte) ≠ 0 ∧ (2 : Byte) ≠ 1) ∧ 9 < (10 : Byte).toNat
      ∧ (s .holding).takes ⟨0x24, 0, le 2 1023 ++ []⟩ ∧ (s .holding).rcu.holds.inspect = true
      ∧ 1023 ∈ (s .holding).rcu.inspects ∧ 65 ∉ (s .holding).rcu.inspects
      ∧ (part .idle).takes ⟨0x23, 0, [0]⟩ ∧ (part .idle).rcu.mode ≠ .holding ∧ (part .idle).rcu.mode ≠ .aborted
      ∧ (part .holding).takes ⟨0x24, 0, []⟩ ∧ (part .holding).rcu.holds.inspect = false := by unfold State.takes; decide +kernel

theorem test_hypotheses_StowFoldsTheBoom :
    (part .idle).takes ⟨0x25, 0, []⟩ ∧ (part .idle).settledIdle = true ∧ (part .idle).flight boomUnit = none
      ∧ (flying boomUnit (.slew ⟨0, 0, 0, 0⟩ .full) .dfu (part .idle)).flight boomUnit ≠ none := by
  unfold State.takes; decide +kernel

theorem test_hypotheses_CalStartsAndCancels :
    (part .idle).takes ⟨0x27, 0, 0 :: []⟩ ∧ (part .idle).takes ⟨0x27, 0, 1 :: []⟩ ∧ (part .idle).takes ⟨0x27, 0, 2 :: []⟩
      ∧ (part .idle).settledIdle = true ∧ (part .idle).flight boomUnit = none
      ∧ (∃ k, CalState.running 7 = .running k) ∧ ¬(∃ k, CalState.none = .running k ∨ CalState.none = .suspended k) :=
  ⟨takes_of _ _ (by decide +kernel) (by decide +kernel), takes_of _ _ (by decide +kernel) (by decide +kernel),
    takes_of _ _ (by decide +kernel) (by decide +kernel), by decide +kernel, by decide +kernel, ⟨7, rfl⟩, by simp⟩

theorem test_hypotheses_SoftResetDropsTheRun :
    (carried 3 .ready (part .holding .inTrain)).takes ⟨0x05, 0, []⟩ ∧ (part .stowed).takes ⟨0x05, 0, []⟩
      -- the sound and orderly state of test_hypotheses_StepKeepsSound_orderly, its active course up to date
      ∧ (let s := flying 0 (.load 0) .rsl (carried 0 .working (part .laying .inTrain))
         s.takes ⟨0x05, 0, []⟩ ∧ s.lowestCourse = s.rsl.active) := by
  unfold State.takes; decide +kernel

theorem test_hypotheses_PowerOnAndHardReset :
    (Instr.powerOn = Instr.powerOn ∨ Instr.powerOn = Instr.hardReset)
      ∧ (Instr.hardReset = Instr.powerOn ∨ Instr.hardReset = Instr.hardReset) := ⟨.inl rfl, .inr rfl⟩

/-- Two counts at their thresholds in the store: their HEALTH reports carry 0 and 1 after a reset (R187, R195). -/
theorem test_powerOnReports :
    let s := { part .idle with
      hmn := ⟨.loaded .neverSaved, { Attrs.neverSaved with sawCuts := ⟨4000, 4000⟩, rejects := ⟨301, 300⟩ }⟩ }
    outboundAfter (.powerOn false false) s =
      [.report 0 (.health .sawCuts 4000 4000 .load), .report 1 (.health .rejects 301 300 .load)]
      ∧ (after (.powerOn false false) s).scp.sequence = 2 := by decide +kernel

theorem test_hypotheses_HealthThresholdAndReset :
    (part .idle).settledIdle = true ∧ (part .holding).rcu.mode = .holding
      ∧ (part .idle).takes ⟨0x28, 0, 2 :: 7 :: (le 4 999999 ++ [])⟩ ∧ Attr.ofNumber (7 : Byte).toNat = some .rejects
      ∧ Attr.ofNumber (8 : Byte).toNat = none ∧ Attr.ofNumber (0 : Byte).toNat = none ∧ 999999 < 1000000
      -- a threshold just met, just missed and switched off, by a count of 20
      ∧ (decide ((20 : Nat) ≠ 0 ∧ 20 ≤ 20) = true ∧ decide ((21 : Nat) ≠ 0 ∧ 21 ≤ 20) = false
        ∧ decide ((0 : Nat) ≠ 0 ∧ 0 ≤ 20) = false)
      ∧ (part .holding).takes ⟨0x28, 0, 3 :: 1 :: [0, 0, 0, 0]⟩ ∧ 4 ≤ ([0, 0, 0, 0] : List Byte).length := by
  unfold State.takes; decide +kernel

/-- The order the helper puts in flight is awaited with tag 7. -/
theorem flying_awaits (u : Nat) (o : Order) (q : Requester) (s : State) : (flying u o q s).awaits u 7 o q :=
  ⟨0, by simp [flying, State.flight, Table.read]⟩

theorem test_hypotheses_WorkEndsAtTheBerth :
    let s := part .laying .inTrain
    (flying pickUnit (.load 0) .rsl (carried 0 .working s)).awaits pickUnit 7 (.load 0) .rsl
      ∧ (carried 0 .working s).carrierAt 0 = some ⟨0, 64, .working, none, false, none⟩
      ∧ (flying sawUnit (.cut 400) .btc (carried 1 .working s)).awaits sawUnit 7 (.cut 400) .btc
      ∧ (carried 1 .working s).carrierAt 1 = some ⟨0, 64, .working, none, false, none⟩
      ∧ (flying glueUnit (.glue 3) .btc (carried 2 .working s)).awaits glueUnit 7 (.glue 3) .btc
      ∧ (carried 2 .working s).carrierAt 2 = some ⟨0, 64, .working, none, false, none⟩ :=
  ⟨flying_awaits .., by decide +kernel, flying_awaits .., by decide +kernel, flying_awaits .., by decide +kernel⟩

/-- A glued carrier in berth 3 and one in the head; the head waiting with no order in flight and with TRIM in flight. -/
theorem test_hypotheses_CascadeAndExpiry :
    let s := part .laying .inTrain
    let glued (b : Nat) (r : Option Reason) (t : State) :=
      { t with btc := { t.btc with train := [(b, ⟨0, 64, .working, some 90000, false, r⟩)] } }
    (glued 3 none s).carrierAt 3 = some ⟨0, 64, .working, some 90000, false, none⟩
      ∧ (glued 3 (some .orphan) s).carrierAt 3 = some ⟨0, 64, .working, some 90000, false, some .orphan⟩
      ∧ (glued 9 none (gripped .settling s)).carrierAt 9 = some ⟨0, 64, .working, some 90000, false, none⟩
      ∧ (gripped .settling s).hsq.head = .settling ∧ (gripped .pressing s).hsq.head = .pressing
      ∧ (gripped .settling s).headBusy = false
      ∧ (flying wristUnit (.trim 1 0 0 0) .hsq (gripped .settling s)).flight wristUnit = some ⟨.trim 1 0 0 0, 7, .hsq, 0⟩ := by
  decide +kernel

theorem test_hypotheses_RemovalsAndJams :
    let s := part .laying .inTrain
    (flying pickUnit (.load 7) .rsl (carried 0 .working s)).awaits pickUnit 7 (.load 7) .rsl
      ∧ (carried 0 .working s).carrierAt 0 ≠ none ∧ (2 : Byte) ≠ 1
      ∧ (flying (xferUnit 8) .move .btc (carried 8 .leaving s)).awaits (xferUnit 8) 7 .move .btc
      ∧ (carried 8 .leaving s).carrierAt 8 ≠ none
      ∧ (flying gripperUnit .take .hsq (gripped .gripping s)).awaits HeadUnit.gripper.number 7 .take .hsq ∧ (4 : Byte) ≠ 5
      ∧ (gripped .gripping s).carrierAt 9 ≠ none ∧ s.carrierAt 9 = none :=
  ⟨flying_awaits .., by decide +kernel, by decide, flying_awaits .., by decide +kernel, flying_awaits .., by decide,
    by decide +kernel, by decide +kernel⟩

/-- MOVE from PICK, from SAW, from a shuttle and into the head. -/
theorem test_hypotheses_MoveDoneArrives :
    let s := part .laying .inTrain
    (∀ b ∈ [0, 1, 7, 8], (flying (xferUnit b) .move .btc (carried b .leaving s)).flight (xferUnit b) = some ⟨.move, 7, .btc, 0⟩
        ∧ (carried b .leaving s).carrierAt b = some ⟨0, 64, .leaving, none, false, none⟩)
      ∧ s.entryAt 64 = some (brick 1 .inTrain) ∧ s.running = true ∧ s.flight sawUnit = none ∧ s.flight glueUnit = none
      ∧ s.flight gripperUnit = none ∧ (part .holding).running = false := by decide +kernel

/-- Each order in flight, each timer running, with and without a dump pending. -/
theorem test_hypotheses_HeadTakesAndTrims :
    let s := part .laying .inTrain
    let pending (t : State) : State := { t with hsq := { t.hsq with dumpPending := true } }
    (flying gripperUnit .take .hsq (gripped .gripping s)).awaits gripperUnit 7 .take .hsq
      ∧ (flying boomUnit (.slew ⟨0, 0, 0, 0⟩ .full) .hsq (gripped .approaching s)).awaits boomUnit 7 (.slew ⟨0, 0, 0, 0⟩ .full) .hsq
      ∧ (flying wristUnit (.trim 1 2 3 4) .hsq (gripped .settling s)).awaits wristUnit 7 (.trim 1 2 3 4) .hsq
      ∧ ((gripped .gripping s).hsq.dumpPending = false ∧ (pending (gripped .gripping s)).hsq.dumpPending = true
        ∧ (gripped .gripping s).headEntry = some (brick 1 .inTrain) ∧ (gripped .gripping s).running = true
        ∧ (gripped .gripping (part .holding)).running = false
        ∧ (gripped .gripping s).carrierAt 9 = some ⟨0, 64, .working, none, false, none⟩
        ∧ (gripped .approaching s).hsq.head = .approaching ∧ (gripped .approaching s).trk.locked = true
        ∧ s.trk.locked = false ∧ (gripped .settling s).hsq.head = .settling ∧ (gripped .dumping s).hsq.head = .dumping
        ∧ (gripped .gustHold s).hsq.head = .gustHold ∧ (Ev.start (gripped .gustHold s)).headBusy = false
        ∧ (gripped .gustHold s).btc.bin < 24 ∧ (gripped .gustHold s).flight chuteUnit = none)
      ∧ ({ s.hsq with gustTimer := some (0, 1000) } : Hsq).gustTimer = some (0, 1000)
      ∧ ({ s.hsq with lockHoldTimer := some 0 } : Hsq).lockHoldTimer = some 0 :=
  ⟨flying_awaits .., flying_awaits .., flying_awaits .., by decide +kernel, rfl, rfl⟩

/-- Residuals at the edge of each clause: on target, at the tolerance, one past it, at the gross error and one past it;
the yaw wraps; and what decides a press. -/
theorem test_hypotheses_FramesAtTheHead :
    let e (h : HeadState) := Ev.start (gripped h (part .laying .inTrain))
    (e .settling).headEntry = some (brick 1 .inTrain) ∧ (e .settling).hsq.latch = some ⟨5, 15, 10⟩
      ∧ ((-18000 : Int) ≤ -18000 ∧ (-18000 : Int) - 0 = -18000 + 36000 * 0)
      ∧ ((17999 : Int) ≤ 17999 ∧ (-18000 : Int) - 1 = 17999 + 36000 * (-1))
      ∧ (400 < |(401 : Int)| ∧ ¬400 < |(400 : Int)| ∧ |(15 : Int)| ≤ 15 ∧ ¬|(16 : Int)| ≤ 15)
      ∧ (e .settling).rcu.mode = .laying ∧ (e .settling).flight wristUnit = none
      ∧ ({ (e .settling).hsq with settleCount := 4 } : Hsq).settleCount + 1 = 5
      ∧ (e .settling).trk.locked = true ∧ (e .settling).hsq.lockout = none ∧ (e .settling).carrierAt 9 ≠ none
      ∧ (e .settling).flight pressUnit = none ∧ (∀ slot ∈ (brick 1 .inTrain).bearers, False)
      ∧ ({ (e .gustHold).hsq with gustRun := 2 } : Hsq).gustRun + 1 = 3 ∧ (e .readyToPress).hsq.head = .readyToPress
      ∧ (e .measuring).hsq.head = .measuring ∧ (e .measuring).flight gripperUnit = none
      ∧ (e .lockHold).hsq.head = .lockHold ∧ (e .pressing).hsq.head = .pressing ∧ (e .vacant).hsq.head = .vacant
      ∧ State.reset.hsq.head = .vacant ∧ State.reset.headEntry = none ∧ State.reset.rcu.mode = .idle := by
  decide +kernel

theorem test_hypotheses_PressPlacementAndDump :
    let s := part .laying .inTrain
    (flying pressUnit .press .hsq (gripped .pressing s)).awaits pressUnit 7 .press .hsq
      ∧ (flying gripperUnit .openGrip .hsq (gripped .releasing s)).awaits gripperUnit 7 .openGrip .hsq
      ∧ (flying boomUnit (.slew ⟨0, 0, 0, 0⟩ .full) .hsq { s with hsq := { s.hsq with head := .retracting } }).awaits boomUnit 7
          (.slew ⟨0, 0, 0, 0⟩ .full) .hsq
      ∧ (flying chuteUnit .dump .hsq (gripped .dumping s)).awaits chuteUnit 7 .dump .hsq
      ∧ ((flying pressUnit .press .hsq (gripped .pressing s)).flight pressUnit = some ⟨.press, 7, .hsq, 0⟩
        ∧ (gripped .pressing s).headEntry = some (brick 1 .inTrain)
        ∧ (gripped .releasing s).hsq.carrier = some ⟨0, 64, none, false⟩ ∧ s.entryAt 64 = some (brick 1 .inTrain)
        ∧ (gripped .dumping s).carrierAt 9 = some ⟨0, 64, .working, none, false, none⟩
        ∧ ({ s.hsq with measuringTimer := some 0 } : Hsq).measuringTimer = some 0
        ∧ ({ s.hsq with lockout := some 0 } : Hsq).lockout = some 0) :=
  ⟨flying_awaits .., flying_awaits .., flying_awaits .., flying_awaits .., by decide +kernel⟩

/-- The ends of the table, a point of it, and a reach between two points. -/
theorem test_hypotheses_FeedforwardCorrectsTheApproach :
    let d : Dfu := { Dfu.reset with valid := true }
    d.valid = true ∧ Dfu.reset.valid = false ∧ 40000 ≤ 40000 ∧ 250000 = 40000 + 30000 * 7
      ∧ (6 < 7 ∧ 40000 + 30000 * 6 ≤ 249999 ∧ 249999 ≤ 40000 + 30000 * (6 + 1))
      ∧ isqrt ((100000 : Int) ^ 2 + 0 ^ 2).toNat = 100000 ∧ isqrt ((100000 : Int) ^ 2 + 0 ^ 2).toNat ≠ 0 := by
  decide +kernel

theorem test_hypotheses_BoomOrdersEnd :
    let s := part .idle
    let running (k : Nat) (ph : PointPhase) (o : Outstanding) : State :=
      { s with dfu := { Dfu.reset with cal := .running k, phase := ph, slew := o, limitTimer := some 0 } }
    (flying boomUnit .deploy .rcu s).awaits boomUnit 7 .deploy .rcu ∧ (flying boomUnit .fold .rcu s).awaits boomUnit 7 .fold .rcu
      ∧ (flying boomUnit (.slew ⟨0, 0, 0, 0⟩ .full) .dfu (running 7 .slewing .current)).awaits boomUnit 7
          (.slew ⟨0, 0, 0, 0⟩ .full) .dfu
      ∧ ((running 7 .slewing .current).dfu.slew = .current ∧ (running 7 .slewing .current).dfu.cal = .running 7
        ∧ (running 7 .due .abandoned).dfu.slew = .abandoned
        ∧ (flying boomUnit (.slew ⟨0, 0, 0, 0⟩ .full) .dfu s).dfu.slew = .none ∧ (running 0 .due .none).dfu.phase = .due
        ∧ (running 0 .due .none).flight boomUnit = none ∧ (running 7 .sampling .none).dfu.phase = .sampling
        ∧ (running 7 .sampling .none).dfu.limitTimer = some 0
        ∧ (gripped .dumping s).hsq.head = .dumping ∧ ¬24 ≤ s.btc.bin ∧ 24 ≤ ({ s.btc with bin := 24 } : Btc).bin
        ∧ (carried 1 .arriving s).carrierAt 1 = some ⟨0, 64, .arriving, none, false, none⟩
        ∧ (carried 2 .ready s).carrierAt 2 = some ⟨0, 64, .ready, none, false, none⟩ ∧ s.sli.boomWaiting = none
        ∧ s.entryAt 64 = some (brick 1 .planned) ∧ (part .laying).running = true ∧ (part .laying).flight glueUnit = none
        ∧ ({ s.sli with boomWaiting := some .fold } : Sli).boomWaiting = some .fold) :=
  ⟨flying_awaits .., flying_awaits .., flying_awaits .., by decide +kernel⟩

/-- A sample run with one frame less than eight, at the edge of the spread and past it. -/
theorem test_hypotheses_SamplesMakeThePoint :
    let run (n : Nat) (off : Int) : List Sample := List.replicate n ⟨80000, 0, 15000⟩ ++ [⟨80000 + off, 0, 15000⟩]
    ({ Dfu.reset with cal := .running 7 } : Dfu).cal = .running 7 ∧ Dfu.reset.phase ≠ .sampling
      ∧ (∀ c ∈ [CalState.none, .suspended 7, .done, .failed], ∀ k : Fin 8, c ≠ .running k)
      ∧ (∀ a ∈ run 7 5, ∀ b ∈ run 7 5, a.x - b.x ≤ 5 ∧ a.y - b.y ≤ 5 ∧ a.z - b.z ≤ 5)
      ∧ (run 6 5).length < 8 ∧ (run 7 5).length = 8 ∧ ¬(∀ a ∈ run 1 6, ∀ b ∈ run 1 6, a.x - b.x ≤ 5) := by decide +kernel

theorem test_hypotheses_TimeoutsAndStaleCompletions :
    let s := flying pickUnit (.load 0) .rsl (carried 0 .working (part .laying .inTrain))
    s.flight pickUnit = some ⟨.load 0, 7, .rsl, 0⟩ ∧ (Order.load 0).timeout = some 8000 ∧ s.sli.rx = []
      ∧ 16 < (17 : Byte).toNat ∧ s.flight (16 : Byte).toNat = none ∧ (7 : Byte) ≠ 8
      ∧ (0 : Byte).toNat + 256 * (0 : Byte).toNat ≠ crc16 [0, 7, 0, 0] ∧ (List.replicate 255 (0 : Byte)).length < 256 := by
  decide +kernel

/-- A pose at the ends of its fields, read before lock, at the eighth frame, in lock and under the quality floor. -/
theorem test_hypotheses_TrackerFrameIsRead :
    Pose.fits ⟨-2147483648, 2147483647, 0, -18000⟩ ∧ State.reset.trk.framing = .hunt ∧ State.reset.trk.locked = false
      ∧ State.reset.scp.config.qualityFloor ≤ (40 : Byte).toNat ∧ (39 : Byte).toNat < State.reset.scp.config.qualityFloor
      ∧ (gripped .settling (part .laying)).trk.locked = true
      ∧ (let t := { Trk.reset with acquired := 7, expected := some 65535 }
         t.acquired ≠ 0 ∧ t.expected = some (65535 : Word16) ∧ 8 ≤ t.acquired + 1)
      ∧ State.reset.trk.inverted = false
      ∧ (Pose.fits { (⟨1, 2, 3, 18000⟩ : Pose) with yaw := 0 } ∧ (17999 : Int) < 18000 ∧ (18000 : Int) ≤ 32767)
      ∧ (-32768 : Int) ≤ -18001 ∧ (-18001 : Int) < -18000
      ∧ (List.replicate 17 (0 : Byte)).length = 17 ∧ crc8 (List.replicate 17 0) ≠ 1 := by unfold Pose.fits; decide +kernel

theorem test_hypotheses_FramerBytesAndHoldWindow :
    let t := State.reset.trk
    t.framing = .hunt ∧ t.inverted = false ∧ (0xD3 : Byte) ≠ 0x55 ∧ ({ t with framing := .collect, buffer := [0xD3] } : Trk).buffer = [0xD3]
      ∧ (2 ≤ (List.replicate 18 (0 : Byte)).length ∧ (List.replicate 18 (0 : Byte)).length < 19)
      ∧ ({ t with framing := .discard, idleRun := 1 } : Trk).idleRun = 1 ∧ ({ t with framing := .discard } : Trk).idleRun = 0
      ∧ ({ t with window := some 0, windowCount := 6 } : Trk).window = some 0
      ∧ 6 ≤ ({ t with window := some 0, windowCount := 6 } : Trk).windowCount
      ∧ ({ t with window := some 0, windowCount := 5 } : Trk).windowCount < 6 := by decide +kernel

/-- A lock lost in SAMPLING, at attempt 2 and at attempt 3, and one lost in SLEWING. -/
theorem test_hypotheses_FramerBytesAndHoldWindow_sampling :
    let d (attempt : Nat) : Dfu := { Dfu.reset with cal := .running 3, phase := .sampling, attempt := attempt }
    (d 2).cal = .running 3 ∧ (d 2).phase = .sampling ∧ (d 2).attempt < 3 ∧ 3 ≤ (d 3).attempt
      ∧ ({ d 2 with phase := .slewing } : Dfu).phase ≠ .sampling := by decide +kernel

end Sys2Proof.Tests
end

section
/-! PROOFS. The plan table (01_the_plan_table.md): the commands PART, CEIL and PRD. Each proof turns its clause into one
equation of the command's run on `State.taking`; the lemmas on taking and answering a command do the rest. -/

namespace Sys2Proof.Machine

/-! ### Taking a command that changes the state and prompts no test -/

/-- A command that changes the Plan Store alone and is then answered. -/
theorem takeHost_answered_onPls {s : State} {c : HostCommand} {st : Status} {rs : List Byte} {run : Ev → Ev}
    {f : Pls → Pls} (h : s.takes c) (hr : run s.taking = (s.taking.onPls f).reply c st rs) :
    takeHost c run s = { s with pls := f s.pls }.answered c st rs := by
  have room : (s.taking.onPls f).scp.outbound.length < 32 := h.room
  rw [takeHost_taken h, hr, Ev.reply_of_room _ _ _ room, Ev.finish_none _ rfl rfl rfl rfl]
  rfl

@[simp] theorem State.taking_pls (s : State) : s.taking.pls = s.pls := rfl

/-! ### PART (R2) -/

theorem exec_part_eq (tag : Byte) (p : List Byte) (s : State) :
    exec (.part tag p) s = .next (takeHost ⟨0x10, tag, p⟩ (Ev.runPart ⟨0x10, tag, p⟩) s) := rfl

theorem Pls.partStatus_of_occupied {p : Pls} (h : p.plan ≠ []) (l n t : Nat) : p.partStatus l n t = .state := by
  simp [Pls.partStatus, h]

theorem Pls.partStatus_of_outside {p : Pls} (h : p.plan = []) {l n t : Nat} (ho : 256 < l ∨ 256 < t ∨ n < 64) :
    p.partStatus l n t = .range := by
  simp [Pls.partStatus, h, ho]

/-- Once the plan is empty and the counts are in their ranges, the sum decides. -/
theorem Pls.partStatus_of_inside {p : Pls} (h : p.plan = []) {l n t : Nat} (hl : l ≤ 256) (ht : t ≤ 256)
    (hn : 64 ≤ n) : p.partStatus l n t = if l + n + t = 1024 then .ok else .sum := by
  have hin : ¬(256 < l ∨ 256 < t ∨ n < 64) := by omega
  simp [Pls.partStatus, h, hin]

/-- The three counts of a PART payload are read back. -/
theorem u16At_three {l n t : Nat} (hl : l < 65536) (hn : n < 65536) (ht : t < 65536) (rest : List Byte) :
    u16At (le 2 l ++ (le 2 n ++ (le 2 t ++ rest))) 0 = l ∧ u16At (le 2 l ++ (le 2 n ++ (le 2 t ++ rest))) 2 = n
      ∧ u16At (le 2 l ++ (le 2 n ++ (le 2 t ++ rest))) 4 = t :=
  ⟨u16At_le hl _, (u16At_skip 2 l 0 _).trans (u16At_le hn _),
    (u16At_skip 2 l 2 _).trans ((u16At_skip 2 n 0 _).trans (u16At_le ht _))⟩

theorem Ev.runPart_unsettled {e : Ev} (h : e.settledIdle = false) (c : HostCommand) :
    e.runPart c = e.reply c .mode [] := by
  simp [Ev.runPart, Ev.refuse, h]

/-- PART in settled IDLE with its three counts at hand: the status of its checks decides. -/
theorem Ev.runPart_settled {e : Ev} (h : e.settledIdle = true) (tag : Byte) {l n t : Nat} (hl : l < 65536)
    (hn : n < 65536) (ht : t < 65536) (rest : List Byte) :
    let c : HostCommand := ⟨0x10, tag, le 2 l ++ (le 2 n ++ (le 2 t ++ rest))⟩
    e.runPart c =
      if e.pls.partStatus l n t = .ok then
        (e.onPls fun p => { p with lead := l, run := n, tail := t, ringHead := 0, ringCount := 0 }).reply c .ok []
      else e.reply c (e.pls.partStatus l n t) [] := by
  obtain ⟨h0, h2, h4⟩ := u16At_three hl hn ht rest
  have hlen : ¬(le 2 l ++ (le 2 n ++ (le 2 t ++ rest))).length < 6 := by simp; omega
  simp only [Ev.runPart, Ev.refuse, h, hlen, h0, h2, h4, Bool.not_true, Bool.false_eq_true, if_false]

/-- Settles O28: R175's mode check first, then the status of R2's checks decides. -/
theorem partSetsThePartition : Obligations.PartSetsThePartition := by
  intro s tag l n t rest hl hn ht c h
  have run (hs : s.settledIdle = true) := Ev.runPart_settled (e := s.taking) hs tag hl hn ht rest
  have refused {st : Status} (hs : s.settledIdle = true) (hst : s.pls.partStatus l n t = st) (hne : st ≠ .ok) :
      exec (.part tag c.payload) s = .next (s.answered c st []) := by
    subst hst
    rw [exec_part_eq, takeHost_answered h ((run hs).trans (if_neg hne)), State.taking_pls]
  refine ⟨fun hm => ?_, fun hs => ⟨fun hp => ?_, fun hp ho => ?_, fun hp hl' ht' hn' hsum => ?_,
    fun hp hl' ht' hn' hsum => ?_⟩⟩
  · rw [exec_part_eq, takeHost_answered h (Ev.runPart_unsettled hm _)]
  · exact refused hs (Pls.partStatus_of_occupied hp l n t) (by decide)
  · exact refused hs (Pls.partStatus_of_outside hp ho) (by decide)
  · exact refused hs ((Pls.partStatus_of_inside hp hl' ht' hn').trans (if_neg hsum)) (by decide)
  · have hok : s.pls.partStatus l n t = .ok := (Pls.partStatus_of_inside hp hl' ht' hn').trans (if_pos hsum)
    rw [exec_part_eq, takeHost_answered_onPls h ((run hs).trans (if_pos hok))]

/-! ### CEIL (R15, R16) -/

theorem exec_ceilSet_eq (tag : Byte) (p : List Byte) (s : State) :
    exec (.ceilSet tag p) s = .next (takeHost ⟨0x14, tag, p⟩ (Ev.runCeil ⟨0x14, tag, p⟩) s) := rfl

theorem exec_ceilFreeze_eq (tag : Byte) (p : List Byte) (s : State) :
    exec (.ceilFreeze tag p) s = .next (takeHost ⟨0x14, tag, p⟩ (Ev.runCeil ⟨0x14, tag, p⟩) s) := rfl

/-- A flag byte is read back as the flag. -/
theorem flagAt_flagByte (b : Byte) (flag : Bool) (rest : List Byte) : flagAt (b :: flagByte flag :: rest) 1 = flag := by
  cases flag <;> simp [flagAt, byteAt, flagByte]

theorem Ev.runCeil_unsettled {e : Ev} (h : e.settledIdle = false) (c : HostCommand) :
    e.runCeil c = e.reply c .mode [] := by
  simp [Ev.runCeil, Ev.refuse, h]

/-- The marker holds CEILQ: the set form. -/
theorem Ev.runCeil_set {e : Ev} {c : HostCommand} (h : e.settledIdle = true) (hl : 3 ≤ c.payload.length)
    (hm : e.rcu.marker = some 0x13) : e.runCeil c = e.runCeilSetForm c := by
  have hk : e.rcu.marker = some ceilqKind := hm
  simp [Ev.runCeil, h, hk, Nat.not_lt.2 hl]

/-- The marker holds another kind or none: the lock form. -/
theorem Ev.runCeil_lock {e : Ev} {c : HostCommand} (h : e.settledIdle = true) (hl : 3 ≤ c.payload.length)
    (hm : e.rcu.marker ≠ some 0x13) : e.runCeil c = e.runCeilLockForm c := by
  have hk : e.rcu.marker ≠ some ceilqKind := hm
  simp [Ev.runCeil, h, hk, Nat.not_lt.2 hl]

section SetForm

variable {e : Ev} {kind tag v : Byte} {persist : Bool} {rest : List Byte}

theorem Ev.runCeilSetForm_frozen {c : HostCommand} (h : e.pls.frozen = true) :
    e.runCeilSetForm c = e.reply c .frozen [] := by
  simp [Ev.runCeilSetForm, Ev.refuse, h]

theorem Ev.runCeilSetForm_above (h : e.pls.frozen = false) (hv : 96 < v.toNat) :
    e.runCeilSetForm ⟨kind, tag, v :: rest⟩ = e.reply ⟨kind, tag, v :: rest⟩ .range [] := by
  simp [Ev.runCeilSetForm, Ev.refuse, Config.nativeCeiling, h, hv]

theorem Ev.runCeilSetForm_set (h : e.pls.frozen = false) (hv : v.toNat ≤ 96) :
    e.runCeilSetForm ⟨kind, tag, v :: flagByte persist :: rest⟩ =
      (e.onPls fun p => { p with ceiling := v.toNat, storedCeiling := if persist then some v.toNat else none }).reply
        ⟨kind, tag, v :: flagByte persist :: rest⟩ .ok [v] := by
  have hin : ¬96 < v.toNat := Nat.not_lt.2 hv
  simp [Ev.runCeilSetForm, Config.nativeCeiling, h, hin, flagAt_flagByte, byte]

end SetForm

/-- The lock form reads its subcode alone. -/
theorem Ev.runCeilLockForm_eq (e : Ev) (kind tag v flag sub : Byte) (rest : List Byte) :
    let c : HostCommand := ⟨kind, tag, v :: flag :: sub :: rest⟩
    e.runCeilLockForm c =
      if sub = 1 then (e.onPls fun p => { p with frozen := true }).reply c .ok [] else e.reply c .sequence [] := by
  have hsub : byteAt (v :: flag :: sub :: rest) 2 = 1 ↔ sub = 1 := by
    rw [byteAt_cons, byteAt_cons, byteAt_zero]
    exact ⟨BitVec.eq_of_toNat_eq (y := 1), fun h => h ▸ rfl⟩
  simp only [Ev.runCeilLockForm, Ev.refuse, hsub]

/-- Settles O31: both rows run CEIL, the marker chooses the form, and each form has its own checks. -/
theorem ceilSetsOrFreezes : Obligations.CeilSetsOrFreezes := by
  intro s tag v sub persist rest row hrow c h
  have hrun : exec (row tag c.payload) s = .next (takeHost c (Ev.runCeil c) s) := by
    obtain rfl | rfl := hrow
    · exact exec_ceilSet_eq tag _ s
    · exact exec_ceilFreeze_eq tag _ s
  have hl : 3 ≤ c.payload.length := by simp [c]
  have runSet (hs : s.settledIdle = true) (hm : s.rcu.marker = some 0x13) := Ev.runCeil_set (e := s.taking) hs hl hm
  have runLock (hs : s.settledIdle = true) (hm : s.rcu.marker ≠ some 0x13) :=
    (Ev.runCeil_lock (e := s.taking) hs hl hm).trans (Ev.runCeilLockForm_eq _ _ _ _ _ _ _)
  rw [hrun]
  refine ⟨fun hu => ?_, fun hs => ⟨fun hm hf => ?_, fun hm hf hv => ?_, fun hm hf hv => ?_, fun hm hsub => ?_,
    fun hm hsub => ?_⟩⟩
  · rw [takeHost_answered h (Ev.runCeil_unsettled hu c)]
  · rw [takeHost_answered h ((runSet hs hm).trans (Ev.runCeilSetForm_frozen hf))]
  · rw [takeHost_answered h ((runSet hs hm).trans (Ev.runCeilSetForm_above hf hv))]
  · rw [takeHost_answered_onPls h ((runSet hs hm).trans (Ev.runCeilSetForm_set hf hv))]
  · rw [takeHost_answered_onPls h ((runLock hs hm).trans (if_pos hsub))]
  · rw [takeHost_answered h ((runLock hs hm).trans (if_neg hsub))]

/-! ### PRD (R22) -/

theorem exec_prd_eq (tag : Byte) (p : List Byte) (s : State) :
    exec (.prd tag p) s = .next (takeHost ⟨0x17, tag, p⟩ (Ev.runPrd ⟨0x17, tag, p⟩) s) := rfl

/-- PRD with its first slot and its count at hand: the range decides, in every mode. -/
theorem Ev.runPrd_eq (e : Ev) (tag count : Byte) {first : Nat} (hf : first < 65536) (rest : List Byte) :
    let c : HostCommand := ⟨0x17, tag, le 2 first ++ count :: rest⟩
    e.runPrd c =
      if count.toNat < 1 ∨ 16 < count.toNat ∨ 1023 < first ∨ 1024 < first + count.toNat then e.reply c .range []
      else e.reply c .ok ((List.range count.toNat).flatMap fun i => e.pls.slotBytes (first + i)) := by
  have hfirst : u16At (le 2 first ++ count :: rest) 0 = first := u16At_le hf _
  have hcount : byteAt (le 2 first ++ count :: rest) 2 = count.toNat := byteAt_skip 2 first 0 _
  have hlen : ¬(le 2 first ++ count :: rest).length < 3 := by simp; omega
  simp only [Ev.runPrd, Ev.refuse, hfirst, hcount, hlen, if_false]

theorem State.slotBytes_of_vacant {s : State} {slot : Nat} (h : s.entryAt slot = none) :
    s.pls.slotBytes slot = le 2 slot ++ byte (s.pls.region slot).code :: List.replicate 46 0 := by
  have hr : Table.read s.pls.plan slot = none := h
  rw [Pls.slotBytes, hr, vacantBytes]

theorem State.slotBytes_of_entry {s : State} {slot : Nat} {en : Entry} (h : s.entryAt slot = some en) :
    s.pls.slotBytes slot = le 2 slot ++ byte (s.pls.region slot).code :: en.bytes := by
  have hr : Table.read s.pls.plan slot = some en := h
  rw [Pls.slotBytes, hr]

/-- Settles O24: the range decides; the region and the entry of each slot are the bytes written out, by the cases of
the region, of the entry's state and of its outcome. -/
theorem prdReadsTheSlots : Obligations.PrdReadsTheSlots := by
  intro s tag count first rest hf c region code outcome entry h
  have hregion (slot : Nat) : byte (s.pls.region slot).code = region slot := by
    simp only [region]
    cases s.pls.region slot <;> rfl
  have hcode (st : EntryState) : byte st.code = code st := by cases st <;> rfl
  have hentry (en : Entry) : en.bytes = entry en := by
    simp only [entry, ← hcode, Entry.bytes]
    cases en.outcome with
    | none => rfl
    | some o => rfl
  have run := Ev.runPrd_eq s.taking tag count hf rest
  refine ⟨fun ho => ?_, fun h1 h16 hlast => ?_⟩
  · rw [exec_prd_eq, takeHost_answered h (run.trans (if_pos ho))]
  · have hin : ¬(count.toNat < 1 ∨ 16 < count.toNat ∨ 1023 < first ∨ 1024 < first + count.toNat) := by omega
    rw [exec_prd_eq, takeHost_answered h (run.trans (if_neg hin))]
    congr 3
    funext i
    rw [State.taking_pls, ← hregion]
    cases hs : s.entryAt (first + i) with
    | none => exact State.slotBytes_of_vacant hs
    | some en => rw [State.slotBytes_of_entry hs, hentry]

end Sys2Proof.Machine
end

section
/-! PROOFS. The Release Selector (02_release_selection.md): what the candidates are and their lay order (R37), and the
conditions whose failure is a blocking reason (R38 to R41, R48). The lay order is the order of the keys as lists; the
candidates are the insertion sort of the PLANNED entries of the candidate courses by it. -/

namespace Sys2Proof.Machine

/-! ### The candidates in lay order (R37) -/

/-- A candidate course is the active course or, with the lookahead open, the next one (R35). -/
theorem State.isCandidate_iff (s : State) (en : Entry) :
    s.isCandidate en = true ↔ en.state = .planned ∧ en.station = s.rcu.station
      ∧ ∃ a, s.rsl.active = some a ∧ (en.course = a ∨ (s.rsl.lookahead = true ∧ en.course = a + 1)) := by
  cases ha : s.rsl.active with
  | none => simp [State.isCandidate, ha]
  | some a => simp [State.isCandidate, ha, and_assoc]

/-- On keys of one length `keyBefore` is the order of lists. -/
theorem keyBefore_iff_lt : ∀ {as bs : List Int}, as.length = bs.length → (keyBefore as bs = true ↔ as < bs)
  | [], [], _ => by simp [keyBefore]
  | a :: as, b :: bs, h => by
    have ih := keyBefore_iff_lt (as := as) (bs := bs) (by simpa using h)
    simp [keyBefore, List.cons_lt_cons_iff, ih]

theorem State.keyBefore_layKey (s : State) (p q : Nat × Entry) :
    keyBefore (s.layKey p) (s.layKey q) = true ↔ s.layKey p < s.layKey q :=
  keyBefore_iff_lt rfl

theorem State.layInsert_perm (s : State) (p : Nat × Entry) : ∀ l : Table Entry, (s.layInsert p l).Perm (p :: l)
  | [] => .refl _
  | q :: qs => by
    unfold State.layInsert
    split
    · exact .refl _
    · exact ((s.layInsert_perm p qs).cons q).trans (.swap p q qs)

/-- A candidate is put in front of the first one its key precedes. -/
theorem State.layInsert_pairwise (s : State) (p : Nat × Entry) :
    ∀ {l : Table Entry}, l.Pairwise (s.layKey · ≤ s.layKey ·) → (s.layInsert p l).Pairwise (s.layKey · ≤ s.layKey ·)
  | [], _ => List.pairwise_singleton _ p
  | q :: qs, h => by
    obtain ⟨hq, hqs⟩ := List.pairwise_cons.1 h
    unfold State.layInsert
    split
    next hlt =>
      have hpq : s.layKey p ≤ s.layKey q := ((s.keyBefore_layKey p q).1 hlt).le
      refine List.pairwise_cons.2 ⟨fun r hr => ?_, h⟩
      obtain rfl | hr := List.mem_cons.1 hr
      · exact hpq
      · exact hpq.trans (hq r hr)
    next hge =>
      have hqp : s.layKey q ≤ s.layKey p := not_lt.1 fun hlt => hge ((s.keyBefore_layKey p q).2 hlt)
      refine List.pairwise_cons.2 ⟨fun r hr => ?_, s.layInsert_pairwise p hqs⟩
      obtain rfl | hr := s.mem_layInsert p r qs hr
      · exact hqp
      · exact hq r hr

theorem State.foldr_layInsert_perm (s : State) : ∀ l : Table Entry, (l.foldr s.layInsert []).Perm l
  | [] => .refl _
  | p :: l => (s.layInsert_perm p _).trans ((s.foldr_layInsert_perm l).cons p)

theorem State.foldr_layInsert_pairwise (s : State) :
    ∀ l : Table Entry, (l.foldr s.layInsert []).Pairwise (s.layKey · ≤ s.layKey ·)
  | [] => .nil
  | p :: l => s.layInsert_pairwise p (s.foldr_layInsert_pairwise l)

theorem State.mem_candidates_iff (s : State) (p : Nat × Entry) :
    p ∈ s.candidates ↔ p ∈ s.pls.plan ∧ s.isCandidate p.2 = true :=
  (s.foldr_layInsert_perm _).mem_iff.trans List.mem_filter

theorem State.candidates_pairwise (s : State) : s.candidates.Pairwise (s.layKey · ≤ s.layKey ·) :=
  s.foldr_layInsert_pairwise _

theorem Region.code_inj {r t : Region} : r.code = t.code ↔ r = t := by
  cases r <;> cases t <;> decide

/-- Mathlib's order on lists, one place at a time. -/
theorem cons_le_cons_iff_int {a b : Int} {as bs : List Int} : a :: as ≤ b :: bs ↔ a < b ∨ a = b ∧ as ≤ bs := by
  rw [le_iff_lt_or_eq, List.cons_lt_cons_iff, List.cons.injEq, or_assoc, ← and_or_left, ← le_iff_lt_or_eq]

/-- The order of the keys, place by place (R37): in the Run region of a DESC course the higher seq is first, and the
lower slot is first at equal seq in either direction. -/
theorem State.layKey_le_iff (s : State) (p q : Nat × Entry) :
    s.layKey p ≤ s.layKey q ↔ p.2.course < q.2.course ∨ p.2.course = q.2.course ∧
      ((s.pls.region p.1).code < (s.pls.region q.1).code ∨ s.pls.region p.1 = s.pls.region q.1 ∧
        ((if s.pls.region p.1 = .run ∧ s.direction p.2.course = .desc then q.2.seq < p.2.seq
            else p.2.seq < q.2.seq)
          ∨ p.2.seq = q.2.seq ∧ p.1 ≤ q.1)) := by
  have hslot : p.1 < q.1 ∨ p.1 = q.1 ↔ p.1 ≤ q.1 := Nat.le_iff_lt_or_eq.symm
  simp only [State.layKey, cons_le_cons_iff_int, Int.ofNat_lt, Int.ofNat_inj, Region.code_inj, le_refl, and_true, hslot]
  refine or_congr_right (and_congr_right fun hcourse => or_congr_right (and_congr_right fun hregion => ?_))
  rw [← hcourse, ← hregion]
  split <;> simp

/-- Settles O8: the candidates are a permutation of the entries that qualify, sorted by their keys. -/
theorem candidatesInLayOrder : Obligations.CandidatesInLayOrder := fun s =>
  ⟨fun p => (s.mem_candidates_iff p).trans (and_congr_right' (s.isCandidate_iff p.2)),
    s.candidates_pairwise.imp fun h => (s.layKey_le_iff _ _).1 h⟩

/-! ### Eligibility and the blocking reason (R38 to R41, R48) -/

theorem State.plannedIn_iff (s : State) (course : Nat) (r : Region) :
    s.plannedIn course r = true ↔ ∃ p ∈ s.pls.plan,
      p.2.state = .planned ∧ p.2.station = s.rcu.station ∧ p.2.course = course ∧ s.pls.region p.1 = r := by
  simp [State.plannedIn, and_assoc]

/-- The gates of R38: Run waits for Lead, Tail for Lead and Run. -/
theorem State.gateOpen_iff (s : State) (slot course : Nat) :
    let planned (r : Region) := ∃ p ∈ s.pls.plan,
      p.2.state = .planned ∧ p.2.station = s.rcu.station ∧ p.2.course = course ∧ s.pls.region p.1 = r
    s.gateOpen slot course = true ↔ (s.pls.region slot = .run → ¬planned .lead)
      ∧ (s.pls.region slot = .tail → ¬planned .lead ∧ ¬planned .run) := by
  simp only [← State.plannedIn_iff]
  cases h : s.pls.region slot <;> simp [State.gateOpen, h]

/-- The bearer condition of R40, by the state of the bearer's entry. -/
theorem State.bearerMet_iff (s : State) (slot : Nat) :
    s.bearerMet slot = true ↔ ∃ eb, s.entryAt slot = some eb ∧
      (eb.state = .placed ∨ eb.state = .skipped
        ∨ (eb.state = .inTrain ∧ ∃ k ∈ s.btc.train, k.2.slot = slot ∧ k.2.condemned = none)) := by
  cases h : s.entryAt slot with
  | none => simp [State.bearerMet, h]
  | some eb => cases hs : eb.state <;> simp [State.bearerMet, h, hs]

/-- The reach of R41 is compared by exact squares; the square is never negative, so its `toNat` is itself. -/
theorem State.inReach_iff (s : State) (target : Pose) :
    s.inReach target = true ↔
      40000 ^ 2 ≤ (target.x - s.rcu.baseX) ^ 2 + (target.y - s.rcu.baseY) ^ 2
      ∧ (target.x - s.rcu.baseX) ^ 2 + (target.y - s.rcu.baseY) ^ 2 ≤ 250000 ^ 2 := by
  have hsquare : (s.reachSquared target : Int) = (target.x - s.rcu.baseX) ^ 2 + (target.y - s.rcu.baseY) ^ 2 := by
    rw [State.reachSquared, ← sq, ← sq]
    exact Int.toNat_of_nonneg (by positivity)
  rw [← hsquare]
  simp only [State.inReach, Bool.and_eq_true, decide_eq_true_eq]
  rw [Config.reachLow, Config.reachHigh]
  omega

theorem State.meets_sawWorn_iff (s : State) (p : Nat × Entry) :
    s.meets p .sawWorn = true ↔ p.2.cut = none ∨ s.hmn.live.sawCuts.crossed = false := by
  simp [State.meets, State.sawWorn]

/-- The search for the first failing test, one test at a time. -/
theorem find?_not_cons {α : Type} (f : α → Bool) (a : α) (l : List α) :
    ((a :: l).find? fun b => !f b) = if f a = false then some a else l.find? fun b => !f b := by
  cases h : f a <;> simp [h]

/-- The chain of R48, in its order. -/
theorem State.blockOf_eq (s : State) (p : Nat × Entry) : s.blockOf p =
    if s.meets p .ceiling = false then some .ceiling
    else if s.meets p .hold = false then some .hold
    else if s.meets p .region = false then some .region
    else if s.meets p .bearer = false then some .bearer
    else if s.meets p .stock = false then some .stock
    else if s.meets p .sawWorn = false then some .sawWorn
    else if s.meets p .reach = false then some .reach
    else none := by
  simp only [State.blockOf, Block.all, find?_not_cons, List.find?_nil]

/-- Settles O9: each condition by its own rule; the reason is the first test of the list that fails. -/
theorem eligibilityAndBlockingReason : Obligations.EligibilityAndBlockingReason := by
  refine ⟨fun s slot en => ?_, State.blockOf_eq⟩
  exact ⟨decide_eq_true_iff, (Bool.not_eq_true' _).to_iff, s.gateOpen_iff slot en.course,
    List.all_eq_true.trans (forall₂_congr fun b _ => s.bearerMet_iff b), decide_eq_true_iff,
    s.meets_sawWorn_iff (slot, en), s.inReach_iff en.target⟩

end Sys2Proof.Machine
end

section
/-! PROOFS. Host link and message formats (10_host_link_and_message_formats.md): the command IDQ, whose run is one reply
with the fixed identity. -/

namespace Sys2Proof.Machine

/-! ### IDQ (R198) -/

theorem exec_idq_eq (tag : Byte) (p : List Byte) (s : State) :
    exec (.idq tag p) s = .next (takeHost ⟨0x01, tag, p⟩ (Ev.runIdq ⟨0x01, tag, p⟩) s) := rfl

/-- The fields of R198 in their order: vendor 4Bh, part 4C18h, revision 01h, 1024 plan slots, 10 berths, 32 classes,
8 lanes, native ceiling 96; the part code and the plan slots take 2 bytes each (R206), the low byte first (R204). -/
theorem identity_eq : identity = [0x4B, 0x18, 0x4C, 0x01, 0x00, 0x04, 10, 32, 8, 96] := by decide

/-- IDQ has no mode check and no payload check: in every state it is answered with the identity. -/
theorem Ev.runIdq_eq (e : Ev) (c : HostCommand) :
    e.runIdq c = e.reply c .ok [0x4B, 0x18, 0x4C, 0x01, 0x00, 0x04, 10, 32, 8, 96] := by
  rw [Ev.runIdq, identity_eq]

/-- Settles O22: IDQ's run is a reply alone, so the command is only answered. -/
theorem idqReturnsIdentity : Obligations.IdqReturnsIdentity := by
  intro s tag p h
  rw [exec_idq_eq, takeHost_answered h (Ev.runIdq_eq _ _)]

end Sys2Proof.Machine
end

section
/-! PROOFS. A step, reset, and what every step keeps. `Row` says once what a row of the table can make of a state; that
every step completes and that it keeps `State.Sound` and `State.Orderly` are case analyses of it. -/

namespace Sys2Proof.Machine

/-! ### What a row can make of a state -/

/-- What a row can make of a state: the reset, bytes of one of the three lines, a command, a completion, or a timer. -/
inductive Row (s : State) : State → Prop
  | powerUp (strap0 strap1 : Bool) : Row s (powerUp strap0 strap1 s)
  | hostBytes (bytes : List Byte) : Row s (hostBytes bytes s)
  | hostGap (bytes : List Byte) : Row s (hostBytes bytes (waitGap s))
  | messageSent : Row s (event Ev.messageSent s)
  | command (c : HostCommand) : Row s (takeHost c (Ev.runCommand c) s)
  | completion (unit : Nat) (tag result code : Byte) : Row s (completion unit tag result code s)
  | loopBytes (bytes : List Byte) : Row s (loopBytes bytes s)
  | orderTimesOut (unit : Nat) : Row s (orderTimesOut unit s)
  | pressLimit : Row s (pressLimitEnds s)
  | timer (moment : Option Nat) (f : Ev → Ev) (leads : ∀ e a, Ev.Leads e a → Ev.Leads e (f a))
      (orderly : ∀ e : Ev, e.toState.Orderly → (f e).toState.Orderly) : Row s (fireAt moment f s)
  | trackerBytes (bytes : List Byte) : Row s (trackerBytes bytes s)

/-- Every command has a next state, and a row makes it. A host command row runs what its kind runs. -/
theorem exec_row (i : Instr) (s : State) : ∃ t, exec i s = .next t ∧ Row s t := by
  cases i with
  | powerOn strap0 strap1 | hardReset strap0 strap1 => exact ⟨_, rfl, .powerUp strap0 strap1⟩
  | hostFrame bytes => exact ⟨_, rfl, .hostBytes bytes⟩
  | hostGap bytes => exact ⟨_, rfl, .hostGap bytes⟩
  | messageSent => exact ⟨_, rfl, .messageSent⟩
  | unknownCommand _ tag p | idq tag p | stq tag p | cfq tag p | cfg tag p | rst tag p | part tag p | cls tag p
  | lane tag p | ceilq tag p | ceilSet tag p | ceilFreeze tag p | pap tag p | pld tag p | prd tag p | mark tag p
  | rearm tag p | adv tag p | go tag p | halt tag p | abort tag p | clear tag p | accept tag p | stow tag p | bin tag p
  | calStart tag p | calCancel tag p | hlthRead tag p | hlthStatus tag p | hlthThresh tag p | hlthReset tag p =>
    exact ⟨_, rfl, .command ⟨_, tag, p⟩⟩
  | loadDone tag | loadEmpty tag | loadFault tag _ | cutDone tag | cutFault tag _ | glueDone tag | glueFault tag _
  | moveDone _ tag | moveFault _ tag _ | takeDone tag | takeSlip tag | approachDone tag | trimDone tag | trimFault tag _
  | pressDone tag | openDone tag | retractDone tag | dumpDone tag | headJam _ tag _ | deployDone tag
  | deployFault tag _ | foldDone tag | foldFault tag _ | calSlewDone tag | calSlewFault tag _ =>
    exact ⟨_, rfl, .completion _ tag _ _⟩
  | staleCompletion bytes | orderEcho bytes => exact ⟨_, rfl, .loopBytes bytes⟩
  | orderTimeout unit => exact ⟨_, rfl, .orderTimesOut unit.val⟩
  | pressLimit => exact ⟨_, rfl, .pressLimit⟩
  | glueDeadline b => exact ⟨_, rfl, .timer _ _ (fun _ _ k => k.expire) fun _ h => h.expire⟩
  | gustTimer => exact ⟨_, rfl, .timer _ _ (fun _ _ k => k.gustOut) fun _ h => h.gustOut⟩
  | lockHoldTimer => exact ⟨_, rfl, .timer _ _ (fun _ _ k => k.lockHoldOut) fun _ h => h.lockHoldOut⟩
  | measuringTimer => exact ⟨_, rfl, .timer _ _ (fun _ _ k => k.measuringOut) fun _ h => h.measuringOut⟩
  | pressLockout => exact ⟨_, rfl, .timer _ _ (fun _ _ k => k.lockoutOut) fun _ h => h.lockoutOut⟩
  | pointLimit => exact ⟨_, rfl, .timer _ _ (fun _ _ k => k.pointOut) fun _ h => h.pointOut⟩
  | holdWindowEnd => exact ⟨_, rfl, .timer _ _ (fun _ _ k => k.windowOut) fun _ h => h.windowOut⟩
  | trackerFrame bytes => exact ⟨_, rfl, .trackerBytes bytes⟩
  | trackerByte b => exact ⟨_, rfl, .trackerBytes [b]⟩

theorem Row.leads {s t : State} (h : Row s t) : s.Leads t := by
  cases h with
  | powerUp strap0 strap1 => exact powerUp_leads strap0 strap1 s
  | hostBytes bytes => exact hostBytes_leads bytes s
  | hostGap bytes => exact (waitGap_leads s).trans (hostBytes_leads bytes _)
  | messageSent => exact event_leads s fun _ _ k => k.messageSent
  | command c => exact takeHost_leads s fun _ _ k => k.runCommand
  | completion unit tag result code => exact completion_leads unit tag result code s
  | loopBytes bytes => exact loopBytes_leads bytes s
  | orderTimesOut unit => exact orderTimesOut_leads unit s
  | pressLimit => exact pressLimitEnds_leads s
  | timer _ _ hl _ => exact fireAt_leads s hl
  | trackerBytes bytes => exact trackerBytes_leads bytes s

theorem Row.orderly {s t : State} (h : Row s t) (hs : s.Sound) (ho : s.Orderly) : t.Orderly := by
  cases h with
  | powerUp => exact powerUp_orderly hs
  | hostBytes bytes => exact hostBytes_orderly hs ho
  | hostGap bytes => exact hostBytes_orderly ((waitGap_leads s).sound hs) (waitGap_orderly hs ho)
  | messageSent => exact event_orderly hs (fun _ _ k => k.messageSent) (State.Orderly.messageSent (e := Ev.start s) ho)
  | command c => exact takeHost_orderly hs ho (fun _ _ k => k.runCommand) fun _ h hp => h.runCommand hp
  | completion => exact completion_orderly hs ho
  | loopBytes => exact loopBytes_orderly hs ho
  | orderTimesOut => exact orderTimesOut_orderly hs ho
  | pressLimit => exact pressLimitEnds_orderly hs ho
  | timer _ _ hl hf => exact fireAt_orderly hs ho hl hf
  | trackerBytes => exact trackerBytes_orderly hs ho

/-- Settles O3: what a row makes keeps the queue, the clock's direction and the two logs. -/
theorem everyCommandCompletes : Obligations.EveryCommandCompletes := by
  intro i s
  obtain ⟨t, ht, hrow⟩ := exec_row i s
  have h := hrow.leads
  exact ⟨t, ht, h.pending, h.now, h.hostTx, h.loopTx⟩

/-! ### A step -/

theorem step_cons (c : Instr) (rest : List Instr) (s : State) :
    step { s with pending := c :: rest } = exec c { s with pending := rest } := rfl

theorem step_of_empty {s : State} (h : s.pending = []) : step s = idle s := by
  simp [step, h]

/-- A command taken or a timer fired of itself is a row; the clock's tick is the one step besides. -/
theorem idle_cases {s t : State} (h : idle s = .next t) : Row s t ∨ t = { s with now := s.now + 1 } := by
  have row (i : Instr) (hi : exec i s = .next t) : Row s t := by
    obtain ⟨t', ht', hrow⟩ := exec_row i s
    rw [hi] at ht'
    cases ht'
    exact hrow
  unfold idle at h
  split at h
  next i _ => exact .inl (row i h)
  next =>
    split at h
    next i _ => exact .inl (row i h)
    next => cases h; exact .inr rfl

/-- A step is a row on the state with the queue's rest, or the clock's tick. -/
theorem step_cases {s t : State} (h : step s = .next t) :
    (∃ rest, Row { s with pending := rest } t) ∨ t = { s with now := s.now + 1 } := by
  unfold step at h
  split at h
  next hp =>
    refine (idle_cases h).imp_left fun hrow => ⟨[], ?_⟩
    rwa [← hp]
  next c rest _ =>
    obtain ⟨t', ht', hrow⟩ := exec_row c { s with pending := rest }
    rw [h] at ht'
    cases ht'
    exact .inl ⟨rest, hrow⟩

/-- `State.Sound` speaks of the blocks alone. -/
theorem State.Sound.of_blocks {s : State} (h : s.Sound) (now : Nat) (pending : List Instr) :
    { s with now := now, pending := pending }.Sound :=
  ⟨h.pls, h.rcu, h.sli, h.btc, h.trk, h.hsq, h.hmn, h.scp⟩

/-- Settles O1: the arm of `step` for a queue that is not empty. -/
theorem stepRunsTheFrontCommand : Obligations.StepRunsTheFrontCommand := step_cons

theorem State.commandDue_of_place {s : State} {c : HostCommand} {rest : List HostCommand}
    (hc : s.scp.commands = c :: rest) (hr : s.scp.outbound.length < 32) : s.commandDue = some (s.rowOf c) := by
  simp [State.commandDue, hc, State.replyPlace, Config.outboundPlaces, hr]

theorem State.commandDue_none {s : State} (h : s.scp.commands = [] ∨ 32 ≤ s.scp.outbound.length) :
    s.commandDue = none := by
  unfold State.commandDue
  split
  · rfl
  · next hc =>
    obtain hn | hfull := h
    · simp [hn] at hc
    · simp [State.replyPlace, Config.outboundPlaces, Nat.not_lt.2 hfull]

/-- Settles O2: the part's own action, by the command that is due and then by the timer that is due. -/
theorem stepOnAnEmptyQueue : Obligations.StepOnAnEmptyQueue := by
  intro s hp
  rw [step_of_empty hp]
  refine ⟨fun c rest hc hr => ?_, fun h => ⟨fun i hi => ?_, fun hi => ?_⟩⟩
  · simp only [idle, State.commandDue_of_place hc hr]
  · simp only [idle, State.commandDue_none h, hi]
  · simp only [idle, State.commandDue_none h, hi]

/-! ### Reset -/

/-- Settles O4: the values of `State.reset`, block by block. -/
theorem resetLeaves : Obligations.ResetLeaves := by
  refine ⟨⟨rfl, rfl, rfl, rfl, rfl, rfl, fun _ => rfl, fun _ => rfl, rfl, rfl, rfl, rfl⟩, ?_, ?_, ?_, ?_, ?_, ?_, ?_,
    ?_, ?_, rfl, rfl, rfl⟩
  · exact ⟨rfl, rfl, rfl, rfl, rfl, rfl, rfl, rfl, rfl, rfl, rfl⟩
  · exact ⟨rfl, rfl, rfl, rfl⟩
  · exact ⟨fun _ => ⟨rfl, rfl⟩, rfl, rfl, rfl, rfl⟩
  · exact ⟨fun _ => rfl, rfl, rfl⟩
  · exact ⟨rfl, rfl, rfl, rfl, rfl, rfl, rfl, rfl, rfl, rfl, rfl, rfl, rfl⟩
  · exact ⟨rfl, rfl, rfl, rfl, rfl, rfl, rfl, rfl, rfl, rfl, rfl, rfl, rfl, rfl, rfl⟩
  · exact ⟨fun _ => rfl, rfl, rfl, rfl, rfl, rfl, rfl, rfl, rfl, rfl, rfl⟩
  · exact ⟨rfl, rfl⟩
  · exact ⟨rfl, rfl, rfl, rfl, rfl, rfl, rfl, rfl, rfl, rfl, rfl⟩

theorem Attrs.neverSaved_sound (a : Attr) : (Attrs.neverSaved.read a).sound := by
  unfold SavedAttr.sound
  cases a <;> decide

/-- Settles O5: every block at its reset is sound, and an empty part is orderly. -/
theorem resetIsSound : Obligations.ResetIsSound := by
  refine ⟨?_, State.Orderly.fresh rfl⟩
  exact
    { pls := Pls.reset_sound none (by simp)
      rcu := Nat.zero_le _
      sli := ⟨rfl, Nat.zero_le _⟩
      btc := rfl
      trk := Trk.reset_sound
      hsq := Nat.zero_le _
      hmn := fun a => by
        have h := Attrs.neverSaved_sound a
        cases a <;> exact ⟨h, h⟩
      scp := Scp.reset_sound 115200 }

/-- Settles O6: by the cases of a step, each row keeping both. -/
theorem stepKeepsSound : Obligations.StepKeepsSound := by
  refine ⟨fun s t hs h => ?_, fun s t hs ho h => ?_⟩
  · obtain ⟨rest, hrow⟩ | rfl := step_cases h
    · exact hrow.leads.sound (hs.of_blocks s.now rest)
    · exact hs.of_blocks (s.now + 1) s.pending
  · obtain ⟨rest, hrow⟩ | rfl := step_cases h
    · exact hrow.orderly (hs.of_blocks s.now rest) (ho.congr rfl)
    · exact ho.congr rfl

end Sys2Proof.Machine
end

section
/-! PROOFS. The transfers (04_the_boom_train.md, section 4.3) and a selection (02_release_selection.md, sections 2.4 and
2.6): what a transfer changes of the other berths' conditions, and what a release and the standstill tests make. -/

namespace Sys2Proof.Machine

/-! ### Transfers (R78, R79) -/

/-- An order that is sent changes what `State.launched` writes out. -/
theorem Ev.send_eq (e : Ev) (unit : Nat) (o : Order) (q : Requester) :
    e.send unit o q = { e with toState := e.toState.launched unit o q } := rfl

theorem State.launched_flight_same (s : State) (unit : Nat) (o : Order) (q : Requester) :
    (s.launched unit o q).flight unit = some ⟨o, s.tagOf unit, q, s.now⟩ :=
  Table.read_write_same _ _ _

theorem State.launched_flight_other (s : State) {unit u : Nat} (o : Order) (q : Requester) (h : u ≠ unit) :
    (s.launched unit o q).flight u = s.flight u :=
  Table.read_write_other _ _ _ _ h

/-- The transfer condition, one part at a time. -/
theorem State.transferable_iff (s : State) (b : Nat) :
    s.transferable b = true ↔ (∃ c, s.carrierAt b = some c ∧ c.phase = .ready) ∧ s.running = true
      ∧ s.carrierAt (b + 1) = none ∧ (b + 1) ∉ s.rcu.stranded ∧ s.flight (xferUnit b) = none
      ∧ (b = 8 → s.hsq.head = .vacant ∧ s.hsq.atReceive = true) := by
  cases hc : s.carrierAt b with
  | none => simp [State.transferable, hc]
  | some c =>
    obtain rfl | hb := eq_or_ne b 8
    · simp [State.transferable, State.unitFree, hc, and_assoc]
    · simp [State.transferable, State.unitFree, hc, hb, and_assoc]

theorem State.not_reserved_of_ready {s : State} {b : Nat} {c : Carrier} (hc : s.carrierAt b = some c)
    (hp : c.phase = .ready) : s.reserved (b + 1) = false := by
  simp [State.reserved, hc, hp]

/-- A transfer makes the carrier LEAVING and sends MOVE. -/
theorem Ev.transfer_of_transferable {e : Ev} {b : Nat} {c : Carrier} (hc : e.carrierAt b = some c)
    (h : e.transferable b = true) :
    e.transfer b
      = { e with toState := (e.withCarrier b { c with phase := .leaving }).launched (xferUnit b) .move .btc } := by
  rw [Ev.transfer, if_pos h, Ev.onCarrier_at hc]
  rfl

theorem Ev.transfer_of_not {e : Ev} {b : Nat} (h : e.transferable b = false) : e.transfer b = e := by
  simp [Ev.transfer, h]

/-- A carrier that has been transferred is READY no more. -/
theorem Ev.transfer_not_transferable (e : Ev) (b : Nat) : (e.transfer b).transferable b = false := by
  cases h : e.transferable b with
  | false => rw [Ev.transfer_of_not h, h]
  | true =>
    obtain ⟨⟨c, hc, _⟩, _⟩ := (State.transferable_iff _ _).1 h
    rw [Ev.transfer_of_transferable hc h, Bool.eq_false_iff]
    intro hx
    obtain ⟨-, -, -, -, hfree, -⟩ := (State.transferable_iff _ _).1 hx
    rw [State.launched_flight_same] at hfree
    cases hfree

/-- The condition of another berth is not changed: its unit, its carrier, and whether the berth above it is empty. -/
theorem Ev.transfer_transferable_other (e : Ev) {a b : Nat} (hab : a ≠ b) :
    (e.transfer b).transferable a = e.transferable a := by
  cases h : e.transferable b with
  | false => rw [Ev.transfer_of_not h]
  | true =>
    obtain ⟨⟨c, hc, _⟩, _⟩ := (State.transferable_iff _ _).1 h
    rw [Ev.transfer_of_transferable hc h]
    let moved := e.withCarrier b { c with phase := .leaving }
    have hcarrier (n : Nat) (hn : n ≠ b) : moved.carrierAt n = e.carrierAt n := State.withCarrier_other _ _ _ _ hn
    have hunit : (moved.launched (xferUnit b) .move .btc).flight (xferUnit a) = e.flight (xferUnit a) :=
      State.launched_flight_other _ _ _ (by simpa [xferUnit] using hab)
    have habove : moved.carrierAt (a + 1) = none ↔ e.carrierAt (a + 1) = none := by
      by_cases hn : a + 1 = b
      · simp [moved, hn, State.withCarrier_at, hc]
      · rw [hcarrier _ hn]
    rw [Bool.eq_iff_iff, State.transferable_iff, State.transferable_iff, hunit]
    exact and_congr (by rw [← hcarrier a hab]; rfl)
      (and_congr_right' (and_congr habove Iff.rfl))

/-- After a test of some berths none of them is left whose condition holds. -/
theorem Ev.foldl_transfer_not_transferable (l : List Nat) (b : Nat) : ∀ e : Ev,
    e.transferable b = false ∨ b ∈ l.map (8 - ·) →
      (l.foldl (fun e i => e.transfer (8 - i)) e).transferable b = false := by
  induction l with
  | nil => exact fun e h => h.resolve_right (by simp)
  | cons i l ih =>
    intro e h
    refine ih _ ?_
    by_cases hb : b = 8 - i
    · exact .inl (hb ▸ Ev.transfer_not_transferable e b)
    · rw [Ev.transfer_transferable_other e hb]
      exact h.imp_right fun hm => (List.mem_cons.1 hm).resolve_left hb

/-- Settles O7: the condition by its parts, one transfer, and the test of every berth. -/
theorem transferableCarriersMove : Obligations.TransferableCarriersMove := by
  refine ⟨fun s b _ => ?_, fun e b c hc => ⟨Ev.transfer_of_transferable hc, Ev.transfer_of_not⟩, fun e b hb => ?_⟩
  · rw [State.transferable_iff, State.running_iff]
    constructor
    · rintro ⟨⟨c, hc, hp⟩, hrun, hempty, hstrand, hfree, hhead⟩
      exact ⟨⟨c, hc, hp⟩, hrun, ⟨hempty, State.not_reserved_of_ready hc hp, hstrand⟩, hfree,
        fun h8 => ⟨(hhead h8).1, (hhead h8).2, by rwa [h8] at hempty⟩⟩
    · rintro ⟨hready, hrun, ⟨hempty, -, hstrand⟩, hfree, hhead⟩
      exact ⟨hready, hrun, hempty, hstrand, hfree, fun h8 => ⟨(hhead h8).1, (hhead h8).2.1⟩⟩
  · refine Ev.foldl_transfer_not_transferable (List.range 9) b e (.inr ?_)
    interval_cases b <;> decide

/-! ### A release (R44, R70) -/

/-- Settles O10: the release's own changes, which the recomputation of the course state leaves as they are. -/
theorem releaseClaimsTheEntry : Obligations.ReleaseClaimsTheEntry := by
  intro e slot en hen lane t
  let claimed : Ev := e.changeEntry slot fun en => { en with state := .inTrain }
  let sent : Ev := (((claimed.onPls fun p =>
      { p with stocks := Table.writeD p.stocks lane (Table.readD p.stocks lane 0 - 1) 0 }).onBtc fun t =>
      { t with
        train := Table.write t.train 0 ⟨t.releases, slot, .working, none, false, none⟩
        releases := t.releases + 1 }).send pickUnit (.load lane) .rsl).onRsl fun r => { r with stall := false }
  have ht : t = sent.refreshCourse .event := rfl
  obtain ⟨same, -, -⟩ := Ev.refreshCourse_spec sent .event
  rw [← ht] at same
  have hclaimed : claimed.toState = e.toState.withEntry slot { en with state := .inTrain } :=
    Ev.changeEntry_toState slot _ e en hen
  have hsent : sent.toState =
      { (({ e.toState.withEntry slot { en with state := .inTrain } with
            btc := { e.btc with
              train := Table.write e.btc.train 0 ⟨e.btc.releases, slot, .working, none, false, none⟩
              releases := e.btc.releases + 1 } } : State).launched pickUnit (.load lane) .rsl) with
        pls := { e.pls with
          plan := Table.write e.pls.plan slot { en with state := .inTrain }
          stocks := Table.writeD e.pls.stocks lane (e.stockOf lane - 1) 0 }
        rsl := { e.rsl with stall := false } } := by
    simp only [sent, Ev.send_eq, Ev.onPls, Ev.onBtc, Ev.onRsl, hclaimed]
    rfl
  have hbtc := same.btc
  refine ⟨same.plan.trans ?_, same.stocks.trans ?_, (congrArg Btc.train hbtc).trans ?_,
    (congrArg Btc.releases hbtc).trans ?_, (congrArg Btc.bin hbtc).trans ?_, same.sli.trans ?_, same.loopTx.trans ?_,
    same.stall.trans ?_, same.starved.trans ?_, same.rcu.trans ?_, same.trk.trans ?_, same.dfu.trans ?_,
    same.hmn.trans ?_, same.now.trans ?_⟩
  all_goals exact hsent ▸ rfl

/-! ### The release part of a selection (R42) -/

theorem State.mayRelease_iff (s : State) :
    s.mayRelease = true ↔
      s.rcu.mode = .laying ∧ s.carrierAt 0 = none ∧ 0 ∉ s.rcu.stranded ∧ s.flight pickUnit = none := by
  simp [State.mayRelease, State.unitFree, and_assoc]

/-- The STARVED test queues a report and sets a latch, or does nothing. -/
theorem Ev.starvedTest_cases (e : Ev) (cands : Table Entry) :
    e.starvedTest cands = e ∨ ∃ r lane, e.starvedTest cands =
      (e.report r).onRsl fun r => { r with starved := setAdd r.starved lane } := by
  unfold Ev.starvedTest
  split
  · exact .inl rfl
  · extract_lets lane
    split
    · exact .inr ⟨_, lane, rfl⟩
    · exact .inl rfl

/-- No blocking reason is changed by the STARVED test. -/
theorem Ev.starvedTest_blockOf (e : Ev) (cands : Table Entry) (p : Nat × Entry) :
    (e.starvedTest cands).blockOf p = e.blockOf p := by
  obtain h | ⟨r, lane, h⟩ := e.starvedTest_cases cands <;> rw [h]
  rfl

/-- With the four release conditions, the first eligible candidate is released. -/
theorem Ev.selectRelease_of_found {e : Ev} (h : e.mayRelease = true) {p : Nat × Entry}
    (hp : (e.candidates.find? fun p => (e.blockOf p).isNone) = some p) :
    e.selectRelease = (e.starvedTest e.candidates).release p.1 p.2 := by
  simp only [Ev.selectRelease, if_pos h, Ev.starvedTest_blockOf, hp]

/-- With the four release conditions and no eligible candidate, the stall test runs. -/
theorem Ev.selectRelease_of_none {e : Ev} (h : e.mayRelease = true)
    (hn : (e.candidates.find? fun p => (e.blockOf p).isNone) = none) :
    e.selectRelease = (e.starvedTest e.candidates).stallTest e.candidates := by
  simp only [Ev.selectRelease, if_pos h, Ev.starvedTest_blockOf, hn]

/-! ### The standstill tests (R49, R50) -/

theorem State.stockAlone_iff (s : State) (p : Nat × Entry) :
    s.stockAlone p = true ↔ s.meets p .stock = false ∧ ∀ b, b ≠ Block.stock → s.meets p b = true := by
  have hall (b : Block) : b ∈ Block.all := by cases b <;> decide
  have hone (b : Block) : s.meets p b = (!(b == .stock)) ↔ (b = .stock → s.meets p b = false)
      ∧ (b ≠ .stock → s.meets p b = true) := by
    by_cases hb : b = .stock
    · simp [hb]
    · simp [hb, beq_eq_false_iff_ne.2 hb]
  simp only [State.stockAlone, List.all_eq_true, beq_iff_eq, hone]
  exact ⟨fun h => ⟨(h _ (hall _)).1 rfl, fun b => (h b (hall b)).2⟩,
    fun h b _ => ⟨fun hb => hb ▸ h.1, h.2 b⟩⟩

/-- The entries of the current station in a state, counted. -/
theorem State.countStation_state (s : State) (st : EntryState) :
    s.countStation (fun en => en.state == st)
      = (s.pls.plan.filter fun p => decide (p.2.station = s.rcu.station ∧ p.2.state = st)).length := by
  simp [State.countStation, State.stationEntries, beq_eq_decide]

theorem State.countStation_planned_ne_zero (s : State) :
    s.countStation (fun en => en.state == .planned) ≠ 0
      ↔ ∃ p ∈ s.pls.plan, p.2.station = s.rcu.station ∧ p.2.state = .planned := by
  simp [State.countStation_state]

theorem State.trainEmpty_iff (s : State) :
    s.trainEmpty = true ↔ s.btc.train = [] ∧ s.hsq.head = .vacant := by
  simp [State.trainEmpty]

/-- The fields of the STALLED report (R49). -/
theorem State.stalledReport_eq (s : State) (cands : Table Entry) : s.stalledReport cands =
    .stalled s.rcu.station s.rsl.active
      (s.pls.plan.filter fun p => decide (p.2.station = s.rcu.station ∧ p.2.state = .planned)).length
      (s.pls.plan.filter fun p => decide (p.2.station = s.rcu.station ∧ p.2.state = .faulted)).length
      ([Block.ceiling, .hold, .region, .bearer, .stock, .sawWorn, .reach].map fun b =>
        (cands.filter fun p => decide (s.blockOf p = some b)).length)
      ((List.range 8).filter fun lane => decide (∃ p ∈ cands,
        s.blockOf p = some .stock ∧ (s.classAt p.2.cls).lane = lane)) := by
  have hlanes (lane : Nat) : (cands.any fun p => s.blockOf p == some .stock && (s.classAt p.2.cls).lane == lane)
      = decide (∃ p ∈ cands, s.blockOf p = some .stock ∧ (s.classAt p.2.cls).lane = lane) := by
    rw [Bool.eq_iff_iff]
    simp
  have hblocked (b : Block) : (cands.filter fun p => s.blockOf p == some b)
      = cands.filter fun p => decide (s.blockOf p = some b) := by simp only [beq_eq_decide]
  simp only [State.stalledReport, State.countStation_state, hlanes, hblocked, Block.all]

/-- Settles O11: the release part by its first eligible candidate, each standstill test by its condition. -/
theorem selectionReleasesOrReports : Obligations.SelectionReleasesOrReports := by
  refine ⟨fun e => ⟨rfl, fun hm => ?_, fun hm before p after hc hp hb => ?_, fun hm hb => ?_⟩,
    fun e => ⟨fun before p after hc hb hp => ?_, fun hb => ?_, ?_⟩⟩
  · rw [Ev.selectRelease, if_neg fun h => hm ((State.mayRelease_iff _).1 h)]
  · have hfind : (e.candidates.find? fun p => (e.blockOf p).isNone) = some p :=
      List.find?_eq_some_iff_append.2 ⟨by simp [hp], before, after, hc, fun q hq => by
        simpa [← Option.ne_none_iff_isSome] using hb q hq⟩
    exact Ev.selectRelease_of_found ((State.mayRelease_iff _).2 hm) hfind
  · have hfind : (e.candidates.find? fun p => (e.blockOf p).isNone) = none :=
      List.find?_eq_none.2 fun q hq => by simpa [Option.isNone_iff_eq_none] using hb q hq
    exact Ev.selectRelease_of_none ((State.mayRelease_iff _).2 hm) hfind
  · have hfind : (e.candidates.find? fun p => !p.2.marks.hold) = some p :=
      List.find?_eq_some_iff_append.2 ⟨by simp [hp], before, after, hc, fun q hq => by simp [hb q hq]⟩
    have hshort : (e.stockAlone p && !e.rsl.starved.contains (e.classAt p.2.cls).lane) = true
        ↔ (e.meets p .stock = false ∧ ∀ b, b ≠ Block.stock → e.meets p b = true)
          ∧ (e.classAt p.2.cls).lane ∉ e.rsl.starved := by
      simp [State.stockAlone_iff]
    simp only [Ev.starvedTest, hfind]
    exact ⟨fun h => if_pos (hshort.2 h), fun h => if_neg fun k => h (hshort.1 k)⟩
  · have hfind : (e.candidates.find? fun p => !p.2.marks.hold) = none :=
      List.find?_eq_none.2 fun q hq => by simp [hb q hq]
    simp only [Ev.starvedTest, hfind]
  · have hstalled : (e.trainEmpty && !e.rsl.stall && e.countStation (fun en => en.state == .planned) != 0) = true
        ↔ e.btc.train = [] ∧ e.hsq.head = .vacant ∧ e.rsl.stall = false
          ∧ ∃ p ∈ e.pls.plan, p.2.station = e.rcu.station ∧ p.2.state = .planned := by
      rw [← State.countStation_planned_ne_zero]
      simp [State.trainEmpty_iff, and_assoc]
    simp only [Ev.stallTest, State.stalledReport_eq]
    exact ⟨fun h => if_pos (hstalled.2 h), fun h => if_neg fun k => h (hstalled.1 k)⟩

end Sys2Proof.Machine
end

section
/-! PROOFS. The active course (02_release_selection.md, sections 2.1, 2.2 and 2.5): the lowest course, the lookahead, the
latches, and what a recomputation and a finished course do. -/

namespace Sys2Proof.Machine

/-! ### The readings (R33, R35, R36) -/

theorem EntryState.unfinished_iff (st : EntryState) :
    st.unfinished = true ↔ st = .planned ∨ st = .inTrain ∨ st = .faulted := by
  cases st <;> simp [EntryState.unfinished]

/-- A course stands unfinished at the current station. -/
def State.standsOpen (s : State) (c : Nat) : Prop :=
  ∃ p ∈ s.pls.plan, p.2.station = s.rcu.station ∧ p.2.course = c
    ∧ (p.2.state = .planned ∨ p.2.state = .inTrain ∨ p.2.state = .faulted)

theorem State.standsOpen_iff (s : State) (c : Nat) :
    s.standsOpen c ↔ ∃ p ∈ s.stationEntries fun en => en.state.unfinished, p.2.course = c := by
  simp only [State.standsOpen, State.stationEntries, List.mem_filter, Bool.and_eq_true, beq_iff_eq,
    EntryState.unfinished_iff]
  exact exists_congr fun p => by tauto

theorem State.lowestCourse_eq_some (s : State) (a : Nat) :
    s.lowestCourse = some a ↔ s.standsOpen a ∧ ∀ c, s.standsOpen c → a ≤ c := by
  rw [State.lowestCourse, (lowerCourse_foldl _ none).2 a]
  simp only [State.standsOpen_iff, reduceCtorEq, false_or, false_implies, implies_true, true_and]
  exact and_congr_right' ⟨fun h c ⟨p, hp, hc⟩ => hc ▸ h p hp, fun h p hp => h _ ⟨p, hp, rfl⟩⟩

theorem State.lowestCourse_eq_none (s : State) : s.lowestCourse = none ↔ ∀ c, ¬s.standsOpen c := by
  rw [State.lowestCourse, (lowerCourse_foldl _ none).1]
  simp only [State.standsOpen_iff, true_and]
  exact ⟨fun h c => by simp [h], fun h => List.eq_nil_iff_forall_not_mem.2 fun p hp => h p.2.course ⟨p, hp, rfl⟩⟩

theorem State.lookaheadOpen_iff (s : State) :
    s.lookaheadOpen = true ↔ ∃ a, s.rsl.active = some a ∧ a < 255
      ∧ ∀ p ∈ s.pls.plan, p.2.station = s.rcu.station → p.2.course = a → p.2.state ≠ .planned := by
  cases h : s.rsl.active with
  | none => simp [State.lookaheadOpen, h]
  | some a => simp [State.lookaheadOpen, h, State.countStation, State.stationEntries]

/-- The direction a latch takes from the settings. -/
theorem ConfigItems.direction_eq (c : ConfigItems) (course : Nat) : c.direction course =
    if c.alternate = true ∧ course % 2 = 1 then c.layDir.opposite else c.layDir := by
  simp [ConfigItems.direction]

theorem Ev.setLatch_of_absent {e : Ev} {course : Nat} (h : Table.read e.pls.latches course = none) :
    e.setLatch course = { e with pls :=
      { e.pls with latches := Table.write e.pls.latches course (e.scp.config.direction course) } } := by
  simp only [Ev.setLatch, h]
  rfl

theorem Ev.setLatch_of_present {e : Ev} {course : Nat} {d : Dir} (h : Table.read e.pls.latches course = some d) :
    e.setLatch course = e := by
  simp only [Ev.setLatch, h]

/-! ### A recomputation (R34) -/

theorem risesFrom_iff (c : Nat) (new : Option Nat) : risesFrom c new = true ↔ ∀ d, new = some d → c < d := by
  cases new <;> simp [risesFrom]

/-- A recomputation changes the active course, or counts as a change of it. -/
theorem changed_iff (old new : Option Nat) (b : Refresh) :
    (old != new || b == Refresh.adv) = true ↔ old ≠ new ∨ b = .adv := by
  simp

/-- The course is finished: an event makes the active course rise. -/
theorem Ev.refreshCourse_finished {e : Ev} {c : Nat} (ha : e.rsl.active = some c)
    (hr : ∀ d, e.lowestCourse = some d → c < d) :
    let seen : Ev := { e with rsl := { e.rsl with active := e.lowestCourse } }
    (e.refreshCourse .event).scp = (seen.finishCourse c).scp
      ∧ (e.refreshCourse .event).hsq = { (seen.finishCourse c).hsq with gustCount := 0 } := by
  intro seen
  obtain ⟨hscp, hhsq, -, -⟩ := Ev.refreshCourse_effects e .event
  have hne : e.rsl.active ≠ e.lowestCourse := fun h => absurd (hr c (h ▸ ha)) (lt_irrefl c)
  have hfinish : (Refresh.event == Refresh.event && some c != e.lowestCourse && risesFrom c e.lowestCourse) = true := by
    simp [(risesFrom_iff c e.lowestCourse).2 hr, ← ha, hne]
  simp only [ha, hfinish, if_true] at hscp hhsq
  refine ⟨hscp, hhsq.trans (if_pos ((changed_iff _ _ _).2 (.inl (ha ▸ hne))))⟩

/-- No course is finished: ADV or a soft reset recomputes, or the active course does not rise. -/
theorem Ev.refreshCourse_unfinished {e : Ev} {b : Refresh}
    (h : b ≠ .event ∨ e.rsl.active = none ∨ ∃ c d, e.rsl.active = some c ∧ e.lowestCourse = some d ∧ d ≤ c) :
    (e.refreshCourse b).scp = e.scp
      ∧ (e.refreshCourse b).hsq =
        if (e.rsl.active != e.lowestCourse || b == Refresh.adv) then { e.hsq with gustCount := 0 } else e.hsq := by
  obtain ⟨hscp, hhsq, -, -⟩ := Ev.refreshCourse_effects e b
  cases ha : e.rsl.active with
  | none =>
    simp only [ha] at hscp hhsq
    exact ⟨hscp, hhsq⟩
  | some c =>
    have hnot : (b == Refresh.event && some c != e.lowestCourse && risesFrom c e.lowestCourse) = false := by
      rw [ha] at h
      obtain hb | hn | ⟨c', d, hc, hd, hle⟩ := h
      · simp [beq_eq_false_iff_ne.2 hb]
      · cases hn
      · cases hc
        simp [hd, risesFrom, Nat.not_lt.2 hle]
    simp only [ha, hnot, Bool.false_eq_true, if_false] at hscp hhsq
    exact ⟨hscp, hhsq⟩

/-! ### A finished course (R46, R139, R140) -/

theorem State.countStation_course (s : State) (c : Nat) (f g : Entry → Bool)
    (h : ∀ en : Entry, f en = (decide (en.course = c) && g en)) :
    s.countStation f = (s.pls.plan.filter fun p =>
      decide (p.2.station = s.rcu.station ∧ p.2.course = c) && g p.2).length := by
  simp only [State.countStation, State.stationEntries, h, beq_eq_decide, Bool.decide_and, Bool.and_assoc]

/-- A change of the gust-reduced flag shows where the rate is AUTO. -/
theorem State.reducedRate_eq (s : State) : s.reducedRate = true ↔
    s.scp.config.rate = .reduced ∨ (s.scp.config.rate = .auto ∧ s.hsq.gustReduced = true) := by
  cases h : s.scp.config.rate <;> simp [State.reducedRate, h]

/-- The rate with the gust-reduced flag cleared (R139). -/
theorem Ev.withRate_gustsEnd (e : Ev) (cause : RateCause) :
    let off : Ev := { e with hsq := { e.hsq with gustReduced := false } }
    let turns := e.scp.config.rate = .auto ∧ e.hsq.gustReduced = true
    (turns → e.withRate cause (fun e => e.onHsq fun h => { h with gustReduced := false })
        = off.report (.rate false cause e.rsl.active e.hsq.gustCount))
      ∧ (¬turns → e.withRate cause (fun e => e.onHsq fun h => { h with gustReduced := false }) = off) := by
  intro off turns
  have hoff : off.reducedRate = true ↔ e.scp.config.rate = .reduced := by
    simp [State.reducedRate_eq, off]
  have hkeep : off.reducedRate = e.reducedRate ↔ ¬turns := by
    rw [Bool.eq_iff_iff, hoff, State.reducedRate_eq]
    cases h : e.scp.config.rate <;> simp [turns, h]
  have hrate : e.withRate cause (fun e => e.onHsq fun h => { h with gustReduced := false })
      = if off.reducedRate = e.reducedRate then off
        else off.report (.rate off.reducedRate cause e.rsl.active e.hsq.gustCount) := rfl
  refine ⟨fun ht => ?_, fun ht => ?_⟩
  · have hfalse : off.reducedRate = false := by
      rw [Bool.eq_false_iff, ne_eq, hoff, ht.1]
      decide
    rw [hrate, if_neg fun h => hkeep.1 h ht, hfalse]
  · rw [hrate, if_pos (hkeep.2 ht)]

/-- Settles O12: the readings, a recomputation, the latches, and a finished course. -/
theorem activeCourseAndLookahead : Obligations.ActiveCourseAndLookahead := by
  refine ⟨fun s => ⟨s.lowestCourse_eq_none, s.lowestCourse_eq_some, s.lookaheadOpen_iff⟩, fun e b => ?_,
    fun e course h => ?_, fun e course d => Ev.setLatch_of_present, fun e b => ?_, fun e c => ?_⟩
  · obtain ⟨same, hactive, hlook⟩ := Ev.refreshCourse_spec e b
    exact ⟨hactive, hlook, same.stall, same.starved, same.pls, same.btc, same.sli, same.loopTx, same.rcu, same.trk,
      same.dfu, same.hmn, same.now, same.scp.commands, same.scp.config⟩
  · rw [Ev.setLatch_of_absent h, ConfigItems.direction_eq]
  · obtain ⟨-, -, hsel, hlatch⟩ := Ev.refreshCourse_effects e b
    refine ⟨fun c hb ha hr => ?_, fun h => ?_, ?_, fun course => ⟨fun h => ?_, fun habs hopen => ?_⟩⟩
    · subst hb
      exact Ev.refreshCourse_finished ha hr
    · obtain ⟨hscp, hhsq⟩ := Ev.refreshCourse_unfinished h
      exact ⟨hscp, fun hc => hhsq.trans (if_pos ((changed_iff _ _ _).2 hc)),
        fun hc => hhsq.trans (if_neg fun k => hc ((changed_iff _ _ _).1 k))⟩
    · rw [hsel, Bool.or_eq_true, changed_iff]
    · rw [hlatch]
      exact if_neg fun k => h.elim (fun hp => hp k.2) fun ho => ho k.1
    · rw [hlatch, if_pos ⟨hopen, habs⟩, ConfigItems.direction_eq]
  · intro count flagged told off turns
    have htold : told = e.flush.report (.course e.rcu.station c
        (e.flush.countStation fun en => en.course == c && en.state == .placed)
        (e.flush.countStation fun en => en.course == c && en.state == .skipped)
        (e.flush.countStation fun en => en.course == c && en.state == .placed && match en.outcome with
          | none => false
          | some o => o.flagged)) := by
      rw [State.countStation_course _ c _ (fun en => decide (en.state = .placed)) fun en => by simp [beq_eq_decide],
        State.countStation_course _ c _ (fun en => decide (en.state = .skipped)) fun en => by simp [beq_eq_decide],
        State.countStation_course _ c _ (fun en => decide (en.state = .placed) && flagged en) fun en => by
          cases ho : en.outcome <;> simp [flagged, ho, beq_eq_decide, LaidOutcome.flagged, Bool.and_assoc]]
      rfl
    have hfinish : e.finishCourse c
        = told.withRate .courseEnd fun e => e.onHsq fun h => { h with gustReduced := false } := by
      rw [htold]
      rfl
    have hconfig : told.scp.config = e.scp.config :=
      ((Ev.flush_sameRun e).trans (Ev.report_sameRun _ _)).scp.config
    obtain ⟨hturn, hkeep⟩ := Ev.withRate_gustsEnd told .courseEnd
    rw [hconfig] at hturn hkeep
    rw [hfinish]
    exact ⟨hturn, hkeep⟩

end Sys2Proof.Machine
end

section
/-! PROOFS. What an event prompts and its end (02_release_selection.md, section 2.4; 08_operating_modes_and_holds.md,
sections 8.1 and 8.3), the outbound queue, the hold reasons and the wear counts. -/

namespace Sys2Proof.Machine

/-! ### The change of an entry, and the head's retest (R43, R128) -/

theorem State.headWaitsFor_iff (s : State) (slot : Nat) : s.headWaitsFor slot = true ↔
    s.hsq.head = .readyToPress ∧ ∃ c, s.hsq.carrier = some c ∧ ∃ en, s.entryAt c.slot = some en ∧ slot ∈ en.bearers := by
  cases hc : s.hsq.carrier with
  | none => simp [State.headWaitsFor, State.headEntry, hc]
  | some c => cases hen : s.entryAt c.slot <;> simp [State.headWaitsFor, State.headEntry, hc, hen]

/-- A change of an entry writes it and prompts what `Ev.noteChange` prompts. -/
theorem Ev.changeEntry_eq {e : Ev} {slot : Nat} {en : Entry} (f : Entry → Entry) (h : e.entryAt slot = some en) :
    e.changeEntry slot f = { e with
      toState := e.toState.withEntry slot (f en)
      selDue := e.selDue || decide (en.station = e.rcu.station)
      retestDue := e.retestDue || (e.toState.withEntry slot (f en)).headWaitsFor slot } := by
  rw [Ev.changeEntry, h]
  exact Ev.noteChange_eq _ _ _

/-- PRESSING: the deadline of the carrier in the head is dropped, and PRESS is sent (R83, R135). -/
theorem Ev.enterPressing_free {e : Ev} {c : Carrier} (hr : e.running = true) (hc : e.carrierAt 9 = some c)
    (hf : e.flight pressUnit = none) :
    let pressing : Ev := { e with hsq := { e.hsq with head := .pressing, orderSent := false } }
    e.enterPressing = { pressing with toState :=
      { (pressing.toState.withCarrier 9 { c with deadline := none }).launched pressUnit .press .hsq with
        hsq := { pressing.hsq with orderSent := true } } } := by
  intro pressing
  rw [Ev.enterPressing, Ev.onCarrier_at hc]
  exact Ev.sendHead_free _ pressUnit .press hr hf

theorem Ev.retestPress_of_not {e : Ev} (h : e.hsq.head ≠ .readyToPress ∨ e.pressAllowed = false) :
    e.retestPress = e := by
  rw [Ev.retestPress, if_neg]
  simpa [imp_iff_not_or] using h

/-- Settles O13: the prompts of a change, the retest by the conditions of R127, the order of the prompted tests. -/
theorem entryChangePrompts : Obligations.EntryChangePrompts := by
  refine ⟨fun e slot en f h => ?_, fun e => ⟨fun h => ?_, fun c hh ha hc hf => ?_⟩, fun e => rfl⟩
  · intro t
    have ht := Ev.changeEntry_eq f h
    have hstate : t.toState = e.toState.withEntry slot (f en) := congrArg Ev.toState ht
    refine ⟨hstate, ?_, ?_, (congrArg Ev.xferDue ht :), (congrArg Ev.drainDue ht :), (congrArg Ev.replyDue ht :)⟩
    · rw [show t.selDue = _ from congrArg Ev.selDue ht, Bool.or_eq_true, decide_eq_true_iff]
    · rw [show t.retestDue = _ from congrArg Ev.retestDue ht, hstate, Bool.or_eq_true, State.headWaitsFor_iff]
      rfl
  · refine Ev.retestPress_of_not (h.imp_right fun hn => ?_)
    rwa [Bool.eq_false_iff, ne_eq, State.pressAllowed_iff]
  · have hallowed := (State.pressAllowed_iff e.toState).2 ha
    rw [Ev.retestPress, if_pos (by simp [hh, hallowed]),
      Ev.enterPressing_free ((State.running_iff _).2 ha.1) hc hf]

/-! ### The ends of a run (R47, R160, R168) -/

theorem State.ranComplete_iff (s : State) : (s.running && s.stationComplete) = true ↔
    (s.rcu.mode = .laying ∨ s.rcu.mode = .draining) ∧ s.rsl.active = none ∧ s.btc.train = []
      ∧ s.hsq.head = .vacant := by
  simp [State.stationComplete, State.running_iff, State.trainEmpty_iff]

theorem State.drained_iff (s : State) : (s.rcu.mode == .draining && s.trainEmpty && s.hsq.atReceive) = true ↔
    s.rcu.mode = .draining ∧ s.btc.train = [] ∧ s.hsq.head = .vacant ∧ s.hsq.atReceive = true := by
  simp [State.trainEmpty_iff, and_assoc]

theorem Attrs.saved_read (t : Attrs AttrRecord) (a : Attr) :
    t.saved.read a = ⟨(t.read a).value, (t.read a).threshold⟩ := by
  cases a <;> rfl

theorem Ev.calResume_of_suspended {e : Ev} {k : Nat} (h : e.dfu.cal = .suspended k) :
    e.calResume = e.startPoint k := by
  simp only [Ev.calResume, h]

theorem Ev.calResume_of_not {e : Ev} (h : ∀ k, e.dfu.cal ≠ .suspended k) : e.calResume = e := by
  unfold Ev.calResume
  split
  next k hk => exact absurd hk (h k)
  all_goals rfl

/-- The pose of a calibration point, its reach written out (R149). -/
theorem State.calPose_eq (s : State) (k : Nat) :
    s.calPose k = ⟨s.rcu.baseX + (40000 + 30000 * k), s.rcu.baseY, s.rcu.baseZ + 15000, 0⟩ := by
  simp [State.calPose, pointReach]

/-- A point starts at attempt 1 in phase DUE; at a busy BOOM its slew waits (R149, R155). -/
theorem Ev.startPoint_busy {e : Ev} (k : Nat) (h : e.flight boomUnit ≠ none) :
    e.startPoint k = { e with dfu := { e.dfu with cal := .running k, attempt := 1, phase := .due } } :=
  Ev.calSlew_busy _ h

/-- At a free BOOM its slew is sent (R149). -/
theorem Ev.startPoint_free {e : Ev} (k : Nat) (h : e.flight boomUnit = none) :
    let pose : Pose := ⟨e.rcu.baseX + (40000 + 30000 * k), e.rcu.baseY, e.rcu.baseZ + 15000, 0⟩
    e.startPoint k = { e with toState := { e.toState.launched boomUnit (.slew pose .full) .dfu with
      hsq := { e.hsq with atReceive := false }
      dfu := { e.dfu with
        cal := .running k, attempt := 1, phase := .slewing, slew := .current, pointPose := pose } } } := by
  intro pose
  have hslew := Ev.calSlew_free (e.onDfu fun d => { d with cal := .running k, attempt := 1, phase := .due }) k rfl rfl h
  rw [State.calPose_eq] at hslew
  exact hslew

/-- Settles O14: each test by its condition, and the entry into settled IDLE by the state of the routine. -/
theorem runEndsInSettledIdle : Obligations.RunEndsInSettledIdle := by
  intro e complete drained atStation
  refine ⟨fun h => ?_, fun h => if_neg fun k => h ((State.ranComplete_iff _).1 k),
    fun h => if_pos ((State.drained_iff _).2 h), fun h => if_neg fun k => h ((State.drained_iff _).1 k),
    fun _ _ => rfl, Ev.finish_holds e, Attrs.saved_read _, fun cause => ?_⟩
  · rw [Ev.stationTest, if_pos ((State.ranComplete_iff _).2 h), State.countStation_state, State.countStation_state]
  · intro flushed told
    have henter : e.enterIdle cause = told.calResume := rfl
    refine ⟨fun h => henter.trans (Ev.calResume_of_not h), fun k hk => ?_⟩
    have hresume : e.enterIdle cause = told.startPoint k := henter.trans (Ev.calResume_of_suspended hk)
    exact ⟨fun h => hresume.trans (Ev.startPoint_busy k h), fun h => hresume.trans (Ev.startPoint_free k h)⟩

/-! ### The outbound queue (R194 to R196) -/

theorem Scp.reportRoom_iff (p : Scp) (due : Bool) : p.reportRoom due = true ↔
    p.outbound.length < 32 ∧ p.reportCount < 28 ∧ (due = true → p.outbound.length < 31) := by
  cases due
  · simp only [Scp.reportRoom, Bool.not_false, Bool.true_or, Bool.and_eq_true, decide_eq_true_eq, Bool.false_eq_true,
      false_implies, and_assoc]
    exact Iff.rfl
  · simp only [Scp.reportRoom, Bool.not_true, Bool.false_or, Bool.and_eq_true, decide_eq_true_eq, forall_const, and_assoc]
    exact Iff.rfl

theorem Scp.flush_of_empty {p : Scp} (h : p.batch = []) (due : Bool) : p.flush due = p := by
  simp [Scp.flush, h]

theorem Scp.flush_of_pending {p : Scp} (h : p.batch ≠ []) (due : Bool) :
    p.flush due = { Scp.raise due (.placed p.batch) p with batch := [] } := by
  simp [Scp.flush, h]

/-- Settles O15: a report by its room, a reply with a place, the batch by its size. -/
theorem reportsRepliesAndTheBatch : Obligations.ReportsRepliesAndTheBatch := by
  refine ⟨fun e r => ⟨fun h => ?_, fun h => ?_⟩, fun e c st results h => Ev.reply_of_room c st results h,
    fun e => ⟨fun h => ?_, fun h => ?_⟩, fun e slot o => ?_⟩
  · rw [Ev.report, Ev.onScp, Scp.raise, if_pos ((Scp.reportRoom_iff _ _).2 h)]
  · rw [Ev.report, Ev.onScp, Scp.raise, if_neg fun k => h ((Scp.reportRoom_iff _ _).1 k)]
    rfl
  · rw [Ev.flush, Ev.onScp, Scp.flush_of_empty h]
  · rw [Ev.flush, Ev.onScp, Scp.flush_of_pending h]
    rfl
  · intro joined
    by_cases hlt : e.scp.batch.length + 1 < e.scp.config.batch
    · have hjoin : ¬e.scp.config.batch ≤ (e.scp.batch ++ [(slot, o)]).length := by simpa using hlt
      rw [if_pos hlt, Ev.onScp, Scp.handOver, if_neg hjoin]
    · have hfull : e.scp.config.batch ≤ (e.scp.batch ++ [(slot, o)]).length := by simpa using hlt
      rw [if_neg hlt, Ev.onScp, Scp.handOver, if_pos hfull]
      rfl

/-! ### The hold reasons (R162) -/

theorem Ev.raiseHold_of_running {e : Ev} (h : e.rcu.mode = .laying ∨ e.rcu.mode = .draining) (r : Hold)
    (slot : Option Nat) : e.raiseHold r slot =
      ({ e with
          rcu := { e.rcu with
            mode := .holding
            holds := e.rcu.holds.put r true
            inspects := addInspect slot e.rcu.inspects
            haltPending := e.rcu.haltPending || e.rcu.mode == Mode.draining }
          hsq := { e.hsq with gustTimer := none, lockHoldTimer := none } }.flush).modeReport (.hold r) e.rcu.mode := by
  unfold Ev.raiseHold
  obtain hm | hm := h <;> simp only [hm] <;> simp only [Ev.onRcu, hm] <;> rfl

theorem Ev.raiseHold_of_holding {e : Ev} (h : e.rcu.mode = .holding) (r : Hold) (slot : Option Nat) :
    e.raiseHold r slot =
      { e with rcu := { e.rcu with holds := e.rcu.holds.put r true, inspects := addInspect slot e.rcu.inspects } } := by
  simp only [Ev.raiseHold, h, Ev.onRcu]

theorem Ev.raiseHold_of_other {e : Ev} (hl : e.rcu.mode ≠ .laying) (hd : e.rcu.mode ≠ .draining)
    (hh : e.rcu.mode ≠ .holding) (r : Hold) (slot : Option Nat) : e.raiseHold r slot = e := by
  cases hm : e.rcu.mode with
  | laying => exact absurd hm hl
  | draining => exact absurd hm hd
  | holding => exact absurd hm hh
  | idle | aborted | stowing | stowed => simp only [Ev.raiseHold, hm]

/-- Settles O16: by the mode. -/
theorem holdReasonsJoin : Obligations.HoldReasonsJoin := fun _ r slot =>
  ⟨fun h => Ev.raiseHold_of_running h r slot, fun h => Ev.raiseHold_of_holding h r slot,
    fun hl hd hh => Ev.raiseHold_of_other hl hd hh r slot⟩

/-! ### The wear counts (R177 to R182) -/

@[simp] theorem Attrs.read_write {α : Type} (t : Attrs α) (a : Attr) (v : α) : (t.write a v).read a = v := by
  cases a <;> rfl

@[simp] theorem Attrs.write_write {α : Type} (t : Attrs α) (a : Attr) (v w : α) :
    (t.write a v).write a w = t.write a w := by
  cases a <;> rfl

@[simp] theorem Attrs.write_read {α : Type} (t : Attrs α) (a : Attr) : t.write a (t.read a) = t := by
  cases a <;> rfl

theorem AttrRecord.atThreshold_iff (r : AttrRecord) :
    r.atThreshold = true ↔ r.threshold ≠ 0 ∧ r.threshold ≤ r.value := by
  simp [AttrRecord.atThreshold]

/-- The evaluation of a record that has just been written (R179, R180): the flag turns on, turns off, or stands. -/
theorem Ev.evaluate_written (e : Ev) (a : Attr) (cause : HealthCause) (r : AttrRecord) :
    let record (r : AttrRecord) : Ev := { e with hmn := { e.hmn with live := e.hmn.live.write a r } }
    (record r).evaluate a cause = match r.crossed, r.atThreshold with
      | false, true =>
        ((record { r with crossed := true }).crossEffect a).report (.health a r.value r.threshold cause)
      | true, false => (record { r with crossed := false }).uncrossEffect a
      | false, false => record r
      | true, true => record r := by
  intro record
  cases hc : r.crossed <;> cases ht : r.atThreshold <;>
    simp [Ev.evaluate, record, Ev.onAttr, Ev.onHmn, hc, ht]

/-- Settles O17: the count, and its evaluation by the flag before and the threshold. -/
theorem wearIsCounted : Obligations.WearIsCounted := by
  intro e a r counted
  have hcount (h : r.value < 999999) : e.countWear a = (counted r.crossed).evaluate a .count := if_pos h
  have heval (crossed : Bool) := Ev.evaluate_written e a .count ⟨r.value + 1, r.threshold, crossed⟩
  refine ⟨fun h => if_neg (Nat.not_lt.2 h), fun h hc ht => ?_, fun h hc h0 ht => ?_, fun h hc h0 ht => ?_⟩
  · have hbelow : AttrRecord.atThreshold ⟨r.value + 1, r.threshold, false⟩ = false := by
      rw [Bool.eq_false_iff, ne_eq, AttrRecord.atThreshold_iff]
      exact fun k => ht.elim k.1 fun hlt => absurd k.2 (Nat.not_le.2 hlt)
    rw [hcount h, hc, show counted false = _ from rfl, heval]
    simp only [hbelow]
    rfl
  · have hmet : AttrRecord.atThreshold ⟨r.value + 1, r.threshold, true⟩ = true :=
      (AttrRecord.atThreshold_iff _).2 ⟨h0, ht⟩
    rw [hcount h, hc, show counted true = _ from rfl, heval]
    simp only [hmet]
    rfl
  · have hmet : AttrRecord.atThreshold ⟨r.value + 1, r.threshold, false⟩ = true :=
      (AttrRecord.atThreshold_iff _).2 ⟨h0, ht⟩
    rw [hcount h, hc, show counted false = _ from rfl, heval]
    simp only [hmet]
    cases a <;> rfl

end Sys2Proof.Machine
end

section
/-! PROOFS. The host line and the command queue (10_host_link_and_message_formats.md): what a whole frame, a receive error
and a gap make of the port, the messages that are sent, and a command that waits its turn. -/

namespace Sys2Proof.Machine

/-! ### Frames in HUNT (R189 to R191) -/

theorem exec_hostFrame_eq (bytes : List Byte) (s : State) : exec (.hostFrame bytes) s =
    .next { s with scp := bytes.foldl (fun p b => Scp.hostByte s.now b p) s.scp } :=
  congrArg Host.Outcome.next (hostBytes_eq bytes s)

theorem exec_hostGap_eq (bytes : List Byte) (s : State) :
    exec (.hostGap bytes) s = exec (.hostFrame bytes) (waitGap s) := rfl

theorem Scp.inState_hunt {p : Scp} (h : p.rx = .hunt) (now : Nat) :
    Scp.inState p now .hunt [] = { p with rxBytes := [], rxLast := now } := by
  rw [Scp.inState, ← h]

theorem Scp.offer_of_place {p : Scp} (c : HostCommand) (h : p.commands.length < 4) :
    p.offer c = { p with commands := p.commands ++ [c] } := if_pos h

theorem Scp.offer_busy {p : Scp} (c : HostCommand) (h : 4 ≤ p.commands.length) (ho : p.outbound.length < 32) :
    p.offer c = { p with outbound := p.outbound ++ [.reply c.kind c.tag .busy []] } := by
  have hfull : ¬p.commands.length < Config.commandPlaces := Nat.not_lt.2 h
  have hplace : p.outbound.length < Config.outboundPlaces := ho
  rw [Scp.offer, if_neg hfull, if_pos hplace, Scp.pushReply, if_pos hplace]

theorem Scp.offer_overrun {p : Scp} (c : HostCommand) (h : 4 ≤ p.commands.length) (ho : 32 ≤ p.outbound.length) :
    p.offer c = { p with frameErrors := satUp p.frameErrors } := by
  have hfull : ¬p.commands.length < Config.commandPlaces := Nat.not_lt.2 h
  have hplace : ¬p.outbound.length < Config.outboundPlaces := Nat.not_lt.2 ho
  rw [Scp.offer, if_neg hfull, if_neg hplace]

theorem crc16_lt (bs : List Byte) : crc16 bs < 256 ^ 2 := BitVec.isLt _

/-- A good frame that comes in HUNT is offered to the command queue. -/
theorem Scp.foldl_goodFrame {p : Scp} (h : p.rx = .hunt) (now : Nat) (kind tag : Byte) {payload : List Byte}
    (hp : payload.length ≤ 1024) :
    (hostFrameBytes kind tag payload).foldl (fun p b => Scp.hostByte now b p) p
      = Scp.offer ⟨kind, tag, payload⟩ { p with rxBytes := [], rxLast := now } := by
  let body := le 2 (payload.length + 2) ++ kind :: tag :: payload
  have hcheck : crc16 body = unle [byte (crc16 body), byte (crc16 body / 256)] :=
    (unle_le_of_lt (crc16_lt body)).symm
  calc
    _ = Scp.closeFrame (body ++ [byte (crc16 body), byte (crc16 body / 256)])
          (Scp.inState p now .check (body ++ [byte (crc16 body)])) := Scp.frame_bytes p now kind tag _ _ payload hp h
    _ = _ := (Scp.closeFrame_body p kind tag _ _ payload hp now _).trans (if_pos hcheck)
    _ = _ := by rw [Scp.inState_hunt h]

/-- A frame whose check bytes do not match is an error. -/
theorem Scp.foldl_badCheck {p : Scp} (h : p.rx = .hunt) (now : Nat) (kind tag c0 c1 : Byte) {payload : List Byte}
    (hp : payload.length ≤ 1024) :
    let body := le 2 (payload.length + 2) ++ kind :: tag :: payload
    unle [c0, c1] ≠ crc16 body →
      (0xA5 :: body ++ [c0, c1]).foldl (fun p b => Scp.hostByte now b p) p
        = { p with rxBytes := [], rxLast := now, frameErrors := satUp p.frameErrors } := by
  intro body hne
  have hclose := (Scp.closeFrame_body p kind tag c0 c1 payload hp now (body ++ [c0])).trans (if_neg hne.symm)
  rw [Scp.inState_hunt h] at hclose
  refine (Scp.frame_bytes p now kind tag c0 c1 payload hp h).trans (hclose.trans ?_)
  rw [Scp.frameError, ← h]

/-- The start byte opens a frame. -/
theorem Scp.hostByte_start {p : Scp} (h : p.rx = .hunt) (now : Nat) :
    Scp.hostByte now 0xA5 p = Scp.inState p now .length [] := by
  rw [Scp.hostByte_no_gap _ _ _ (.inl h)]
  simp only [Scp.takeByte, h, if_true]
  rfl

/-- Another byte in HUNT is discarded. -/
theorem Scp.hostByte_discarded {p : Scp} (h : p.rx = .hunt) (now : Nat) {b : Byte} (hb : b ≠ 0xA5) :
    Scp.hostByte now b p = { p with rxLast := now } := by
  rw [Scp.hostByte_no_gap _ _ _ (.inl h)]
  simp only [Scp.takeByte, h, if_neg hb]

/-- A length outside 2 to 1026 is an error at its second byte. -/
theorem Scp.foldl_badLength {p : Scp} (h : p.rx = .hunt) (now : Nat) {n : Nat} (hn : n < 65536)
    (ho : n < 2 ∨ 1026 < n) :
    (0xA5 :: le 2 n).foldl (fun p b => Scp.hostByte now b p) p
      = { p with rxBytes := [], rxLast := now, frameErrors := satUp p.frameErrors } := by
  have hlength : frameLength [byte n, byte (n / 256)] = n := by
    simpa [le] using frameLength_le n hn []
  have hfirst : Scp.hostByte now (byte n) (Scp.inState p now .length []) = Scp.inState p now .length [byte n] := by
    rw [Scp.hostByte_inState]
    rfl
  have hout : ¬(2 ≤ n ∧ n ≤ 1026) := by omega
  simp only [le, List.foldl_cons, List.foldl_nil, Scp.hostByte_start h, hfirst]
  rw [Scp.hostByte_inState]
  simp only [Scp.takeByte, Scp.inState, List.cons_append, List.nil_append, hlength, if_neg hout, List.length_cons,
    List.length_nil, Scp.frameError, ← h]
  rfl

/-- Settles O18: a good frame is offered; the offer is decided by the two queues. -/
theorem goodHostFrameIsOffered : Obligations.GoodHostFrameIsOffered := by
  intro s kind tag payload h hp frame heard
  have hrun : exec frame s = .next { s with scp := Scp.offer ⟨kind, tag, payload⟩ heard } := by
    rw [exec_hostFrame_eq, Scp.foldl_goodFrame h s.now kind tag hp]
  rw [hrun]
  exact ⟨fun hc => by rw [Scp.offer_of_place (p := heard) _ hc],
    fun hc ho => by rw [Scp.offer_busy (p := heard) _ hc ho],
    fun hc ho => by rw [Scp.offer_overrun (p := heard) _ hc ho]⟩

/-! ### Receive errors and gaps (R190) -/

/-- A gap inside a frame is counted at the byte that ends it, which is taken in HUNT (log entry 28). -/
theorem exec_hostGap_inFrame {s : State} (h : s.scp.rx ≠ .hunt) (b : Byte) (more : List Byte) :
    exec (.hostGap (b :: more)) s = exec (.hostFrame (b :: more))
      { s with
        now := max s.now (s.scp.rxLast + 21)
        scp := { s.scp with rx := .hunt, rxBytes := [], frameErrors := satUp s.scp.frameErrors } } := by
  have hgap : Scp.hostByte (max s.now (s.scp.rxLast + 21)) b s.scp
      = Scp.hostByte (max s.now (s.scp.rxLast + 21)) b s.scp.frameError := by
    have hlate : (s.scp.inFrame && decide (s.scp.rxLast + Config.hostGap < max s.now (s.scp.rxLast + 21))) = true := by
      simp [Scp.inFrame, h, Config.hostGap]
    rw [Scp.hostByte_no_gap _ _ s.scp.frameError (.inl rfl), Scp.hostByte, if_pos hlate]
  rw [exec_hostGap_eq, waitGap_inFrame s h, exec_hostFrame_eq, exec_hostFrame_eq, List.foldl_cons, List.foldl_cons]
  rw [show Scp.hostByte (max s.now (s.scp.rxLast + 21)) b s.scp = _ from hgap]
  rfl

theorem exec_hostGap_hunt {s : State} (h : s.scp.rx = .hunt) (bytes : List Byte) :
    exec (.hostGap bytes) s = exec (.hostFrame bytes) s := by
  rw [exec_hostGap_eq, waitGap_hunt s h]

theorem waitGap_eq (s : State) : waitGap s =
    { s with now := if s.scp.rx = .hunt then s.now else max s.now (s.scp.rxLast + 21) } := by
  by_cases h : s.scp.rx = .hunt
  · rw [waitGap_hunt s h, if_pos h]
  · rw [waitGap_inFrame s h, if_neg h]

/-- Settles O19: each error and each ending of a gap by the bytes that make it. -/
theorem hostReceiveErrors : Obligations.HostReceiveErrors := by
  refine ⟨fun s kind tag c0 c1 payload h hp => ?_, fun s n h hn ho => ?_, fun s b h hb => ?_,
    fun s b more h => exec_hostGap_inFrame h b more, fun s bytes h => exec_hostGap_hunt h bytes,
    fun s bytes => ⟨_, (exec_hostGap_eq bytes s).trans (exec_hostFrame_eq bytes _), ?_⟩,
    fun s => ⟨fun h => ?_, fun h => ?_⟩, fun s h => ?_⟩
  · intro body hne
    rw [exec_hostFrame_eq, Scp.foldl_badCheck h s.now kind tag c0 c1 hp hne]
  · rw [exec_hostFrame_eq, Scp.foldl_badLength h s.now hn ho]
  · rw [exec_hostFrame_eq, List.foldl_cons, List.foldl_nil, Scp.hostByte_discarded h s.now hb]
  · rw [waitGap_eq]
  · exact exec_hostGap_hunt h []
  · exact (exec_hostGap_eq [] s).trans (congrArg _ (waitGap_inFrame s h))
  · intro later hunting
    let ended : Scp := { s.scp with rx := .hunt, rxBytes := [], frameErrors := satUp s.scp.frameErrors }
    have hgap (bytes : List Byte) (hb : bytes ≠ []) : exec (.hostGap bytes) s
        = .next { s with now := later, scp := bytes.foldl (fun p b => Scp.hostByte later b p) ended } := by
      obtain ⟨b, more, rfl⟩ := List.exists_cons_of_ne_nil hb
      exact (exec_hostGap_inFrame h b more).trans (exec_hostFrame_eq _ _)
    refine ⟨fun b hb => ?_, ?_, fun kind tag payload hp => ?_⟩
    · rw [hgap [b] (by simp), List.foldl_cons, List.foldl_nil, Scp.hostByte_discarded (p := ended) rfl later hb]
    · rw [hgap [0xA5] (by simp), List.foldl_cons, List.foldl_nil, Scp.hostByte_start (p := ended) rfl later]
      rfl
    · intro frame
      have hrun : exec frame s = .next { s with now := later, scp := Scp.offer ⟨kind, tag, payload⟩ hunting } := by
        rw [hgap _ (by simp [hostFrameBytes]), Scp.foldl_goodFrame (p := ended) rfl later kind tag hp]
      rw [hrun]
      exact ⟨fun hc => by rw [Scp.offer_of_place (p := hunting) _ hc],
        fun hc ho => by rw [Scp.offer_busy (p := hunting) _ hc ho],
        fun hc ho => by rw [Scp.offer_overrun (p := hunting) _ hc ho]⟩

/-! ### The oldest message (R194), and the layout of messages (R204 to R206) -/

theorem exec_messageSent_eq (s : State) : exec .messageSent s = .next (event Ev.messageSent s) := rfl

theorem event_messageSent_cons {s : State} {m : Message} {rest : List Message} (h : s.scp.outbound = m :: rest) :
    event Ev.messageSent s = { s with scp := { s.scp with outbound := rest }, hostTx := s.hostTx ++ m.bytes } := by
  have hrun : (Ev.start s).messageSent
      = ((Ev.start s).onScp fun p => { p with outbound := rest }).onHostTx m.bytes := by
    simp only [Ev.messageSent, Ev.start_toState, h]
  rw [event, hrun, Ev.finish_none _ rfl rfl rfl rfl]
  rfl

theorem event_messageSent_nil {s : State} (h : s.scp.outbound = []) : event Ev.messageSent s = s := by
  have hrun : (Ev.start s).messageSent = Ev.start s := by
    simp only [Ev.messageSent, Ev.start_toState, h]
  rw [event, hrun, Ev.finish_none _ rfl rfl rfl rfl]
  rfl

theorem Attr.prefailure_iff (a : Attr) :
    a.prefailure = true ↔ a = .sawCuts ∨ a = .glueFaults ∨ a = .pressCutoffs := by
  cases a <;> decide

/-- The bytes of a 4-byte number, one by one. -/
theorem le_four (n : Nat) : le 4 n = [byte n, byte (n / 256), byte (n / 65536), byte (n / 16777216)] := by
  simp only [le, Nat.div_div_eq_div_mul]

theorem le32s_of_fits {v : Int} (hl : -2147483648 ≤ v) (hh : v ≤ 2147483647) :
    le32s v = le 4 (v % 4294967296).toNat := if_pos ⟨hl, hh⟩

theorem le16s_of_fits {v : Int} (hl : -32768 ≤ v) (hh : v ≤ 32767) : le16s v = le 2 (v % 65536).toNat :=
  if_pos ⟨hl, hh⟩

/-- Settles O20: the message that is sent; each report's bytes are its layout. -/
theorem oldestMessageIsSent : Obligations.OldestMessageIsSent := by
  refine ⟨fun s m rest h => ?_, fun s h => ?_, fun _ _ _ _ => rfl, fun seq => ?_, ?_, ?_⟩
  · rw [exec_messageSent_eq, event_messageSent_cons h]
  · rw [exec_messageSent_eq, event_messageSent_nil h]
  · refine ⟨fun _ => rfl, fun _ _ _ _ _ => rfl, fun _ => rfl, fun _ => rfl, fun _ => rfl, fun _ _ _ _ _ _ _ => rfl,
      fun _ _ _ _ => rfl, fun _ _ _ => rfl, fun _ _ _ _ _ _ => rfl, fun _ _ _ _ => rfl, fun _ _ _ _ _ => rfl,
      fun _ _ _ => rfl, fun _ => rfl, fun _ _ => rfl, fun _ _ _ _ => rfl⟩
  · exact ⟨rfl, rfl, fun _ => rfl, rfl, rfl, rfl, rfl, rfl, Attr.prefailure_iff, rfl⟩
  · exact ⟨fun _ => BitVec.toNat_ofNat _ _, rfl, rfl, fun _ => rfl, le_four, fun _ => le32s_of_fits,
      fun _ => le16s_of_fits, bitSet_testBit⟩

/-! ### A command that waits (R191, R192, log entry 6) -/

/-- The row of a command of the queue runs the command of its kind. -/
theorem exec_rowOf (s : State) (c : HostCommand) :
    exec (s.rowOf c) s = .next (takeHost c (Ev.runCommand c) s) := by
  obtain ⟨kind, tag, payload⟩ := c
  have hkind {n : Nat} (h : kind.toNat = n) : kind = BitVec.ofNat 8 n := by rw [← h, BitVec.ofNat_toNat, BitVec.setWidth_eq]
  unfold State.rowOf
  split
  case h_26 => rfl
  case h_10 h =>
    obtain rfl := hkind h
    split <;> rfl
  case h_24 h =>
    obtain rfl := hkind h
    split <;> rfl
  case h_25 h =>
    obtain rfl := hkind h
    repeat' split
    all_goals rfl
  all_goals
    next h =>
      obtain rfl := hkind h
      rfl

theorem State.isNext_iff (s : State) (c : HostCommand) :
    s.isNext c = true ↔ s.scp.commands = [] ∨ s.scp.commands.head? = some c := by
  simp [State.isNext]

theorem State.replyPlace_iff (s : State) : s.replyPlace = true ↔ s.scp.outbound.length < 32 :=
  decide_eq_true_iff

/-- The oldest command waits for a reply place. -/
theorem takeHost_waits {s : State} {c : HostCommand} (run : Ev → Ev) (hc : s.scp.commands.head? = some c)
    (ho : 32 ≤ s.scp.outbound.length) : takeHost c run s = s := by
  have hplace : s.replyPlace = false := by
    rw [Bool.eq_false_iff, ne_eq, State.replyPlace_iff]
    exact Nat.not_lt.2 ho
  simp [takeHost, hplace, hc]

/-- A command whose turn has not come, or that finds no reply place on an empty queue, is offered. -/
theorem takeHost_offered {s : State} {c : HostCommand} (run : Ev → Ev)
    (h : s.scp.commands ≠ [] ∨ 32 ≤ s.scp.outbound.length) (hc : s.scp.commands.head? ≠ some c) :
    takeHost c run s = { s with scp := Scp.offer c s.scp } := by
  have hnot : ¬(s.isNext c && s.replyPlace) = true := by
    rw [Bool.and_eq_true, State.isNext_iff, State.replyPlace_iff]
    rintro ⟨hnext, hplace⟩
    exact h.elim (fun hne => hnext.elim hne hc) (Nat.not_le.2 hplace)
  rw [takeHost, if_neg hnot, if_neg (by simpa using hc), event, Ev.finish_none _ rfl rfl rfl rfl]
  rfl

/-- Settles O21: the command waits where it stands, or is offered. -/
theorem commandWaitsItsTurn : Obligations.CommandWaitsItsTurn := by
  intro s c
  rw [exec_rowOf]
  refine ⟨fun hc ho => by rw [takeHost_waits _ hc ho], fun h hc => ?_⟩
  rw [takeHost_offered _ h hc]
  exact ⟨fun hl => by rw [Scp.offer_of_place c hl], fun hl ho => by rw [Scp.offer_busy c hl ho],
    fun hl ho => by rw [Scp.offer_overrun c hl ho]⟩

end Sys2Proof.Machine
end

section
/-! PROOFS. The queries, the configuration items, and the mode check of every command (10_the_host_interface.md;
08_operating_modes_and_holds.md, R175). -/

namespace Sys2Proof.Machine

/-! ### Commands that are answered and change nothing else -/

/-- A command row whose command is only answered; the row's meaning is `takeHost` of its run by definition. -/
theorem next_answered {s : State} {c : HostCommand} {st : Status} {rs : List Byte} {run : Ev → Ev} (h : s.takes c)
    (hr : run s.taking = s.taking.reply c st rs) :
    (.next (takeHost c run s) : Host.Outcome State Fault Refusal) = .next (s.answered c st rs) :=
  congrArg _ (takeHost_answered h hr)

theorem Ev.runHlth_read {e : Ev} (tag : Byte) {rest : List Byte} (hl : 5 ≤ rest.length) :
    e.runHlth ⟨0x28, tag, 0 :: rest⟩ = e.reply ⟨0x28, tag, 0 :: rest⟩ .ok (Attr.all.flatMap e.attrBytes) :=
  if_neg (show ¬rest.length + 1 < 6 by omega)

theorem Ev.runHlth_status {e : Ev} (tag : Byte) {rest : List Byte} (hl : 5 ≤ rest.length) :
    e.runHlth ⟨0x28, tag, 1 :: rest⟩ = e.reply ⟨0x28, tag, 1 :: rest⟩ .ok e.wornBytes :=
  if_neg (show ¬rest.length + 1 < 6 by omega)

theorem Ev.runHlth_unnamed {e : Ev} (tag : Byte) {sub : Byte} (rest : List Byte) (hs : 4 ≤ sub.toNat) :
    e.runHlth ⟨0x28, tag, sub :: rest⟩ = e.reply ⟨0x28, tag, sub :: rest⟩ .range [] := by
  unfold Ev.runHlth
  dsimp only
  split
  case h_5 => rfl
  all_goals omega

/-- A kind byte of no command is answered UNKNOWN. -/
theorem Ev.runCommand_unknown {e : Ev} {c : HostCommand} (h : c.kind ∉ Instr.commandKinds) :
    e.runCommand c = e.reply c .unknown [] := by
  simp only [Instr.commandKinds, List.mem_cons, List.not_mem_nil, or_false, not_or, ← BitVec.toNat_inj] at h
  unfold Ev.runCommand
  split
  case h_26 => rfl
  all_goals simp_all

theorem wornBytes_eq (s : State) :
    let worn := [Attr.sawCuts, .glueFaults, .pressCutoffs].filter fun a => (s.hmn.live.read a).crossed
    s.wornBytes = [flagByte (worn ≠ []), byte (bitSet (worn.map fun a => a.number - 1))] := by
  intro worn
  have hflag : (!worn.isEmpty) = decide (worn ≠ []) := by cases worn <;> simp
  exact congrArg (fun b => [flagByte b, attrSetByte worn]) hflag

/-- Settles O23: each of these rows runs its command to one reply and nothing else. -/
theorem queriesAndUnknownChangeNothing : Obligations.QueriesAndUnknownChangeNothing := by
  intro s tag p worn cfg
  refine ⟨fun h => next_answered h ?_, fun h => next_answered h rfl,
    fun rest hl h => next_answered h (Ev.runHlth_read tag hl),
    fun rest hl h => next_answered h ((Ev.runHlth_status tag hl).trans
      (congrArg (fun w => s.taking.reply ⟨0x28, tag, 1 :: rest⟩ .ok w) (wornBytes_eq s))),
    fun sub rest hs h => next_answered h (Ev.runHlth_unnamed tag rest hs),
    fun kind h hk => next_answered h (Ev.runCommand_unknown hk)⟩
  · simp [Ev.runCfq, List.range, List.range.loop, ConfigItems.value, cfg]
    rfl

/-! ### STQ (R199) -/

theorem State.berthBytes_eq (s : State) (b : Nat) :
    s.berthBytes b = match s.carrierAt b with
      | some c => [1, flagByte (decide (b ∈ s.rcu.stranded)), c.release] ++ le 2 c.slot
      | none => [if s.reserved b then 2 else 0, flagByte (decide (b ∈ s.rcu.stranded)), 0, 0, 0] := by
  unfold State.berthBytes
  simp only [List.contains_eq_mem]
  cases s.carrierAt b <;> rfl

theorem State.berthBytes_length (s : State) (b : Nat) : (s.berthBytes b).length = 5 := by
  unfold State.berthBytes
  cases s.carrierAt b <;> rfl

/-- The tracker's byte of STQ (R115). -/
theorem Trk.shown_byte (t : Trk) :
    byte t.shown = if t.locked then 3 else if t.framing = .discard then 2 else if t.acquired = 0 then 0 else 1 := by
  unfold Trk.shown
  simp only [apply_ite byte]
  rfl

/-- The four calibration bytes of STQ (R158). -/
theorem Dfu.calibrationBytes (d : Dfu) :
    [byte d.cal.code, byte d.cal.point] ++ d.progress = match d.cal with
      | .none => [0, 0, 0, 0]
      | .running k => [1, byte k, byte d.phase.code, byte d.attempt]
      | .suspended k => [2, byte k, 0, byte d.attempt]
      | .done => [3, 0, 0, 0]
      | .failed => [4, 0, 0, 0] := by
  cases h : d.cal <;> simp only [Dfu.progress, h] <;> rfl

theorem Dfu.progress_length (d : Dfu) : d.progress.length = 2 := by
  unfold Dfu.progress
  cases d.cal <;> rfl

theorem flatMap_length_const {α β : Type} (l : List α) (f : α → List β) (n : Nat) (h : ∀ a, (f a).length = n) :
    (l.flatMap f).length = l.length * n := by
  rw [List.length_flatMap, List.map_congr_left fun a _ => h a, List.map_const', List.sum_replicate_nat]

theorem State.berthsBytes_length (s : State) : ((List.range 10).flatMap s.berthBytes).length = 50 := by
  rw [flatMap_length_const _ _ 5 s.berthBytes_length, List.length_range]

theorem inspectSlots_length (l : List Nat) : ((List.range 16).flatMap fun i => le 2 (l.getD i 0)).length = 32 := by
  rw [flatMap_length_const _ _ 2 fun i => le_length 2 _, List.length_range]

theorem State.stocksBytes_length (s : State) : ((List.range 8).flatMap fun lane => le 2 (s.stockOf lane)).length = 16 := by
  rw [flatMap_length_const _ _ 2 fun i => le_length 2 _, List.length_range]

/-- Settles O25: STQ answers and zeroes its five counters; the layout of its status is that of the model. -/
theorem stqReadsAndZeroesCounters : Obligations.StqReadsAndZeroesCounters := by
  intro s tag p h berth tracker calibration front t
  have hberth : berth = s.berthBytes := funext fun b => (s.berthBytes_eq b).symm
  have htracker : tracker = byte s.trk.shown := s.trk.shown_byte.symm
  have hcal : calibration = [byte s.dfu.cal.code, byte s.dfu.cal.point] ++ s.dfu.progress := s.dfu.calibrationBytes.symm
  refine ⟨?_, ?_, ?_⟩
  · have room : s.taking.scp.outbound.length < 32 := h.room
    have hrun : s.taking.runStq ⟨0x02, tag, p⟩ = (s.taking.reply ⟨0x02, tag, p⟩ .ok s.status).zeroCounters := rfl
    show Host.Outcome.next (takeHost _ (Ev.runStq ⟨0x02, tag, p⟩) s) = _
    rw [takeHost_taken h, hrun, Ev.reply_of_room _ _ _ room, Ev.finish_none _ rfl rfl rfl rfl]
    rfl
  · unfold State.status
    simp only [leCourse, inspectBytes]
    simp only [front]
    rw [hberth, htracker, hcal]
    simp only [List.append_assoc]
  · simp only [front, hberth, hcal, List.length_append, List.length_cons, List.length_nil, le_length, le32s_length,
      Dfu.progress_length, s.berthsBytes_length, inspectSlots_length, s.stocksBytes_length]

/-! ### CFG (R200) -/

/-- The range of each configuration item (R200). -/
def ConfigItems.InRange (n v : Nat) : Prop :=
  (n ∈ [1, 2, 11] ∧ v ≤ 1) ∨ (n = 3 ∧ 2 ≤ v ∧ v ≤ 100) ∨ (n = 4 ∧ 1 ≤ v ∧ v ≤ 100)
    ∨ (n = 5 ∧ 2 ≤ v ∧ v ≤ 50) ∨ (n = 6 ∧ 20 ≤ v ∧ v ≤ 600) ∨ (n = 7 ∧ 1 ≤ v ∧ v ≤ 60)
    ∨ (n = 8 ∧ 1 ≤ v ∧ v ≤ 255) ∨ (n = 9 ∧ v ≤ 2) ∨ (n = 10 ∧ v ∈ [1, 2, 4, 6, 10])

theorem Dir.code_ofCode {n : Nat} {d : Dir} (h : Dir.ofCode n = some d) : d.code = n := by
  unfold Dir.ofCode at h
  split at h <;> cases h <;> rfl

theorem RateSetting.code_ofCode {n : Nat} {r : RateSetting} (h : RateSetting.ofCode n = some r) : r.code = n := by
  unfold RateSetting.ofCode at h
  split at h <;> cases h <;> rfl

theorem switchOf_toNat {n : Nat} {b : Bool} (h : switchOf n = some b) : b.toNat = n := by
  unfold switchOf at h
  split at h <;> cases h <;> rfl

theorem Dir.ofCode_isSome_iff (n : Nat) : (Dir.ofCode n).isSome ↔ n ≤ 1 := by
  rcases n with _ | _ | n <;> simp [Dir.ofCode]

theorem RateSetting.ofCode_isSome_iff (n : Nat) : (RateSetting.ofCode n).isSome ↔ n ≤ 2 := by
  rcases n with _ | _ | _ | n <;> simp [RateSetting.ofCode]

theorem switchOf_isSome_iff (n : Nat) : (switchOf n).isSome ↔ n ≤ 1 := by
  rcases n with _ | _ | n <;> simp [switchOf]

theorem ConfigItems.set_value {c items : ConfigItems} {n v : Nat} (h : c.set n v = some items) : items.value n = v := by
  unfold ConfigItems.set at h
  split at h
  all_goals simp only [Option.map_eq_some_iff, Option.ite_none_right_eq_some, Option.some.injEq, reduceCtorEq] at h
  case h_1 => obtain ⟨d, hd, rfl⟩ := h; exact Dir.code_ofCode hd
  case h_2 | h_11 => obtain ⟨b, hb, rfl⟩ := h; exact switchOf_toNat hb
  case h_9 => obtain ⟨r, hr, rfl⟩ := h; exact RateSetting.code_ofCode hr
  all_goals obtain ⟨-, rfl⟩ := h; rfl

theorem ConfigItems.set_other {c items : ConfigItems} {n v j : Nat} (h : c.set n v = some items) (hj : j ≠ n) :
    items.value j = c.value j := by
  unfold ConfigItems.set at h
  split at h
  all_goals simp only [Option.map_eq_some_iff, Option.ite_none_right_eq_some, Option.some.injEq, reduceCtorEq] at h
  case h_1 | h_2 | h_9 | h_11 => obtain ⟨d, -, rfl⟩ := h; unfold ConfigItems.value; split <;> simp_all
  all_goals obtain ⟨-, rfl⟩ := h; unfold ConfigItems.value; split <;> simp_all

theorem ConfigItems.set_isSome_iff (c : ConfigItems) (n v : Nat) : (c.set n v).isSome ↔ ConfigItems.InRange n v := by
  unfold ConfigItems.set ConfigItems.InRange
  split
  case h_1 => simp [Dir.ofCode_isSome_iff]
  case h_2 | h_11 => simp [switchOf_isSome_iff]
  case h_9 => simp [RateSetting.ofCode_isSome_iff]
  case h_12 => simp_all
  all_goals simp

theorem Ev.runCfg_barred {e : Ev} (hi : e.settledIdle = false) (hm : e.rcu.mode ≠ .holding) (c : HostCommand) :
    e.runCfg c = e.reply c .mode [] := by
  simp [Ev.runCfg, Ev.refuse, hi, hm]

theorem Ev.runCfg_short {e : Ev} {c : HostCommand} (hw : e.settledIdle = true ∨ e.rcu.mode = .holding)
    (hl : c.payload.length < 3) : e.runCfg c = e.reply c .range [] := by
  have hm : ¬(!e.settledIdle && e.rcu.mode != .holding) = true := by simpa [or_iff_not_imp_left] using hw
  exact (if_neg hm).trans (if_pos hl)

/-- A value the item takes is written, with a RATE report where reduced rate turns, and answered. -/
theorem Ev.runCfg_set {e : Ev} {c : HostCommand} {items : ConfigItems}
    (hw : e.settledIdle = true ∨ e.rcu.mode = .holding) (hl : ¬c.payload.length < 3)
    (hs : e.scp.config.set (byteAt c.payload 0) (u16At c.payload 1) = some items) :
    e.runCfg c = (e.withRate .cfg fun e => e.onScp fun p => { p with config := items }).reply c .ok
      (byte (byteAt c.payload 0) :: le 2 (items.value (byteAt c.payload 0))) := by
  have hm : ¬(!e.settledIdle && e.rcu.mode != .holding) = true := by simpa [or_iff_not_imp_left] using hw
  rw [Ev.runCfg, if_neg hm, if_neg hl]
  simp only [hs]

/-- A value the item does not take, or an item outside the table, is refused; BATCH falls back to 1. -/
theorem Ev.runCfg_refused {e : Ev} {c : HostCommand} (hw : e.settledIdle = true ∨ e.rcu.mode = .holding)
    (hl : ¬c.payload.length < 3) (hs : e.scp.config.set (byteAt c.payload 0) (u16At c.payload 1) = none) :
    e.runCfg c = if byteAt c.payload 0 = 10 then
        (e.onScp fun p => { p with config := { p.config with batch := 1 } }).reply c .range []
      else e.reply c .range [] := by
  have hm : ¬(!e.settledIdle && e.rcu.mode != .holding) = true := by simpa [or_iff_not_imp_left] using hw
  rw [Ev.runCfg, if_neg hm, if_neg hl]
  simp only [hs, Ev.refuse]

/-- A command row whose command prompts no test. -/
theorem next_taken {s : State} {c : HostCommand} {run : Ev → Ev} {e : Ev} (h : s.takes c) (hr : run s.taking = e)
    (hf : e.finish = e) : (.next (takeHost c run s) : Host.Outcome State Fault Refusal) = .next e.toState := by
  rw [takeHost_taken h, hr, hf]

theorem byte_toNat (b : Byte) : byte b.toNat = b := by simp [byte]

/-- Settles O26: the model's `ConfigItems.set` succeeds where the value is in its item's range. -/
theorem cfgSetsOneItem : Obligations.CfgSetsOneItem := by
  intro s tag item v rest hv c n inRange h hw
  have hlen : ¬c.payload.length < 3 := by
    show ¬(le 2 v ++ rest).length + 1 < 3
    simp
  have hval : u16At c.payload 1 = v := (u16At_cons _ _ _).trans (u16At_le hv rest)
  have hset (hs : s.scp.config.set n v = none) : s.taking.scp.config.set (byteAt c.payload 0) (u16At c.payload 1) = none := by
    rw [hval]
    exact hs
  have hnone (hout : ¬inRange) : s.scp.config.set n v = none :=
    Option.not_isSome_iff_eq_none.1 fun k => hout ((s.scp.config.set_isSome_iff n v).1 k)
  refine ⟨fun hin => ?_, fun hout hn => ?_, fun hout hn => ?_⟩
  · obtain ⟨items, hitems⟩ := Option.isSome_iff_exists.1 ((s.scp.config.set_isSome_iff n v).2 hin)
    refine ⟨items, ConfigItems.set_value hitems, fun j hj => ConfigItems.set_other hitems hj, ?_⟩
    intro e e'
    have hrun : s.taking.runCfg c = e'.reply c .ok (item :: le 2 v) := by
      have hs : s.taking.scp.config.set (byteAt c.payload 0) (u16At c.payload 1) = some items := by
        rw [hval]
        exact hitems
      rw [Ev.runCfg_set hw hlen hs, show byteAt c.payload 0 = item.toNat from rfl, ConfigItems.set_value hitems,
        byte_toNat]
      rfl
    refine next_taken h hrun ?_
    obtain ⟨hsel, hxfer, hdrain, hretest⟩ : e'.selDue = false ∧ e'.xferDue = false ∧ e'.drainDue = false ∧ e'.retestDue = false := by
      simp only [e']
      split <;> exact ⟨rfl, rfl, rfl, rfl⟩
    exact Ev.finish_none _ hsel hxfer hdrain hretest
  · exact next_answered h ((Ev.runCfg_refused hw hlen (hset (hnone hout))).trans (if_neg hn))
  · have room : s.scp.outbound.length < 32 := h.room
    refine next_taken h ((Ev.runCfg_refused hw hlen (hset (hnone hout))).trans (if_pos hn)) ?_ |>.trans ?_
    · exact Ev.finish_none _ rfl rfl rfl rfl
    · rw [Ev.reply_of_room]
      · rfl
      · exact room

/-! ### The mode check (R175) and the fixed fields (R192, R205) -/

section
variable {e : Ev} (c : HostCommand)

/-- HLTH THRESH and HLTH RESET outside their modes. -/
theorem Ev.runHlth_barred (hi : e.settledIdle = false) (hm : e.rcu.mode ≠ .holding) {sub : Byte} {rest : List Byte}
    (hc : c.payload = sub :: rest) (hs : sub = 2 ∨ sub = 3) : e.runHlth c = e.reply c .mode [] := by
  rcases hs with rfl | rfl <;> simp [Ev.runHlth, Ev.refuse, hc, hi, hm]

theorem Ev.runCls_unsettled (h : e.settledIdle = false) : e.runCls c = e.reply c .mode [] := by
  simp [Ev.runCls, Ev.refuse, h]

theorem Ev.runAdv_unsettled (h : e.settledIdle = false) : e.runAdv c = e.reply c .mode [] := by
  simp [Ev.runAdv, Ev.refuse, h]

theorem Ev.runCal_unsettled (h : e.settledIdle = false) : e.runCal c = e.reply c .mode [] := by
  simp [Ev.runCal, Ev.refuse, h]

theorem Ev.runStow_unsettled (h : e.settledIdle = false) : e.runStow c = e.reply c .mode [] := by
  simp [Ev.runStow, Ev.refuse, h]

theorem Ev.runLane_stowed (h : e.rcu.mode = .stowed) : e.runLane c = e.reply c .mode [] := if_pos h
theorem Ev.runPap_stowed (h : e.rcu.mode = .stowed) : e.runPap c = e.reply c .mode [] := if_pos h
theorem Ev.runPld_stowed (h : e.rcu.mode = .stowed) : e.runPld c = e.reply c .mode [] := if_pos h
theorem Ev.runMark_stowed (h : e.rcu.mode = .stowed) : e.runMark c = e.reply c .mode [] := if_pos h
theorem Ev.runRearm_stowed (h : e.rcu.mode = .stowed) : e.runRearm c = e.reply c .mode [] := if_pos h
theorem Ev.runBin_stowed (h : e.rcu.mode = .stowed) : e.runBin c = e.reply c .mode [] := if_pos h

theorem Ev.runGo_barred (h : e.rcu.mode = .aborted ∨ e.rcu.mode = .stowing ∨ e.rcu.mode = .stowed) :
    e.runGo c = e.reply c .mode [] := by
  rcases h with h | h | h <;> simp [Ev.runGo, Ev.refuse, h]

/-- GO while the boom deploys, in LAYING and in DRAINING has nothing to do. -/
theorem Ev.runGo_done
    (h : (e.rcu.mode = .idle ∧ e.rcu.deploy = true) ∨ e.rcu.mode = .laying ∨ e.rcu.mode = .draining) :
    e.runGo c = e.reply c .ok [] := by
  rcases h with ⟨h, hd⟩ | h | h
  · simp [Ev.runGo, h, hd]
  · simp [Ev.runGo, h]
  · simp [Ev.runGo, h]

theorem Ev.runHalt_done (hl : e.rcu.mode ≠ .laying) (hh : e.rcu.mode ≠ .holding) :
    e.runHalt c = e.reply c .ok [] := by
  cases h : e.rcu.mode <;> simp_all [Ev.runHalt]

theorem Ev.runAbort_done (hl : e.rcu.mode ≠ .laying) (hh : e.rcu.mode ≠ .holding) (hd : e.rcu.mode ≠ .draining) :
    e.runAbort c = e.reply c .ok [] := by
  cases h : e.rcu.mode <;> simp_all [Ev.runAbort]

theorem Ev.runClear_barred (hh : e.rcu.mode ≠ .holding) (ha : e.rcu.mode ≠ .aborted) :
    e.runClear c = e.reply c .mode [] := if_pos ⟨hh, ha⟩

theorem Ev.runAccept_barred (h : e.rcu.mode ≠ .holding ∨ e.rcu.holds.inspect = false) :
    e.runAccept c = e.reply c .mode [] := if_pos h

theorem Ev.runPart_short (h : e.settledIdle = true) (hl : c.payload.length < 6) :
    e.runPart c = e.reply c .range [] := by
  simp [Ev.runPart, Ev.refuse, h, hl]

theorem Ev.runCls_short (h : e.settledIdle = true) (hl : c.payload.length < 1) :
    e.runCls c = e.reply c .range [0] := by
  simp only [Ev.runCls, h, if_pos hl, Bool.not_true, Bool.false_eq_true, if_false]

theorem Ev.runCeil_short (h : e.settledIdle = true) (hl : c.payload.length < 3) :
    e.runCeil c = e.reply c .range [] := by
  simp [Ev.runCeil, Ev.refuse, h, hl]

theorem Ev.runAdv_short (h : e.settledIdle = true) (hl : c.payload.length < 14) :
    e.runAdv c = e.reply c .range [] := by
  simp [Ev.runAdv, Ev.refuse, h, hl]

theorem Ev.runCal_short (h : e.settledIdle = true) (hl : c.payload.length < 1) :
    e.runCal c = e.reply c .range [] := by
  simp [Ev.runCal, Ev.refuse, h, List.length_eq_zero_iff.1 (Nat.lt_one_iff.1 hl)]

theorem Ev.runLane_short (h : e.rcu.mode ≠ .stowed) (hl : c.payload.length < 3) :
    e.runLane c = e.reply c .range [] := (if_neg h).trans (if_pos hl)

theorem Ev.runPld_short (h : e.rcu.mode ≠ .stowed) (hl : c.payload.length < 31) :
    e.runPld c = e.reply c .range [] := (if_neg h).trans (if_pos hl)

theorem Ev.runMark_short (h : e.rcu.mode ≠ .stowed) (hl : c.payload.length < 9) :
    e.runMark c = e.reply c .range [] := (if_neg h).trans (if_pos hl)

theorem Ev.runRearm_short (h : e.rcu.mode ≠ .stowed) (hl : c.payload.length < 2) :
    e.runRearm c = e.reply c .range [] := (if_neg h).trans (if_pos hl)

theorem Ev.runPrd_short (hl : c.payload.length < 3) : e.runPrd c = e.reply c .range [] := if_pos hl

theorem Ev.runClear_short (h : e.rcu.mode = .holding ∨ e.rcu.mode = .aborted) (hl : c.payload.length < 1) :
    e.runClear c = e.reply c .range [] := by
  have hm : ¬(e.rcu.mode ≠ .holding ∧ e.rcu.mode ≠ .aborted) := by tauto
  simp only [Ev.runClear, if_neg hm, List.length_eq_zero_iff.1 (Nat.lt_one_iff.1 hl)]
  rfl

theorem Ev.runAccept_short (h : e.rcu.mode = .holding) (hi : e.rcu.holds.inspect = true) (hl : c.payload.length < 2) :
    e.runAccept c = e.reply c .range [] := by
  simp [Ev.runAccept, Ev.refuse, h, hi, hl]

end

/-- Settles O27: each row is `takeHost` of its command's run, which the lemmas above read mode by mode. -/
theorem modeCheck : Obligations.ModeCheck := by
  intro s tag p gives m
  have answered {kind : Byte} {st : Status} {run : HostCommand → Ev → Ev} {i : Instr}
      (hi : exec i s = .next (takeHost ⟨kind, tag, p⟩ (run ⟨kind, tag, p⟩) s))
      (hr : run ⟨kind, tag, p⟩ s.taking = s.taking.reply ⟨kind, tag, p⟩ st []) : gives kind st i :=
    fun h => hi.trans (next_answered h hr)
  have barred (sub : Byte) (hi : s.settledIdle = false) (hm : m ≠ .holding) (hp : p.head? = some sub)
      (hs : sub = 2 ∨ sub = 3) : s.taking.runHlth ⟨0x28, tag, p⟩ = s.taking.reply ⟨0x28, tag, p⟩ .mode [] := by
    obtain ⟨rest, hp⟩ := List.head?_eq_some_iff.1 hp
    exact Ev.runHlth_barred _ hi hm hp hs
  refine ⟨fun hi => ⟨fun hm => ⟨answered rfl (Ev.runCfg_barred hi hm _),
      fun hp => answered rfl (barred 2 hi hm hp (.inl rfl)), fun hp => answered rfl (barred 3 hi hm hp (.inr rfl))⟩,
      answered rfl (Ev.runPart_unsettled hi _), answered rfl (Ev.runCls_unsettled _ hi),
      answered rfl (Ev.runCeil_unsettled hi _), answered rfl (Ev.runCeil_unsettled hi _),
      answered rfl (Ev.runAdv_unsettled _ hi), answered rfl (Ev.runCal_unsettled _ hi),
      answered rfl (Ev.runCal_unsettled _ hi), answered rfl (Ev.runStow_unsettled _ hi)⟩,
    fun hm => ⟨answered rfl (Ev.runLane_stowed _ hm), answered rfl (Ev.runPap_stowed _ hm),
      answered rfl (Ev.runPld_stowed _ hm), answered rfl (Ev.runMark_stowed _ hm),
      answered rfl (Ev.runRearm_stowed _ hm), answered rfl (Ev.runBin_stowed _ hm)⟩,
    fun hm => answered rfl (Ev.runGo_barred _ hm), fun hm => answered rfl (Ev.runGo_done _ hm),
    fun hl hh => answered rfl (Ev.runHalt_done _ hl hh), fun hl hh hd => answered rfl (Ev.runAbort_done _ hl hh hd),
    fun hh ha => answered rfl (Ev.runClear_barred _ hh ha), fun h => answered rfl (Ev.runAccept_barred _ h),
    fun hi => ⟨fun hl => answered rfl (Ev.runPart_short _ hi hl), fun hl h => next_answered h (Ev.runCls_short _ hi hl),
      fun hl => ⟨answered rfl (Ev.runCeil_short _ hi hl), answered rfl (Ev.runCeil_short _ hi hl)⟩,
      fun hl => answered rfl (Ev.runAdv_short _ hi hl),
      fun hl => ⟨answered rfl (Ev.runCal_short _ hi hl), answered rfl (Ev.runCal_short _ hi hl)⟩⟩,
    fun hm => ⟨fun hl => answered rfl (Ev.runLane_short _ hm hl), fun hl => answered rfl (Ev.runPld_short _ hm hl),
      fun hl => answered rfl (Ev.runMark_short _ hm hl), fun hl => answered rfl (Ev.runRearm_short _ hm hl)⟩,
    fun hw => ⟨fun hl => answered rfl (Ev.runCfg_short hw hl),
      fun hl => ⟨answered rfl (runHlth_short s tag p hl (hw.imp_right .inl)),
        answered rfl (runHlth_short s tag p hl (hw.imp_right .inl))⟩⟩,
    fun hl => answered rfl (Ev.runPrd_short _ hl),
    fun hl h2 h3 => ⟨answered rfl (runHlth_short s tag p hl (.inr (.inr ⟨h2, h3⟩))),
      answered rfl (runHlth_short s tag p hl (.inr (.inr ⟨h2, h3⟩)))⟩,
    fun hm hl => answered rfl (Ev.runClear_short _ hm hl), fun hm hi hl => answered rfl (Ev.runAccept_short _ hm hi hl)⟩

end Sys2Proof.Machine
end

section
/-! PROOFS. The plan commands that load the tables (01_the_plan_table.md): CLS, LANE, PAP, PLD, and BIN. -/

namespace Sys2Proof.Machine

/-- A command row whose command may prompt tests. -/
theorem next_effect {s : State} {c : HostCommand} {run : Ev → Ev} {e : Ev} (h : s.takes c) (hr : run s.taking = e) :
    (.next (takeHost c run s) : Host.Outcome State Fault Refusal) = .next e.finish.toState := by
  rw [takeHost_taken h, hr]

/-! ### The items of a payload -/

theorem completeItems_of_short {n : Nat} {bs : List Byte} (h : bs.length < n) : completeItems n bs = [] := by
  rw [completeItems, Nat.div_eq_of_lt h]
  rfl

theorem completeItems_append {n : Nat} (hn : 0 < n) {item : List Byte} (h : item.length = n) (bs : List Byte) :
    completeItems n (item ++ bs) = item :: completeItems n bs := by
  have hcount : (item ++ bs).length / n = bs.length / n + 1 := by
    rw [List.length_append, h, Nat.add_comm, Nat.add_div_right _ hn]
  have hdrop (i : Nat) : (item ++ bs).drop ((i + 1) * n) = bs.drop (i * n) := by
    rw [List.drop_append, h, Nat.succ_mul, Nat.add_sub_cancel, List.drop_of_length_le (by rw [h]; omega),
      List.nil_append]
  rw [completeItems, hcount, List.range_succ_eq_map]
  simp [h, hdrop, completeItems, Function.comp_def]

/-- The complete items of a payload are the items it is made of. -/
theorem completeItems_flatten {n : Nat} (hn : 0 < n) {tail : List Byte} (ht : tail.length < n) (items : List (List Byte))
    (h : ∀ i ∈ items, i.length = n) : completeItems n (items.flatten ++ tail) = items := by
  induction items with
  | nil => exact completeItems_of_short ht
  | cons item items ih =>
    rw [List.flatten_cons, List.append_assoc, completeItems_append hn (h item List.mem_cons_self),
      ih fun i hi => h i (List.mem_cons_of_mem _ hi)]

theorem flagByte_testBit (b : Bool) : (flagByte b).toNat.testBit 0 = b := by cases b <;> rfl

/-! ### CLS (R9, R10) -/

theorem ClassRecord.ofBytes_read {len wid hei : Nat} (hlen : len < 65536) (hwid : wid < 65536) (hhei : hei < 65536)
    (lane glue : Byte) (cut defined : Bool) :
    ClassRecord.ofBytes (le 2 len ++ (le 2 wid ++ (le 2 hei ++ [lane, glue, flagByte cut, flagByte defined]))) =
      ⟨len, wid, hei, lane.toNat, glue.toNat, cut, defined⟩ := by
  simp [ClassRecord.ofBytes, u16At_le, u16At_after_le, byteAt_after_le, flagAt, byteAt_cons, flagByte_testBit, *,
    -Nat.testBit_zero]

theorem EntryState.open_iff (st : EntryState) : st.open = true ↔ st = .planned ∨ st = .faulted := by
  cases st <;> simp [EntryState.open]

theorem Pls.classConflict_iff (p : Pls) (i : Nat) (r : ClassRecord) : p.classConflict i r = true ↔
    ∃ q ∈ p.plan, q.2.cls = i ∧ (q.2.state = .planned ∨ q.2.state = .faulted)
      ∧ (r.defined = false ∨ (r.cuttable = false ∧ q.2.cut ≠ none) ∨ ∃ n, q.2.cut = some n ∧ r.length ≤ n) := by
  rw [Pls.classConflict, List.any_eq_true]
  refine exists_congr fun q => and_congr_right fun _ => ?_
  cases q.2.cut <;> simp [EntryState.open_iff, and_assoc, or_assoc]

theorem Pls.writeClasses_nil (p : Pls) (i k : Nat) : p.writeClasses [] i k = (p, k, .ok) := rfl

theorem Pls.writeClasses_refused {p : Pls} {r : ClassRecord} {i : Nat} {st : Status} (h : p.classStatus i r = st)
    (hst : st ≠ .ok) (rs : List ClassRecord) (k : Nat) : p.writeClasses (r :: rs) i k = (p, k, st) := by
  simp only [Pls.writeClasses, h, if_neg hst]

theorem Pls.writeClasses_written {p : Pls} {r : ClassRecord} {i : Nat} (h : p.classStatus i r = .ok)
    (rs : List ClassRecord) (k : Nat) : p.writeClasses (r :: rs) i k =
      Pls.writeClasses rs (i + 1) (k + 1) { p with classes := Table.writeD p.classes i r .blank } := by
  simp only [Pls.writeClasses, h, if_true]

/-- The fields of a class record are in their ranges (R8, R9). -/
def ClassRecord.Fits (i : Nat) (r : ClassRecord) : Prop :=
  let size (n : Nat) := 200 ≤ n ∧ n ≤ 6000
  i ≤ 31 ∧ size r.length ∧ size r.width ∧ size r.height ∧ r.width ≤ r.length ∧ r.lane ≤ 7 ∧ 1 ≤ r.glue ∧ r.glue ≤ 3

theorem Pls.classStatus_eq (p : Pls) (i : Nat) (r : ClassRecord) : (¬r.Fits i → p.classStatus i r = .range)
    ∧ (r.Fits i → p.classStatus i r = if p.classConflict i r then .cls else .ok) := by
  unfold Pls.classStatus ClassRecord.Fits
  extract_lets size sizeOk
  have hsize (n : Nat) : sizeOk n = true ↔ size n := by simp [sizeOk, size]
  have hfields : (!(sizeOk r.length && sizeOk r.width && sizeOk r.height && r.width ≤ r.length && r.lane ≤ 7 && 1 ≤ r.glue
      && r.glue ≤ 3)) = true ↔ ¬(size r.length ∧ size r.width ∧ size r.height ∧ r.width ≤ r.length ∧ r.lane ≤ 7
      ∧ 1 ≤ r.glue ∧ r.glue ≤ 3) := by
    simp only [Bool.not_eq_true', Bool.eq_false_iff, ne_eq, Bool.and_eq_true, decide_eq_true_eq, hsize, and_assoc]
  by_cases hi : 31 < i
  · exact ⟨fun _ => if_pos hi, fun hf => absurd hf.1 (by omega)⟩
  · have hle : i ≤ 31 := by omega
    rw [if_neg hi]
    exact ⟨fun hf => if_pos (hfields.2 fun h => hf ⟨hle, h⟩), fun hf => if_neg fun h => hfields.1 h hf.2⟩

/-- CLS in settled IDLE: its start index decides, then the walk. -/
theorem Ev.runCls_settled {e : Ev} (h : e.settledIdle = true) (tag start : Byte) (body : List Byte) :
    let c : HostCommand := ⟨0x11, tag, start :: body⟩
    let w := e.pls.writeClasses ((completeItems 10 body).map ClassRecord.ofBytes) start.toNat 0
    e.runCls c = if 31 < start.toNat then e.reply c .range [0] else (e.onPls fun _ => w.1).reply c w.2.2 [byte w.2.1] := by
  simp [Ev.runCls, h]

/-- Settles O29: the items of the payload, the walk of the records, and the status of one record. -/
theorem clsWritesRecords : Obligations.ClsWritesRecords := by
  refine ⟨?_, fun n items tail hn hi ht => completeItems_flatten hn ht items hi,
    fun len wid hei lane glue cut defined hl hw hh => ClassRecord.ofBytes_read hl hw hh lane glue cut defined,
    fun p i k => rfl, ?_⟩
  · intro s tag start body c w h hs
    refine ⟨fun hr => ?_, fun hr => ?_⟩
    · exact next_answered h ((Ev.runCls_settled hs tag start body).trans (if_pos hr))
    · exact congrArg _ (takeHost_answered_onPls (f := fun _ => w.1) h
        ((Ev.runCls_settled hs tag start body).trans (if_neg (by omega))))
  · intro p r rs i k size fits conflict
    obtain ⟨hrange, hstatus⟩ := p.classStatus_eq i r
    have hconflict : p.classConflict i r = true ↔ conflict := p.classConflict_iff i r
    exact ⟨fun hf => Pls.writeClasses_refused (hrange hf) (by decide) rs k,
      fun hf hc => Pls.writeClasses_refused ((hstatus hf).trans (if_pos (hconflict.2 hc))) (by decide) rs k,
      fun hf hc => Pls.writeClasses_written ((hstatus hf).trans (if_neg fun k => hc (hconflict.1 k))) rs k⟩

/-! ### LANE (R12) and BIN (R90) -/

theorem u16At_second {n : Nat} (h : n < 65536) (b : Byte) (rest : List Byte) : u16At (b :: (le 2 n ++ rest)) 1 = n :=
  (u16At_cons _ _ _).trans (u16At_le h rest)

theorem State.taking_runLane {s : State} (h : s.rcu.mode ≠ .stowed) (tag lane : Byte) {count : Nat}
    (hc : count < 65536) (rest : List Byte) :
    let c : HostCommand := ⟨0x12, tag, lane :: (le 2 count ++ rest)⟩
    s.taking.runLane c = if 7 < lane.toNat ∨ 999 < count then s.taking.reply c .range [] else
      { s.taking with
        pls := { s.pls with stocks := Table.writeD s.pls.stocks lane.toNat count 0 }
        rsl := { s.rsl with starved := s.rsl.starved.filter (· != lane.toNat) }
        selDue := true }.reply c .ok [] := by
  have hlen : ¬(lane :: (le 2 count ++ rest)).length < 3 := by simp
  have hm : ¬s.taking.rcu.mode = .stowed := h
  simp only [Ev.runLane, if_neg hm, if_neg hlen, byteAt_zero, u16At_second hc]
  rfl

/-- Settles O30: both commands are equations of their runs; LANE alone prompts a test. -/
theorem laneAndBinSetTheirCounts : Obligations.LaneAndBinSetTheirCounts := by
  refine ⟨?_, fun s tag p h => ⟨fun hm => next_answered h (Ev.runBin_stowed _ hm), fun hm => ?_⟩⟩
  · intro s tag lane count rest hcount c h
    refine ⟨fun hm => next_answered h (Ev.runLane_stowed _ hm), fun hm => ⟨fun hr => ?_, fun hl hc => ?_⟩⟩
    · exact next_answered h ((State.taking_runLane hm tag lane hcount rest).trans (if_pos hr))
    · have hrun := (State.taking_runLane hm tag lane hcount rest).trans (if_neg (by omega))
      exact next_effect h hrun
  · have room : s.scp.outbound.length < 32 := h.room
    have hrun : s.taking.runBin ⟨0x26, tag, p⟩ =
        ((s.taking.onBtc fun t => { t with bin := 0 }).dropHold .binFull).reply ⟨0x26, tag, p⟩ .ok [] := if_neg hm
    refine (next_taken h hrun (Ev.finish_none _ rfl rfl rfl rfl)).trans ?_
    rw [Ev.reply_of_room _ _ _ room]
    rfl

/-! ### PAP and PLD (R18 to R21) -/

theorem Pls.bearerFits_iff (p : Pls) (f : EntryFields) (slot b : Nat) : p.bearerFits f slot b = true ↔
    b ≤ 1023 ∧ b ≠ slot ∧ ∃ eb, Table.read p.plan b = some eb ∧ eb.station = f.station ∧ eb.course + 1 = f.course := by
  have hb : b < 1024 ↔ b ≤ 1023 := by omega
  unfold Pls.bearerFits
  cases Table.read p.plan b <;> simp [hb, and_assoc]

theorem distinct_iff (l : List Nat) : distinct l = true ↔ l.Nodup := by
  induction l with
  | nil => simp [distinct]
  | cons n l ih => simp [distinct, ih]

theorem EntryFields.cutOutside_iff (f : EntryFields) (cls : ClassRecord) :
    f.cutOutside cls = true ↔ ∃ n ∈ f.cut, n < 400 ∨ cls.length ≤ n := by
  unfold EntryFields.cutOutside
  cases f.cut <;> simp

/-- The checks of R18 in their order. -/
theorem Pls.entryStatus_eq (p : Pls) (slot : Nat) (f : EntryFields) :
    let cls := Table.readD p.classes f.cls .blank
    p.entryStatus slot f =
      if 63 < f.station ∨ 255 < f.course ∨ 4095 < f.seq ∨ f.target.yaw < -18000 ∨ 17999 < f.target.yaw
          ∨ 3 < f.bearerCount then .range
      else if cls.defined = false then .cls
      else if f.cut ≠ none ∧ cls.cuttable = false then .cls
      else if ∃ n ∈ f.cut, n < 400 ∨ cls.length - 1 < n then .range
      else if (∃ b ∈ f.bearers, ¬(b ≤ 1023 ∧ b ≠ slot ∧ ∃ eb, Table.read p.plan b = some eb ∧ eb.station = f.station
          ∧ eb.course + 1 = f.course)) ∨ ¬f.bearers.Nodup then .bearer
      else .ok := by
  intro cls
  have hdefined : (!cls.defined) = true ↔ cls.defined = false := by simp
  have hcuttable : (f.cut.isSome = true ∧ cls.cuttable = false) ↔ (f.cut ≠ none ∧ cls.cuttable = false) := by
    rw [Option.isSome_iff_ne_none]
  have hcut : f.cutOutside cls = true ↔ ∃ n ∈ f.cut, n < 400 ∨ cls.length - 1 < n := by
    rw [EntryFields.cutOutside_iff]
    exact exists_congr fun n => and_congr_right fun _ => by omega
  have hbearers : (!(f.bearers.all (p.bearerFits f slot) && distinct f.bearers)) = true
      ↔ (∃ b ∈ f.bearers, ¬(b ≤ 1023 ∧ b ≠ slot ∧ ∃ eb, Table.read p.plan b = some eb ∧ eb.station = f.station
          ∧ eb.course + 1 = f.course)) ∨ ¬f.bearers.Nodup := by
    rw [Bool.not_eq_true', Bool.eq_false_iff, ne_eq, Bool.and_eq_true, not_and_or, distinct_iff, List.all_eq_true]
    simp only [Pls.bearerFits_iff, not_forall, exists_prop]
  unfold Pls.entryStatus
  simp only [hdefined, hcuttable, hcut, hbearers, cls]

/-- Writing an entry: the table, what the change prompts, and a SKIPPED report where it is skipped at once (R19). -/
theorem Ev.writeEntry_eq (e : Ev) (slot : Nat) (f : EntryFields) :
    let written : Ev := { e with
      toState := e.toState.withEntry slot f.entry
      selDue := e.selDue || decide (f.station = e.rcu.station)
      retestDue := e.retestDue || (e.toState.withEntry slot f.entry).headWaitsFor slot }
    e.writeEntry slot f = if f.marks.skip then written.report (.skipped [slot]) else written := by
  unfold Ev.writeEntry
  rw [Ev.noteChange_eq]
  rfl

/-- Settles O32: the checks as the ladder they are, and the write through `Ev.writeEntry_eq`. -/
theorem entryChecksAndWriting : Obligations.EntryChecksAndWriting := by
  refine ⟨fun p slot f => p.entryStatus_eq slot f, ?_⟩
  intro e slot f en
  have hwrite := e.writeEntry_eq slot f
  refine ⟨fun hs => ?_, fun hs => ?_, fun hst => ?_⟩
  · rw [hwrite, if_neg (by simp [hs])]
    rfl
  · rw [hwrite, if_pos hs]
    exact ⟨rfl, rfl⟩
  · have hsel : (e.selDue || decide (f.station = e.rcu.station)) = true := by simp [hst]
    rw [hwrite]
    split <;> exact hsel

/-- The number of the entries, the room and the walk decide a PAP (R20). -/
theorem Ev.runPap_eq {e : Ev} (h : e.rcu.mode ≠ .stowed) (c : HostCommand) :
    let fs := (completeItems 29 c.payload).map EntryFields.ofBytes
    let w := e.appendEntries fs 0
    e.runPap c = if e.pls.run < e.pls.ringCount + fs.length then e.reply c .full (le 2 0)
      else (w.1.refreshCourse .event).reply c w.2.2 (le 2 w.2.1) := by
  simp only [Ev.runPap, if_neg h]

theorem byteAt_prefix {a : List Byte} (b : List Byte) {i : Nat} (h : i < a.length) : byteAt (a ++ b) i = byteAt a i := by
  simp [byteAt, List.getD_eq_getElem?_getD, List.getElem?_append_left h]

theorem take_drop_prefix {a : List Byte} (b : List Byte) {i n : Nat} (h : i + n ≤ a.length) :
    ((a ++ b).drop i).take n = (a.drop i).take n := by
  rw [List.drop_append_of_le_length (by omega), List.take_append_of_le_length (by simp; omega)]

theorem u16At_prefix {a : List Byte} (b : List Byte) {i : Nat} (h : i + 2 ≤ a.length) : u16At (a ++ b) i = u16At a i :=
  congrArg unle (take_drop_prefix b h)

theorem u32At_prefix {a : List Byte} (b : List Byte) {i : Nat} (h : i + 4 ≤ a.length) : u32At (a ++ b) i = u32At a i :=
  congrArg unle (take_drop_prefix b h)

/-- The fields of a loaded entry stand in its 29 bytes. -/
theorem EntryFields.ofBytes_prefix {item : List Byte} (h : item.length = 29) (rest : List Byte) :
    EntryFields.ofBytes (item ++ rest) = EntryFields.ofBytes item := by
  simp [EntryFields.ofBytes, s32At, s16At, byteAt_prefix, u16At_prefix, u32At_prefix, h]

theorem Ev.appendEntries_refused {e : Ev} {f : EntryFields}
    (h : e.pls.entryStatus (e.pls.ringSlot e.pls.ringCount) f ≠ .ok) (fs : List EntryFields) (k : Nat) :
    e.appendEntries (f :: fs) k = (e, k, e.pls.entryStatus (e.pls.ringSlot e.pls.ringCount) f) := if_neg h

theorem Ev.appendEntries_written {e : Ev} {f : EntryFields}
    (h : e.pls.entryStatus (e.pls.ringSlot e.pls.ringCount) f = .ok) (fs : List EntryFields) (k : Nat) :
    e.appendEntries (f :: fs) k = Ev.appendEntries fs (k + 1)
      ((e.writeEntry (e.pls.ringSlot e.pls.ringCount) f).onPls fun p => { p with ringCount := p.ringCount + 1 }) := if_pos h

theorem Pls.pldBarred_iff (p : Pls) (slot : Nat) : p.pldBarred slot = true ↔
    (p.region slot = .run ∧ Table.read p.plan slot = none) ∨ ∃ en ∈ Table.read p.plan slot, en.state ≠ .planned := by
  unfold Pls.pldBarred
  cases Table.read p.plan slot <;> simp

theorem Pls.pldMoves_iff (p : Pls) (slot : Nat) (f : EntryFields) : p.pldMoves slot f = true ↔
    (∃ en ∈ Table.read p.plan slot, en.station ≠ f.station ∨ en.course ≠ f.course)
      ∧ ∃ q ∈ p.plan, q.1 ≠ slot ∧ slot ∈ q.2.bearers := by
  unfold Pls.pldMoves Pls.namedByOther
  cases Table.read p.plan slot <;> simp [and_comm]

/-- The checks of PLD once the slot is known to stand in reach (R21). -/
theorem Pls.pldStatus_within {p : Pls} {slot : Nat} (f : EntryFields) (hs : slot ≤ 1023)
    (hr : p.region slot = .run → p.insideRing slot = true) :
    p.pldStatus slot f = if p.pldBarred slot then .state
      else if p.entryStatus slot f ≠ .ok then p.entryStatus slot f
      else if p.pldMoves slot f then .bearer else .ok := by
  have hslot : ¬(p.region slot = .run ∧ p.insideRing slot = false) := fun ⟨h1, h2⟩ => by simp [hr h1] at h2
  rw [Pls.pldStatus, if_neg (by omega), if_neg hslot]

/-- The checks of PLD decide; then the entry is written and the active course read again (R21, R33). -/
theorem State.taking_runPld {s : State} (h : s.rcu.mode ≠ .stowed) (tag : Byte) {slot : Nat} (hs : slot < 65536)
    {item : List Byte} (hi : item.length = 29) (rest : List Byte) :
    let c : HostCommand := ⟨0x16, tag, le 2 slot ++ (item ++ rest)⟩
    let f := EntryFields.ofBytes item
    let st := s.pls.pldStatus slot f
    s.taking.runPld c = if st = .ok then ((s.taking.writeEntry slot f).refreshCourse .event).reply c .ok []
      else s.taking.reply c st [] := by
  have hm : ¬s.taking.rcu.mode = .stowed := h
  have hlen : ¬(le 2 slot ++ (item ++ rest)).length < 31 := by simp [hi]; omega
  have hdrop : (le 2 slot ++ (item ++ rest)).drop 2 = item ++ rest := rfl
  simp only [Ev.runPld, Ev.refuse, if_neg hm, if_neg hlen, u16At_le hs, hdrop, EntryFields.ofBytes_prefix hi]
  rfl

/-- Settles O33: PAP by its room and its walk, PLD by the ladder of its checks. -/
theorem papAndPldLoadEntries : Obligations.PapAndPldLoadEntries := by
  refine ⟨?_, fun e k => rfl, ?_, ?_⟩
  · intro s tag p c fs w h hm
    have hrun := Ev.runPap_eq (e := s.taking) hm c
    exact ⟨fun hfull => next_answered h (hrun.trans (if_pos hfull)),
      fun hroom => next_effect h (hrun.trans (if_neg (Nat.not_lt.2 hroom)))⟩
  · intro e f fs k slot st w
    exact ⟨fun hst => Ev.appendEntries_refused hst fs k, fun hst => Ev.appendEntries_written hst fs k⟩
  · intro s tag slot item rest hs hi c f gives old run h hm
    have hrun := State.taking_runPld hm tag hs hi rest
    have refused {st : Status} (hst : s.pls.pldStatus slot f = st) (hne : st ≠ .ok) : gives st := by
      subst hst
      exact next_answered h (hrun.trans (if_neg hne))
    refine ⟨fun hr => refused (if_pos hr) (by decide), fun hr hrun' hin => ?_, fun hr hin => ⟨fun hb => ?_, fun ho hp => ?_⟩⟩
    · exact refused ((if_neg (by omega)).trans (if_pos ⟨hrun', hin⟩)) (by decide)
    · refine refused ?_ (show Status.state ≠ .ok by decide)
      rw [Pls.pldStatus_within f hr hin, if_pos ((s.pls.pldBarred_iff slot).2 hb)]
    · intro st moves
      have hbarred : ¬s.pls.pldBarred slot = true := by
        rw [Pls.pldBarred_iff]
        rintro (⟨hr, hn⟩ | ⟨en, hen, hne⟩)
        · exact ho hr hn
        · exact hne (hp en hen)
      have hmoves : s.pls.pldMoves slot f = true ↔ moves := s.pls.pldMoves_iff slot f
      have hstatus := Pls.pldStatus_within f hr hin
      rw [if_neg hbarred] at hstatus
      refine ⟨fun hst => refused (hstatus.trans (if_pos hst)) hst, fun hst hmv => ?_, fun hst hmv => ?_⟩
      · exact refused (hstatus.trans ((if_neg (not_not.2 hst)).trans (if_pos (hmoves.2 hmv)))) (by decide)
      · have hok : s.pls.pldStatus slot f = .ok :=
          hstatus.trans ((if_neg (not_not.2 hst)).trans (if_neg fun k => hmv (hmoves.1 k)))
        exact next_effect h (hrun.trans (if_pos hok))

/-! ### The fields of a load read back (R205) -/

theorem s32At_cons (b : Byte) (p : List Byte) (i : Nat) : s32At (b :: p) (i + 1) = s32At p i := rfl
theorem s16At_cons (b : Byte) (p : List Byte) (i : Nat) : s16At (b :: p) (i + 1) = s16At p i := rfl

theorem byteAt_after {a : List Byte} (b : List Byte) {i : Nat} (h : a.length ≤ i) :
    byteAt (a ++ b) i = byteAt b (i - a.length) := by
  have := byteAt_append a b a.length (i - a.length) rfl
  rwa [Nat.add_sub_cancel' h] at this

theorem u16At_after {a : List Byte} (b : List Byte) {i : Nat} (h : a.length ≤ i) :
    u16At (a ++ b) i = u16At b (i - a.length) := by
  have := u16At_append a b a.length (i - a.length) rfl
  rwa [Nat.add_sub_cancel' h] at this

theorem u32At_after {a : List Byte} (b : List Byte) {i : Nat} (h : a.length ≤ i) :
    u32At (a ++ b) i = u32At b (i - a.length) := by
  have := u32At_append a b a.length (i - a.length) rfl
  rwa [Nat.add_sub_cancel' h] at this

theorem s32At_after {a : List Byte} (b : List Byte) {i : Nat} (h : a.length ≤ i) :
    s32At (a ++ b) i = s32At b (i - a.length) := congrArg (signedOf 32) (u32At_after b h)

theorem s16At_after {a : List Byte} (b : List Byte) {i : Nat} (h : a.length ≤ i) :
    s16At (a ++ b) i = s16At b (i - a.length) := congrArg (signedOf 16) (u16At_after b h)

theorem Marks.ofByte_code (m : Marks) : Marks.ofByte (byte m.code).toNat = m := by
  obtain ⟨hold, skip, inspect⟩ := m
  cases hold <;> cases skip <;> cases inspect <;> rfl

theorem lengthOf_getD {c : Option Nat} (h : ∀ n ∈ c, 0 < n) : lengthOf (c.getD 0) = c := by
  cases c with
  | none => rfl
  | some n => exact if_neg (h n rfl).ne'

theorem byte_toNat_of_lt {n : Nat} (h : n < 256) : (byte n).toNat = n := by
  simp [byte, Nat.mod_eq_of_lt h]

/-- The four quantities of a pose stand one after the other. -/
theorem poseBytes_read {t : Pose} (hx : -2147483648 ≤ t.x ∧ t.x ≤ 2147483647) (hy : -2147483648 ≤ t.y ∧ t.y ≤ 2147483647)
    (hz : -2147483648 ≤ t.z ∧ t.z ≤ 2147483647) (hw : -32768 ≤ t.yaw ∧ t.yaw ≤ 32767) (rest : List Byte) :
    (⟨s32At (poseBytes t ++ rest) 0, s32At (poseBytes t ++ rest) 4, s32At (poseBytes t ++ rest) 8,
      s16At (poseBytes t ++ rest) 12⟩ : Pose) = t := by
  simp only [poseBytes, List.append_assoc]
  rw [s32At_le _ hx.1 hx.2]
  simp [s32At_after, s16At_after, s32At_le, s16At_le, le32s_length, *]

theorem poseBytes_length (t : Pose) : (poseBytes t).length = 14 := by simp [poseBytes, le32s_length, le16s_length]

/-- The fields of a load before, in and after its 14 bytes of pose. -/
theorem EntryFields.ofBytes_parts {station course seq cls : Nat} (hst : station < 256) (hco : course < 256)
    (hseq : seq < 65536) (hcls : cls < 256) {pose : List Byte} (hp : pose.length = 14) (tail : List Byte) :
    EntryFields.ofBytes (byte station :: byte course :: (le 2 seq ++ byte cls :: (pose ++ tail)))
      = { station := station, course := course, seq := seq, cls := cls
          target := ⟨s32At (pose ++ tail) 0, s32At (pose ++ tail) 4, s32At (pose ++ tail) 8, s16At (pose ++ tail) 12⟩
          cut := lengthOf (u16At tail 0), bearerCount := byteAt tail 2
          bearers := [u16At tail 3, u16At tail 5, u16At tail 7].take (byteAt tail 2), marks := .ofByte (byteAt tail 9) } := by
  simp [EntryFields.ofBytes, byteAt_cons, u16At_cons, s32At_cons, s16At_cons, byteAt_after, u16At_after, s32At_after,
    s16At_after, u16At_le, byte_toNat_of_lt, hst, hco, hseq, hcls, hp]

/-- Settles O34: the payload in three parts, each read back. -/
theorem entryFieldsReadBack : Obligations.EntryFieldsReadBack := by
  intro f b0 b1 b2 rest hst hco hseq hcls hbc hx0 hx1 hy0 hy1 hz0 hz1 hw0 hw1 hcut h0 h1 h2 hb
  have hcutSmall : f.cut.getD 0 < 65536 := by
    cases hc : f.cut with
    | none => decide
    | some n => exact (hcut n hc).2
  have hcutRead : lengthOf (f.cut.getD 0) = f.cut := lengthOf_getD fun n hn => (hcut n hn).1
  rw [EntryFields.ofBytes_parts hst hco hseq hcls (poseBytes_length _),
    poseBytes_read ⟨hx0, hx1⟩ ⟨hy0, hy1⟩ ⟨hz0, hz1⟩ ⟨hw0, hw1⟩]
  simp only [u16At_le hcutSmall, byteAt_after, u16At_after, u16At_cons, byteAt_cons, le_length, Nat.reduceLeDiff,
    Nat.reduceSub, byteAt_zero, u16At_le h0, u16At_le h1, u16At_le h2, byte_toNat_of_lt hbc, hcutRead, Marks.ofByte_code,
    ← hb]

end Sys2Proof.Machine
end

section
/-! PROOFS. Marks, rearming, station advance and retirement (01_the_plan_table.md, R23 to R30). -/

namespace Sys2Proof.Machine

/-! ### MARK (R23 to R26) -/

theorem MarkFunction.ofByte_eq_none_iff (n : Nat) : MarkFunction.ofByte n = none ↔ 3 < n := by
  rcases n with _ | _ | _ | _ | n <;> simp [MarkFunction.ofByte]

/-- A mark under the function a byte names (R24). -/
theorem MarkFunction.apply_eq {g : Byte} {fn : MarkFunction} (h : MarkFunction.ofByte g.toNat = some fn)
    (named pattern old : Bool) : fn.apply named pattern old = if named = false then old else if g = 0 then pattern
      else if g = 1 then true else if g = 2 then false else !old := by
  have heq (k : Byte) : g = k ↔ g.toNat = k.toNat := BitVec.toNat_inj.symm
  unfold MarkFunction.ofByte at h
  split at h
  case h_5 => cases h
  all_goals
    cases h
    rename_i hg
    cases named <;> simp [MarkFunction.apply, heq, hg]

/-- The operands of a MARK payload are read back. -/
theorem markOperands_read {first last : Nat} (hf : first < 65536) (hl : last < 65536)
    (cls dontCare mask pattern g : Byte) (rest : List Byte) :
    let p := le 2 first ++ (le 2 last ++ cls :: dontCare :: mask :: pattern :: g :: rest)
    u16At p 0 = first ∧ u16At p 2 = last ∧ byteAt p 4 = cls.toNat ∧ byteAt p 5 = dontCare.toNat
      ∧ byteAt p 6 = mask.toNat ∧ byteAt p 7 = pattern.toNat ∧ byteAt p 8 = g.toNat :=
  ⟨u16At_le hf _, (u16At_skip 2 first 0 _).trans (u16At_le hl _), rfl, rfl, rfl, rfl, rfl⟩

theorem Ev.runMark_outside {e : Ev} (h : e.rcu.mode ≠ .stowed) (tag : Byte) {first last : Nat} (hf : first < 65536)
    (hl : last < 65536) {cls dontCare mask pattern g : Byte} {rest : List Byte}
    (ho : 3 < g.toNat ∨ 1023 < first ∨ 1023 < last ∨ last < first ∨ 31 < cls.toNat) :
    let c : HostCommand := ⟨0x18, tag, le 2 first ++ (le 2 last ++ cls :: dontCare :: mask :: pattern :: g :: rest)⟩
    e.runMark c = e.reply c .range [] := by
  intro c
  obtain ⟨h0, h2, h4, h5, h6, h7, h8⟩ := markOperands_read hf hl cls dontCare mask pattern g rest
  have hlen : ¬c.payload.length < 9 := by simp [c]; omega
  simp only [Ev.runMark, if_neg h, if_neg hlen, c, h0, h2, h4, h5, h6, h7, h8]
  cases hg : MarkFunction.ofByte g.toNat with
  | none => rfl
  | some fn =>
    have hle : ¬3 < g.toNat := fun k => by rw [(MarkFunction.ofByte_eq_none_iff _).2 k] at hg; cases hg
    exact if_pos (ho.resolve_left hle)

/-- The operation of a MARK payload. -/
def MarkOp.ofOperands (first last : Nat) (cls dontCare mask pattern : Byte) (fn : MarkFunction) : MarkOp :=
  ⟨first, last, cls.toNat, dontCare.toNat, .ofByte mask.toNat, .ofByte pattern.toNat, fn⟩

theorem Ev.runMark_inside {e : Ev} (h : e.rcu.mode ≠ .stowed) (tag : Byte) {first last : Nat} (hl : last ≤ 1023)
    (hf : first ≤ last) {cls g : Byte} (hc : cls.toNat ≤ 31) {fn : MarkFunction}
    (hg : MarkFunction.ofByte g.toNat = some fn) (dontCare mask pattern : Byte) (rest : List Byte) :
    let c : HostCommand := ⟨0x18, tag, le 2 first ++ (le 2 last ++ cls :: dontCare :: mask :: pattern :: g :: rest)⟩
    let m := MarkOp.ofOperands first last cls dontCare mask pattern fn
    e.runMark c = (e.applyMark m).reply c .ok (le 2 (e.pls.plan.filter m.hits).length) := by
  intro c m
  obtain ⟨h0, h2, h4, h5, h6, h7, h8⟩ := markOperands_read (show first < 65536 by omega) (show last < 65536 by omega) cls
    dontCare mask pattern g rest
  have hlen : ¬c.payload.length < 9 := by simp [c]; omega
  have hin : ¬(1023 < first ∨ 1023 < last ∨ last < first ∨ 31 < cls.toNat) := by omega
  simp only [Ev.runMark, if_neg h, if_neg hlen, c, h0, h2, h4, h5, h6, h7, h8, hg, if_neg hin]
  rfl

/-- The effects of MARK: the marked plan, what it prompts, the SKIPPED reports, and the active course read again. -/
theorem Ev.applyMark_eq (e : Ev) (m : MarkOp) :
    let skipped := e.pls.plan.filter fun p => m.hits p && m.skips p.2
    let plan := e.pls.plan.map m.mark
    let marked : Ev := { e with
      pls := { e.pls with plan := plan }
      selDue := (e.selDue || e.pls.plan.any m.touches) || skipped.any (fun p => decide (p.2.station = e.rcu.station))
      retestDue := e.retestDue || skipped.any fun p =>
        State.headWaitsFor { e.toState with pls := { e.pls with plan := plan } } p.1 }
    e.applyMark m = (marked.reports ((groupsOf64 (skipped.map (·.1))).map Report.skipped)).refreshCourse .event := by
  intro skipped plan marked
  have htouched : (if e.pls.plan.any m.touches then (e.onPls fun p => { p with plan := plan }).promptSel
      else e.onPls fun p => { p with plan := plan })
      = { e with pls := { e.pls with plan := plan }, selDue := e.selDue || e.pls.plan.any m.touches } := by
    cases e.pls.plan.any m.touches <;> simp [Ev.onPls, Ev.promptSel]
  unfold Ev.applyMark
  dsimp only
  rw [htouched, Ev.noteSkips_eq]

theorem MarkOp.touches_iff (m : MarkOp) (p : Nat × Entry) : m.touches p = true ↔
    m.hits p = true ∧ p.2.state = .planned ∧ m.marks p.2.marks ≠ p.2.marks := by
  simp [MarkOp.touches, and_assoc]

/-- Settles O35: the operands as a `MarkOp`, whose effects `Ev.applyMark_eq` states. -/
theorem markChangesMatchingEntries : Obligations.MarkChangesMatchingEntries := by
  intro s tag cls dontCare mask pattern g first last rest hf hl c h hm
  refine ⟨fun ho => next_answered h (Ev.runMark_outside (e := s.taking) hm tag hf hl ho), fun hg hfl hl' hc => ?_⟩
  obtain ⟨fn, hfn⟩ := Option.ne_none_iff_exists'.1 (mt (MarkFunction.ofByte_eq_none_iff g.toNat).1 (Nat.not_lt.2 hg))
  have hrun := Ev.runMark_inside (e := s.taking) hm tag hl' hfl hc hfn dontCare mask pattern rest
  set m := MarkOp.ofOperands first last cls dontCare mask pattern fn with hmdef
  intro hits new marks skips plan skipped
  have hnew (bit : Nat) (old : Bool) : fn.apply (mask.toNat.testBit bit) (pattern.toNat.testBit bit) old = new bit old :=
    MarkFunction.apply_eq hfn _ _ _
  have hmarks (en : Entry) : m.marks en.marks = marks en := by
    simp only [marks, ← hnew]
    rfl
  have hskips : m.skips = skips := by
    funext en
    simp only [MarkOp.skips, hmarks, skips, ← EntryState.open_iff, Bool.decide_eq_true]
    rfl
  have hmark : s.pls.plan.map m.mark = plan := by
    refine List.map_congr_left fun p _ => ?_
    simp only [MarkOp.mark, hmarks, hskips]
    rfl
  have hskipped : (s.pls.plan.filter fun p => m.hits p && m.skips p.2) = skipped := by
    rw [hskips]
    rfl
  have happly := Ev.applyMark_eq s.taking m
  rw [show s.taking.pls = s.pls from rfl, hskipped, hmark] at happly
  obtain ⟨hflat, hgroups, hfull⟩ := groupsOf64_spec (skipped.map (·.1))
  let sel := (s.taking.selDue || s.pls.plan.any m.touches)
    || skipped.any fun p => decide (p.2.station = s.taking.rcu.station)
  let retest := s.taking.retestDue || skipped.any fun p =>
    State.headWaitsFor { s.taking.toState with pls := { s.pls with plan := plan } } p.1
  refine ⟨groupsOf64 (skipped.map (·.1)), sel, retest, ?_⟩
  intro marked
  refine ⟨hflat, hgroups, hfull, ?_, ?_, ?_⟩
  · simp only [sel, show s.taking.selDue = false from rfl, Bool.false_or, Bool.or_eq_true, List.any_eq_true,
      MarkOp.touches_iff, hmarks, decide_eq_true_eq]
    exact Iff.rfl
  · simp only [retest, show s.taking.retestDue = false from rfl, Bool.false_or, List.any_eq_true, State.headWaitsFor_iff]
    constructor
    · rintro ⟨p, hp, hh, k, hk, en, hen, hb⟩
      exact ⟨hh, k, hk, en, hen, p, hp, hb⟩
    · rintro ⟨hh, k, hk, en, hen, p, hp, hb⟩
      exact ⟨p, hp, hh, k, hk, en, hen, hb⟩
  · have happlied : s.taking.applyMark m
        = (marked.reports ((groupsOf64 (skipped.map (·.1))).map Report.skipped)).refreshCourse .event := happly
    refine next_effect h (?_ : s.taking.runMark c = _)
    rw [← happlied]
    exact hrun

/-! ### REARM (R27) -/

theorem Ev.runRearm_outside {e : Ev} (h : e.rcu.mode ≠ .stowed) (tag : Byte) {slot : Nat} (hs : slot < 65536)
    (ho : 1023 < slot) (rest : List Byte) :
    e.runRearm ⟨0x19, tag, le 2 slot ++ rest⟩ = e.reply ⟨0x19, tag, le 2 slot ++ rest⟩ .range [] := by
  have hlen : ¬(le 2 slot ++ rest).length < 2 := by simp; omega
  simp only [Ev.runRearm, if_neg h, if_neg hlen, u16At_le hs, if_pos ho]
  rfl

theorem Ev.runRearm_other {e : Ev} (h : e.rcu.mode ≠ .stowed) (tag : Byte) {slot : Nat} (hs : slot ≤ 1023)
    (hn : ∀ en, e.entryAt slot = some en → en.state ≠ .faulted) (rest : List Byte) :
    e.runRearm ⟨0x19, tag, le 2 slot ++ rest⟩ = e.reply ⟨0x19, tag, le 2 slot ++ rest⟩ .state [] := by
  have hlen : ¬(le 2 slot ++ rest).length < 2 := by simp; omega
  simp only [Ev.runRearm, if_neg h, if_neg hlen, u16At_le (show slot < 65536 by omega), if_neg (Nat.not_lt.2 hs)]
  cases hen : e.entryAt slot with
  | none => rfl
  | some en => exact if_neg (hn en hen)

theorem Ev.runRearm_faulted {e : Ev} (h : e.rcu.mode ≠ .stowed) (tag : Byte) {slot : Nat} (hs : slot ≤ 1023)
    {en : Entry} (hen : e.entryAt slot = some en) (hf : en.state = .faulted) (rest : List Byte) :
    e.runRearm ⟨0x19, tag, le 2 slot ++ rest⟩ =
      (((e.changeEntry slot fun en => { en with state := .planned, rejects := 0 }).refreshCourse .event).promptSel).reply
        ⟨0x19, tag, le 2 slot ++ rest⟩ .ok [] := by
  have hlen : ¬(le 2 slot ++ rest).length < 2 := by simp; omega
  simp only [Ev.runRearm, if_neg h, if_neg hlen, u16At_le (show slot < 65536 by omega), if_neg (Nat.not_lt.2 hs), hen,
    if_pos hf]

/-- Settles O36: a rearmed entry is changed, the active course read again, and a selection prompted. -/
theorem rearmReturnsFaultedEntry : Obligations.RearmReturnsFaultedEntry := by
  intro s tag slot rest hs c h
  refine ⟨fun hm => next_answered h (Ev.runRearm_stowed _ hm), fun hm => ⟨fun ho => ?_, fun hle hn => ?_,
    fun en hle hen hf => ?_⟩⟩
  · exact next_answered h (Ev.runRearm_outside (e := s.taking) hm tag hs ho rest)
  · exact next_answered h (Ev.runRearm_other (e := s.taking) hm tag hle hn rest)
  · have hchange := Ev.changeEntry_eq (e := s.taking) (fun en => { en with state := .planned, rejects := 0 }) hen
    set changed := s.taking.changeEntry slot fun en => { en with state := .planned, rejects := 0 }
    have hstate : changed.toState
        = s.taking.toState.withEntry slot { en with state := .planned, rejects := 0 } := congrArg Ev.toState hchange
    have same := (Ev.refreshCourse_spec changed .event).1
    have hpls : changed.pls = { s.pls with plan := Table.write s.pls.plan slot { en with state := .planned, rejects := 0 } } :=
      congrArg State.pls hstate
    refine ⟨(changed.refreshCourse .event).promptSel,
      next_effect h (Ev.runRearm_faulted (e := s.taking) hm tag hle hen hf rest), rfl, ?_, ?_, ?_⟩
    · exact same.scp.commands.trans (congrArg (·.scp.commands) hstate)
    · have := same.pls
      rw [hpls] at this
      exact this
    · exact ⟨same.btc.trans (congrArg State.btc hstate :), same.sli.trans (congrArg State.sli hstate :),
        same.loopTx.trans (congrArg State.loopTx hstate :), same.rcu.trans (congrArg State.rcu hstate :),
        same.trk.trans (congrArg State.trk hstate :), same.dfu.trans (congrArg State.dfu hstate :),
        same.hmn.trans (congrArg State.hmn hstate :), same.now.trans (congrArg State.now hstate :)⟩

/-! ### Retirement (R29) -/

/-- The Plan Store once the ring's first slot is vacated. -/
def Pls.vacateFirst (p : Pls) : Pls :=
  { p with plan := Table.strike p.plan (p.ringSlot 0), ringHead := (p.ringHead + 1) % p.run, ringCount := p.ringCount - 1 }

/-- What a walk along the ring vacates: the ring's first positions, each resolved. -/
structure Pls.RingRetired (p : Pls) (w : Pls × List Nat) : Prop where
  slots : w.2 = (List.range w.2.length).map p.ringSlot
  count : w.2.length ≤ p.ringCount
  store : w.1 = { p with
    plan := p.plan.filter fun q => decide (q.1 ∉ w.2)
    ringHead := (p.ringHead + w.2.length) % p.run
    ringCount := p.ringCount - w.2.length }
  resolved : ∀ slot ∈ w.2, ∃ en, Table.read p.plan slot = some en ∧ en.state.resolved = true

/-- The walk stops here: the ring is empty, or its first entry is unresolved (R29). -/
def Pls.RingStops (p : Pls) : Prop :=
  p.ringCount = 0 ∨ ∀ en, Table.read p.plan (p.ringSlot 0) = some en → en.state.resolved = false

theorem Pls.RingRetired.none {p : Pls} (h : p.ringHead < p.run) : p.RingRetired (p, []) where
  slots := rfl
  count := Nat.zero_le _
  store := by simp [Nat.mod_eq_of_lt h]
  resolved := by simp

theorem Pls.ringSlot_vacateFirst (p : Pls) (i : Nat) : p.vacateFirst.ringSlot i = p.ringSlot (i + 1) := by
  simp only [Pls.ringSlot, Pls.vacateFirst, Nat.mod_add_mod, Nat.add_assoc, Nat.add_comm 1 i]

theorem Pls.RingRetired.cons {p : Pls} {en : Entry} {w : Pls × List Nat} (hc : p.ringCount ≠ 0)
    (hen : Table.read p.plan (p.ringSlot 0) = some en) (hr : en.state.resolved = true) (hw : p.vacateFirst.RingRetired w) :
    p.RingRetired (w.1, p.ringSlot 0 :: w.2) where
  slots := by
    have hslots := hw.slots
    rw [List.length_cons, List.range_succ_eq_map, List.map_cons, List.map_map]
    exact congrArg _ (hslots.trans (List.map_congr_left fun i _ => p.ringSlot_vacateFirst i))
  count := by
    have hcount : w.2.length ≤ p.ringCount - 1 := hw.count
    rw [List.length_cons]
    omega
  store := by
    rw [hw.store]
    have hplan : (p.vacateFirst.plan.filter fun q => decide (q.1 ∉ w.2))
        = p.plan.filter fun q => decide (q.1 ∉ p.ringSlot 0 :: w.2) := by
      rw [Pls.vacateFirst, Table.strike_eq_filter, List.filter_filter]
      exact List.filter_congr fun q _ => by simp [and_comm, bne, beq_eq_decide]
    have hhead : (p.vacateFirst.ringHead + w.2.length) % p.vacateFirst.run
        = (p.ringHead + (p.ringSlot 0 :: w.2).length) % p.run := by
      rw [List.length_cons, Pls.vacateFirst, Nat.mod_add_mod, Nat.add_assoc, Nat.add_comm 1]
    have hcount : p.vacateFirst.ringCount - w.2.length = p.ringCount - (p.ringSlot 0 :: w.2).length := by
      rw [List.length_cons, Pls.vacateFirst, Nat.sub_sub, Nat.add_comm 1]
    rw [hplan, hhead, hcount]
    rfl
  resolved := by
    intro slot hs
    obtain rfl | hs := List.mem_cons.1 hs
    · exact ⟨en, hen, hr⟩
    · obtain ⟨en', hen', hr'⟩ := hw.resolved slot hs
      refine ⟨en', ?_, hr'⟩
      by_cases h : slot = p.ringSlot 0
      · rw [h] at hen'
        exact absurd ((Table.read_strike_same _ _).symm.trans hen') (by simp)
      · exact (Table.read_strike_other _ _ _ h).symm.trans hen'

theorem Pls.retireRing_of_stops {p : Pls} (h : p.RingStops) (n : Nat) : p.retireRing n = (p, []) := by
  cases n with
  | zero => rfl
  | succ n =>
    by_cases hc : p.ringCount = 0
    · exact if_pos hc
    · simp only [Pls.retireRing, if_neg hc]
      cases hen : Table.read p.plan (p.ringSlot 0) with
      | none => rfl
      | some en => simp [h.resolve_left hc en hen]

theorem Pls.retireRing_of_resolved {p : Pls} {en : Entry} (hc : p.ringCount ≠ 0)
    (hen : Table.read p.plan (p.ringSlot 0) = some en) (hr : en.state.resolved = true) (n : Nat) :
    p.retireRing (n + 1) = ((p.vacateFirst.retireRing n).1, p.ringSlot 0 :: (p.vacateFirst.retireRing n).2) := by
  simp only [Pls.retireRing, if_neg hc, hen, hr, if_true]
  rfl

/-- The walk along the ring; with fuel for the whole ring it ends where it stops. -/
theorem Pls.retireRing_spec (n : Nat) : ∀ p : Pls, p.ringHead < p.run →
    p.RingRetired (p.retireRing n) ∧ (p.ringCount ≤ n → (p.retireRing n).1.RingStops) := by
  induction n with
  | zero => exact fun p h => ⟨.none h, fun hc => .inl (Nat.le_zero.1 hc)⟩
  | succ n ih =>
    intro p h
    by_cases hs : p.RingStops
    · rw [Pls.retireRing_of_stops hs]
      exact ⟨.none h, fun _ => hs⟩
    · obtain ⟨hc, en, hen, hr⟩ : p.ringCount ≠ 0 ∧ ∃ en, Table.read p.plan (p.ringSlot 0) = some en
          ∧ en.state.resolved = true := by simpa [Pls.RingStops] using hs
      rw [Pls.retireRing_of_resolved hc hen hr]
      obtain ⟨hw, hstop⟩ := ih p.vacateFirst (Nat.mod_lt _ (by omega))
      exact ⟨hw.cons hc hen hr, fun hle => hstop (Nat.sub_le_of_le_add hle)⟩

theorem Pls.ringSlot_region (p : Pls) (h : 0 < p.run) (i : Nat) : p.region (p.ringSlot i) = .run := by
  have := Nat.mod_lt (p.ringHead + i) h
  unfold Pls.region Pls.ringSlot
  rw [if_neg (by omega), if_pos (by omega)]

/-- The entries of a rising table whose numbers stand in a list: a filter of them by number. -/
theorem Table.mem_map_filter_iff {α : Type} {t : Table α} (h : Table.rising t = true) (f : Nat × α → Bool) {q : Nat × α}
    (hq : q ∈ t) : q.1 ∈ (t.filter f).map (·.1) ↔ f q = true := by
  rw [List.mem_map]
  constructor
  · rintro ⟨x, hx, hxq⟩
    obtain ⟨hmem, hf⟩ := List.mem_filter.1 hx
    have h1 := Table.read_of_mem t h x hmem
    have h2 := Table.read_of_mem t h q hq
    rw [hxq, h2] at h1
    rwa [Prod.ext hxq (Option.some.inj h1).symm] at hf
  · exact fun hf => ⟨q, List.mem_filter.2 ⟨hq, hf⟩, rfl⟩

/-- Settles O38: retirement is a filter of the Lead and Tail entries, then the walk along the ring. -/
theorem retirementVacatesResolvedEntries : Obligations.RetirementVacatesResolvedEntries := by
  intro p station ⟨hsum, hrun, hhead, hcount, hceil, hstored, hrising⟩ w struck
  have hpos : 0 < p.run := by omega
  let kept : Pls := { p with plan := p.plan.filter fun q => !p.retires station q }
  let first := (p.plan.filter (p.retires station)).map (·.1)
  let ring := kept.retireRing p.ringCount
  obtain ⟨hring, hstops⟩ : kept.RingRetired ring ∧ (p.ringCount ≤ p.ringCount → ring.1.RingStops) :=
    Pls.retireRing_spec p.ringCount kept hhead
  have hstore : ring.1 = _ := hring.store
  have hw2 : w.2 = first ++ ring.2 := rfl
  have hregion : ∀ slot ∈ ring.2, p.region slot = .run := by
    intro slot hs
    rw [hring.slots] at hs
    obtain ⟨i, -, rfl⟩ := List.mem_map.1 hs
    exact p.ringSlot_region hpos i
  have hfirst : ∀ q ∈ p.plan, (q.1 ∈ first ↔ p.retires station q = true) := fun q hq =>
    Table.mem_map_filter_iff hrising _ hq
  have hfirstRegion : ∀ slot ∈ first, p.region slot ≠ .run := by
    intro slot hs
    obtain ⟨q, hq, rfl⟩ := List.mem_map.1 hs
    have := (List.mem_filter.1 hq).2
    simp only [Pls.retires, Bool.and_eq_true, bne_iff_ne] at this
    exact this.1.1
  have hstruck : strikeBearers w.2 = struck := funext fun q => by simp [strikeBearers, struck]
  have hw1 : w.1 = { ring.1 with plan := ring.1.plan.map struck } := by
    rw [← hstruck]
    rfl
  have hcountRing : ring.2.length ≤ p.ringCount := hring.count
  have hw1count : w.1.ringCount = p.ringCount - ring.2.length := by
    rw [hw1, hstore]
  have hdrop : p.ringCount - w.1.ringCount = ring.2.length := by omega
  refine ⟨?_, ?_, ?_, ?_, ?_, ?_, ?_, ?_⟩
  · rw [hw1, hstore]
    refine congrArg (List.map struck) ?_
    show (p.plan.filter _).filter _ = _
    rw [List.filter_filter]
    refine List.filter_congr fun q hq => ?_
    rw [hw2, Bool.eq_iff_iff]
    simp [hfirst q hq, and_comm]
  · intro q hq hne
    rw [hw2, List.mem_append, or_iff_left fun hr => hne (hregion _ hr), hfirst q hq]
    simp [Pls.retires, hne]
  · intro slot hs
    rw [hw2, List.mem_append, or_iff_right fun hf => hfirstRegion _ hf hs, hdrop, hring.slots, List.mem_map]
    simp only [List.mem_range, List.length_map, List.length_range, eq_comm]
    exact Iff.rfl
  · intro q hq hs hmem
    obtain ⟨en, hen, hr⟩ := hring.resolved q.1 ((List.mem_append.1 hmem).resolve_left fun hf => hfirstRegion _ hf hs)
    have hread := Table.read_of_mem _ hrising _ (List.mem_filter.1 (Table.mem_of_read _ _ _ hen)).1
    rw [Table.read_of_mem _ hrising q hq] at hread
    exact Option.some.inj hread ▸ hr
  · obtain hz | hu := hstops le_rfl
    · left
      rw [hw1]
      exact hz
    · right
      rw [hw1]
      intro en (hen : Table.read (ring.1.plan.map struck) (ring.1.ringSlot 0) = some en)
      rw [Table.read_map _ struck fun _ => rfl, Option.map_eq_some_iff] at hen
      obtain ⟨v, hv, rfl⟩ := hen
      exact hu v hv
  · have hf : first.filter (fun slot => p.region slot == .run) = [] :=
      List.filter_eq_nil_iff.2 fun slot hs => by simpa using hfirstRegion slot hs
    have hr : ring.2.filter (fun slot => p.region slot == .run) = ring.2 :=
      List.filter_eq_self.2 fun slot hs => by simpa using hregion slot hs
    rw [hw2, List.filter_append, hf, hr, List.nil_append]
    omega
  · rw [hdrop, hw1, hstore]
  · rw [hw1, hstore]
    exact ⟨rfl, rfl, rfl, rfl, rfl, rfl, rfl, rfl, rfl⟩

end Sys2Proof.Machine
end

section
/-! PROOFS. Station advance (01_the_plan_table.md, R28 to R30). -/

namespace Sys2Proof.Machine

/-- The operands of an ADV payload are read back. -/
theorem advOperands_read {x y z : Int} (hx : -2147483648 ≤ x ∧ x ≤ 2147483647) (hy : -2147483648 ≤ y ∧ y ≤ 2147483647)
    (hz : -2147483648 ≤ z ∧ z ≤ 2147483647) (station : Byte) (waive : Bool) (rest : List Byte) :
    let p := station :: (le32s x ++ (le32s y ++ (le32s z ++ flagByte waive :: rest)))
    s32At p 1 = x ∧ s32At p 5 = y ∧ s32At p 9 = z ∧ flagAt p 13 = waive := by
  refine ⟨?_, ?_, ?_, ?_⟩
  · simp [s32At_cons, s32At_le, hx]
  · simp [s32At_cons, s32At_after, le32s_length, s32At_le, hy]
  · simp [s32At_cons, s32At_after, le32s_length, s32At_le, hz]
  · simp [flagAt, byteAt_cons, byteAt_after, le32s_length, flagByte_testBit, -Nat.testBit_zero]

theorem State.countStation_open (s : State) :
    s.countStation (fun en => en.state.open) = (s.pls.plan.filter fun p =>
      decide (p.2.station = s.rcu.station ∧ (p.2.state = .planned ∨ p.2.state = .faulted))).length := by
  simp only [State.countStation, State.stationEntries, Bool.decide_and, ← EntryState.open_iff, Bool.decide_eq_true,
    beq_eq_decide]

theorem State.lowestCourse_congr {s t : State} (hp : t.pls.plan = s.pls.plan) (hr : t.rcu.station = s.rcu.station) :
    t.lowestCourse = s.lowestCourse := by
  simp only [State.lowestCourse, State.stationEntries, hp, hr]

theorem Ev.reports_config (rs : List Report) : ∀ e : Ev, (e.reports rs).scp.config = e.scp.config := by
  induction rs with
  | nil => exact fun e => rfl
  | cons r rs ih => exact fun e => (ih (e.report r)).trans (Scp.raise_same _ _ _).config

/-- What ADV does once its checks are passed (R28 to R30): the entries waived and reported, the resolved ones retired,
the new station and base taken, the active course read again, and gust-reduced rate off. -/
theorem Ev.advance_eq (e : Ev) (c : HostCommand) :
    let waived := (e.pls.plan.filter fun q => q.2.station == e.rcu.station && q.2.state.open).map (·.1)
    let w := { e.pls with plan := e.pls.plan.map (waiveEntry e.rcu.station) }.retire e.rcu.station
    let told := e.reports ((groupsOf64 waived).map Report.waived)
    let moved : Ev := { told with
      pls := { w.1 with latches := [] }
      rcu := { e.rcu with
        station := byteAt c.payload 0
        baseX := s32At c.payload 1
        baseY := s32At c.payload 5
        baseZ := s32At c.payload 9 } }
    e.advance c = ((moved.refreshCourse .adv).withRate .adv fun e => e.onHsq fun h => { h with gustReduced := false }).reply
      c .ok (le 2 waived.length ++ le 2 w.2.length) := by
  intro waived w told moved
  have htold : Ev.reports ((groupsOf64 waived).map Report.waived)
      { e with pls := { e.pls with plan := e.pls.plan.map (waiveEntry e.rcu.station) } }
      = { told with pls := { e.pls with plan := e.pls.plan.map (waiveEntry e.rcu.station) } } := Ev.reports_with_pls _ _ _
  have hrcu : told.rcu = e.rcu := (congrArg State.rcu (Ev.reports_toState _ e) :)
  unfold Ev.advance
  simp only [Ev.onPls, Ev.onRcu]
  rw [htold]
  simp only [hrcu]
  rfl

theorem waiveEntry_eq (station : Nat) (p : Nat × Entry) : waiveEntry station p =
    if p.2.station = station ∧ (p.2.state = .planned ∨ p.2.state = .faulted) then (p.1, { p.2 with state := .waived })
    else p := by
  simp only [waiveEntry, EntryState.open_iff]

/-- The checks of ADV in their order (R28). -/
theorem Ev.runAdv_settled {e : Ev} (h : e.settledIdle = true) {c : HostCommand} (hl : ¬c.payload.length < 14) :
    e.runAdv c = if 63 < byteAt c.payload 0 then e.reply c .range []
      else if (e.countStation fun en => en.state.open) ≠ 0 ∧ flagAt c.payload 13 = false then
        e.reply c .unresolved (le 2 (e.countStation fun en => en.state.open))
      else e.advance c := by
  simp only [Ev.runAdv, h, if_neg hl, Bool.not_true, Bool.false_eq_true, if_false]
  rfl

/-- Settles O37: the end of ADV is `Ev.advance_eq`, read with what `Ev.refreshCourse` and a change of the rate leave. -/
theorem advTakesTheNextStation : Obligations.AdvTakesTheNextStation := by
  intro s tag station x y z waive rest hx0 hx1 hy0 hy1 hz0 hz1 c unresolved waived w h hs
  obtain ⟨hx, hy, hz, hflag⟩ := advOperands_read ⟨hx0, hx1⟩ ⟨hy0, hy1⟩ ⟨hz0, hz1⟩ station waive rest
  have hlen : ¬c.payload.length < 14 := by simp [c, le32s_length]; omega
  have hstation : byteAt c.payload 0 = station.toNat := rfl
  have hrun := Ev.runAdv_settled (e := s.taking) hs hlen
  have hcount : s.taking.countStation (fun en => en.state.open) = unresolved.length := State.countStation_open s
  rw [hstation, hflag, hcount] at hrun
  refine ⟨fun hr => next_answered h (hrun.trans (if_pos hr)), fun hr hu hw => ?_, fun hr hu => ?_⟩
  · exact next_answered h (hrun.trans ((if_neg (Nat.not_lt.2 hr)).trans
      (if_pos ⟨fun k => hu (List.length_eq_zero_iff.1 k), hw⟩)))
  · have hchecks : ¬(unresolved.length ≠ 0 ∧ waive = false) :=
      fun ⟨h1, h2⟩ => hu.elim (fun k => h1 (List.length_eq_zero_iff.2 k)) fun k => by simp [h2] at k
    have hopen : (s.pls.plan.filter fun q => q.2.station == s.rcu.station && q.2.state.open) = unresolved :=
      List.filter_congr fun q _ => by
        simp only [Bool.decide_and, ← EntryState.open_iff, Bool.decide_eq_true, beq_eq_decide]
    have hwaived : s.pls.plan.map (waiveEntry s.rcu.station) = waived.plan :=
      List.map_congr_left fun q _ => waiveEntry_eq _ q
    let groups := groupsOf64 (unresolved.map (·.1))
    obtain ⟨hflat, hgroups, hfull⟩ := groupsOf64_spec (unresolved.map (·.1))
    let told := s.taking.reports (groups.map .waived)
    let moved : Ev := { told with
      pls := { w.1 with latches := [] }
      rcu := { s.rcu with station := station.toNat, baseX := x, baseY := y, baseZ := z } }
    let read := moved.refreshCourse .adv
    let off : Ev := { read with hsq := { read.hsq with gustReduced := false } }
    have hadvance : s.taking.advance c
        = (read.withRate .adv fun e => e.onHsq fun h => { h with gustReduced := false }).reply c .ok
          (le 2 unresolved.length ++ le 2 w.2.length) := by
      rw [Ev.advance_eq, hx, hy, hz, hstation]
      simp only [show s.taking.pls = s.pls from rfl, show s.taking.rcu = s.rcu from rfl, hopen, hwaived, List.length_map]
      rfl
    have htold : told.toState = { s.taking.toState with scp := told.scp } := Ev.reports_toState _ _
    have same : Ev.SameRun moved read := (Ev.refreshCourse_spec moved .adv).1
    have hread : read.hsq = { s.hsq with gustCount := 0 } :=
      (Ev.refreshCourse_unfinished (.inl (by decide))).2.trans
        ((if_pos (by simp)).trans (congrArg (fun t : State => { t.hsq with gustCount := 0 }) htold))
    have hconfig : read.scp.config = s.scp.config := same.scp.config.trans (Ev.reports_config _ _)
    obtain ⟨hturn, hkeep⟩ := Ev.withRate_gustsEnd read .adv
    have hgust : read.hsq.gustReduced = s.hsq.gustReduced := by rw [hread]
    have hzero : read.hsq.gustCount = 0 := by rw [hread]
    rw [hconfig, hgust] at hturn hkeep
    rw [hzero] at hturn
    let e := read.withRate .adv fun e => e.onHsq fun h => { h with gustReduced := false }
    have he : e = if s.scp.config.rate = .auto ∧ s.hsq.gustReduced = true then
        off.report (.rate false .adv read.rsl.active 0) else off := by
      split
      · exact hturn ‹_›
      · exact hkeep ‹_›
    obtain ⟨hpls, hrcu, hrsl, hhsq, hbtc, hsli, hloop, htrk, hdfu, hhmn⟩ : e.pls = read.pls ∧ e.rcu = read.rcu
        ∧ e.rsl = read.rsl ∧ e.hsq = { read.hsq with gustReduced := false } ∧ e.btc = read.btc ∧ e.sli = read.sli
        ∧ e.loopTx = read.loopTx ∧ e.trk = read.trk ∧ e.dfu = read.dfu ∧ e.hmn = read.hmn := by
      rw [he]
      split <;> exact ⟨rfl, rfl, rfl, rfl, rfl, rfl, rfl, rfl, rfl, rfl⟩
    have hrcuMoved : e.rcu = moved.rcu := hrcu.trans same.rcu
    have hidle : e.rcu.mode = .idle := by
      rw [hrcuMoved]
      simpa [State.settledIdle] using And.left ((Bool.and_eq_true _ _).mp hs)
    have hquiet : (e.reply c .ok (le 2 unresolved.length ++ le 2 w.2.length)).running = false := by
      have hmode : (e.reply c .ok (le 2 unresolved.length ++ le 2 w.2.length)).rcu.mode = .idle := hidle
      simp [State.running, hmode]
    have hlatches : { e.pls with latches := w.1.latches } = w.1 := by
      rw [hpls]
      exact congrArg (fun p : Pls => { p with latches := w.1.latches }) same.pls
    refine ⟨e, groups, next_taken h (hrun.trans ((if_neg (Nat.not_lt.2 hr)).trans ((if_neg hchecks).trans hadvance)))
      (Ev.finish_quiet _ hquiet), hflat, hgroups, hfull, he, hrcuMoved, hlatches, ?_, by rw [hhsq], hzero ▸ congrArg (·.gustCount) hhsq,
      ?_⟩
    · rw [hrsl, (Ev.refreshCourse_spec moved .adv).2.1]
      exact (State.lowestCourse_congr (by rw [hpls]; exact same.plan) (by rw [hrcuMoved])).symm
    · exact ⟨hbtc.trans (same.btc.trans (congrArg State.btc htold :)), hsli.trans (same.sli.trans (congrArg State.sli htold :)),
        hloop.trans (same.loopTx.trans (congrArg State.loopTx htold :)), htrk.trans (same.trk.trans (congrArg State.trk htold :)),
        hdfu.trans (same.dfu.trans (congrArg State.dfu htold :)), hhmn.trans (same.hmn.trans (congrArg State.hmn htold :))⟩

end Sys2Proof.Machine
end

section
/-! PROOFS. The run commands (08_operating_modes_and_holds.md): GO, the head's resumption, HALT and ABORT, CLEAR and
ACCEPT, STOW. -/

namespace Sys2Proof.Machine

/-- A command row whose command changes the state outside the Serial Command Port, is answered, and prompts no test. -/
theorem next_changed {s : State} {c : HostCommand} {run : Ev → Ev} {e : Ev} {st : Status} {rs : List Byte}
    (h : s.takes c) (hr : run s.taking = e.reply c st rs) (hscp : e.scp = s.taking.scp)
    (hf : (e.reply c st rs).finish = e.reply c st rs) : (.next (takeHost c run s) : Host.Outcome State Fault Refusal) =
      .next ({ e.toState with scp := s.scp }.answered c st rs) := by
  have room : e.scp.outbound.length < 32 := by
    rw [hscp]
    exact h.room
  rw [next_taken h hr hf, Ev.reply_of_room _ _ _ room, hscp]
  rfl

/-! ### GO (R164, R166) -/

theorem State.settledIdle_iff (s : State) : s.settledIdle = true ↔ s.rcu.mode = .idle ∧ s.rcu.deploy = false := by
  simp [State.settledIdle]

theorem Ev.runGo_settled {e : Ev} (h : e.settledIdle = true) (c : HostCommand) : e.runGo c = e.goIdle c := by
  obtain ⟨hm, hd⟩ := (State.settledIdle_iff _).1 h
  simp [Ev.runGo, hm, hd]

theorem Ev.runGo_holding {e : Ev} (h : e.rcu.mode = .holding) (c : HostCommand) : e.runGo c = e.goHolding c := by
  simp [Ev.runGo, h]

/-- A run that drops points: the routine is suspended, its slew abandoned (R154). -/
theorem Dfu.suspend_of_running {d : Dfu} {k : Nat} (h : d.cal = .running k) : d.suspend = { d with
    cal := .suspended k, pendingPoints := Table.strike d.pendingPoints k, samples := [], limitTimer := none
    slew := if d.slew = Outstanding.current then .abandoned else d.slew } := by
  simp only [Dfu.suspend, h]
  cases d.slew <;> rfl

theorem Dfu.suspend_of_other {d : Dfu} (h : ∀ k, d.cal ≠ .running k) : d.suspend = d := by
  unfold Dfu.suspend
  cases hc : d.cal with
  | running k => exact absurd hc (h k)
  | none | suspended _ | done | failed => rfl

/-- DEPLOY and FOLD are sent where BOOM is free, and leave the receive pose (R53, R119). -/
theorem Ev.askBoom_free {e : Ev} (h : e.flight boomUnit = none) (r : BoomRequest) : e.askBoom r =
    { e with toState := ({ e.toState with hsq := { e.hsq with atReceive := false } }).launched boomUnit r.order .rcu } := by
  rw [Ev.askBoom, if_pos (by simp [State.unitFree, h])]
  rfl

theorem Ev.askBoom_busy {e : Ev} (h : e.flight boomUnit ≠ none) (r : BoomRequest) : e.askBoom r =
    { e with sli := { e.sli with boomWaiting := some r } } := by
  rw [Ev.askBoom, if_neg (by simpa [State.unitFree] using h)]
  rfl

theorem Ev.goIdle_uncalibrated {e : Ev} (h : e.dfu.valid = false) (c : HostCommand) :
    e.goIdle c = e.reply c .notCalibrated [] := by
  simp [Ev.goIdle, Ev.refuse, h]

theorem Ev.goIdle_worn {e : Ev} (h : e.dfu.valid = true) (hw : e.crossedOf [.glueFaults, .pressCutoffs] ≠ [])
    (c : HostCommand) : e.goIdle c = e.reply c .worn [attrSetByte (e.crossedOf [.glueFaults, .pressCutoffs])] := by
  simp [Ev.goIdle, h, hw]

theorem Ev.goIdle_deploys {e : Ev} (h : e.dfu.valid = true) (hw : e.crossedOf [.glueFaults, .pressCutoffs] = [])
    (c : HostCommand) : e.goIdle c =
      (((e.onRcu fun r => { r with deploy := true }).onDfu Dfu.suspend).askBoom .deploy).reply c .ok [] := by
  simp [Ev.goIdle, h, hw]

theorem State.binRefuses_iff (s : State) : s.binRefuses = true ↔ s.hsq.head = .dumping ∧ 24 ≤ s.btc.bin
    ∧ ¬∃ u ∈ [boomUnit, wristUnit, gripperUnit, pressUnit, chuteUnit], ∃ r, s.flight u = some r ∧ r.requester = .hsq := by
  rw [← State.headBusy_iff]
  simp only [State.binRefuses, Bool.and_eq_true, beq_iff_eq, Bool.not_eq_true', decide_eq_true_eq, Bool.not_eq_true,
    and_assoc]
  exact and_congr_right fun _ => and_comm

theorem Ev.goHolding_held {e : Ev} (h : e.rcu.holds ≠ .none) (c : HostCommand) :
    e.goHolding c = e.reply c .held (byte e.rcu.holds.code :: inspectBytes e.rcu.inspects) := if_pos h

/-- GO with no hold reason left: the entry into LAYING or DRAINING, its report before its effects (R161, R166). -/
theorem Ev.goHolding_entered {e : Ev} (h : e.rcu.holds = .none) (c : HostCommand) :
    let entered : Ev := { e with rcu := { e.rcu with
      mode := if e.rcu.haltPending then .draining else .laying, haltPending := false } }
    e.goHolding c = ((entered.entryReport .go e.rcu.mode).reply c .ok []).modeEntered :=
  if_neg (not_not.2 h)

/-- Settles O39: GO in settled IDLE and in HOLDING; no prompted test changes the hold reasons. -/
theorem goDeploysOrResumes : Obligations.GoDeploysOrResumes := by
  intro s tag p h c worn suspended deploying
  refine ⟨fun hs => ?_, fun hm => ?_⟩
  · have hrun : s.taking.runGo c = s.taking.goIdle c := Ev.runGo_settled hs c
    have hsuspend : s.dfu.suspend = suspended := by
      cases hc : s.dfu.cal with
      | running k => simp only [Dfu.suspend_of_running hc, suspended, hc]
      | none | suspended _ | done | failed => simp [Dfu.suspend_of_other, hc, suspended]
    refine ⟨fun hv => next_answered h (hrun.trans (Ev.goIdle_uncalibrated hv c)),
      fun hv hw => next_answered h (hrun.trans (Ev.goIdle_worn (e := s.taking) hv hw c)), fun hv hw hf => ?_, fun hv hw hf => ?_⟩
    · have hgo := hrun.trans (Ev.goIdle_deploys (e := s.taking) hv hw c)
      rw [Ev.askBoom_free hf] at hgo
      refine (next_changed h hgo rfl (Ev.finish_none _ rfl rfl rfl rfl)).trans ?_
      simp only [deploying, ← hsuspend]
      rfl
    · have hgo := hrun.trans (Ev.goIdle_deploys (e := s.taking) hv hw c)
      rw [Ev.askBoom_busy hf] at hgo
      refine (next_changed h hgo rfl (Ev.finish_none _ rfl rfl rfl rfl)).trans ?_
      simp only [deploying, ← hsuspend]
      rfl
  · have hrun : s.taking.runGo c = s.taking.goHolding c := Ev.runGo_holding hm c
    refine ⟨fun hh => next_answered h (hrun.trans (Ev.goHolding_held hh c)), fun hh => ?_⟩
    intro mode refused holds hrefused hfree
    let entered : Ev := { s.taking with rcu := { s.rcu with mode := mode, haltPending := false } }
    have hbin : entered.binRefuses = true ↔ refused := State.binRefuses_iff _
    have hholds : entered.holdsOnEntry = holds := by
      by_cases hr : refused
      · rw [State.holdsOnEntry, if_pos (hbin.2 hr), hrefused hr, show entered.rcu.holds = .none from hh]
        rfl
      · rw [State.holdsOnEntry, if_neg fun k => hr (hbin.1 k), hfree hr]
        exact hh
    let replied := (entered.report (.mode mode .holding s.rcu.deploy .go holds false s.rcu.stranded)).reply c .ok []
    have hgo : s.taking.runGo c = replied.modeEntered := by
      have hreport : entered.entryReport .go s.taking.rcu.mode
          = entered.report (.mode mode .holding s.rcu.deploy .go holds false s.rcu.stranded) := by
        rw [Ev.entryReport, hholds, show s.taking.rcu.mode = .holding from hm]
      have hentered := hrun.trans (Ev.goHolding_entered (e := s.taking) hh c)
      exact hentered.trans (congrArg (fun e => (Ev.reply c .ok [] e).modeEntered) hreport)
    have hrunning : replied.running = true := by
      have hmode : replied.rcu.mode = mode := rfl
      rw [State.running_iff, hmode]
      cases s.rcu.haltPending <;> simp [mode]
    refine ⟨next_effect h hgo, _, next_effect h hgo, ?_⟩
    rw [Ev.finish_holds, Ev.modeEntered_holds _ hrunning, ← hholds]
    rfl

/-! ### The head resumes (R142, R119) -/

theorem Ev.headResume_gripping {e : Ev} (hh : e.hsq.head = .gripping) (ho : e.hsq.orderSent = false) :
    e.headResume = e.sendHead gripperUnit .take := by simp [Ev.headResume, hh, ho]

theorem Ev.headResume_releasing {e : Ev} (hh : e.hsq.head = .releasing) (ho : e.hsq.orderSent = false) :
    e.headResume = e.sendHead gripperUnit .openGrip := by simp [Ev.headResume, hh, ho]

theorem Ev.headResume_retracting {e : Ev} (hh : e.hsq.head = .retracting) (ho : e.hsq.orderSent = false) :
    e.headResume = e.sendRetract := by simp [Ev.headResume, hh, ho]

theorem Ev.headResume_approaching {e : Ev} (hh : e.hsq.head = .approaching) (ho : e.hsq.orderSent = false) :
    e.headResume = e.sendApproach := by simp [Ev.headResume, hh, ho]

theorem Ev.headResume_sent {e : Ev} (ho : e.hsq.orderSent = true)
    (hh : e.hsq.head ∈ [.gripping, .approaching, .releasing, .retracting]) : e.headResume = e := by
  simp only [List.mem_cons, List.not_mem_nil, or_false] at hh
  rcases hh with hh | hh | hh | hh <;> simp [Ev.headResume, hh, ho]

theorem Ev.headResume_settles {e : Ev} (hh : e.hsq.head ∈ [.settling, .gustHold, .readyToPress, .lockHold]) :
    e.headResume = if e.trk.locked then e.enterSettling else e.enterLockHold := by
  simp only [List.mem_cons, List.not_mem_nil, or_false] at hh
  rcases hh with hh | hh | hh | hh <;> simp only [Ev.headResume, hh] <;> rfl

theorem Ev.sendApproach_free {e : Ev} {en : Entry} (hr : e.running = true) (hen : e.headEntry = some en)
    (hf : e.flight boomUnit = none) : e.sendApproach =
      (e.sendHead boomUnit (.slew (e.orderedPose en.target) e.slewRate)).leaveReceive := by
  simp only [Ev.sendApproach, hen]
  exact if_pos (by simp [hr, (State.unitFree_iff _ _).2 hf])

theorem Ev.binClaim_resumed {e : Ev} (hr : e.running = true) (hd : e.hsq.head = .dumping) (hb : e.headBusy = false) :
    e.binClaim = if e.btc.bin < 24 then e.sendHead chuteUnit .dump else e.raiseHold .binFull none :=
  if_pos (by simp [hr, hd, hb])

theorem Ev.binClaim_busy {e : Ev} (hb : e.headBusy = true) : e.binClaim = e := if_neg (by simp [hb])

/-- Settles O40: `Ev.headResume` case by case; the orders go out by `Ev.sendHead_free`. -/
theorem headResumesByState : Obligations.HeadResumesByState := by
  intro e hr rate receive sends
  have hsends {unit : Nat} {o : Order} (h : e.headResume = e.sendHead unit o) : sends unit o e.hsq :=
    fun hf => h.trans (Ev.sendHead_free e unit o hr hf)
  refine ⟨fun hh ha => ?_, fun hh ha hf => ?_, fun hh ho => hsends (Ev.headResume_gripping hh ho),
    fun hh ho => hsends (Ev.headResume_releasing hh ho), fun hh ho => hsends (Ev.headResume_retracting hh ho),
    fun en hh ho hen hf => ?_, fun hh ho => Ev.headResume_sent ho hh, fun hh => ?_, fun hh hl => ?_, fun hh hl => ?_,
    fun hh hb => ⟨fun hlt hf => ?_, fun hge => ?_⟩, fun hh hb => ?_⟩
  · simp [Ev.headResume, hh, ha]
  · have hretract : e.headResume = (e.enterHead .retracting).sendRetract := by
      simp [Ev.headResume, hh, ha, Ev.enterRetracting]
    exact hretract.trans (Ev.sendHead_free _ _ _ hr hf)
  · rw [Ev.headResume_approaching hh ho, Ev.sendApproach_free hr hen hf, Ev.sendHead_free _ _ _ hr hf]
    rfl
  · simp only [List.mem_cons, List.not_mem_nil, or_false] at hh
    rcases hh with hh | hh <;> simp [Ev.headResume, hh]
  · rw [Ev.headResume_settles hh, if_pos hl]
    rfl
  · rw [Ev.headResume_settles hh, if_neg (by simp [hl]), Ev.enterLockHold, hr]
    rfl
  all_goals have hclaim : e.headResume = e.binClaim := by simp [Ev.headResume, hh]
  · rw [hclaim, Ev.binClaim_resumed hr hh hb, if_pos hlt]
    exact Ev.sendHead_free _ _ _ hr hf
  · rw [hclaim, Ev.binClaim_resumed hr hh hb, if_neg (Nat.not_lt.2 hge)]
  · rw [hclaim, Ev.binClaim_busy hb]

end Sys2Proof.Machine
end

section
/-! PROOFS. The run commands that end a run: HALT and ABORT (R167, R169), and the soft reset (R173). -/

namespace Sys2Proof.Machine

/-! ### What reading the active course again leaves of the head and of the batch -/

theorem Scp.raise_batch (due : Bool) (r : Report) (p : Scp) : (p.raise due r).batch = p.batch := by
  unfold Scp.raise
  split <;> rfl

theorem Scp.pushReply_batch (kind tag : Byte) (st : Status) (rs : List Byte) (p : Scp) :
    (p.pushReply kind tag st rs).batch = p.batch := by
  unfold Scp.pushReply
  split <;> rfl

theorem Scp.flush_batch (due : Bool) (p : Scp) : (p.flush due).batch = [] := by
  by_cases h : p.batch = []
  · rw [Scp.flush_of_empty h, h]
  · rw [Scp.flush_of_pending h]

theorem Ev.finishCourse_batch (e : Ev) (c : Nat) : (e.finishCourse c).scp.batch = [] := by
  have hflush : e.flush.scp.batch = [] := Scp.flush_batch _ _
  unfold Ev.finishCourse Ev.withRate
  dsimp only
  split
  · exact (Scp.raise_batch _ _ _).trans hflush
  · exact (Scp.raise_batch _ _ _).trans ((Scp.raise_batch _ _ _).trans hflush)

theorem Ev.finishCourse_hsq (e : Ev) (c : Nat) : (e.finishCourse c).hsq = { e.hsq with gustReduced := false } := by
  unfold Ev.finishCourse Ev.withRate
  dsimp only
  split <;> rfl

/-- A course is finished or none is, and the gust count may be set to 0. -/
theorem Ev.refreshCourse_cases (e : Ev) (b : Refresh) : ∃ mid : Ev, ((mid.scp = e.scp ∧ mid.hsq = e.hsq) ∨
    ∃ c, mid = Ev.finishCourse c { e with rsl := { e.rsl with active := e.lowestCourse } })
    ∧ (e.refreshCourse b).scp = mid.scp ∧ ∃ n, (e.refreshCourse b).hsq = { mid.hsq with gustCount := n } := by
  obtain ⟨hscp, hhsq, -, -⟩ := Ev.refreshCourse_effects e b
  refine ⟨_, ?_, hscp, ?_⟩
  · cases e.rsl.active with
    | none => exact .inl ⟨rfl, rfl⟩
    | some c =>
      dsimp only
      split
      · exact .inr ⟨c, rfl⟩
      · exact .inl ⟨rfl, rfl⟩
  · rw [hhsq]
    split
    · exact ⟨0, rfl⟩
    · exact ⟨_, rfl⟩

theorem Ev.refreshCourse_batch {e : Ev} (h : e.scp.batch = []) (b : Refresh) : (e.refreshCourse b).scp.batch = [] := by
  obtain ⟨mid, hmid, hscp, -⟩ := Ev.refreshCourse_cases e b
  rw [hscp]
  obtain ⟨hsame, -⟩ | ⟨c, rfl⟩ := hmid
  · rw [hsame, h]
  · exact Ev.finishCourse_batch _ c

/-- Of the head, only the gust count and gust-reduced rate change. -/
theorem Ev.refreshCourse_hsq (e : Ev) (b : Refresh) :
    ∃ n r, (e.refreshCourse b).hsq = { e.hsq with gustCount := n, gustReduced := r } := by
  obtain ⟨mid, hmid, -, n, hhsq⟩ := Ev.refreshCourse_cases e b
  rw [hhsq]
  obtain ⟨-, hsame⟩ | ⟨c, rfl⟩ := hmid
  · exact ⟨n, e.hsq.gustReduced, by rw [hsame]⟩
  · exact ⟨n, false, by rw [Ev.finishCourse_hsq]⟩

/-! ### HALT and ABORT -/

theorem Ev.runHalt_laying {e : Ev} (h : e.rcu.mode = .laying) (c : HostCommand) : e.runHalt c =
    (((({ e with rcu := { e.rcu with mode := .draining } }.flush).modeReport .halt .laying).reply c .ok []).promptSel).promptDrain := by
  simp only [Ev.runHalt, h]
  rfl

theorem Ev.runHalt_holding {e : Ev} (h : e.rcu.mode = .holding) (c : HostCommand) : e.runHalt c =
    (e.onRcu fun r => { r with haltPending := true }).reply c .ok [] := by
  simp only [Ev.runHalt, h]

theorem Ev.runAbort_run {e : Ev} (h : e.rcu.mode = .laying ∨ e.rcu.mode = .holding ∨ e.rcu.mode = .draining)
    (c : HostCommand) : e.runAbort c = e.abortRun.reply c .ok [] := by
  rcases h with h | h | h <;> simp only [Ev.runAbort, h]

/-- The event in which a run is dropped: the batch flushed, STOP sent, the train removed, the head VACANT (R169). It is
irreducible: the walk over the ten berths is read through `Ev.dropTrain_spec` alone. -/
@[irreducible] def Ev.dropped (e : Ev) : Ev := ((e.flush.stop).dropTrain).onHsq Hsq.aborted

theorem Ev.dropped_toState (e : Ev) : e.dropped.toState = { e.toState with
    scp := e.flush.scp
    pls := { e.pls with plan := e.dropped.pls.plan }
    rcu := { e.rcu with stranded := e.dropped.rcu.stranded }
    sli := { e.sli with inFlight := [], boomWaiting := none }
    btc := { e.btc with train := e.dropped.btc.train }
    hsq := e.hsq.aborted
    loopTx := e.loopTx ++ stopFrame } := by
  have htrain := (Ev.dropTrain_toState e.flush.stop).1
  unfold Ev.dropped
  generalize e.flush.stop.dropTrain = d at htrain ⊢
  exact congrArg (fun t : State => { t with hsq := t.hsq.aborted }) htrain

/-- What dropping the run strands and returns to PLANNED (R97). -/
theorem Ev.dropped_train (e : Ev) :
    (∀ b, b ∈ e.dropped.rcu.stranded ↔ b ∈ e.rcu.stranded ∨ (b < 10 ∧ (e.carrierAt b ≠ none ∨ e.reserved b = true)))
    ∧ (∀ b < 10, e.dropped.carrierAt b = none) ∧ e.dropped.btc.releases = e.btc.releases
    ∧ e.dropped.btc.bin = e.btc.bin ∧ e.dropped.replyDue = e.replyDue
    ∧ ∀ slot, e.dropped.entryAt slot = (e.entryAt slot).map fun en =>
        if (List.range 10).any (fun b => (e.carrierAt b).any fun c => c.slot == slot) then { en with state := .planned }
        else en := by
  obtain ⟨hspec, hstranded⟩ := Ev.dropTrain_spec e.flush.stop
  have hdue := (Ev.dropTrain_toState e.flush.stop).2
  unfold Ev.dropped
  generalize e.flush.stop.dropTrain = d at hspec hstranded hdue ⊢
  exact ⟨hstranded, fun b hb => (hspec.carrier b).trans (if_pos (List.mem_range.2 hb)), hspec.rel, hspec.bin, hdue,
    hspec.entry⟩

/-- ABORT: the run dropped, the active course read again, the mode ABORTED, and its report. -/
theorem Ev.abortRun_eq (e : Ev) :
    let read := e.dropped.refreshCourse .event
    let ended : Ev := { read with rcu := { e.rcu with
      mode := .aborted, holds := .none, inspects := [], haltPending := false, stranded := e.dropped.rcu.stranded } }
    e.abortRun = ended.report (.mode .aborted e.rcu.mode e.rcu.deploy .abort .none false e.dropped.rcu.stranded) := by
  intro read ended
  have hdropped : e.dropped.rcu = { e.rcu with stranded := e.dropped.rcu.stranded } := congrArg State.rcu e.dropped_toState
  have hrcu : read.rcu = { e.rcu with stranded := e.dropped.rcu.stranded } :=
    (Ev.refreshCourse_spec e.dropped .event).1.rcu.trans hdropped
  have hended : (read.onRcu fun r => { r with holds := .none, inspects := [], haltPending := false, mode := .aborted })
      = ended := by
    rw [Ev.onRcu, hrcu]
  have habort : e.abortRun = (read.onRcu fun r =>
      { r with holds := .none, inspects := [], haltPending := false, mode := .aborted }).modeReport .abort e.rcu.mode := by
    unfold read Ev.dropped
    rfl
  rw [habort, hended]
  rfl

/-- Settles O41: HALT by its equations; ABORT by what dropping the run and reading the active course again leave. -/
theorem haltAndAbort : Obligations.HaltAndAbort := by
  refine ⟨fun s tag p h => ⟨fun hm => next_effect h (Ev.runHalt_laying (e := s.taking) hm _), fun hm => ?_⟩,
    fun s tag p h hm => ?_⟩
  · exact next_changed h (Ev.runHalt_holding (e := s.taking) hm _) rfl (Ev.finish_none _ rfl rfl rfl rfl)
  · let c : HostCommand := ⟨0x22, tag, p⟩
    let dropped := s.taking.dropped
    let read := dropped.refreshCourse .event
    let stranded := dropped.rcu.stranded
    let ended : Ev := { read with rcu := { s.rcu with
      mode := .aborted, holds := .none, inspects := [], haltPending := false, stranded := stranded } }
    let replied := (ended.report (.mode .aborted s.rcu.mode s.rcu.deploy .abort .none false stranded)).reply c .ok []
    have hrun : s.taking.runAbort c = replied :=
      (Ev.runAbort_run (e := s.taking) hm c).trans (congrArg (Ev.reply c .ok []) s.taking.abortRun_eq)
    have same := (Ev.refreshCourse_spec dropped .event).1
    have hdropped : dropped.toState = _ := s.taking.dropped_toState
    obtain ⟨n, r, hhsq⟩ := Ev.refreshCourse_hsq dropped .event
    obtain ⟨hstranded, hempty, hreleases, hbin, hdue, hplan⟩ := s.taking.dropped_train
    have hentry (slot : Nat) : read.entryAt slot = dropped.entryAt slot := by
      rw [State.entryAt, State.entryAt, same.plan]
    have hcarrier (b : Nat) : read.carrierAt b = dropped.carrierAt b := by
      rw [State.carrierAt, State.carrierAt, same.btc]
    have hread : read.hsq = { s.hsq.aborted with gustCount := n, gustReduced := r } := by
      rw [hhsq, congrArg State.hsq hdropped]
      rfl
    refine ⟨replied.toState, dropped, next_taken h hrun (Ev.finish_quiet _ rfl), rfl, hdropped, hdue, rfl, hstranded,
      fun b hb => (hcarrier b).trans (hempty b hb), ?_⟩
    have hbtc : read.btc = dropped.btc := same.btc
    have hsli : read.sli = { s.sli with inFlight := [], boomWaiting := none } :=
      same.sli.trans (congrArg State.sli hdropped :)
    have hloop : read.loopTx = s.loopTx ++ stopFrame := same.loopTx.trans (congrArg State.loopTx hdropped :)
    have htrk : read.trk = s.trk := same.trk.trans (congrArg State.trk hdropped :)
    have hdfu : read.dfu = s.dfu := same.dfu.trans (congrArg State.dfu hdropped :)
    have hhmn : read.hmn = s.hmn := same.hmn.trans (congrArg State.hmn hdropped :)
    have hbatch : replied.scp.batch = [] := by
      have hflush : dropped.scp.batch = [] :=
        (congrArg (fun t : State => t.scp.batch) hdropped).trans (Scp.flush_batch _ _)
      exact (Scp.pushReply_batch _ _ _ _ _).trans ((Scp.raise_batch _ _ _).trans (Ev.refreshCourse_batch hflush .event))
    have hhead : replied.hsq = { s.hsq.aborted with gustCount := n, gustReduced := r } := hread
    refine ⟨(congrArg Btc.releases hbtc).trans hreleases, (congrArg Btc.bin hbtc).trans hbin,
      fun slot => (hentry slot).trans (hplan slot), hsli, hloop, ?_⟩
    rw [hhead]
    exact ⟨rfl, rfl, rfl, rfl, rfl, rfl, rfl, rfl, rfl, htrk, hdfu, hhmn, hbatch⟩

end Sys2Proof.Machine
end

section
/-! PROOFS. CLEAR and ACCEPT (R170, R171), STOW (R172) and CAL (R148, R156). -/

namespace Sys2Proof.Machine

/-! ### CLEAR -/

theorem Ev.startPoint_promptSel (e : Ev) (k : Nat) : e.promptSel.startPoint k = (e.startPoint k).promptSel := by
  by_cases h : e.flight boomUnit = none
  · rw [Ev.startPoint_free k h, Ev.startPoint_free (e := e.promptSel) k h]
    rfl
  · rw [Ev.startPoint_busy k h, Ev.startPoint_busy (e := e.promptSel) k h]
    rfl

theorem Ev.calResume_promptSel (e : Ev) : e.promptSel.calResume = e.calResume.promptSel := by
  by_cases h : ∃ k, e.dfu.cal = .suspended k
  · obtain ⟨k, hk⟩ := h
    rw [Ev.calResume_of_suspended hk, Ev.calResume_of_suspended (e := e.promptSel) hk, Ev.startPoint_promptSel]
  · have hn : ∀ k, e.dfu.cal ≠ .suspended k := fun k hk => h ⟨k, hk⟩
    rw [Ev.calResume_of_not hn, Ev.calResume_of_not (e := e.promptSel) hn]

/-- A selection already prompted is not looked at by an entry into settled IDLE. -/
theorem Ev.enterIdle_promptSel (e : Ev) (cause : ModeCause) :
    e.promptSel.enterIdle cause = (e.enterIdle cause).promptSel :=
  Ev.calResume_promptSel (((e.onRcu fun r => { r with mode := .idle, deploy := false, haltPending := false }).flush.saveHealth).modeReport
    cause e.rcu.mode)

theorem Ev.enterIdle_rcu (e : Ev) (cause : ModeCause) :
    (e.enterIdle cause).rcu = { e.rcu with mode := .idle, deploy := false, haltPending := false } :=
  Ev.calResume_rcu _

/-- The berths named leave the stranded set, which may prompt a selection; with none left JAM or the mode ends (R170). -/
theorem Ev.clearBerths_eq (e : Ev) (berths : List Nat) : ∃ f : Ev → Ev, (f = id ∨ f = Ev.promptSel) ∧
    let left := e.rcu.stranded.filter fun b => decide (b ∉ berths)
    let cleared := f { e with rcu := { e.rcu with stranded := left } }
    e.clearBerths berths = if left = [] then
        if e.rcu.mode = .aborted then cleared.enterIdle .clear else cleared.dropHold .jam
      else cleared := by
  have hleft : (e.rcu.stranded.filter fun b => !berths.contains b) = e.rcu.stranded.filter fun b => decide (b ∉ berths) :=
    List.filter_congr fun b _ => by simp
  unfold Ev.clearBerths
  cases e.rcu.stranded.any fun b => b == 0 && berths.contains b with
  | false =>
    refine ⟨id, .inl rfl, ?_⟩
    simp only [Bool.false_eq_true, if_false, Ev.onRcu, hleft, List.isEmpty_iff]
    rfl
  | true =>
    refine ⟨Ev.promptSel, .inr rfl, ?_⟩
    simp only [if_true, Ev.onRcu, Ev.promptSel, hleft, List.isEmpty_iff]

theorem Ev.runClear_form {e : Ev} (h : e.rcu.mode = .holding ∨ e.rcu.mode = .aborted) (tag form : Byte)
    (rest : List Byte) :
    let c : HostCommand := ⟨0x23, tag, form :: rest⟩
    let named := if form = 1 then List.range 10 else rest.map (·.toNat)
    let bad := (form ≠ 0 ∧ form ≠ 1) ∨ (form = 0 ∧ (10 < rest.length ∨ ∃ b ∈ rest, 9 < b.toNat))
    (bad → e.runClear c = e.reply c .range [])
    ∧ (¬bad → e.runClear c = (e.clearBerths named).reply c .ok (le 2 (bitSet (e.clearBerths named).rcu.stranded))) := by
  intro c named bad
  have hm : ¬(e.rcu.mode ≠ .holding ∧ e.rcu.mode ≠ .aborted) := by tauto
  have hbad : (form = 0 ∧ (10 < (rest.map (·.toNat)).length ∨ (rest.map (·.toNat)).any (9 < ·) = true))
      ↔ (form = 0 ∧ (10 < rest.length ∨ ∃ b ∈ rest, 9 < b.toNat)) := by simp
  simp only [Ev.runClear, if_neg hm, c, hbad]
  refine ⟨fun hb => ?_, fun hb => ?_⟩
  · by_cases h1 : form ≠ 0 ∧ form ≠ 1
    · exact if_pos h1
    · rw [if_neg h1, if_pos (hb.resolve_left h1)]
      rfl
  · rw [if_neg fun k => hb (.inl k), if_neg fun k => hb (.inr k)]

theorem Ev.runAccept_read {e : Ev} (h : e.rcu.mode = .holding) (hi : e.rcu.holds.inspect = true) (tag : Byte)
    {slot : Nat} (hs : slot < 65536) (rest : List Byte) :
    let c : HostCommand := ⟨0x24, tag, le 2 slot ++ rest⟩
    let left := e.rcu.inspects.filter (· != slot)
    (1023 < slot → e.runAccept c = e.reply c .range [])
    ∧ (slot ≤ 1023 → slot ∉ e.rcu.inspects → e.runAccept c = e.reply c .state [])
    ∧ (slot ≤ 1023 → slot ∈ e.rcu.inspects → e.runAccept c = Ev.reply c .ok (le 2 left.length) { e with rcu :=
        { e.rcu with inspects := left, holds := { e.rcu.holds with inspect := decide (left ≠ []) } } }) := by
  intro c left
  have hm : ¬(e.rcu.mode ≠ .holding ∨ e.rcu.holds.inspect = false) := by simp [h, hi]
  have hlen : ¬(le 2 slot ++ rest).length < 2 := by simp; omega
  simp only [Ev.runAccept, if_neg hm, c, if_neg hlen, u16At_le hs]
  refine ⟨fun ho => if_pos ho, fun hle hn => ?_, fun hle hin => ?_⟩
  · rw [if_neg (Nat.not_lt.2 hle), if_pos (by simpa using hn)]
    rfl
  · rw [if_neg (Nat.not_lt.2 hle), if_neg (by simpa using hin)]
    by_cases hl : left = []
    · have hempty : ((e.onRcu fun r => { r with inspects := r.inspects.filter (· != slot) }).rcu.inspects.isEmpty) = true :=
        List.isEmpty_iff.2 hl
      rw [if_pos hempty, show decide (left ≠ []) = false by simp [hl]]
      rfl
    · have hkept : ¬((e.onRcu fun r => { r with inspects := r.inspects.filter (· != slot) }).rcu.inspects.isEmpty) = true :=
        fun k => hl (List.isEmpty_iff.1 k)
      rw [if_neg hkept, show decide (left ≠ []) = e.rcu.holds.inspect by simp [hl, hi]]
      rfl

/-- Settles O42: both commands by their equations; with the mode outside a run no prompted test changes anything. -/
theorem clearAndAccept : Obligations.ClearAndAccept := by
  refine ⟨?_, ?_⟩
  · intro s tag form rest c named left bad h
    refine ⟨fun hh ha => next_answered h (Ev.runClear_barred _ hh ha), fun hm => ?_⟩
    obtain ⟨hrange, hclear⟩ := Ev.runClear_form (e := s.taking) hm tag form rest
    obtain ⟨f, hf, hclr⟩ := Ev.clearBerths_eq s.taking named
    have hidle {e : Ev} (hr : e.rcu.mode = .holding ∨ e.rcu.mode = .aborted ∨ e.rcu.mode = .idle) : e.finish = e :=
      Ev.finish_quiet e (by rcases hr with hr | hr | hr <;> simp [State.running, hr])
    let cleared : Ev := { s.taking with rcu := { s.rcu with stranded := left } }
    refine ⟨fun hb => next_answered h (hrange hb), fun hb hl => ?_, fun hb hl hmode => ?_, fun hb hl hmode => ?_⟩
    · have hresult : s.taking.clearBerths named = f cleared := hclr.trans (if_neg hl)
      have hrun := hclear hb
      rw [hresult] at hrun
      rcases hf with rfl | rfl <;> exact next_changed h hrun rfl (hidle (hm.imp_right .inl))
    · have hresult : s.taking.clearBerths named = (f cleared).dropHold .jam :=
        hclr.trans ((if_pos hl).trans (if_neg (by simp [show s.taking.rcu.mode = .holding from hmode])))
      have hrun := hclear hb
      rw [hresult] at hrun
      simp only [cleared, hl] at hrun
      rcases hf with rfl | rfl <;> exact next_changed h hrun rfl (hidle (hm.imp_right .inl))
    · have hresult : s.taking.clearBerths named = (f cleared).enterIdle .clear :=
        hclr.trans ((if_pos hl).trans (if_pos hmode))
      have hstranded : ((f cleared).enterIdle .clear).rcu.stranded = [] := by
        rw [Ev.enterIdle_rcu]
        rcases hf with rfl | rfl <;> exact hl
      have hcleared : cleared = { s.taking with rcu := { s.rcu with stranded := [] } } := by simp only [cleared, hl]
      have hrun := hclear hb
      rw [hresult, hstranded, show bitSet [] = 0 from rfl] at hrun
      have hquiet := hidle (e := ((f cleared).enterIdle .clear).reply c .ok (le 2 0))
        (.inr (.inr (congrArg Rcu.mode (Ev.enterIdle_rcu _ _))))
      refine (next_taken h hrun hquiet).trans ?_
      rw [← hcleared]
      rcases hf with rfl | rfl
      · rfl
      · rw [Ev.enterIdle_promptSel]
        rfl
  · intro s tag slot rest hs c left h
    refine ⟨fun hm => next_answered h (Ev.runAccept_barred _ hm), fun hm hi => ?_⟩
    obtain ⟨hrange, hstate, hok⟩ := Ev.runAccept_read (e := s.taking) hm hi tag hs rest
    exact ⟨fun ho => next_answered h (hrange ho), fun hle hn => next_answered h (hstate hle hn),
      fun hle hin => next_changed h (hok hle hin) rfl (Ev.finish_none _ rfl rfl rfl rfl)⟩

/-! ### STOW -/

/-- The event at STOW before FOLD is asked for: the health save, the table no longer valid, the head cleared (R157, R144). -/
def Ev.resting (e : Ev) : Ev :=
  { e with hmn := { e.hmn with stored := e.hmn.live.saved }, dfu := e.dfu.stow, hsq := e.hsq.stowed }

theorem Ev.runStow_settled {e : Ev} (h : e.settledIdle = true) (c : HostCommand) :
    e.runStow c = ((((e.resting.askBoom .fold).onRcu fun r => { r with mode := .stowing }).modeReport .stow .idle).reply
      c .ok []) := by
  have hm : e.rcu.mode = .idle := ((State.settledIdle_iff _).1 h).1
  simp only [Ev.runStow, h, hm, Bool.not_true, Bool.false_eq_true, if_false]
  rfl

/-- Settles O43: STOW by its equation, with BOOM free or with an order in flight there. -/
theorem stowFoldsTheBoom : Obligations.StowFoldsTheBoom := by
  intro s tag p h hs hsq dfu stowing done
  have hrun := Ev.runStow_settled (e := s.taking) hs ⟨0x25, tag, p⟩
  refine ⟨fun hf => ?_, fun hf => ?_⟩
  · rw [Ev.askBoom_free (e := s.taking.resting) hf] at hrun
    exact next_taken h hrun (Ev.finish_none _ rfl rfl rfl rfl)
  · rw [Ev.askBoom_busy (e := s.taking.resting) hf] at hrun
    exact next_taken h hrun (Ev.finish_none _ rfl rfl rfl rfl)

/-! ### CAL -/

theorem Ev.runCal_start {e : Ev} (h : e.settledIdle = true) (tag : Byte) (rest : List Byte) :
    e.runCal ⟨0x27, tag, 0 :: rest⟩ = e.runCalStart ⟨0x27, tag, 0 :: rest⟩ := by
  simp [Ev.runCal, h]

theorem Ev.runCal_cancel {e : Ev} (h : e.settledIdle = true) (tag : Byte) (rest : List Byte) :
    e.runCal ⟨0x27, tag, 1 :: rest⟩ = (e.onDfu Dfu.cancel).reply ⟨0x27, tag, 1 :: rest⟩ .ok [] := by
  simp [Ev.runCal, h]

theorem Ev.runCal_other {e : Ev} (h : e.settledIdle = true) (tag : Byte) {form : Byte} (h0 : form ≠ 0) (h1 : form ≠ 1)
    (rest : List Byte) : e.runCal ⟨0x27, tag, form :: rest⟩ = e.reply ⟨0x27, tag, form :: rest⟩ .range [] := by
  simp only [Ev.runCal, Ev.refuse, h, if_neg h0, if_neg h1, Bool.not_true, Bool.false_eq_true, if_false]

theorem Ev.runCalStart_busy {e : Ev} (h : ∃ k, e.dfu.cal = .running k ∨ e.dfu.cal = .suspended k) (c : HostCommand) :
    e.runCalStart c = e.reply c .busy [] := by
  obtain ⟨k, h | h⟩ := h <;> simp [Ev.runCalStart, Ev.refuse, h]

theorem Ev.runCalStart_starts {e : Ev} (h : ¬∃ k, e.dfu.cal = .running k ∨ e.dfu.cal = .suspended k) (c : HostCommand) :
    e.runCalStart c =
      Ev.startPoint 0 ((e.reply c .ok []).onDfu fun d => { d with pendingPoints := [], cause := none }) := by
  unfold Ev.runCalStart
  cases hc : e.dfu.cal with
  | running k => exact absurd ⟨k, .inl hc⟩ h
  | suspended k => exact absurd ⟨k, .inr hc⟩ h
  | none | done | failed => rfl

theorem Dfu.cancel_eq (d : Dfu) : d.cancel = { d with
    pendingPoints := [], samples := [], limitTimer := none, cause := none, cal := .none
    slew := if d.slew = Outstanding.current then .abandoned else d.slew } := by
  unfold Dfu.cancel
  cases d.slew <;> rfl

/-- Settles O44: the three forms of CAL; the start waits for BOOM or sends its first slew. -/
theorem calStartsAndCancels : Obligations.CalStartsAndCancels := by
  intro s tag form rest c busy due pose h hs
  have room : s.taking.scp.outbound.length < 32 := h.room
  refine ⟨fun h0 hb => ?_, fun h0 hb hf => ?_, fun h0 hb hf => ?_, fun h1 => ?_, fun h0 h1 => ?_⟩
  · subst h0
    exact next_answered h ((Ev.runCal_start (e := s.taking) hs tag rest).trans (Ev.runCalStart_busy hb _))
  · subst h0
    have hrun := (Ev.runCal_start (e := s.taking) hs tag rest).trans (Ev.runCalStart_starts hb _)
    rw [Ev.reply_of_room _ _ _ room, Ev.startPoint_busy 0 hf] at hrun
    exact next_taken h hrun (Ev.finish_none _ rfl rfl rfl rfl)
  · subst h0
    have hrun := (Ev.runCal_start (e := s.taking) hs tag rest).trans (Ev.runCalStart_starts hb _)
    rw [Ev.reply_of_room _ _ _ room, Ev.startPoint_free 0 hf] at hrun
    refine (next_taken h hrun (Ev.finish_none _ rfl rfl rfl rfl)).trans ?_
    rfl
  · subst h1
    have hrun := Ev.runCal_cancel (e := s.taking) hs tag rest
    rw [Ev.onDfu, Dfu.cancel_eq] at hrun
    exact next_changed h hrun rfl (Ev.finish_none _ rfl rfl rfl rfl)
  · exact next_answered h (Ev.runCal_other (e := s.taking) hs tag h0 h1 rest)

end Sys2Proof.Machine
end

section
/-! PROOFS. The soft reset (R173, R202). -/

namespace Sys2Proof.Machine

/-- The event in which a soft reset drops the run: STOP, the train removed, the head, the routine and Run Control reset. It
is irreducible: the walk over the ten berths is read through `Ev.dropTrain_spec` alone. -/
@[irreducible] def Ev.resetDropped (e : Ev) : Ev :=
  (((e.stop.dropTrain).onHsq Hsq.softReset).onDfu Dfu.softReset).onRcu fun r =>
    { r with holds := .none, inspects := [], haltPending := false, deploy := false }

theorem Ev.resetDropped_toState (e : Ev) : e.resetDropped.toState = { e.toState with
    pls := { e.pls with plan := e.resetDropped.pls.plan }
    rcu := { e.rcu with
      deploy := false, holds := .none, inspects := [], haltPending := false, stranded := e.resetDropped.rcu.stranded }
    sli := { e.sli with inFlight := [], boomWaiting := none }
    btc := { e.btc with train := e.resetDropped.btc.train }
    hsq := e.hsq.softReset
    dfu := e.dfu.softReset
    loopTx := e.loopTx ++ stopFrame } := by
  have htrain := (Ev.dropTrain_toState e.stop).1
  unfold Ev.resetDropped
  generalize e.stop.dropTrain = d at htrain ⊢
  exact congrArg (fun t : State => { t with
    hsq := t.hsq.softReset, dfu := t.dfu.softReset
    rcu := { t.rcu with holds := .none, inspects := [], haltPending := false, deploy := false } }) htrain

/-- What dropping the run strands and returns to PLANNED (R97). -/
theorem Ev.resetDropped_train (e : Ev) :
    (∀ b, b ∈ e.resetDropped.rcu.stranded ↔
      b ∈ e.rcu.stranded ∨ (b < 10 ∧ (e.carrierAt b ≠ none ∨ e.reserved b = true)))
    ∧ (∀ b < 10, e.resetDropped.carrierAt b = none) ∧ e.resetDropped.btc.releases = e.btc.releases
    ∧ e.resetDropped.btc.bin = e.btc.bin ∧ e.resetDropped.replyDue = e.replyDue
    ∧ ∀ slot, e.resetDropped.entryAt slot = (e.entryAt slot).map fun en =>
        if (List.range 10).any (fun b => (e.carrierAt b).any fun c => c.slot == slot) then { en with state := .planned }
        else en := by
  obtain ⟨hspec, hstranded⟩ := Ev.dropTrain_spec e.stop
  have hdue := (Ev.dropTrain_toState e.stop).2
  unfold Ev.resetDropped
  generalize e.stop.dropTrain = d at hspec hstranded hdue ⊢
  exact ⟨hstranded, fun b hb => (hspec.carrier b).trans (if_pos (List.mem_range.2 hb)), hspec.rel, hspec.bin, hdue,
    hspec.entry⟩

/-- The courses stand where every carrier's entry is unfinished: dropping the run returns entries to PLANNED alone. -/
theorem Ev.resetDropped_lowestCourse {e : Ev} (h : e.stop.carriersUnfinished) :
    e.resetDropped.lowestCourse = e.lowestCourse := by
  have hlowest := Ev.dropTrain_lowestCourse e.stop h
  unfold Ev.resetDropped
  generalize e.stop.dropTrain = d at hlowest ⊢
  exact hlowest

/-- The event of a soft reset once its reply is queued and the command queue emptied (R202). -/
def Ev.resetReplied (c : HostCommand) (e : Ev) : Ev := (e.flush.reply c .ok []).onScp fun p => { p with commands := [] }

/-- The configuration items restored, with a RATE report where reduced rate turns (R201, R144). -/
def Ev.restoreItems (e : Ev) : Ev := e.withRate .cfg fun e => e.onScp fun p => { p with config := p.config.softReset }

theorem Ev.runRst_eq (c : HostCommand) (e : Ev) :
    e.runRst c = ((e.resetReplied c).resetDropped.restoreItems.refreshCourse .reset).resetMode e.rcu.mode := by
  unfold Ev.resetDropped
  rfl

/-- Whether reduced rate is in force under a setting (R139). -/
def RateSetting.reduces (rate : RateSetting) (gust : Bool) : Bool := decide (rate = .reduced ∨ rate = .auto ∧ gust = true)

theorem State.reducedRate_eq_reduces (s : State) : s.reducedRate = s.scp.config.rate.reduces s.hsq.gustReduced := by
  rw [Bool.eq_iff_iff, State.reducedRate_eq, RateSetting.reduces, decide_eq_true_iff]

theorem Ev.restoreItems_eq {e : Ev} {items : ConfigItems} {gust : Bool} {active : Option Nat} {count : Nat}
    (hi : e.scp.config = items) (hg : e.hsq.gustReduced = gust) (ha : e.rsl.active = active)
    (hn : e.hsq.gustCount = count) :
    let config := if items.keep then items else .defaults
    let restored : Ev := { e with scp := { e.scp with config := config } }
    e.restoreItems = if config.rate.reduces gust = items.rate.reduces gust then restored
      else restored.report (.rate (config.rate.reduces gust) .cfg active count) := by
  subst hi hg ha hn
  intro config restored
  have hnew : restored.reducedRate = config.rate.reduces e.hsq.gustReduced := restored.reducedRate_eq_reduces
  rw [← hnew, ← State.reducedRate_eq_reduces]
  rfl

theorem Scp.pushReply_same (kind tag : Byte) (st : Status) (rs : List Byte) (p : Scp) :
    Scp.SameQueueAndItems p (p.pushReply kind tag st rs) := by
  unfold Scp.pushReply
  split <;> exact ⟨rfl, rfl⟩

theorem Ev.restoreItems_toState (e : Ev) : e.restoreItems.toState = { e.toState with scp := e.restoreItems.scp } := by
  unfold Ev.restoreItems Ev.withRate
  dsimp only
  split <;> rfl

/-- A report is queued behind the messages that wait, or lost. -/
theorem Scp.raise_outbound (due : Bool) (r : Report) (p : Scp) : p.outbound <+: (p.raise due r).outbound := by
  unfold Scp.raise
  split
  · exact List.prefix_append _ _
  · exact List.prefix_refl _

theorem Ev.restoreItems_scp (e : Ev) : e.restoreItems.scp.batch = e.scp.batch
    ∧ e.restoreItems.scp.commands = e.scp.commands
    ∧ e.restoreItems.scp.config = (if e.scp.config.keep then e.scp.config else .defaults)
    ∧ e.scp.outbound <+: e.restoreItems.scp.outbound := by
  unfold Ev.restoreItems Ev.withRate
  dsimp only
  split
  · exact ⟨rfl, rfl, rfl, List.prefix_refl _⟩
  · exact ⟨Scp.raise_batch _ _ _, (Scp.raise_same _ _ _).commands, (Scp.raise_same _ _ _).config,
      Scp.raise_outbound e.replyDue _ { e.scp with config := e.scp.config.softReset }⟩

/-- With a reply due, a flush leaves its place free (R194, R196). -/
theorem Scp.flush_room {p : Scp} (h : p.outbound.length < 32) : (p.flush true).outbound.length < 32 := by
  by_cases hb : p.batch = []
  · rwa [Scp.flush_of_empty hb]
  · rw [Scp.flush_of_pending hb]
    show (p.raise true _).outbound.length < 32
    unfold Scp.raise
    split
    · next hr =>
      have := ((Scp.reportRoom_iff _ _).1 hr).2.2 rfl
      simp only [List.length_append, List.length_cons, List.length_nil]
      omega
    · exact h

/-- The mode a soft reset ends in, with its report; an entry into IDLE saves the health values (R173). -/
theorem Ev.resetMode_eq {e : Ev} (hcal : e.dfu.cal = .none) (previous : Mode) :
    let mode := if e.rcu.stranded = [] then Mode.idle else .aborted
    let ended := { e with rcu := { e.rcu with mode := mode } }.report
      (.mode mode previous e.rcu.deploy .reset e.rcu.holds e.rcu.haltPending e.rcu.stranded)
    e.resetMode previous = if e.rcu.stranded = [] then { ended with hmn := { e.hmn with stored := e.hmn.live.saved } }
      else ended := by
  intro mode ended
  have hnone : ∀ k, e.dfu.cal ≠ .suspended k := fun k hk => by simp [hcal] at hk
  unfold Ev.resetMode
  by_cases h : e.rcu.stranded = []
  · have hmode : mode = .idle := if_pos h
    have hempty : e.rcu.stranded.isEmpty = true := List.isEmpty_iff.2 h
    simp only [Ev.onRcu, hempty, if_true, if_pos h]
    let told := Ev.modeReport .reset previous { e with rcu := { e.rcu with mode := Mode.idle } }
    rw [if_pos (show told.rcu.mode = .idle from rfl)]
    refine (Ev.calResume_of_not (e := told.saveHealth) hnone).trans ?_
    simp only [ended, hmode]
    rfl
  · have hmode : mode = .aborted := if_neg h
    have hempty : ¬e.rcu.stranded.isEmpty = true := fun k => h (List.isEmpty_iff.1 k)
    simp only [Ev.onRcu, if_neg hempty, if_neg h]
    rw [if_neg (show ¬(Ev.modeReport .reset previous { e with rcu := { e.rcu with mode := Mode.aborted } }).rcu.mode = .idle
      from Mode.noConfusion)]
    simp only [ended, hmode]
    rfl

/-- The event in which a soft reset ends, from the one in which its configuration items are restored (R173). -/
def Ev.resetEnded (stranded : List Nat) (s : State) (told : Ev) : Ev :=
  let mode := if stranded = [] then Mode.idle else .aborted
  let read := told.refreshCourse .reset
  let ended := { read with rcu := { read.rcu with mode := mode } }.report
    (.mode mode s.rcu.mode false .reset .none false stranded)
  if stranded = [] then { ended with hmn := { s.hmn with stored := s.hmn.live.saved } } else ended

/-- Settles O45: what dropping the run leaves, then the items restored, then the active course read again. -/
theorem softResetDropsTheRun : Obligations.SoftResetDropsTheRun := by
  intro s tag p h
  let c : HostCommand := ⟨0x05, tag, p⟩
  have room : s.taking.flush.scp.outbound.length < 32 := Scp.flush_room h.room
  let replied := s.taking.resetReplied c
  let dropped := replied.resetDropped
  let stranded := dropped.rcu.stranded
  let told := dropped.restoreItems
  let read := told.refreshCourse .reset
  let mode := if stranded = [] then Mode.idle else .aborted
  let ended := { read with rcu := { read.rcu with mode := mode } }.report
    (.mode mode s.rcu.mode false .reset .none false stranded)
  have hdropped : dropped.toState = _ := replied.resetDropped_toState
  obtain ⟨hstranded, hempty, hreleases, hbin, hdue, hplan⟩ := replied.resetDropped_train
  -- the Serial Command Port: flushed, answered, its queue emptied, its items restored
  have hqueue : Scp.SameQueueAndItems s.taking.scp (s.taking.flush.reply c .ok []).scp :=
    (Scp.flush_same true s.taking.scp).trans (Scp.pushReply_same _ _ _ _ _)
  have hscp : dropped.scp = { (s.taking.flush.reply c .ok []).scp with commands := [] } := congrArg State.scp hdropped
  have hconfig : dropped.scp.config = s.scp.config := (congrArg Scp.config hscp).trans hqueue.config
  have hbatch : dropped.scp.batch = [] :=
    (congrArg Scp.batch hscp).trans ((Scp.pushReply_batch _ _ _ _ _).trans (Scp.flush_batch _ _))
  have houtbound : dropped.scp.outbound = s.taking.flush.scp.outbound ++ [.reply 0x05 tag .ok []] := by
    rw [hscp, Ev.reply_of_room _ _ _ room]
  obtain ⟨htoldBatch, htoldCommands, htoldConfig, htoldOutbound⟩ := dropped.restoreItems_scp
  rw [hbatch] at htoldBatch
  rw [hconfig] at htoldConfig
  rw [houtbound] at htoldOutbound
  -- the active course is read again, with no course finished
  have hhsq : dropped.hsq = s.hsq.softReset := congrArg State.hsq hdropped
  have hrsl : dropped.rsl = s.rsl := (congrArg State.rsl hdropped :)
  have htold := Ev.restoreItems_eq hconfig (congrArg Hsq.gustReduced hhsq) (congrArg Rsl.active hrsl)
    (congrArg Hsq.gustCount hhsq)
  have htoldState : told.toState = { dropped.toState with scp := told.scp } := dropped.restoreItems_toState
  have same : Ev.SameRun told read := (Ev.refreshCourse_spec told .reset).1
  obtain ⟨hreadScp, hreadHsq⟩ := Ev.refreshCourse_unfinished (e := told) (b := .reset) (.inl (by decide))
  have htoldHsq : told.hsq = s.hsq.softReset := (congrArg State.hsq htoldState :).trans hhsq
  have hrcu : read.rcu = { s.rcu with
      deploy := false, holds := .none, inspects := [], haltPending := false, stranded := stranded
      marker := some 0x05 } := same.rcu.trans ((congrArg State.rcu htoldState :).trans (congrArg State.rcu hdropped))
  have hcal : read.dfu.cal = .none :=
    congrArg Dfu.cal (same.dfu.trans ((congrArg State.dfu htoldState :).trans (congrArg State.dfu hdropped :)))
  have hended : read.resetMode s.rcu.mode =
      if stranded = [] then { ended with hmn := { read.hmn with stored := read.hmn.live.saved } } else ended := by
    rw [Ev.resetMode_eq hcal]
    simp only [hrcu, ended, mode]
  have hhmn : read.hmn = s.hmn := same.hmn.trans ((congrArg State.hmn htoldState :).trans (congrArg State.hmn hdropped :))
  rw [hhmn] at hended
  have hrun := (Ev.runRst_eq c s.taking).trans hended
  let e := if stranded = [] then { ended with hmn := { s.hmn with stored := s.hmn.live.saved } } else ended
  obtain ⟨t, ht⟩ : ∃ t, t = e.toState := ⟨_, rfl⟩
  obtain ⟨hpls, htrcu, hbtc, hsli, hloop, hthsq, hdfu, htrk, hnow, htscp⟩ : t.pls = read.pls ∧ t.rcu = { read.rcu with mode := mode } ∧ t.btc = read.btc ∧ t.sli = read.sli
      ∧ t.loopTx = read.loopTx ∧ t.hsq = read.hsq ∧ t.dfu = read.dfu ∧ t.trk = read.trk ∧ t.now = read.now
      ∧ t.scp = ended.scp := by
    rw [ht]
    simp only [e]
    split <;> exact ⟨rfl, rfl, rfl, rfl, rfl, rfl, rfl, rfl, rfl, rfl⟩
  have htstranded : t.rcu.stranded = stranded := by rw [htrcu, hrcu]
  have hthmn : t.hmn = { s.hmn with stored := if stranded = [] then s.hmn.live.saved else s.hmn.stored } := by
    rw [ht]
    simp only [e]
    split
    · rfl
    · exact hhmn
  have hquiet : e.finish = e := by
    have hmode : e.rcu.mode = mode := (congrArg (fun t : State => t.rcu.mode) ht).symm.trans (congrArg Rcu.mode htrcu)
    refine Ev.finish_quiet e ?_
    by_cases hs : stranded = [] <;> simp [State.running, hmode, mode, hs]
  refine ⟨t, dropped, ?_⟩
  rw [htstranded]
  refine ⟨(next_taken h hrun hquiet).trans (congrArg _ ht.symm), ?_, hdropped, hdue, ?_⟩
  · exact ht.trans (congrArg (fun told : Ev => (told.resetEnded stranded s).toState) htold)
  · have hlowest : s.Sound → s.Orderly → dropped.lowestCourse = s.lowestCourse := fun hsound horderly => by
      obtain ⟨-, -, -, -, -, -, hrising⟩ := hsound.pls
      exact Ev.resetDropped_lowestCourse (e := replied) (horderly.carriersUnfinished hrising)
    have hplanTold : told.pls.plan = dropped.pls.plan := (congrArg (fun t : State => t.pls.plan) htoldState :)
    have hentry (slot : Nat) : t.entryAt slot = dropped.entryAt slot := by
      rw [State.entryAt, State.entryAt, hpls, same.plan, hplanTold]
    have hbtcDropped : t.btc = dropped.btc := hbtc.trans (same.btc.trans (congrArg State.btc htoldState :))
    have hcarrier (b : Nat) : t.carrierAt b = dropped.carrierAt b := by
      rw [State.carrierAt, State.carrierAt, hbtcDropped]
    have hhead : ∃ n, t.hsq = { s.hsq.softReset with gustCount := n } := by
      rw [hthsq, hreadHsq, htoldHsq]
      split
      · exact ⟨0, rfl⟩
      · exact ⟨_, rfl⟩
    have hcount : dropped.lowestCourse = s.rsl.active → t.hsq.gustCount = s.hsq.gustCount := by
      intro hl
      have htoldLowest : told.lowestCourse = told.rsl.active := calc
        told.lowestCourse = dropped.lowestCourse :=
          State.lowestCourse_congr hplanTold (congrArg (fun t : State => t.rcu.station) htoldState :)
        _ = s.rsl.active := hl
        _ = told.rsl.active := hrsl ▸ (congrArg (fun t : State => t.rsl.active) htoldState :).symm
      rw [hthsq, hreadHsq, if_neg (by simp [htoldLowest]), htoldHsq]
      rfl
    have houtboundEnd : told.scp.outbound <+: t.scp.outbound := by
      rw [htscp, ← hreadScp]
      exact Scp.raise_outbound _ _ _
    have hscpEnd : Scp.SameQueueAndItems told.scp t.scp := by
      rw [htscp, ← hreadScp]
      exact Scp.raise_same _ _ _
    have hbatchEnd : t.scp.batch = [] := by
      rw [htscp]
      exact (Scp.raise_batch _ _ _).trans ((congrArg Scp.batch hreadScp).trans htoldBatch)
    obtain ⟨n, hhead⟩ := hhead
    refine ⟨by rw [hhead]; rfl, by rw [hhead]; rfl, hcount, hlowest, htoldOutbound.trans houtboundEnd,
      hscpEnd.commands.trans (htoldCommands.trans (congrArg Scp.commands hscp)), hbatchEnd,
      hscpEnd.config.trans htoldConfig, htrcu.trans (by rw [hrcu]), hstranded, fun b hb => (hcarrier b).trans (hempty b hb),
      (congrArg Btc.releases hbtcDropped).trans hreleases, (congrArg Btc.bin hbtcDropped).trans hbin,
      fun slot => (hentry slot).trans (hplan slot),
      hsli.trans (same.sli.trans ((congrArg State.sli htoldState :).trans (congrArg State.sli hdropped :))),
      hloop.trans (same.loopTx.trans ((congrArg State.loopTx htoldState :).trans (congrArg State.loopTx hdropped :))), ?_⟩
    rw [hhead]
    exact ⟨rfl, rfl, rfl, rfl, rfl, rfl, rfl, rfl,
      hdfu.trans (same.dfu.trans ((congrArg State.dfu htoldState :).trans (congrArg State.dfu hdropped :))), hthmn,
      htrk.trans (same.trk.trans ((congrArg State.trk htoldState :).trans (congrArg State.trk hdropped :))),
      hnow.trans (same.now.trans ((congrArg State.now htoldState :).trans (congrArg State.now hdropped :)))⟩

end Sys2Proof.Machine
end

section
/-! PROOFS. Power-on and hard reset (R174), and the health commands (R184, R185). -/

namespace Sys2Proof.Machine

/-! ### Reports raised one after another -/

theorem Scp.reportCount_le (p : Scp) : p.reportCount ≤ p.outbound.length := List.length_filter_le _ _

/-- Reports that find room take the places and the sequence numbers in order (R194, R195). -/
theorem Scp.raise_foldl (rs : List Report) : ∀ (p : Scp) (k : Nat), p.sequence = BitVec.ofNat 16 k →
    p.outbound.length + rs.length ≤ 28 → rs.foldl (fun p r => p.raise false r) p =
      { p with
        outbound := p.outbound ++ (rs.zipIdx k).map fun q => .report (BitVec.ofNat 16 q.2) q.1
        sequence := BitVec.ofNat 16 (k + rs.length) } := by
  induction rs with
  | nil =>
    intro p k hk _
    simp [← hk]
  | cons r rs ih =>
    intro p k hk hroom
    rw [List.length_cons] at hroom
    have hcount := p.reportCount_le
    have hraise : p.raise false r =
        { p with outbound := p.outbound ++ [.report (BitVec.ofNat 16 k) r], sequence := BitVec.ofNat 16 (k + 1) } := by
      rw [Scp.raise, if_pos ((Scp.reportRoom_iff p false).2 ⟨by omega, by omega, fun k => by cases k⟩), hk, BitVec.ofNat_add]
      rfl
    rw [List.foldl_cons, hraise, ih _ (k + 1) rfl (by simp only [List.length_append, List.length_cons, List.length_nil]; omega)]
    simp only [List.zipIdx_cons, List.map_cons, List.append_assoc, List.cons_append, List.nil_append, List.length_cons,
      Nat.add_assoc, Nat.add_comm 1]

/-! ### The loaded wear counts are evaluated (R187) -/

theorem Attrs.read_write_other {α : Type} (t : Attrs α) {a b : Attr} (v : α) (h : b ≠ a) :
    (t.write a v).read b = t.read b := by
  revert h
  cases a <;> cases b <;> simp [Attrs.read, Attrs.write]

/-- A record with its crossed flag evaluated (R179). -/
def AttrRecord.evaluated (r : AttrRecord) : AttrRecord := { r with crossed := r.atThreshold }

/-- The report of a loaded count that is crossed (R187). -/
def Attr.loadReport (t : Attrs AttrRecord) (a : Attr) : Report := .health a (t.read a).value (t.read a).threshold .load

theorem Ev.crossEffect_idle {e : Ev} (h : e.rcu.mode = .idle) (a : Attr) : e.crossEffect a = e := by
  have hraise (r : Hold) : e.raiseHold r none = e :=
    Ev.raiseHold_of_other (by simp [h]) (by simp [h]) (by simp [h]) r none
  cases a with
  | glueFaults | pressCutoffs => exact hraise _
  | gripCycles | sawCuts | jams | lockLosses | rejects => rfl

/-- Outside a run, a count whose flag is clear is evaluated and reported, with no effect on the mode (R179, R162). -/
theorem Ev.evaluate_load {e : Ev} {a : Attr} (hm : e.rcu.mode = .idle) (hc : (e.hmn.live.read a).crossed = false) :
    e.evaluate a .load = { e with
      hmn := { e.hmn with live := e.hmn.live.write a (e.hmn.live.read a).evaluated }
      scp := if (e.hmn.live.read a).atThreshold then e.scp.raise e.replyDue (a.loadReport e.hmn.live) else e.scp } := by
  cases ht : (e.hmn.live.read a).atThreshold with
  | false =>
    have hsame : (e.hmn.live.read a).evaluated = e.hmn.live.read a := by rw [AttrRecord.evaluated, ht, ← hc]
    simp only [Ev.evaluate, hc, ht, hsame, Attrs.write_read, Bool.false_eq_true, if_false]
  | true =>
    have hcross : (e.hmn.live.read a).evaluated = { e.hmn.live.read a with crossed := true } := by
      rw [AttrRecord.evaluated, ht]
    simp only [Ev.evaluate, hc, ht, hcross, if_true]
    rw [Ev.crossEffect_idle (by exact hm)]
    rfl

/-- The counts of a list are evaluated in order (R187). -/
theorem Ev.evaluate_foldl (l : List Attr) : l.Nodup → ∀ e : Ev, e.rcu.mode = .idle →
    (∀ a ∈ l, (e.hmn.live.read a).crossed = false) →
    ∃ live : Attrs AttrRecord,
      (∀ a, live.read a = if a ∈ l then (e.hmn.live.read a).evaluated else e.hmn.live.read a)
      ∧ l.foldl (fun e a => e.evaluate a .load) e = { e with
          hmn := { e.hmn with live := live }
          scp := ((l.filter fun a => (e.hmn.live.read a).atThreshold).map (Attr.loadReport e.hmn.live)).foldl
            (fun p r => p.raise e.replyDue r) e.scp } := by
  induction l with
  | nil => exact fun _ e _ _ => ⟨e.hmn.live, fun a => by simp, rfl⟩
  | cons a l ih =>
    intro hl e hm hc
    obtain ⟨ha, hl⟩ := List.nodup_cons.1 hl
    have hstep := Ev.evaluate_load hm (hc a List.mem_cons_self)
    have hother : ∀ b ∈ l, (e.hmn.live.write a (e.hmn.live.read a).evaluated).read b = e.hmn.live.read b := fun b hb =>
      Attrs.read_write_other _ _ fun k => ha (k ▸ hb)
    obtain ⟨live, hlive, hfold⟩ := ih hl (e.evaluate a .load) (by rw [hstep]; exact hm) (by
      intro b hb
      rw [hstep]
      exact (congrArg AttrRecord.crossed (hother b hb)).trans (hc b (List.mem_cons_of_mem _ hb)))
    refine ⟨live, fun b => ?_, ?_⟩
    · rw [hlive, hstep]
      by_cases hb : b = a
      · subst hb
        simp [ha]
      · simp [hb, Attrs.read_write_other _ _ hb]
    · have hfilter : (l.filter fun b => ((e.evaluate a .load).hmn.live.read b).atThreshold)
          = l.filter fun b => (e.hmn.live.read b).atThreshold :=
        List.filter_congr fun b hb => by rw [hstep]; exact congrArg AttrRecord.atThreshold (hother b hb)
      have hmap : (l.filter fun b => (e.hmn.live.read b).atThreshold).map (Attr.loadReport (e.evaluate a .load).hmn.live)
          = (l.filter fun b => (e.hmn.live.read b).atThreshold).map (Attr.loadReport e.hmn.live) :=
        List.map_congr_left fun b hb => by
          rw [hstep]
          simp only [Attr.loadReport, hother b (List.mem_of_mem_filter hb)]
      rw [List.foldl_cons, hfold, hfilter, hmap, hstep]
      cases ht : (e.hmn.live.read a).atThreshold <;> simp [ht]

theorem Attrs.read_loaded (t : Attrs SavedAttr) (a : Attr) : (Attrs.loaded t).read a = .loaded (t.read a) := by
  cases a <;> rfl

theorem bitRateOf_eq (strap0 strap1 : Bool) : bitRateOf strap0 strap1 =
    if strap1 then (if strap0 then 921600 else 460800) else if strap0 then 230400 else 115200 := by
  cases strap0 <;> cases strap1 <;> rfl

/-- Settles O46: both rows are `powerUp`, whose counts are evaluated one after another on a part with no report queued. -/
theorem powerOnAndHardReset : Obligations.PowerOnAndHardReset := by
  intro s strap0 strap1 row hrow rate loaded crossed
  have hrate : bitRateOf strap0 strap1 = rate := bitRateOf_eq strap0 strap1
  let e := Ev.start (s.powered rate)
  have hread (a : Attr) : e.hmn.live.read a = .loaded (s.hmn.stored.read a) := Attrs.read_loaded _ a
  obtain ⟨live, hlive, hfold⟩ := Ev.evaluate_foldl Attr.all (by decide) e rfl fun a _ => by rw [hread]; rfl
  have hloaded (a : Attr) : (e.hmn.live.read a).evaluated = loaded a := by
    rw [hread]
    simp only [AttrRecord.evaluated, loaded, AttrRecord.loaded]
    congr 1
    rw [Bool.eq_iff_iff, AttrRecord.atThreshold_iff, decide_eq_true_iff]
  have hcrossed : (Attr.all.filter fun a => (e.hmn.live.read a).atThreshold) = crossed :=
    List.filter_congr fun a _ => congrArg AttrRecord.crossed (hloaded a)
  have hreports : crossed.map (Attr.loadReport e.hmn.live)
      = crossed.map fun a => .health a (loaded a).value (loaded a).threshold .load :=
    List.map_congr_left fun a _ => by simp only [Attr.loadReport, ← hloaded]; rfl
  have hlength : crossed.length ≤ 7 := List.length_filter_le _ Attr.all
  rw [hcrossed, hreports] at hfold
  have hscp := Scp.raise_foldl (crossed.map fun a => .health a (loaded a).value (loaded a).threshold .load) (Scp.reset rate) 0
    rfl (by rw [List.length_map]; exact Nat.le_trans (Nat.add_le_add_left hlength 0) (by decide))
  rw [List.zipIdx_map, List.map_map, List.length_map, Nat.zero_add] at hscp
  have hquiet : (Ev.evaluateLoaded e).finish = Ev.evaluateLoaded e := by
    refine Ev.finish_quiet _ ?_
    rw [Ev.evaluateLoaded, hfold]
    rfl
  have hexec : exec (row strap0 strap1) s = .next (Ev.evaluateLoaded e).toState := by
    have hpower : powerUp strap0 strap1 s = (Ev.evaluateLoaded e).toState := by
      rw [powerUp, hrate, event, hquiet]
    rw [← hpower]
    rcases hrow with rfl | rfl <;> rfl
  refine ⟨_, hexec, ?_⟩
  rw [Ev.evaluateLoaded, hfold]
  exact ⟨rfl, rfl, rfl, rfl, rfl, rfl, rfl, rfl,
    fun a => (hlive a).trans ((if_pos (by cases a <;> decide)).trans (hloaded a)), rfl, hscp, rfl, rfl, rfl⟩

/-! ### HLTH THRESH and HLTH RESET (R184, R185) -/

theorem Ev.runHlth_thresh {e : Ev} (h : e.settledIdle = true ∨ e.rcu.mode = .holding) (tag n : Byte) (v : Nat)
    (rest : List Byte) :
    e.runHlth ⟨0x28, tag, 2 :: n :: (le 4 v ++ rest)⟩ = e.runThresh ⟨0x28, tag, 2 :: n :: (le 4 v ++ rest)⟩ := by
  have hw : ¬(!(e.settledIdle || e.rcu.mode == .holding)) = true := by rcases h with h | h <;> simp [h]
  have hl : ¬(2 :: n :: (le 4 v ++ rest)).length < 6 := by simp
  exact (if_neg hw).trans (if_neg hl)

theorem Ev.runHlth_reset {e : Ev} (h : e.settledIdle = true ∨ e.rcu.mode = .holding) (tag n : Byte) {rest : List Byte}
    (hr : 4 ≤ rest.length) : e.runHlth ⟨0x28, tag, 3 :: n :: rest⟩ = e.runWearReset ⟨0x28, tag, 3 :: n :: rest⟩ := by
  have hw : ¬(!(e.settledIdle || e.rcu.mode == .holding)) = true := by rcases h with h | h <;> simp [h]
  have hl : ¬(3 :: n :: rest).length < 6 := by simp only [List.length_cons]; omega
  exact (if_neg hw).trans (if_neg hl)

theorem Ev.runThresh_refused {e : Ev} (tag n : Byte) {v : Nat} (hv : v < 4294967296)
    (h : Attr.ofNumber n.toNat = none ∨ 999999 < v) (rest : List Byte) :
    let c : HostCommand := ⟨0x28, tag, 2 :: n :: (le 4 v ++ rest)⟩
    e.runThresh c = e.reply c .range [] := by
  intro c
  have hread : u32At c.payload 2 = v := u32At_le hv rest
  have hn : byteAt c.payload 1 = n.toNat := rfl
  simp only [Ev.runThresh, hread, hn]
  cases ha : Attr.ofNumber n.toNat with
  | none => rfl
  | some a => exact if_pos (h.resolve_left (by simp [ha]))

theorem Ev.runThresh_taken {e : Ev} (tag : Byte) {n : Byte} {v : Nat} (hv : v ≤ 999999) {a : Attr}
    (ha : Attr.ofNumber n.toNat = some a) (rest : List Byte) :
    let c : HostCommand := ⟨0x28, tag, 2 :: n :: (le 4 v ++ rest)⟩
    let t := ((e.onAttr a fun r => { r with threshold := v }).evaluate a .thresh).saveHealth
    e.runThresh c = t.reply c .ok (t.hmn.live.read a).bytes := by
  intro c t
  have hread : u32At c.payload 2 = v := u32At_le (by omega) rest
  have hn : byteAt c.payload 1 = n.toNat := rfl
  simp only [Ev.runThresh, hread, hn, ha]
  exact if_neg (Nat.not_lt.2 hv)

theorem Ev.runWearReset_refused {e : Ev} (tag : Byte) {n : Byte} (h : Attr.ofNumber n.toNat = none) (rest : List Byte) :
    let c : HostCommand := ⟨0x28, tag, 3 :: n :: rest⟩
    e.runWearReset c = e.reply c .range [] := by
  intro c
  have hn : byteAt c.payload 1 = n.toNat := rfl
  simp only [Ev.runWearReset, hn, h]
  rfl

theorem Ev.runWearReset_taken {e : Ev} (tag : Byte) {n : Byte} {a : Attr} (ha : Attr.ofNumber n.toNat = some a)
    (rest : List Byte) :
    let c : HostCommand := ⟨0x28, tag, 3 :: n :: rest⟩
    let zeroed := e.onAttr a fun r => { r with value := 0, crossed := false }
    let t := (if (e.hmn.live.read a).crossed then zeroed.uncrossEffect a else zeroed).saveHealth
    e.runWearReset c = t.reply c .ok (t.hmn.live.read a).bytes := by
  intro c zeroed t
  have hn : byteAt c.payload 1 = n.toNat := rfl
  simp only [Ev.runWearReset, hn, ha]
  rfl

theorem Ev.uncrossEffect_hmn (e : Ev) (a : Attr) : (e.uncrossEffect a).hmn = e.hmn := by cases a <;> rfl

theorem Ev.raiseHold_hmn (e : Ev) (r : Hold) (slot : Option Nat) : (e.raiseHold r slot).hmn = e.hmn := by
  unfold Ev.raiseHold
  split <;> rfl

theorem Ev.crossEffect_hmn (e : Ev) (a : Attr) : (e.crossEffect a).hmn = e.hmn := by
  cases a with
  | glueFaults | pressCutoffs => exact Ev.raiseHold_hmn _ _ _
  | gripCycles | sawCuts | jams | lockLosses | rejects => rfl

/-- Settles O47: the two subfunctions by their equations, the threshold's by the evaluation of the record it writes. -/
theorem healthThresholdAndReset : Obligations.HealthThresholdAndReset := by
  intro s tag n rest hw set save lifted raised
  have hlifted (a : Attr) (e : Ev) : e.uncrossEffect a = lifted a e := by cases a <;> rfl
  have hraised (a : Attr) (e : Ev) : e.crossEffect a = raised a e := by cases a <;> rfl
  refine ⟨fun v hv => ?_, fun hr => ?_⟩
  · intro c h
    have hrun := Ev.runHlth_thresh (e := s.taking) hw tag n v rest
    refine ⟨fun ho => next_answered h (hrun.trans (Ev.runThresh_refused tag n hv ho rest)), fun a ha hle => ?_⟩
    have htaken := hrun.trans (Ev.runThresh_taken (e := s.taking) tag hle ha rest)
    intro r now e results
    have hat (crossed : Bool) : AttrRecord.atThreshold ⟨r.value, v, crossed⟩ = now := by
      rw [Bool.eq_iff_iff, AttrRecord.atThreshold_iff, decide_eq_true_iff]
    have heval := Ev.evaluate_written s.taking a .thresh ⟨r.value, v, r.crossed⟩
    have ends {x : Ev} (hx : (s.taking.onAttr a fun r => { r with threshold := v }).evaluate a .thresh = x)
        (hl : x.hmn.live.read a = ⟨r.value, v, now⟩) :
        Effect (.hlthThresh tag c.payload) s ((save x).reply c .ok results) := by
      rw [hx, show (x.saveHealth).hmn.live = x.hmn.live from rfl, hl] at htaken
      exact next_effect h htaken
    have hwritten : e.hmn.live.read a = ⟨r.value, v, now⟩ := Attrs.read_write _ _ _
    refine ⟨fun hnow => ends ?_ hwritten, fun hnow hc => ends ?_ ?_, fun hnow hc => ends ?_ ?_⟩
    · refine heval.trans ?_
      simp only [hat, e, hnow]
      cases r.crossed <;> rfl
    · refine heval.trans ?_
      simp only [hat, e, hnow, hc, ← hraised]
      rfl
    · rw [← hraised]
      exact (congrArg (fun m : Hmn => m.live.read a) (Ev.crossEffect_hmn e a)).trans hwritten
    · refine heval.trans ?_
      simp only [hat, e, hnow, hc, ← hlifted]
      rfl
    · rw [← hlifted]
      exact (congrArg (fun m : Hmn => m.live.read a) (Ev.uncrossEffect_hmn e a)).trans hwritten
  · intro c h
    have hrun := Ev.runHlth_reset (e := s.taking) hw tag n hr
    refine ⟨fun ho => next_answered h (hrun.trans (Ev.runWearReset_refused tag ho rest)), fun a ha => ?_⟩
    have htaken := hrun.trans (Ev.runWearReset_taken (e := s.taking) tag ha rest)
    intro r e
    have hwritten : e.hmn.live.read a = ⟨0, r.threshold, false⟩ := Attrs.read_write _ _ _
    let lift := if r.crossed then e.uncrossEffect a else e
    have hrecord : (lift.saveHealth).hmn.live.read a = ⟨0, r.threshold, false⟩ := by
      have hlive : lift.hmn = e.hmn := by
        simp only [lift]
        split
        · exact Ev.uncrossEffect_hmn e a
        · rfl
      exact (congrArg (fun m : Hmn => m.live.read a) hlive).trans hwritten
    have hgo : s.taking.runHlth c = lift.saveHealth.reply c .ok ((lift.saveHealth).hmn.live.read a).bytes := htaken
    rw [hrecord] at hgo
    simp only [lift, hlifted] at hgo
    exact next_effect h hgo

end Sys2Proof.Machine
end
section
/-! PROOFS. The endings of the berth units' orders, the orphan cascade and the glue deadline (04_the_boom_train.md). -/

namespace Sys2Proof.Machine

/-! ### A completion that ends an order -/

theorem completion_effect {i : Instr} {s : State} {u : Nat} {tag r code : Byte} {o : Order} {q : Requester} {e : Ev}
    (hi : exec i s = .next (completion u tag r code s)) (h : s.awaits u tag o q) (hu : u ≠ boomUnit)
    (hx : (Ev.start (s.ended u)).handOn u o q (.ofBytes r code) = e) : Effect i s e := by
  rw [Effect, hi, completion_ends h hu, hx]

/-- At BOOM a request that waits is sent after the ending (R56). -/
theorem completion_effect_boom {i : Instr} {s : State} {tag r code : Byte} {o : Order} {q : Requester} {e : Ev}
    (hi : exec i s = .next (completion boomUnit tag r code s)) (h : s.awaits boomUnit tag o q)
    (hx : (Ev.start (s.ended boomUnit)).handOn boomUnit o q (.ofBytes r code) = e) : Effect i s e.sendWaiting := by
  rw [Effect, hi, completion_ends_boom h, hx]

theorem Ending.ofBytes_done (code : Byte) : Ending.ofBytes 0 code = .done := rfl
theorem Ending.ofBytes_fault (code : Byte) : Ending.ofBytes 1 code = .fault (.ofByte code) := rfl

/-! ### Carriers -/

theorem Ev.makeReady_at {e : Ev} {b : Nat} {c : Carrier} (h : e.carrierAt b = some c) : e.makeReady b =
    { e with toState := e.toState.withCarrier b { c with phase := .ready }, xferDue := true } := by
  rw [Ev.makeReady, Ev.onCarrier_at h]
  rfl

/-- A first condemnation: the reason is set, at berth 9 in the head's copy too, and the cascade runs (R85 to R87). -/
theorem Ev.condemn_first {e : Ev} {b : Nat} {c : Carrier} (h : e.carrierAt b = some c) (hn : c.condemned = none)
    (r : Reason) : e.condemn b r = Ev.orphans b [c.slot]
      { e with
        toState := { e.toState.withCarrier b { c with
            condemned := some r, phase := if c.phase = .arriving then .ready else c.phase } with
          hsq := if b = 9 then
              { e.hsq with carrier := e.hsq.carrier.map fun k => { k with condemned := some r } }
            else e.hsq }
        xferDue := e.xferDue || decide (c.phase = .arriving) } := by
  unfold Ev.condemn
  simp only [h, hn, Option.isSome_none, Bool.false_eq_true, if_false]
  rw [Ev.sentence_at e b c r h]
  by_cases hb : b = 9
  · simp only [if_pos hb]
    rfl
  · simp only [if_neg hb]
    rfl

/-- A carrier made READY and then condemned (R74, R76). -/
theorem Ev.condemn_ready {e : Ev} {b : Nat} {c : Carrier} (h : e.carrierAt b = some c) (hb : b ≠ 9) (r : Reason) :
    let ready (k : Carrier) : Ev :=
      { e with toState := e.toState.withCarrier b { k with phase := .ready }, xferDue := true }
    (c.condemned = none → (e.makeReady b).condemn b r = (ready { c with condemned := some r }).orphans b [c.slot])
    ∧ (c.condemned ≠ none → (e.makeReady b).condemn b r = ready c) := by
  intro ready
  rw [Ev.makeReady_at h]
  have hat := State.withCarrier_at e.toState b { c with phase := .ready }
  refine ⟨fun hn => ?_, fun hn => Ev.condemn_again _ _ _ _ hat hn⟩
  rw [Ev.condemn_first (c := { c with phase := .ready }) hat hn]
  simp only [if_neg hb, State.withCarrier_twice]
  rfl

/-- Settles O48: the three endings, each at the carrier in its berth. -/
theorem workEndsAtTheBerth : Obligations.WorkEndsAtTheBerth := by
  intro s tag code c ready
  refine ⟨fun lane h hc => ?_, fun length h hc => ?_, fun pattern h hc => ?_⟩
  · refine completion_effect rfl h (by decide) ?_
    show (Ev.makeReady 0 _).promptSel = _
    rw [Ev.makeReady_at (c := c) hc]
    rfl
  · obtain ⟨hfirst, hagain⟩ := Ev.condemn_ready (e := Ev.start (s.ended sawUnit)) (b := 1) hc (by decide) .workFault
    refine ⟨completion_effect rfl h (by decide) ?_, fun hn => completion_effect rfl h (by decide) (hfirst hn),
      fun hn => completion_effect rfl h (by decide) (hagain hn)⟩
    show (Ev.makeReady 1 _).countWear .sawCuts = _
    rw [Ev.makeReady_at (c := c) hc]
    rfl
  · obtain ⟨hfirst, hagain⟩ := Ev.condemn_ready (e := Ev.start (s.ended glueUnit)) (b := 2) hc (by decide) .workFault
    refine ⟨completion_effect rfl h (by decide) ?_,
      fun hn => completion_effect rfl h (by decide) (congrArg (Ev.countWear .glueFaults) (hfirst hn)),
      fun hn => completion_effect rfl h (by decide) (congrArg (Ev.countWear .glueFaults) (hagain hn))⟩
    show (Ev.makeReady 2 _).onCarrier 2 _ = _
    rw [Ev.makeReady_at (c := c) hc, Ev.onCarrier_at (State.withCarrier_at _ _ _)]
    dsimp only
    rw [State.withCarrier_twice]
    rfl

/-! ### The glue deadline (R84, R87) -/

/-- The head's copy of a carrier whose deadline is reached (R84). -/
def Hsq.expired (h : Hsq) : Hsq := { h with carrier := h.carrier.map fun k => { k with expired := true } }

/-- The head's copy of a carrier its deadline condemns (R84, R87). -/
def Hsq.expiredCondemned (h : Hsq) : Hsq :=
  { h with carrier := h.carrier.map fun k => { k with expired := true, condemned := some .expired } }

theorem Hsq.expiredCondemned_eq (h : Hsq) : h.expiredCondemned =
    { h.expired with carrier := h.expired.carrier.map fun k => { k with condemned := some .expired } } := by
  simp only [Hsq.expiredCondemned, Hsq.expired, Option.map_map]
  rfl

theorem Ev.expire_condemned {e : Ev} {b : Nat} {c : Carrier} (h : e.carrierAt b = some c) (hn : c.condemned ≠ none) :
    e.expire b = { e with toState := { e.toState.withCarrier b { c with expired := true, deadline := none } with
      hsq := if b = 9 then e.hsq.expired else e.hsq } } := by
  have hsome : c.condemned.isSome = true := Option.isSome_iff_ne_none.2 hn
  unfold Ev.expire
  simp only [h, hsome, if_true]
  rw [Ev.onCarrier_at h]
  by_cases hb : b = 9
  · simp only [if_pos hb]
    rfl
  · simp only [if_neg hb]
    rfl

/-- The event in which a deadline condemns the carrier in a berth, before the head's notice. -/
def Ev.expireFell (b : Nat) (c : Carrier) (e : Ev) : Ev :=
  Ev.orphans b [c.slot] { e with
    toState := { e.toState.withCarrier b { c with
        expired := true, deadline := none, condemned := some .expired
        phase := if c.phase = .arriving then .ready else c.phase } with
      hsq := if b = 9 then e.hsq.expiredCondemned else e.hsq }
    xferDue := e.xferDue || decide (c.phase = .arriving) }

theorem Ev.expire_first {e : Ev} {b : Nat} {c : Carrier} (h : e.carrierAt b = some c) (hn : c.condemned = none) :
    e.expire b = if b = 9 then (e.expireFell b c).headCondemned else e.expireFell b c := by
  unfold Ev.expire
  simp only [h, hn, Option.isSome_none, Bool.false_eq_true, if_false]
  rw [Ev.onCarrier_at h]
  have hat (t : State) (ht : t.btc = (e.toState.withCarrier b { c with expired := true, deadline := none }).btc) :
      t.carrierAt b = some { c with expired := true, deadline := none } := by
    rw [State.carrierAt, ht]
    exact State.withCarrier_at _ _ _
  by_cases hb : b = 9
  · simp only [if_pos hb]
    rw [Ev.condemn_first (hat _ rfl) hn, if_pos hb, Ev.expireFell, if_pos hb]
    have htwice := State.withCarrier_twice e.toState b { c with expired := true, deadline := none } { c with
        expired := true, deadline := none, condemned := some .expired
        phase := if c.phase = .arriving then .ready else c.phase }
    rw [← htwice, Hsq.expiredCondemned_eq]
    rfl
  · simp only [if_neg hb]
    rw [Ev.condemn_first (hat _ rfl) hn, if_neg hb, State.withCarrier_twice, Ev.expireFell, if_neg hb]
    rfl

/-- The notice of a condemnation, in the head states that wait for it (R133). -/
theorem Ev.headCondemned_waiting {e : Ev}
    (h : e.hsq.head ∈ [.gripping, .approaching, .settling, .lockHold, .gustHold, .readyToPress]) :
    e.headCondemned = if e.headBusy then e.onHsq fun h => { h with dumpPending := true } else e.enterDumping := by
  simp only [List.mem_cons, List.not_mem_nil, or_false] at h
  rcases h with h | h | h | h | h | h <;> simp only [Ev.headCondemned, h]

theorem Ev.headCondemned_other {e : Ev}
    (h : e.hsq.head ∉ [.gripping, .approaching, .settling, .lockHold, .gustHold, .readyToPress]) :
    e.headCondemned = e := by
  cases hh : e.hsq.head <;> simp_all [Ev.headCondemned]

theorem Ev.expireFell_head (b : Nat) (c : Carrier) (e : Ev) :
    (e.expireFell b c).hsq.head = e.hsq.head ∧ (e.expireFell b c).headBusy = e.headBusy := by
  obtain ⟨hhsq, hsli⟩ := Ev.orphans_hsq_sli { e with
    toState := { e.toState.withCarrier b { c with
        expired := true, deadline := none, condemned := some .expired
        phase := if c.phase = .arriving then .ready else c.phase } with
      hsq := if b = 9 then e.hsq.expiredCondemned else e.hsq }
    xferDue := e.xferDue || decide (c.phase = .arriving) } b [c.slot]
  refine ⟨?_, ?_⟩
  · rw [Ev.expireFell, hhsq]
    dsimp only
    split <;> rfl
  · simp only [State.headBusy, State.flight, Ev.expireFell, hsli]
    rfl

theorem State.deadlineOf_at {s : State} {b : Nat} {c : Carrier} (h : s.carrierAt b = some c) :
    s.deadlineOf b = c.deadline := by
  simp only [State.deadlineOf, h]

/-- Settles O49: the cascade by its specification; the deadline by `Ev.expire` and the head's notice. -/
theorem cascadeAndExpiry : Obligations.CascadeAndExpiry := by
  refine ⟨fun e b fallen => ?_, ?_⟩
  · obtain ⟨falls, hfalls, hc⟩ := Ev.orphans_spec b e fallen
    exact ⟨falls, hfalls, hc.hit, hc.miss, hc.due, hc.eq⟩
  · intro s b c d hc hd later out condemned told busy fell waiting
    have hfire {e : Ev} (hx : (Ev.start later).expire b = e) : Effect (.glueDeadline b) s e := by
      have hdeadline : s.deadlineOf b = some d := (State.deadlineOf_at hc).trans hd
      have hexec : exec (.glueDeadline b) s = .next (fireAt (s.deadlineOf b) (Ev.expire b) s) := rfl
      rw [Effect, hexec, fireAt_running hdeadline, ← hx]
      rfl
    have hnine : b = 9 ↔ b.val = 9 := Fin.ext_iff
    have htold : told = if c.condemned = none then s.hsq.expiredCondemned else s.hsq.expired := by
      by_cases hn : c.condemned = none <;> simp only [told, hn, if_true, if_false] <;> rfl
    have hfell (hn : c.condemned = none) : (Ev.start later).expireFell b c = fell := by
      simp only [fell, htold, if_pos hn, hnine]
      rfl
    have hhead (hn : c.condemned = none) : fell.hsq.head = s.hsq.head ∧ fell.headBusy = s.headBusy :=
      hfell hn ▸ Ev.expireFell_head b c (Ev.start later)
    have hat : (Ev.start later).carrierAt b = some c := hc
    refine ⟨fun hn => hfire ?_, fun hn hout => hfire ?_, fun hn hb hw hbusy => hfire ?_, fun hn hb hw hfree => hfire ?_⟩
    · rw [Ev.expire_condemned hat hn, htold, if_neg hn]
      simp only [hnine]
      rfl
    · rw [Ev.expire_first hat hn, hfell hn]
      by_cases hb : b = 9
      · rw [if_pos (hnine.1 hb)]
        exact Ev.headCondemned_other (by rw [(hhead hn).1]; exact hout.resolve_left fun h => h hb)
      · exact if_neg fun h => hb (hnine.2 h)
    · rw [Ev.expire_first hat hn, hfell hn, if_pos (hnine.1 hb), Ev.headCondemned_waiting (by rw [(hhead hn).1]; exact hw),
        (hhead hn).2, if_pos ((State.headBusy_iff s).2 hbusy)]
      rfl
    · rw [Ev.expire_first hat hn, hfell hn, if_pos (hnine.1 hb), Ev.headCondemned_waiting (by rw [(hhead hn).1]; exact hw),
        (hhead hn).2, if_neg fun k => hfree ((State.headBusy_iff s).1 k)]

end Sys2Proof.Machine
end

section
/-! PROOFS. Removals, jams and the arrival of a moved carrier (04_the_boom_train.md, R73 to R80, R91 to R96). -/

namespace Sys2Proof.Machine

/-! ### Fault codes -/

theorem FaultCode.ofByte_empty {code : Byte} (h : FaultCode.ofByte code = .empty) : code = 1 := by
  unfold FaultCode.ofByte at h
  split at h <;> simp_all [BitVec.toNat_eq]

theorem FaultCode.ofByte_slip {code : Byte} (h : FaultCode.ofByte code = .slip) : code = 5 := by
  unfold FaultCode.ofByte at h
  split at h <;> simp_all [BitVec.toNat_eq]

/-- A LOAD that fails with another code than EMPTY is a jam (R94). -/
theorem Ev.handOn_loadJam {e : Ev} {lane : Nat} {f : FaultCode} (h : f ≠ .empty) :
    e.handOn pickUnit (.load lane) .rsl (.fault f) = e.loadJam := by
  cases f with
  | empty => exact absurd rfl h
  | blade | nozzle | blocked | slip | limit | other | timeout => rfl

/-- A TAKE that fails with another code than SLIP is a head jam (R64). -/
theorem Ev.handOn_takeJam {e : Ev} {unit : Nat} {f : FaultCode} (h : f ≠ .slip) :
    e.handOn unit .take .hsq (.fault f) = e.headJam := by
  cases f with
  | slip => exact absurd rfl h
  | empty | blade | nozzle | blocked | limit | other | timeout => rfl

theorem HeadUnit.number_ne_boom {u : HeadUnit} (h : u ≠ .boom) : u.number ≠ boomUnit := by
  cases u with
  | boom => exact absurd rfl h
  | gripper | press | chute => decide

/-! ### The removal -/

theorem Ev.removeAndCascade_at {e : Ev} {b : Nat} {c : Carrier} (h : e.carrierAt b = some c) : e.removeAndCascade b =
    ((({ e with toState := e.toState.withoutCarrier b }.promptLeave.changeEntry c.slot fun en =>
      { en with state := .planned }).orphans b [c.slot]).refreshCourse .event) := by
  simp only [Ev.removeAndCascade, Ev.removeCarrier, h]
  rfl

theorem Ev.removeAndCascade_empty {e : Ev} {b : Nat} (h : e.carrierAt b = none) : e.removeAndCascade b = e := by
  simp only [Ev.removeAndCascade, h]

/-- Settles O50: each ending by the removal at its berth and the stranding. -/
theorem removalsAndJams : Obligations.RemovalsAndJams := by
  intro s tag code gone jam
  refine ⟨fun lane c h hc => ⟨?_, fun hcode => ?_⟩, fun b c h hc => ?_, fun u o h hjam => ?_⟩
  · refine completion_effect (r := 1) (code := 1) rfl h (by decide) ?_
    show Ev.promptSel (Ev.removeAndCascade 0 _) = _
    exact congrArg Ev.promptSel (Ev.removeAndCascade_at (c := c) hc)
  · refine completion_effect (r := 1) (code := code) rfl h (by decide) ?_
    rw [Ending.ofBytes_fault, Ev.handOn_loadJam fun k => hcode (FaultCode.ofByte_empty k), Ev.loadJam,
      Ev.removeAndCascade_at (c := c) hc]
    rfl
  · have hunit : xferUnit b ≠ boomUnit := by
      have hb := b.isLt
      simp only [xferUnit, boomUnit]
      omega
    refine completion_effect (r := 1) (code := code) rfl h hunit ?_
    have hberth : xferUnit b - xferUnit 0 = b.val := by simp only [xferUnit]; omega
    show Ev.moveJam (xferUnit b - xferUnit 0) _ = _
    rw [hberth, Ev.moveJam, Ev.removeAndCascade_at (c := c) hc]
    rfl
  · intro off after
    have hhand : (Ev.start (s.ended u.number)).handOn u.number o .hsq (.ofBytes 1 code)
        = (off.removeAndCascade 9).strand 9 := by
      rcases hjam with ⟨-, p, r, rfl⟩ | ⟨-, rfl | ⟨rfl, hcode⟩⟩ | ⟨-, rfl⟩ | ⟨-, rfl⟩
      · rfl
      · rfl
      · exact Ev.handOn_takeJam fun k => hcode (FaultCode.ofByte_slip k)
      · rfl
      · rfl
    have heffect {e : Ev} (he : (off.removeAndCascade 9).strand 9 = e) : Effect (.headJam u tag code) s (after e) := by
      subst he
      by_cases hu : u = .boom
      · subst hu
        simp only [after, if_true]
        exact completion_effect_boom rfl h hhand
      · simp only [after, if_neg hu]
        exact completion_effect rfl h (HeadUnit.number_ne_boom hu) hhand
    refine ⟨fun c hc => heffect ?_, fun hc => heffect ?_⟩
    · rw [Ev.removeAndCascade_at (c := c) hc]
      rfl
    · rw [Ev.removeAndCascade_empty hc]
      rfl

/-! ### Work at SAW and GLUE (R73, R75) -/

theorem Ev.startWork_ready {e : Ev} {b : Nat} {c : Carrier} (h : e.carrierAt b = some c) (hw : e.workDue b c = none) :
    e.startWork b c = { e with toState := e.toState.withCarrier b { c with phase := .ready }, xferDue := true } := by
  simp only [Ev.startWork, hw]
  exact Ev.makeReady_at h

theorem Ev.startWork_sent {e : Ev} {b : Nat} {c : Carrier} {o : Order} (h : e.carrierAt b = some c)
    (hw : e.workDue b c = some o) (hr : e.running = true) (hf : e.flight (workUnit b) = none) : e.startWork b c =
      { e with toState := (e.toState.withCarrier b { c with phase := .working }).launched (workUnit b) o .btc } := by
  simp only [Ev.startWork, hw, hr, (State.unitFree_iff _ _).2 hf, Bool.and_self, if_true]
  rw [Ev.onCarrier_at h]
  rfl

theorem Ev.startWork_late {e : Ev} {b : Nat} {c : Carrier} {o : Order} (h : e.carrierAt b = some c)
    (hw : e.workDue b c = some o) (hn : e.running = false ∨ e.flight (workUnit b) ≠ none) : e.startWork b c =
      { e with toState := e.toState.withCarrier b { c with phase := .arriving } } := by
  have hcond : ¬(e.running && e.unitFree (workUnit b)) = true := by
    rw [Bool.and_eq_true, State.unitFree_iff]
    exact fun k => hn.elim (fun hr => ne_true_of_eq_false hr k.1) fun hf => hf k.2
  simp only [Ev.startWork, hw, if_neg hcond]
  exact Ev.onCarrier_at h _

theorem State.workDue_condemned {s : State} {b : Nat} {c : Carrier} (h : c.condemned ≠ none) : s.workDue b c = none :=
  if_pos (Option.isSome_iff_ne_none.2 h)

theorem State.workDue_saw {s : State} {c : Carrier} {en : Entry} (hn : c.condemned = none)
    (hen : s.entryAt c.slot = some en) : s.workDue 1 c = en.cut.map Order.cut := by
  simp only [State.workDue, hn, hen]
  rfl

theorem State.workDue_glue {s : State} {c : Carrier} {en : Entry} (hn : c.condemned = none)
    (hen : s.entryAt c.slot = some en) : s.workDue 2 c = some (.glue (s.classAt en.cls).glue) := by
  simp only [State.workDue, hn, hen]
  rfl

/-! ### The arrival (R80) -/

theorem Ev.moveEnd_at {e : Ev} {b : Nat} {c : Carrier} (h : e.carrierAt b = some c) : e.moveEnd b =
    Ev.arrive (b + 1) c { e with
      toState := (e.toState.withoutCarrier b).withCarrier (b + 1) c
      xferDue := true, selDue := e.selDue || decide (b = 0) } := by
  unfold Ev.moveEnd
  simp only [h]
  by_cases hb : b = 0
  · simp only [if_pos hb, decide_eq_true hb, Bool.or_true]
    rfl
  · simp only [if_neg hb, decide_eq_false hb, Bool.or_false]
    rfl

theorem Ev.arrive_shuttle {e : Ev} {b : Nat} (c : Carrier) (h1 : b ≠ 1) (h2 : b ≠ 2) (h9 : b ≠ 9) :
    e.arrive b c = e.makeReady b := by
  simp only [Ev.arrive, h1, h2, h9, or_self, if_false]

/-- Settles O51: the arrival by the berth; at SAW and GLUE by `Ev.startWork_*`. -/
theorem moveDoneArrives : Obligations.MoveDoneArrives := by
  intro s b tag c h hc moved done works
  have hblt := b.isLt
  have hunit : xferUnit b ≠ boomUnit := by
    simp only [xferUnit, boomUnit]
    omega
  have hzero : decide (b.val = 0) = decide (b = 0) := decide_eq_decide.2 (Fin.ext_iff (a := b) (b := 0)).symm
  let base : Ev := { Ev.start (((s.ended (xferUnit b)).withoutCarrier b).withCarrier (b + 1) c) with
    xferDue := true, selDue := decide (b = 0) }
  have hat : base.carrierAt (b + 1) = some c := State.withCarrier_at _ _ _
  have hmove {e : Ev} (he : base.arrive (b + 1) c = e) : Effect (.moveDone b tag) s e := by
    refine completion_effect (r := 0) (code := 0) rfl h hunit ?_
    have hberth : xferUnit b - xferUnit 0 = b.val := by simp only [xferUnit]; omega
    show Ev.moveEnd (xferUnit b - xferUnit 0) _ = _
    rw [hberth, Ev.moveEnd_at (c := c) hc, hzero]
    exact he
  have hphase (p : Phase) : base.toState.withCarrier (b + 1) { c with phase := p } = moved p :=
    State.withCarrier_twice _ _ _ _
  have hother (unit : Nat) (hne : unit ≠ xferUnit b) : base.flight unit = s.flight unit :=
    State.ended_flight_other s _ _ hne
  have hworks {unit : Nat} {work : Option Order} (harr : base.arrive (b + 1) c = base.startWork (b + 1) c)
      (hdue : c.condemned = none → base.workDue (b + 1) c = work) (hu : workUnit (b + 1) = unit)
      (hne : unit ≠ xferUnit b) : works unit work := by
    subst hu
    refine ⟨fun hno => hmove ?_, fun o hn ho => ⟨fun hr hf => hmove ?_, fun hbusy => hmove ?_⟩⟩
    · have hnone : base.workDue (b + 1) c = none := by
        by_cases hn : c.condemned = none
        · exact (hdue hn).trans (hno.resolve_left fun k => k hn)
        · exact State.workDue_condemned hn
      rw [harr, Ev.startWork_ready hat hnone, hphase]
      rfl
    · rw [harr, Ev.startWork_sent hat ((hdue hn).trans ho) hr ((hother _ hne).trans hf), hphase]
      rfl
    · rw [harr, Ev.startWork_late hat ((hdue hn).trans ho) (hbusy.imp id (hother _ hne ▸ ·)), hphase]
      rfl
  refine ⟨fun en hb hen => ?_, fun en hb hen => ?_, fun h2 h8 => hmove ?_, fun hb => ?_⟩
  · subst hb
    exact hworks rfl (fun hn => State.workDue_saw hn hen) rfl (by decide)
  · subst hb
    exact hworks rfl (fun hn => State.workDue_glue hn hen) rfl (by decide)
  · have h8' : b.val ≠ 8 := fun k => h8 (Fin.ext k)
    rw [Ev.arrive_shuttle c (by omega) (by omega) (by omega), Ev.makeReady_at hat, hphase]
    rfl
  · subst hb
    intro hsq gripping
    have htake : base.arrive (8 + 1) c =
        Ev.takeOver c { base with toState := moved .working } := by
      show Ev.takeOver c (base.onCarrier 9 _) = _
      rw [Ev.onCarrier_at (b := 9) hat, ← hphase]
      rfl
    have hgrip (hn : c.condemned = none) : base.arrive (8 + 1) c =
        Ev.sendHead gripperUnit .take { base with toState := gripping } := by
      rw [htake]
      exact if_neg (by simp [hn])
    refine ⟨fun hn => hmove ?_, fun hn hr hf => hmove ?_, fun hn hbusy => hmove ?_⟩
    · exact htake.trans (if_pos (Option.isSome_iff_ne_none.2 hn))
    · exact (hgrip hn).trans (Ev.sendHead_free _ _ _ hr ((hother _ (by decide)).trans hf))
    · exact (hgrip hn).trans (Ev.sendHead_not _ _ _ (hbusy.imp id (hother gripperUnit (by decide) ▸ ·)))

end Sys2Proof.Machine
end

section
/-! PROOFS. The head's orders up to the press and its waits (06_head_cycle_and_pose_correction.md, R120 to R134). -/

namespace Sys2Proof.Machine

/-! ### A timer that runs out -/

theorem fireAt_effect {i : Instr} {s : State} {moment : Option Nat} {t : Nat} {f : Ev → Ev} {e : Ev}
    (hi : exec i s = .next (fireAt moment f s)) (hm : moment = some t)
    (hx : f (Ev.start { s with now := max s.now t }) = e) : Effect i s e := by
  rw [Effect, hi, fireAt_running hm, ← hx]
  rfl

/-! ### DUMPING and its bin claim (R134, R88) -/

theorem Ev.binClaim_idle {e : Ev} (h : ¬(e.running = true ∧ e.headBusy = false)) : e.binClaim = e := by
  refine if_neg fun k => h ?_
  simp only [Bool.and_eq_true, Bool.not_eq_true'] at k
  exact ⟨k.1.1, k.2⟩

theorem State.headBusy_eq_false {s : State} : s.headBusy = false ↔ ¬∃ u ∈ [boomUnit, wristUnit, gripperUnit, pressUnit,
    chuteUnit], ∃ r, s.flight u = some r ∧ r.requester = .hsq := by
  rw [← State.headBusy_iff, Bool.not_eq_true]

/-- The entry to DUMPING before its bin claim. -/
def Ev.dumping (e : Ev) : Ev :=
  { e with hsq := { e.hsq with
    head := .dumping, orderSent := false, dumpPending := false, gustTimer := none, lockHoldTimer := none } }

theorem Ev.enterDumping_eq (e : Ev) : e.enterDumping = e.dumping.binClaim := rfl

/-! ### The head's claims, one at a time -/

/-- The head's condemnation of its own carrier (R85 to R87). -/
theorem Ev.condemn_own {e : Ev} {c : Carrier} (h : e.carrierAt 9 = some c) (hn : c.condemned = none)
    (hx : e.xferDue = false) (r : Reason) : e.condemn 9 r = Ev.orphans 9 [c.slot]
      { e with
        toState := { e.toState.withCarrier 9 { c with
            condemned := some r, phase := if c.phase = .arriving then .ready else c.phase } with
          hsq := { e.hsq with carrier := e.hsq.carrier.map fun k => { k with condemned := some r } } }
        xferDue := decide (c.phase = .arriving) } := by
  rw [Ev.condemn_first h hn, if_pos rfl, hx, Bool.false_or]

theorem Ev.sendApproach_not {e : Ev} (h : e.running = false ∨ e.flight boomUnit ≠ none) : e.sendApproach = e := by
  have hcond : ¬(e.running && e.unitFree boomUnit) = true := by
    rw [Bool.and_eq_true, State.unitFree_iff]
    exact fun k => h.elim (fun hr => ne_true_of_eq_false hr k.1) fun hf => hf k.2
  unfold Ev.sendApproach
  split
  · rfl
  · exact if_neg hcond

theorem Ev.headSlewEnd_approaching {e : Ev} (h : e.hsq.head = .approaching) : e.headSlewEnd .done = e.approachEnd := by
  simp only [Ev.headSlewEnd, h]

theorem Ev.headSlewEnd_retracting {e : Ev} (h : e.hsq.head = .retracting) :
    e.headSlewEnd .done = e.vacantAtReceive := by
  simp only [Ev.headSlewEnd, h]

theorem Ev.trimEnd_dumping {e : Ev} (h : e.hsq.head = .dumping) (failed : Bool) : e.trimEnd failed = e :=
  if_pos (by rw [h]; rfl)

theorem Ev.trimEnd_pending {e : Ev} (h : e.hsq.head ≠ .dumping) (hp : e.hsq.dumpPending = true) (failed : Bool) :
    e.trimEnd failed = e.enterDumping :=
  (if_neg (by simpa using h)).trans (if_pos hp)

theorem Ev.trimEnd_settling {e : Ev} (h : e.hsq.head = .settling) (hp : e.hsq.dumpPending = false) :
    e.trimEnd true = e.enterGustHold false := by
  simp [Ev.trimEnd, h, hp]

theorem Ev.trimEnd_quiet {e : Ev} (hp : e.hsq.dumpPending = false) {failed : Bool}
    (h : failed = false ∨ e.hsq.head ≠ .settling) : e.trimEnd failed = e := by
  rcases h with rfl | h
  · simp [Ev.trimEnd, hp]
  · simp [Ev.trimEnd, hp, h]

/-- Settles O52: the entry to DUMPING by `Ev.binClaim`; each ending and timer by the claims above. -/
theorem headTakesAndTrims : Obligations.HeadTakesAndTrims := by
  refine ⟨fun e => ?_, fun s tag code => ?_⟩
  · intro dumping claims
    have hclaims : (e.dumping.running = true ∧ e.dumping.headBusy = false) ↔ claims :=
      and_congr_right fun _ => State.headBusy_eq_false (s := e.toState)
    refine ⟨fun hc hbin hf => ?_, fun hc hbin => ?_, fun hc => ?_⟩
    · obtain ⟨hr, hb⟩ := hclaims.2 hc
      rw [Ev.enterDumping_eq, Ev.binClaim_resumed hr rfl hb, if_pos (show e.dumping.btc.bin < 24 from hbin)]
      exact Ev.sendHead_free _ _ _ hr hf
    · obtain ⟨hr, hb⟩ := hclaims.2 hc
      rw [Ev.enterDumping_eq, Ev.binClaim_resumed hr rfl hb]
      exact if_neg (Nat.not_lt.2 hbin)
    · exact Ev.binClaim_idle fun k => hc (hclaims.1 k)
  · intro ended falls settling lockHold gustHold
    have hfalls {e : Ev} {c : Carrier} (hc : e.carrierAt 9 = some c) (hn : c.condemned = none) (hx : e.xferDue = false)
        (r : Reason) : (e.condemn 9 r).enterDumping = (falls e c r).enterDumping :=
      congrArg Ev.enterDumping (Ev.condemn_own hc hn hx r)
    have hstays {e : Ev} {c : Carrier} (hc : e.carrierAt 9 = some c) (hn : c.condemned ≠ none) (r : Reason) :
        (e.condemn 9 r).enterDumping = e.enterDumping :=
      congrArg Ev.enterDumping (Ev.condemn_again _ _ _ _ hc hn)
    refine ⟨?_, ?_, ?_, ?_, ?_⟩
    · intro h approaching
      have htake {e : Ev} (he : (Ev.start (s.ended gripperUnit)).takeEnd = e) : Effect (.takeDone tag) s e :=
        completion_effect (r := 0) (code := 0) rfl h (by decide) he
      have hslip {e : Ev} (he : (Ev.start (s.ended gripperUnit)).slipEnd = e) : Effect (.takeSlip tag) s e :=
        completion_effect (r := 1) (code := 5) rfl h (by decide) he
      have happroach (hp : s.hsq.dumpPending = false) :
          (Ev.start (s.ended gripperUnit)).takeEnd = approaching.sendApproach.countWear .gripCycles :=
        congrArg (Ev.countWear .gripCycles) (if_neg (ne_true_of_eq_false hp))
      have hboom : approaching.flight boomUnit = s.flight boomUnit := State.ended_flight_other s _ _ (by decide)
      refine ⟨fun hp => htake ?_, fun en hp hen hr hf => htake ?_, fun hp hbusy => htake ?_,
        fun c hc => ⟨fun hn => hslip ?_, fun hn => hslip ?_⟩⟩
      · exact congrArg (Ev.countWear .gripCycles) (if_pos hp)
      · rw [happroach hp, Ev.sendApproach_free (en := en) hr hen (hboom.trans hf),
          Ev.sendHead_free _ _ _ hr (hboom.trans hf)]
        rfl
      · rw [happroach hp, Ev.sendApproach_not (hbusy.imp id (hboom ▸ ·))]
      · exact hfalls hc hn rfl _
      · exact hstays hc hn _
    · intro p r h hh
      have happroach {e : Ev} (he : (Ev.start (s.ended boomUnit)).approachEnd = e) :
          Effect (.approachDone tag) s e.sendWaiting :=
        completion_effect_boom (r := 0) (code := 0) rfl h
          ((Ev.headSlewEnd_approaching (e := Ev.start (s.ended boomUnit)) hh).trans he)
      have hsettle (hp : s.hsq.dumpPending = false) :
          (Ev.start (s.ended boomUnit)).approachEnd = (Ev.start (s.ended boomUnit)).settlePhase :=
        if_neg (ne_true_of_eq_false hp)
      refine ⟨fun hp => happroach (if_pos hp), fun hp hl => happroach ((hsettle hp).trans ?_),
        fun hp hl => happroach ((hsettle hp).trans ?_)⟩
      · exact if_pos hl
      · exact if_neg (ne_true_of_eq_false hl)
    · intro dx dy dz dyaw h
      have hdone {e : Ev} (he : (Ev.start (s.ended wristUnit)).trimEnd false = e) : Effect (.trimDone tag) s e :=
        completion_effect (r := 0) (code := 0) rfl h (by decide) he
      have hfault {e : Ev} (he : (Ev.start (s.ended wristUnit)).trimEnd true = e) : Effect (.trimFault tag code) s e :=
        completion_effect (r := 1) (code := code) rfl h (by decide) he
      refine ⟨fun hq => hdone ?_, fun hd hp => ⟨hdone ?_, hfault ?_⟩, fun hh hp => hfault ?_, fun hq => hfault ?_⟩
      · exact hq.elim (fun hd => Ev.trimEnd_dumping hd _) fun hp => Ev.trimEnd_quiet hp (.inl rfl)
      · exact Ev.trimEnd_pending hd hp _
      · exact Ev.trimEnd_pending hd hp _
      · exact Ev.trimEnd_settling hh hp
      · exact hq.elim (fun hd => Ev.trimEnd_dumping hd _) fun ⟨hh, hp⟩ => Ev.trimEnd_quiet hp (.inr hh)
    · intro began limit ht later
      have hgust {e : Ev} (he : (if later.hsq.head = .gustHold then (later.condemn 9 .settleFault).enterDumping
          else later) = e) : Effect .gustTimer s e :=
        fireAt_effect (moment := s.gustEnd) (t := began + limit) rfl (by rw [State.gustEnd, ht]; rfl) he
      exact ⟨fun hh => hgust (if_neg hh), fun c hh hc =>
        ⟨fun hn => hgust ((if_pos hh).trans (hfalls hc hn rfl _)), fun hn => hgust ((if_pos hh).trans (hstays hc hn _))⟩⟩
    · intro began ht
      exact fireAt_effect rfl (congrArg (Option.map (· + Config.lockHoldLimit)) ht) rfl

end Sys2Proof.Machine
end

section
/-! PROOFS. A frame at the head and the notices of lock (06_head_cycle_and_pose_correction.md, R123 to R132, R136). -/

namespace Sys2Proof.Machine

/-! ### Residuals (R124) -/

theorem Offset.inEnvelope_iff (o : Offset) : o.inEnvelope = true ↔ |o.dx| ≤ 400 ∧ |o.dy| ≤ 400 ∧ |o.dz| ≤ 200
    ∧ |o.dyaw| ≤ 300 := by
  simp only [Offset.inEnvelope, Bool.and_eq_true, decide_eq_true_eq, Int.abs_eq_natAbs]
  omega

theorem Offset.inEnvelope_eq_false (o : Offset) : o.inEnvelope = false ↔ 400 < |o.dx| ∨ 400 < |o.dy| ∨ 200 < |o.dz|
    ∨ 300 < |o.dyaw| := by
  rw [← Bool.not_eq_true, Offset.inEnvelope_iff]
  omega

theorem Offset.within_iff (o : Offset) (pos yaw : Nat) : o.within pos yaw = true ↔ |o.dx| ≤ pos ∧ |o.dy| ≤ pos
    ∧ |o.dz| ≤ pos ∧ |o.dyaw| ≤ yaw := by
  simp only [Offset.within, Bool.and_eq_true, decide_eq_true_eq, abs_le_iff_natAbs, and_assoc]

/-! ### The head states a frame can find (R113, R141) -/

theorem Ev.offerToHead_settling {e : Ev} {p : Pose} {en : Entry} (hen : e.headEntry = some en)
    (hh : e.hsq.head = .settling) : e.offerToHead p =
      if e.running && e.unitFree wristUnit then e.settle (residual p (approachPose en.target)) else e := by
  simp only [Ev.offerToHead, hen, hh]

theorem Ev.offerToHead_gustHold {e : Ev} {p : Pose} {en : Entry} (hen : e.headEntry = some en)
    (hh : e.hsq.head = .gustHold) (hr : e.running = true) :
    e.offerToHead p = e.rideGust (residual p (approachPose en.target)) := by
  simp only [Ev.offerToHead, hen, hh, hr, if_true]

theorem Ev.offerToHead_readyToPress {e : Ev} {p : Pose} {en : Entry} (hen : e.headEntry = some en)
    (hh : e.hsq.head = .readyToPress) (hr : e.running = true) :
    e.offerToHead p = e.waitPress (residual p (approachPose en.target)) := by
  simp only [Ev.offerToHead, hen, hh, hr, if_true]

theorem Ev.offerToHead_measuring {e : Ev} {p : Pose} {en : Entry} (hen : e.headEntry = some en)
    (hh : e.hsq.head = .measuring) : e.offerToHead p = e.measure (residual p en.target) := by
  simp only [Ev.offerToHead, hen, hh]

theorem Ev.offerToHead_passed {e : Ev} (p : Pose)
    (h : e.hsq.head ∈ [.vacant, .gripping, .approaching, .lockHold, .pressing, .releasing, .retracting, .dumping]
      ∨ (e.running = false ∧ e.hsq.head ≠ .measuring)) : e.offerToHead p = e := by
  unfold Ev.offerToHead
  split
  · rfl
  · rcases h with h | ⟨hr, hm⟩
    · cases hh : e.hsq.head <;> simp_all
    · cases hh : e.hsq.head <;> simp_all

/-! ### SETTLING, GUST_HOLD and READY_TO_PRESS -/

/-- A gust counted, with the RATE report where AUTO turns reduced rate on (R129, R139, R140). -/
theorem Ev.countGust_eq (e : Ev) :
    let n := min 255 (e.hsq.gustCount + 1)
    let counted : Ev := { e with hsq := { e.hsq with
      gustCount := n, gustReduced := e.hsq.gustReduced || decide (3 ≤ n) } }
    e.countGust = if e.scp.config.rate = .auto ∧ e.hsq.gustReduced = false ∧ 3 ≤ n then
      counted.report (.rate true .gusts e.rsl.active n) else counted := by
  intro n counted
  have hcount : e.countGust = if counted.reducedRate = e.reducedRate then counted
      else counted.report (.rate counted.reducedRate .gusts e.rsl.active n) := rfl
  have hnew : counted.reducedRate = e.scp.config.rate.reduces (e.hsq.gustReduced || decide (3 ≤ n)) :=
    State.reducedRate_eq_reduces _
  by_cases hturn : e.scp.config.rate = .auto ∧ e.hsq.gustReduced = false ∧ 3 ≤ n
  · obtain ⟨hauto, hoff, hn⟩ := hturn
    have hon : counted.reducedRate = true := by simp [hnew, RateSetting.reduces, hauto, hn]
    have hold : e.reducedRate = false := by simp [State.reducedRate, hauto, hoff]
    rw [hcount, if_neg (by simp [hon, hold]), if_pos ⟨hauto, hoff, hn⟩, hon]
  · have hsame : counted.reducedRate = e.reducedRate := by
      rw [hnew, State.reducedRate_eq_reduces]
      cases hrate : e.scp.config.rate with
      | reduced | full => simp [RateSetting.reduces]
      | auto =>
        cases hg : e.hsq.gustReduced with
        | true => simp
        | false =>
          have hn : ¬3 ≤ n := fun k => hturn ⟨hrate, hg, k⟩
          simp [hn]
    rw [hcount, if_pos hsame, if_neg hturn]

theorem Ev.settle_outside {e : Ev} {o : Offset} {l : SettleLatch} (hl : e.hsq.latch = some l)
    (ho : o.inEnvelope = false) : e.settle o = e.enterGustHold true := by
  simp [Ev.settle, hl, ho]

theorem Ev.settle_off {e : Ev} {o : Offset} {l : SettleLatch} (hl : e.hsq.latch = some l) (ho : o.inEnvelope = true)
    (hw : ¬o.within l.posTol l.yawTol = true) : e.settle o = e.trim o := by
  simp [Ev.settle, hl, ho, hw]

theorem Ev.settle_within {e : Ev} {o : Offset} {l : SettleLatch} (hl : e.hsq.latch = some l) (ho : o.inEnvelope = true)
    (hw : o.within l.posTol l.yawTol = true) : e.settle o =
      let counted := e.onHsq fun h => { h with settleCount := h.settleCount + 1 }
      if l.target ≤ e.hsq.settleCount + 1 then counted.pressDecision else counted := by
  simp only [Ev.settle, hl, ho, hw]
  rfl

theorem State.pressReady_iff (s : State) : s.pressReady = true ↔ s.running = true ∧ s.trk.locked = true
    ∧ (∃ l, s.hsq.latch = some l ∧ l.target ≤ s.hsq.settleCount)
    ∧ ∃ k, s.hsq.carrier = some k ∧ k.condemned = none ∧ k.expired = false := by
  unfold State.pressReady
  cases s.hsq.latch <;> cases s.hsq.carrier <;> simp [and_assoc, and_left_comm]

/-- PRESSING from the press decision: the deadline goes and PRESS is sent (R83, R135). -/
theorem Ev.enterPressing_at {e : Ev} {c : Carrier} (hc : e.carrierAt 9 = some c) (hr : e.running = true)
    (hf : e.flight pressUnit = none) :
    let pressing : Ev := { e with hsq := { e.hsq with head := .pressing, orderSent := false } }
    e.enterPressing = { pressing with toState :=
      { (pressing.toState.withCarrier 9 { c with deadline := none }).launched pressUnit .press .hsq with
        hsq := { pressing.hsq with orderSent := true } } } := by
  intro pressing
  rw [Ev.enterPressing, Ev.onCarrier_at hc]
  exact Ev.sendHead_free _ _ _ hr hf

theorem Ev.waitPress_outside {e : Ev} {o : Offset} {l : SettleLatch} (hl : e.hsq.latch = some l)
    (ho : o.inEnvelope = false) : e.waitPress o = e.enterGustHold true := by
  simp [Ev.waitPress, hl, ho]

theorem Ev.waitPress_within {e : Ev} {o : Offset} {l : SettleLatch} (hl : e.hsq.latch = some l)
    (ho : o.inEnvelope = true) (hw : o.within l.posTol l.yawTol = true) : e.waitPress o = e := by
  simp [Ev.waitPress, hl, ho, hw]

theorem Ev.waitPress_off {e : Ev} {o : Offset} {l : SettleLatch} (hl : e.hsq.latch = some l) (ho : o.inEnvelope = true)
    (hw : ¬o.within l.posTol l.yawTol = true) : e.waitPress o = e.enterSettling.trim o := by
  simp [Ev.waitPress, hl, ho, hw]

/-! ### Lock notices (R131, R132, R141) -/

theorem Ev.headLockGained_hold {e : Ev} (hh : e.hsq.head = .lockHold) (hr : e.running = true) :
    e.headLockGained = e.enterSettling := by
  simp only [Ev.headLockGained, hh, hr, if_true]

theorem Ev.headLockGained_other {e : Ev} (h : e.hsq.head ≠ .lockHold ∨ e.running = false) : e.headLockGained = e := by
  cases hh : e.hsq.head <;> simp_all [Ev.headLockGained]

theorem Ev.headLockLost_hold {e : Ev} (hh : e.hsq.head ∈ [.settling, .gustHold, .readyToPress])
    (hr : e.running = true) : e.headLockLost = e.enterLockHold := by
  simp only [List.mem_cons, List.not_mem_nil, or_false] at hh
  rcases hh with hh | hh | hh <;> simp only [Ev.headLockLost, hh, hr, if_true]

theorem Ev.headLockLost_pressing {e : Ev} (hh : e.hsq.head = .pressing) :
    e.headLockLost = e.onHsq fun h => { h with outcome := { h.outcome with unverified := true } } := by
  simp only [Ev.headLockLost, hh]

theorem Ev.headLockLost_other {e : Ev} (hp : e.hsq.head ≠ .pressing)
    (h : e.hsq.head ∉ [.settling, .gustHold, .readyToPress] ∨ e.running = false) : e.headLockLost = e := by
  cases hh : e.hsq.head <;> simp_all [Ev.headLockLost]

/-- Settles O53: the frame's residual, then the head state by state; the press decision by its conditions. -/
theorem framesAtTheHead : Obligations.FramesAtTheHead := by
  intro e running settling
  have hrun : e.running = true ↔ running := State.running_iff _
  refine ⟨?_, fun p h => ?_, fun hh hr => ?_, fun h => ?_, fun hh hr => ?_, fun hh => ?_, fun hp h => ?_⟩
  · intro p en yaw hen hlow hhigh hturns dx dy dz outside within trim gusts gust gustHeld
    have hyaw : wrapYaw (p.yaw - en.target.yaw) = yaw := wrapYaw_unique _ _ hlow hhigh hturns
    let o : Offset := ⟨dx, dy, dz, yaw⟩
    have ho : residual p (approachPose en.target) = o := by
      simp only [residual, approachPose, hyaw]
      rfl
    have hout : o.inEnvelope = false ↔ outside := Offset.inEnvelope_eq_false o
    have hin (h : ¬outside) : o.inEnvelope = true := by
      rw [← hout, Bool.not_eq_false] at h
      exact h
    have hwithin (l : SettleLatch) : o.within l.posTol l.yawTol = true ↔ within l.posTol l.yawTol dz :=
      Offset.within_iff o _ _
    have hgust (hr : e.running = true) : e.enterGustHold true = gustHeld := by
      have htimer : (if e.running then some (e.now, e.scp.config.gustLimit * 1000) else none)
          = some (e.now, e.scp.config.gustLimit * 1000) := if_pos hr
      simp only [Ev.enterGustHold, htimer, if_true]
      exact Ev.countGust_eq _
    refine ⟨fun l hh hr hf hl => ?_, fun hh hr hf => ?_, fun hh hr => ?_, fun l hh hr hl => ?_, fun l hh hl => ?_⟩
    · intro counted fit clear pressing
      have hsettle : e.offerToHead p = e.settle o := by
        rw [Ev.offerToHead_settling hen hh, if_pos (by rw [hrun.2 hr, (State.unitFree_iff _ _).2 hf]; rfl), ho]
      refine ⟨fun hx => ?_, fun hx hw => ?_, fun hx hw hn => ?_, fun hx hw hn => ?_⟩
      · rw [hsettle, Ev.settle_outside hl (hout.2 hx), hgust (hrun.2 hr)]
      · rw [hsettle, Ev.settle_off hl (hin hx) fun k => hw ((hwithin l).1 k)]
        rfl
      · rw [hsettle, Ev.settle_within hl (hin hx) ((hwithin l).2 hw)]
        exact if_neg (Nat.not_le.2 hn)
      · have hdecide : e.offerToHead p = counted.pressDecision := by
          rw [hsettle, Ev.settle_within hl (hin hx) ((hwithin l).2 hw)]
          exact if_pos hn
        have hready : counted.pressReady = true ↔ fit := by
          rw [State.pressReady_iff]
          exact ⟨fun ⟨_, hlock, _, hk⟩ => ⟨hlock, hk⟩, fun ⟨hlock, hk⟩ => ⟨hrun.2 hr, hlock, ⟨l, hl, hn⟩, hk⟩⟩
        have hallowed : counted.pressAllowed = true ↔ fit ∧ clear := by
          rw [State.pressAllowed_iff]
          constructor
          · rintro ⟨_, hlock, _, hk, hlockout, en', hen', hb⟩
            obtain rfl : en = en' := Option.some.inj (hen.symm.trans hen')
            exact ⟨⟨hlock, hk⟩, hlockout, hb⟩
          · rintro ⟨⟨hlock, hk⟩, hlockout, hb⟩
            exact ⟨hr, hlock, ⟨l, hl, hn⟩, hk, hlockout, en, hen, hb⟩
        refine ⟨fun hfit => ?_, fun hfit hclear => ?_, fun c hfit hclear hc hpress => ?_⟩
        · rw [hdecide, Ev.pressDecision, if_neg fun k => hfit (hallowed.1 k).1, if_neg fun k => hfit (hready.1 k)]
        · rw [hdecide, Ev.pressDecision, if_neg fun k => hclear (hallowed.1 k).2, if_pos (hready.2 hfit)]
          rfl
        · rw [hdecide, Ev.pressDecision, if_pos (hallowed.2 ⟨hfit, hclear⟩)]
          exact Ev.enterPressing_at (e := counted) hc (hrun.2 hr) hpress
    · rw [Ev.offerToHead_settling hen hh]
      refine if_neg fun k => hf ?_
      rw [Bool.and_eq_true, State.unitFree_iff] at k
      exact k.2
    · rw [Ev.offerToHead_gustHold hen hh (hrun.2 hr), ho, Ev.rideGust]
      refine ⟨fun hx => ?_, fun hx hn => ?_, fun hx hn => ?_⟩
      · exact if_neg (ne_true_of_eq_false (hout.2 hx))
      · rw [if_pos (hin hx)]
        exact if_neg (Nat.not_le.2 hn)
      · rw [if_pos (hin hx)]
        exact if_pos hn
    · rw [Ev.offerToHead_readyToPress hen hh (hrun.2 hr), ho]
      refine ⟨fun hx => ?_, fun hx hw => ?_, fun hx hw => ?_⟩
      · rw [Ev.waitPress_outside hl (hout.2 hx), hgust (hrun.2 hr)]
      · exact Ev.waitPress_within hl (hin hx) ((hwithin l).2 hw)
      · rw [Ev.waitPress_off hl (hin hx) fun k => hw ((hwithin l).1 k)]
        rfl
    · intro dz measured
      let r : Offset := ⟨dx, dy, dz, yaw⟩
      have hres : residual p en.target = r := by
        simp only [residual, hyaw]
        rfl
      have htol : (!r.within (2 * l.posTol) (2 * l.yawTol)) = decide ¬within (2 * l.posTol) (2 * l.yawTol) dz := by
        rw [Bool.eq_iff_iff, Bool.not_eq_true', ← Bool.not_eq_true, Offset.within_iff, decide_eq_true_eq]
      have hmeasure : e.offerToHead p = measured.sendHead gripperUnit .openGrip := by
        rw [Ev.offerToHead_measuring hen hh, hres, Ev.measure]
        simp only [hl, htol]
        rfl
      refine ⟨fun hn => ?_, fun hr hf => ?_⟩
      · rw [hmeasure]
        exact Ev.sendHead_not _ _ _ (hn.imp (fun k => State.not_running k) id)
      · rw [hmeasure]
        exact Ev.sendHead_free _ _ _ (hrun.2 hr) hf
  · exact Ev.offerToHead_passed p (h.imp id fun ⟨hr, hm⟩ => ⟨State.not_running hr, hm⟩)
  · exact Ev.headLockGained_hold hh (hrun.2 hr)
  · exact Ev.headLockGained_other (h.imp id State.not_running)
  · rw [Ev.headLockLost_hold hh (hrun.2 hr)]
    have htimer : (if e.running then some e.now else none) = some e.now := if_pos (hrun.2 hr)
    simp only [Ev.enterLockHold, htimer]
    rfl
  · exact Ev.headLockLost_pressing hh
  · exact Ev.headLockLost_other hp (h.imp id State.not_running)

end Sys2Proof.Machine
end

section
/-! PROOFS. The press, the placement and the dump (06_head_cycle_and_pose_correction.md, R59, R134 to R138). -/

namespace Sys2Proof.Machine

/-! ### After the press (R136) -/

theorem Ev.afterPress_at {e : Ev} {en : Entry} (h : e.headEntry = some en) : e.afterPress =
    if en.marks.inspect then
      { e with hsq := { e.hsq with head := .measuring, orderSent := false, measuringTimer := some e.now } }
    else e.enterReleasing := by
  simp only [Ev.afterPress, h]
  rfl

/-- The press limit that runs out: LIFT goes out and the order ends as CUTOFF (R59). -/
theorem pressLimit_effect {s : State} {tag : Byte} {began : Nat} {e : Ev}
    (h : s.flight pressUnit = some ⟨.press, tag, .hsq, began⟩)
    (hx : (Ev.start { s.ended pressUnit with
      now := max s.now (began + 2500), loopTx := s.loopTx ++ liftFrame }).pressCutoff = e) : Effect .pressLimit s e := by
  have hexec : exec .pressLimit s = .next (pressLimitEnds s) := rfl
  rw [Effect, hexec, pressLimitEnds]
  simp only [h]
  rw [← hx]
  rfl

/-! ### The receive pose (R119) -/

theorem Ev.raiseHold_receivePose (e : Ev) (r : Hold) (slot : Option Nat) :
    (e.raiseHold r slot).receivePose = e.receivePose := by
  unfold Ev.raiseHold
  split <;> rfl

theorem Ev.refreshCourse_receivePose (e : Ev) (b : Refresh) : (e.refreshCourse b).receivePose = e.receivePose := by
  rw [State.receivePose, (Ev.refreshCourse_spec e b).1.rcu]
  rfl

theorem Ev.changeEntry_receivePose (e : Ev) (slot : Nat) (f : Entry → Entry) :
    (e.changeEntry slot f).receivePose = e.receivePose := by
  rw [State.receivePose, (Ev.changeEntry_rcu_hsq e slot f).1]
  rfl

/-! ### The dump (R89) -/

theorem Ev.changeEntry_congr {e : Ev} {slot : Nat} {en : Entry} {f g : Entry → Entry} (h : e.entryAt slot = some en)
    (hfg : f en = g en) : e.changeEntry slot f = e.changeEntry slot g := by
  rw [Ev.changeEntry_eq f h, Ev.changeEntry_eq g h, hfg]

theorem Ev.changeEntry_entryAt {e : Ev} {slot : Nat} {en : Entry} (f : Entry → Entry) (h : e.entryAt slot = some en) :
    (e.changeEntry slot f).entryAt slot = some (f en) := by
  rw [Ev.changeEntry_toState slot f e en h]
  exact Table.read_write_same _ _ _

/-- The reject count of a dumped entry (R89). -/
def Entry.dumpRejects (reason : Option Reason) (en : Entry) : Nat :=
  if en.marks.skip ∨ reason = some .orphan then en.rejects else en.rejects + 1

/-- The state of a dumped entry (R5, R25, R89). -/
def Entry.dumpState (reason : Option Reason) (en : Entry) : EntryState :=
  if en.marks.skip then .skipped else if 3 ≤ en.dumpRejects reason then .faulted else .planned

theorem Entry.dumped_eq (reason : Option Reason) (en : Entry) :
    en.dumped reason = { en with rejects := en.dumpRejects reason, state := en.dumpState reason } := by
  unfold Entry.dumped Entry.dumpState Entry.dumpRejects
  by_cases hs : en.marks.skip = true
  · simp [hs]
  · simp [hs]

theorem Entry.dumpReport_eq (slot : Nat) (en : Entry) : en.dumpReport slot =
    if en.state = .skipped then [.skipped [slot]] else if en.state = .faulted then [.faulted slot] else [] := by
  cases h : en.state <;> simp [Entry.dumpReport, h]

/-- Settles O54: each ending in the order of its changes; `Ev.sendHead_eq` for the orders that go out. -/
theorem pressPlacementAndDump : Obligations.PressPlacementAndDump := by
  intro s tag sends releases pressed
  have hsends (e : Ev) (unit : Nat) (o : Order) : e.sendHead unit o = sends e unit o := Ev.sendHead_eq e unit o
  have hreleases (e : Ev) : e.enterReleasing = releases e := hsends _ _ _
  have hpressed {e : Ev} {en : Entry} (h : e.headEntry = some en) : e.afterPress = pressed en e := by
    rw [Ev.afterPress_at h, hreleases]
  refine ⟨fun en h hen => ?_, fun en began h hen => ?_, fun began ht => ?_, fun began ht => ?_, fun k en h hk hen => ?_,
    fun p r h hh => ?_, fun c en h hc hen => ?_⟩
  · exact completion_effect (r := 0) (code := 0) rfl h (by decide) (hpressed hen)
  · intro later
    exact pressLimit_effect h (congrArg (Ev.countWear .pressCutoffs) (hpressed hen))
  · intro later
    have hout {e : Ev} (he : (Ev.start later).measuringOut = e) : Effect .measuringTimer s e :=
      fireAt_effect (moment := s.measuringEnd) (t := began + 200) rfl (by rw [State.measuringEnd, ht]; rfl) he
    exact ⟨fun hh => hout ((if_pos hh).trans (hreleases _)), fun hh => hout (if_neg hh)⟩
  · exact fireAt_effect (moment := s.lockoutEnd) (t := began + 3000) rfl (by rw [State.lockoutEnd, ht]; rfl) rfl
  · intro o handed placed read held back
    refine completion_effect (r := 0) (code := 0) rfl h (by decide) ?_
    have hpose : back.receivePose = s.receivePose := by
      have hheld : held.receivePose = read.receivePose := by
        by_cases ho : o.outOfTolerance = true
        · simp only [held, if_pos ho]
          exact Ev.raiseHold_receivePose _ _ _
        · simp only [held, if_neg ho]
      have hread : read.receivePose = placed.receivePose := Ev.refreshCourse_receivePose _ _
      exact hheld.trans (hread.trans (Ev.changeEntry_receivePose _ _ _))
    have hplaced : placed.onHsq (fun q => { q with carrier := none }) = { placed with hsq := { s.hsq with carrier := none } } := by
      have hhsq : placed.hsq = s.hsq := (Ev.changeEntry_rcu_hsq _ _ _).2
      rw [Ev.onHsq, hhsq]
    show (Ev.start (s.ended gripperUnit)).openEnd = _
    have hend : (Ev.start (s.ended gripperUnit)).openEnd = back.sendRetract := by
      have hk' : (Ev.start (s.ended gripperUnit)).hsq.carrier = some k := hk
      simp only [Ev.openEnd, hk']
      show Ev.enterRetracting (if o.outOfTolerance then
        Ev.raiseHold .inspect (some k.slot) ((placed.onHsq fun q => { q with carrier := none }).refreshCourse .event)
        else (placed.onHsq fun q => { q with carrier := none }).refreshCourse .event) = _
      rw [hplaced]
      rfl
    rw [hend, Ev.sendRetract, hpose]
    exact hsends _ _ _
  · exact completion_effect_boom (r := 0) (code := 0) rfl h
      (Ev.headSlewEnd_retracting (e := Ev.start (s.ended boomUnit)) hh)
  · intro rejects state out told done
    refine completion_effect (r := 0) (code := 0) rfl h (by decide) ?_
    have hout : (((Ev.start (s.ended chuteUnit)).dropCarrier 9).onBtc fun t => { t with bin := t.bin + 1 }).changeEntry
        c.slot (Entry.dumped c.condemned) = out :=
      Ev.changeEntry_congr (en := en) hen (Entry.dumped_eq _ _)
    have hread : out.entryAt c.slot = some { en with rejects := rejects, state := state } :=
      Ev.changeEntry_entryAt (en := en) _ hen
    show (Ev.start (s.ended chuteUnit)).dumpEnd = _
    have hc' : (Ev.start (s.ended chuteUnit)).carrierAt 9 = some c := hc
    simp only [Ev.dumpEnd, hc', hout, hread]
    rw [Entry.dumpReport_eq, show ((Ev.reports _ out).refreshCourse .event).countWear .rejects = done from rfl]
    generalize done = laid
    rfl

end Sys2Proof.Machine
end

section
/-! PROOFS. The deflection feedforward and the calibration's sample run (07_deflection_calibration.md, R121, R145, R146,
R149 to R154). -/

namespace Sys2Proof.Machine

/-! ### The correction (R145, R146) -/

theorem Dfu.correction_invalid {d : Dfu} (h : d.valid = false) (r : Nat) : d.correction r = ⟨0, 0⟩ :=
  if_neg (ne_true_of_eq_false h)

theorem Dfu.correction_valid {d : Dfu} (h : d.valid = true) (r : Nat) : d.correction r =
    ⟨interpolate (fun k => (d.point k).dz) r, interpolate (fun k => (d.point k).dr) r⟩ := if_pos h

theorem interpolate_low (value : Nat → Int) {r : Nat} (h : r ≤ 40000) : interpolate value r = value 0 := if_pos h

theorem interpolate_high (value : Nat → Int) {r : Nat} (h : 250000 ≤ r) : interpolate value r = value 7 := by
  rw [interpolate, if_neg (by omega), if_pos h]

theorem leadQuotient_pos (product : Int) {reach : Nat} (h : reach ≠ 0) :
    leadQuotient product reach = roundDiv product reach := if_neg h

/-- Settles O55: the square root, the interpolation and the rounding by their laws. -/
theorem feedforwardCorrectsTheApproach : Obligations.FeedforwardCorrectsTheApproach := by
  refine ⟨isqrt_spec, fun d r => ⟨fun h => Dfu.correction_invalid h r, fun h => ?_⟩, fun s target => ?_⟩
  · rw [Dfu.correction_valid h]
    refine ⟨fun hr => ?_, fun hr => ?_, fun k hk hr => ?_, fun k hk hlow hhigh => ?_⟩
    · rw [interpolate_low _ hr, interpolate_low _ hr]
    · rw [interpolate_high _ hr, interpolate_high _ hr]
    · rw [hr, interpolate_at _ k hk, interpolate_at _ k hk]
    · exact ⟨interpolate_between (fun k => (d.point k).dz) r k hk hlow hhigh,
        interpolate_between (fun k => (d.point k).dr) r k hk hlow hhigh⟩
  · intro r c o
    have hreach : isqrt (s.reachSquared target) = r := by rw [State.reachSquared, ← sq, ← sq]
    have ho : o = ⟨target.x - leadQuotient (c.dr * (target.x - s.rcu.baseX)) r,
        target.y - leadQuotient (c.dr * (target.y - s.rcu.baseY)) r, target.z + 300 - c.dz, target.yaw⟩ := by
      simp only [o, State.orderedPose, hreach]
      rfl
    rw [ho]
    refine ⟨rfl, rfl, fun hr => ?_⟩
    dsimp only
    rw [sub_sub_cancel, sub_sub_cancel, leadQuotient_pos _ hr, leadQuotient_pos _ hr]
    exact ⟨roundDiv_nearest _ r (Nat.pos_of_ne_zero hr), roundDiv_nearest _ r (Nat.pos_of_ne_zero hr)⟩

/-! ### The sample run (R150) -/

theorem spansAtMost5_map {α : Type} (f : α → Int) (l : List α) :
    spansAtMost5 (l.map f) = true ↔ ∀ a ∈ l, ∀ b ∈ l, f a - f b ≤ 5 := by
  simp [spansAtMost5]

theorem extendRun_steady {run : List Sample} {p : Sample}
    (h : ∀ a ∈ run ++ [p], ∀ b ∈ run ++ [p], a.x - b.x ≤ 5 ∧ a.y - b.y ≤ 5 ∧ a.z - b.z ≤ 5) :
    extendRun run p = run ++ [p] := by
  refine if_pos ?_
  simp only [Bool.and_eq_true, spansAtMost5_map]
  exact ⟨⟨fun a ha b hb => (h a ha b hb).1, fun a ha b hb => (h a ha b hb).2.1⟩, fun a ha b hb => (h a ha b hb).2.2⟩

theorem extendRun_spread {run : List Sample} {p : Sample}
    (h : ¬∀ a ∈ run ++ [p], ∀ b ∈ run ++ [p], a.x - b.x ≤ 5 ∧ a.y - b.y ≤ 5 ∧ a.z - b.z ≤ 5) :
    extendRun run p = [p] := by
  refine if_neg fun k => h ?_
  simp only [Bool.and_eq_true, spansAtMost5_map] at k
  obtain ⟨⟨hx, hy⟩, hz⟩ := k
  exact fun a ha b hb => ⟨hx a ha b hb, hy a ha b hb, hz a ha b hb⟩

theorem Ev.offerToDfu_idle {e : Ev} (p : Pose) (h : ∀ k, e.dfu.cal ≠ .running k) : e.offerToDfu p = e := by
  cases hc : e.dfu.cal with
  | running k => exact absurd hc (h k)
  | none | suspended k | done | failed => simp only [Ev.offerToDfu, hc]

theorem Ev.offerToDfu_running {e : Ev} {k : Nat} (h : e.dfu.cal = .running k) (p : Pose) : e.offerToDfu p =
    if e.dfu.phase = .sampling then
      let run := extendRun e.dfu.samples ⟨p.x, p.y, p.z⟩
      if 8 ≤ run.length then e.recordPoint k run else e.onDfu fun d => { d with samples := run }
    else e := by
  simp only [Ev.offerToDfu, h]

/-- Settles O57: the run by `extendRun`, the point by its rounded means. -/
theorem samplesMakeThePoint : Obligations.SamplesMakeThePoint := by
  refine ⟨fun e p h => Ev.offerToDfu_idle p h, fun e p k h => ?_⟩
  intro joined steady nearest
  rw [Ev.offerToDfu_running h]
  refine ⟨fun hp => if_neg hp, fun hp hs => ?_, fun hp hs hn => ?_, fun hp hs hn => ?_⟩
  · rw [if_pos hp, extendRun_spread hs]
    rfl
  · rw [if_pos hp, extendRun_steady hs]
    exact if_neg (Nat.not_le.2 hn)
  · rw [if_pos hp, extendRun_steady hs]
    have hlength (f : Sample → Int) : (joined.map f).length = 8 := by rw [List.length_map, hn]
    have hmean (f : Sample → Int) : nearest (meanOf (joined.map f)) (joined.map f).sum 8 := by
      rw [meanOf, hlength]
      exact roundDiv_nearest _ 8 (by decide)
    let pt : Point := ⟨meanOf (joined.map (·.z)) - e.dfu.pointPose.z, meanOf (joined.map (·.x)) - e.dfu.pointPose.x⟩
    have hrecord : (if 8 ≤ joined.length then e.recordPoint k joined else e.onDfu fun d => { d with samples := joined })
        = e.recordPoint k joined := if_pos (Nat.le_of_eq hn.symm)
    refine ⟨pt, ?_, ?_, fun hk => ?_, fun hk => ?_⟩
    · rw [sub_add_cancel]
      exact hmean _
    · rw [sub_add_cancel]
      exact hmean _
    · exact hrecord.trans (if_pos hk)
    · exact hrecord.trans (if_neg (Nat.not_lt.2 hk))

end Sys2Proof.Machine
end

section
/-! PROOFS. The orders at BOOM that are not the head's: DEPLOY, FOLD and the calibration slew, and the entry into LAYING
or DRAINING (R53, R73, R75, R149 to R153, R165, R172). -/

namespace Sys2Proof.Machine

/-! ### The work due at an entry into LAYING or DRAINING (R73, R75) -/

theorem Ev.resumeWork_at {e : Ev} {b : Nat} {c : Carrier} (h : e.carrierAt b = some c) :
    e.resumeWork b = if c.phase = .arriving then e.startWork b c else e := by
  simp only [Ev.resumeWork, h]

theorem State.workDue_at {s : State} {b : Nat} {c : Carrier} {en : Entry} (hb : b = 1 ∨ b = 2) (hn : c.condemned = none)
    (hen : s.entryAt c.slot = some en) :
    s.workDue b c = if b = 1 then en.cut.map Order.cut else some (.glue (s.classAt en.cls).glue) := by
  rcases hb with rfl | rfl
  · exact State.workDue_saw hn hen
  · exact State.workDue_glue hn hen

/-! ### The boom request that waits (R53) -/

theorem Ev.sendWaiting_none {e : Ev} (h : e.sli.boomWaiting = none) : e.sendWaiting = e := by
  simp only [Ev.sendWaiting, h]

theorem Ev.sendWaiting_busy {e : Ev} {r : BoomRequest} (h : e.sli.boomWaiting = some r) (hf : e.flight boomUnit ≠ none) :
    e.sendWaiting = e := by
  simp only [Ev.sendWaiting, h]
  exact if_neg fun k => hf ((State.unitFree_iff _ _).1 k)

theorem Ev.sendWaiting_free {e : Ev} {r : BoomRequest} (h : e.sli.boomWaiting = some r) (hf : e.flight boomUnit = none) :
    e.sendWaiting = (e.onSli fun l => { l with boomWaiting := none }).sendBoom r := by
  simp only [Ev.sendWaiting, h]
  exact if_pos ((State.unitFree_iff _ _).2 hf)

theorem Ev.sendWaiting_rcu (e : Ev) : e.sendWaiting.rcu = e.rcu := by
  unfold Ev.sendWaiting
  split
  · rfl
  · split <;> rfl

/-! ### The calibration slew (R149, R151) -/

theorem Ev.calSlew_idle {e : Ev} (h : (∀ k, e.dfu.cal ≠ .running k) ∨ e.dfu.phase ≠ .due ∨ e.flight boomUnit ≠ none) :
    e.calSlew = e := by
  rcases h with h | h | h
  · cases hc : e.dfu.cal with
    | running k => exact absurd hc (h k)
    | none | suspended k | done | failed => simp only [Ev.calSlew, hc]
  · unfold Ev.calSlew
    split
    · exact if_neg fun k => h k.1
    all_goals rfl
  · exact Ev.calSlew_busy e h

/-- A failed attempt: the next one is due, or the third has failed the routine (R151). -/
theorem Ev.failAttempt_eq (e : Ev) (k : Nat) (cause : CalCause) :
    let stopped : Dfu := { e.dfu with cause := some cause, limitTimer := none, samples := [], slew := .none }
    e.failAttempt k cause = if e.dfu.attempt < 3 then
        { e with dfu := { stopped with attempt := e.dfu.attempt + 1, phase := .due } }.calSlew
      else { e with dfu := { stopped with pendingPoints := [], cal := .failed } }.report (.calFailed k (some cause)) :=
  rfl

theorem Ev.calSlewDone_current {e : Ev} (h : e.dfu.slew = .current) : e.calSlewDone =
    e.onDfu fun d => { d with slew := .none, phase := .sampling, samples := [], limitTimer := some e.now } := by
  simp only [Ev.calSlewDone, h]

theorem Ev.calSlewFault_current {e : Ev} {k : Nat} (h : e.dfu.slew = .current) (hc : e.dfu.cal = .running k) :
    e.calSlewFault = e.failAttempt k .slewFault := by
  simp only [Ev.calSlewFault, h, hc]

theorem Ev.calSlew_abandoned {e : Ev} (h : e.dfu.slew = .abandoned) :
    e.calSlewDone = (e.onDfu fun d => { d with slew := .none }).calSlew
      ∧ e.calSlewFault = (e.onDfu fun d => { d with slew := .none }).calSlew := by
  simp only [Ev.calSlewDone, Ev.calSlewFault, h, and_self]

theorem Ev.calSlew_passed {e : Ev} (h : e.dfu.slew = .none) : e.calSlewDone = e ∧ e.calSlewFault = e := by
  simp only [Ev.calSlewDone, Ev.calSlewFault, h, and_self]

theorem Ev.failSampling_running {e : Ev} {k : Nat} (cause : CalCause) (hc : e.dfu.cal = .running k)
    (hp : e.dfu.phase = .sampling) : e.failSampling cause = e.failAttempt k cause := by
  simp only [Ev.failSampling, hc, hp, if_true]

theorem Ev.failSampling_other {e : Ev} (cause : CalCause)
    (h : (∀ k, e.dfu.cal ≠ .running k) ∨ e.dfu.phase ≠ .sampling) : e.failSampling cause = e := by
  rcases h with h | h
  · cases hc : e.dfu.cal with
    | running k => exact absurd hc (h k)
    | none | suspended k | done | failed => simp only [Ev.failSampling, hc]
  · unfold Ev.failSampling
    split
    · exact if_neg h
    all_goals rfl

/-! ### The end of DEPLOY (R165) -/

/-- The end of an order that is not the head's leaves a head order in flight as it is. -/
theorem State.ended_headBusy {s : State} {unit : Nat} {tag : Byte} {o : Order} {q : Requester}
    (h : s.awaits unit tag o q) (hq : q ≠ .hsq) : (s.ended unit).headBusy = s.headBusy := by
  obtain ⟨at_, h⟩ := h
  rw [Bool.eq_iff_iff, State.headBusy_iff, State.headBusy_iff]
  refine exists_congr fun u => and_congr_right fun _ => ?_
  by_cases hu : u = unit
  · subst hu
    have hnone : (s.ended u).flight u = none := Table.read_strike_same _ _
    simp [hnone, h, hq]
  · rw [State.ended_flight_other s unit u hu]

/-- Settles O56: each step by its function; at the end of DEPLOY no prompted test changes the hold reasons. -/
theorem boomOrdersEnd : Obligations.BoomOrdersEnd := by
  refine ⟨fun e => ?_, fun s tag code => ?_⟩
  · refine ⟨rfl, fun b c hb hc => ?_, Ev.sendWaiting_none, fun r => Ev.sendWaiting_busy, fun r h hf => ?_,
      fun k hc hp hf => ?_, Ev.calSlew_idle⟩
    · intro becomes unit
      have hunit : workUnit b = unit := rfl
      rw [Ev.resumeWork_at hc]
      refine ⟨fun hp => if_neg hp, fun hp hn => ?_, fun en hp hn hen => ?_⟩
      · rw [if_pos hp, Ev.startWork_ready hc (State.workDue_condemned hn)]
        rfl
      · intro work
        have hwork : e.workDue b c = work := State.workDue_at hb hn hen
        refine ⟨fun hw => ?_, fun o hw hr hf => ?_⟩
        · rw [if_pos hp, Ev.startWork_ready hc (hwork.trans hw)]
          rfl
        · rw [if_pos hp, Ev.startWork_sent hc (hwork.trans hw) hr hf]
          rfl
    · rw [Ev.sendWaiting_free h hf]
      cases r <;> rfl
    · intro pose
      have hslew := Ev.calSlew_free e k hc hp hf
      rw [State.calPose_eq] at hslew
      exact hslew
  · intro ended fails
    have hend {i : Instr} {r code : Byte} {o : Order} {q : Requester} {e : Ev} (h : s.awaits boomUnit tag o q)
        (hi : exec i s = .next (completion boomUnit tag r code s)) (hx : ended.handOn boomUnit o q (.ofBytes r code) = e) :
        Effect i s e.sendWaiting := completion_effect_boom hi h hx
    refine ⟨fun h => ⟨?_, hend h (r := 1) (code := code) rfl rfl⟩,
      fun h => ⟨hend h (r := 0) (code := 0) rfl rfl, hend h (r := 1) (code := code) rfl rfl⟩, fun p r h => ?_,
      fun k began ht hc hp => ?_⟩
    · intro refused holds hrefused hfree
      let laying : Ev := { ended with rcu := { s.rcu with deploy := false, mode := .laying } }
      let told := laying.report (.mode .laying s.rcu.mode false .deploy holds s.rcu.haltPending s.rcu.stranded)
      have hbin : laying.binRefuses = true ↔ refused := by
        have hbusy : laying.headBusy = s.headBusy := State.ended_headBusy h (by decide)
        have hsame : laying.binRefuses = s.binRefuses := by
          rw [State.binRefuses, hbusy]
          rfl
        rw [hsame]
        exact State.binRefuses_iff s
      have hholds : laying.holdsOnEntry = holds := by
        by_cases hr : refused
        · rw [State.holdsOnEntry, if_pos (hbin.2 hr), hrefused hr]
          rfl
        · rw [State.holdsOnEntry, if_neg fun k => hr (hbin.1 k), hfree hr]
      have hdone : Effect (.deployDone tag) s told.modeEntered.sendWaiting := by
        refine hend h (r := 0) (code := 0) rfl ?_
        show (laying.entryReport .deploy s.rcu.mode).modeEntered = _
        rw [Ev.entryReport, hholds]
      refine ⟨hdone, _, hdone, ?_⟩
      rw [Ev.finish_holds, Ev.sendWaiting_rcu, Ev.modeEntered_holds told (by rfl), ← hholds]
      rfl
    · have hdone {e : Ev} (hx : ended.calSlewDone = e) : Effect (.calSlewDone tag) s e.sendWaiting :=
        hend h (r := 0) (code := 0) rfl hx
      have hfault {e : Ev} (hx : ended.calSlewFault = e) : Effect (.calSlewFault tag code) s e.sendWaiting :=
        hend h (r := 1) (code := code) rfl hx
      refine ⟨fun hs => hdone (Ev.calSlewDone_current (e := ended) hs), fun k hs hc => ?_, fun hs => ?_, fun hs => ?_⟩
      · exact hfault ((Ev.calSlewFault_current (e := ended) hs hc).trans (Ev.failAttempt_eq _ _ _))
      · obtain ⟨hd, hf⟩ := Ev.calSlew_abandoned (e := ended) hs
        exact ⟨hdone hd, hfault hf⟩
      · obtain ⟨hd, hf⟩ := Ev.calSlew_passed (e := ended) hs
        exact ⟨hdone hd, hfault hf⟩
    · refine fireAt_effect (moment := s.pointEnd) (t := began + 10000) rfl (by rw [State.pointEnd, ht]; rfl) ?_
      exact (Ev.failSampling_running .pointLimit hc hp).trans (Ev.failAttempt_eq _ _ _)

end Sys2Proof.Machine
end

section
/-! PROOFS. The orders' timeouts and the bytes of loop receive (03_station_loop.md, R55, R57). -/

namespace Sys2Proof.Machine

/-! ### Timeouts (R57) -/

/-- An order that runs out of time ends as one with the fault code OTHER (R57). -/
theorem Ev.handOn_timeout (e : Ev) (unit : Nat) (o : Order) (q : Requester) :
    e.handOn unit o q (.fault .timeout) = e.handOn unit o q (.fault .other) := by
  cases o with
  | slew p r => cases q <;> rfl
  | load _ | cut _ | glue _ | move | deploy | fold | trim _ _ _ _ | take | openGrip | press | dump => rfl

theorem Ev.endOrder_timeout (e : Ev) (unit : Nat) (r : InFlight) :
    e.endOrder unit r (.fault .timeout) = e.endOrder unit r (.ofBytes 1 7) := by
  have hcode : Ending.ofBytes 1 7 = .fault .other := by decide
  rw [hcode, Ev.endOrder, Ev.endOrder, Ev.handOn_timeout]

/-- A timeout is the completion of its order with fault code 7, at its moment (R57). -/
theorem orderTimesOut_eq {s : State} {unit : Nat} {r : InFlight} {d : Nat} (h : s.flight unit = some r)
    (hd : r.order.timeout = some d) :
    orderTimesOut unit s = completion unit r.tag 1 7 { s with now := max s.now (r.sentAt + d) } := by
  have hmoment : r.timeoutAt = some (r.sentAt + d) := by rw [InFlight.timeoutAt, hd]; rfl
  have hflight : (Ev.start { s with now := max s.now (r.sentAt + d) }).flight unit = some r := h
  rw [completion, event, Ev.takeCompletion]
  simp only [orderTimesOut, h, hmoment, hflight, if_true]
  rw [← Ev.endOrder_timeout]
  rfl

/-! ### Bytes of loop receive (R55, R205) -/

/-- The state with some bytes of a frame taken. -/
def State.reading (s : State) (rx : List Byte) : State := { s with sli := { s.sli with rx := rx } }

theorem loopBytes_cons (b : Byte) (bs : List Byte) (s : State) :
    loopBytes (b :: bs) s = loopBytes bs (event (Ev.loopByte b) s) := rfl

theorem event_loopByte_start (s : State) {b : Byte} (hb : b = 0x3C ∨ b = 0xC3) :
    event (Ev.loopByte b) (s.reading []) = s.reading [b] := by
  have hbyte : (Ev.start (s.reading [])).loopByte b = Ev.start (s.reading [b]) := if_pos hb
  rw [event, hbyte, Ev.finish_none _ rfl rfl rfl rfl]
  rfl

theorem event_loopByte_completion (s : State) (rest : List Byte) (b : Byte) :
    event (Ev.loopByte b) (s.reading (0x3C :: rest)) =
      if rest.length + 2 = 7 then event (Ev.takeCompletionFrame (0x3C :: rest ++ [b])) (s.reading [])
      else s.reading (0x3C :: rest ++ [b]) := by
  have hlength : (0x3C :: rest ++ [b] : List Byte).length = rest.length + 2 := by simp
  have hbyte : (Ev.start (s.reading (0x3C :: rest))).loopByte b =
      if rest.length + 2 = 7 then (Ev.start (s.reading [])).takeCompletionFrame (0x3C :: rest ++ [b])
      else Ev.start (s.reading (0x3C :: rest ++ [b])) := by
    rw [← hlength]
    rfl
  rw [event, hbyte]
  split
  · rfl
  · rw [Ev.finish_none _ rfl rfl rfl rfl]
    rfl

theorem event_loopByte_order (s : State) (rest : List Byte) (b : Byte) :
    event (Ev.loopByte b) (s.reading (0xC3 :: rest)) =
      if orderFrameLength (0xC3 :: rest ++ [b]) = some (0xC3 :: rest ++ [b] : List Byte).length then s.reading []
      else s.reading (0xC3 :: rest ++ [b]) := by
  have hbyte : (Ev.start (s.reading (0xC3 :: rest))).loopByte b =
      if orderFrameLength (0xC3 :: rest ++ [b]) = some (0xC3 :: rest ++ [b] : List Byte).length then Ev.start (s.reading [])
      else Ev.start (s.reading (0xC3 :: rest ++ [b])) := rfl
  rw [event, hbyte]
  split <;> rw [Ev.finish_none _ rfl rfl rfl rfl] <;> rfl

/-- Seven bytes from a completion's start byte are one completion frame. -/
theorem loopBytes_completion (s : State) (bytes rest : List Byte) (hne : bytes ≠ [])
    (hlength : rest.length + bytes.length = 6) :
    loopBytes bytes (s.reading (0x3C :: rest))
      = event (Ev.takeCompletionFrame (0x3C :: rest ++ bytes)) (s.reading []) := by
  induction bytes generalizing rest with
  | nil => exact absurd rfl hne
  | cons b bs ih =>
    rw [loopBytes_cons, event_loopByte_completion]
    rw [List.length_cons] at hlength
    by_cases hbs : bs = []
    · subst hbs
      rw [List.length_nil] at hlength
      rw [if_pos (by omega)]
      rfl
    · have hpos := List.length_pos_iff.2 hbs
      rw [if_neg (by omega), List.cons_append, ih (rest ++ [b]) hbs (by rw [List.length_append, List.length_singleton]; omega)]
      simp

/-- The length of an order frame is known from its first five bytes (R205). -/
theorem orderFrameLength_append {l : List Byte} {n : Nat} (h : orderFrameLength l = some n) (m : List Byte) :
    orderFrameLength (l ++ m) = some n := by
  unfold orderFrameLength at h
  split at h
  · exact h
  · cases h

/-- An order frame read to its end leaves nothing behind. -/
theorem loopBytes_order (s : State) {full : List Byte} (hfull : orderFrameLength full = some full.length)
    (bytes rest : List Byte) (hne : bytes ≠ []) (hsplit : full = 0xC3 :: rest ++ bytes) :
    loopBytes bytes (s.reading (0xC3 :: rest)) = s.reading [] := by
  induction bytes generalizing rest with
  | nil => exact absurd rfl hne
  | cons b bs ih =>
    have hframe : full = (0xC3 :: rest ++ [b]) ++ bs := by rw [hsplit]; simp
    rw [loopBytes_cons, event_loopByte_order]
    by_cases hbs : bs = []
    · subst hbs
      rw [List.append_nil] at hframe
      rw [if_pos (hframe ▸ hfull)]
      rfl
    · have hopen : ¬orderFrameLength (0xC3 :: rest ++ [b]) = some (0xC3 :: rest ++ [b] : List Byte).length := by
        intro k
        have hlong := Option.some.inj ((orderFrameLength_append k bs).symm.trans (hframe ▸ hfull))
        have hpos := List.length_pos_iff.2 hbs
        simp only [List.length_append] at hlong
        omega
      rw [if_neg hopen, List.cons_append]
      exact ih (rest ++ [b]) hbs (by rw [hframe]; simp)

theorem State.reading_self {s : State} (h : s.sli.rx = []) : s.reading [] = s := by
  rw [State.reading, ← h]

theorem Ev.takeCompletionFrame_eq (e : Ev) (unit tag result code low high : Byte) :
    e.takeCompletionFrame [0x3C, unit, tag, result, code, low, high] =
      if crc16 [unit, tag, result, code] = unle [low, high] ∧ unit.toNat ≤ 16 then
        e.takeCompletion unit.toNat tag result code
      else e.countStale := rfl

theorem Ev.takeCompletion_stale {e : Ev} {unit : Nat} {tag : Byte} (h : ∀ r, e.flight unit = some r → r.tag ≠ tag)
    (result code : Byte) : e.takeCompletion unit tag result code = e.countStale := by
  unfold Ev.takeCompletion
  split
  · rfl
  · exact if_neg (h _ ‹_›)

theorem event_countStale (s : State) : event Ev.countStale s =
    { s with sli := { s.sli with stale := if s.sli.stale < 65535 then s.sli.stale + 1 else s.sli.stale } } := by
  rw [event, Ev.finish_none _ rfl rfl rfl rfl]
  rfl

/-- Settles O58: a timeout is a completion with code 7; the loop's frames byte by byte. -/
theorem timeoutsAndStaleCompletions : Obligations.TimeoutsAndStaleCompletions := by
  refine ⟨fun s u r d fault h hd hunit => ?_, fun s tag code => ⟨rfl, rfl, rfl⟩, ?_, fun s hrx => ?_⟩
  · have hfault (t : State) : exec fault t = .next (completion u.val r.tag 1 7 t) := by
      rcases hunit with ⟨hu, rfl⟩ | ⟨hu, rfl⟩ | ⟨hu, rfl⟩ | ⟨b, hu, rfl⟩ | ⟨hu, rfl⟩ | ⟨hu, rfl⟩ | ⟨hu, rfl⟩ | ⟨hu, rfl⟩ <;>
        rw [hu] <;> rfl
    exact ⟨_, congrArg Host.Outcome.next (orderTimesOut_eq h hd), hfault _⟩
  · exact ⟨fun _ => rfl, fun _ => rfl, fun _ => rfl, rfl, fun _ _ => rfl, rfl, rfl, fun _ _ _ _ => rfl, rfl, rfl, rfl, rfl⟩
  · intro counted
    have hread (unit tag result code low high : Byte)
        (hstale : (Ev.start s).takeCompletionFrame [0x3C, unit, tag, result, code, low, high] = (Ev.start s).countStale) :
        loopBytes [0x3C, unit, tag, result, code, low, high] s = counted := by
      have hstart : loopBytes [0x3C, unit, tag, result, code, low, high] (s.reading [])
          = loopBytes [unit, tag, result, code, low, high] (s.reading [0x3C]) :=
        by rw [loopBytes_cons, event_loopByte_start s (.inl rfl)]
      have hframe := loopBytes_completion s [unit, tag, result, code, low, high] [] (by simp) rfl
      rw [← State.reading_self hrx, hstart, hframe, State.reading_self hrx]
      have hevent : event (Ev.takeCompletionFrame [0x3C, unit, tag, result, code, low, high]) s
          = event Ev.countStale s := congrArg (fun e : Ev => e.finish.toState) hstale
      exact hevent.trans (event_countStale s)
    refine ⟨fun unit tag result code h => ?_, fun unit tag result code low high h => ?_, fun unit kind tag params h => ?_⟩
    · refine congrArg Host.Outcome.next (hread unit tag result code _ _ ?_)
      rw [Ev.takeCompletionFrame_eq]
      split
      · rename_i hgood
        exact Ev.takeCompletion_stale (h.resolve_left (Nat.not_lt.2 hgood.2)) _ _
      · rfl
    · refine congrArg Host.Outcome.next (hread unit tag result code low high ?_)
      rw [Ev.takeCompletionFrame_eq]
      refine if_neg fun k => h ?_
      rw [k.1]
      simp [unle]
    · have hlength : orderFrameLength (loopFrameBytes unit kind tag params)
          = some (loopFrameBytes unit kind tag params).length := by
        simp [orderFrameLength, loopFrameBytes, byte_toNat_of_lt h]
      have hframe : loopBytes (loopFrameBytes unit kind tag params) (s.reading []) = s.reading [] := by
        rw [loopFrameBytes, List.cons_append, loopBytes_cons, event_loopByte_start s (b := 0xC3#8) (.inr rfl)]
        exact loopBytes_order s hlength _ [] (by simp) rfl
      rw [State.reading_self hrx] at hframe
      exact congrArg Host.Outcome.next hframe

end Sys2Proof.Machine
end

section
/-! PROOFS. A whole frame on the tracker line (05_tracker_link.md, R101 to R113). -/

namespace Sys2Proof.Machine

/-! ### A frame of sense COMPLEMENTED (R107, R108) -/

/-- The complement of a frame, as it stands on the line under the latch TRUE, is one of sense COMPLEMENTED. -/
theorem trackerBytes_complementLine (s : State) (content : List Byte) (check : Byte) (hl : content.length = 17)
    (hf : s.trk.framing = .hunt) (hi : s.trk.inverted = false) :
    trackerBytes (([0xD3#8, 0x2C#8] ++ content ++ [check]).map (~~~·)) s =
      event (fun e => e.onTrk (Trk.complementedFrame (content.map (~~~·)) (~~~check)))
        (State.withTrk s { s.trk with complemented := true, buffer := [] }) := by
  have hdecode : ∀ b, s.trk.decode (id b) = b := fun b => by simp [Trk.decode, hi]
  have hline : ([0xD3#8, 0x2C#8] ++ content ++ [check]).map (~~~·)
      = (0x2C#8 :: 0xD3#8 :: (content.map (~~~·) ++ [~~~check])).map id := by simp
  rw [hline]
  exact trackerBytes_frame s s.trk true id hdecode hf (fun _ => hi) 0x2C 0xD3 rfl rfl _ (by rw [List.length_map, hl]) _

theorem event_complementedFrame (s : State) (content : List Byte) (check : Byte) :
    event (fun e => e.onTrk (Trk.complementedFrame (content.map (~~~·)) (~~~check)))
        (State.withTrk s { s.trk with complemented := true, buffer := [] }) =
      { s with trk :=
        if crc8 content = check then
          if s.trk.polarityRun + 1 < 3 then
            { s.trk with complemented := true, buffer := [], polarityRun := s.trk.polarityRun + 1 }
          else { s.trk with complemented := true, buffer := [], inverted := true, polarityRun := 0 }
        else { s.trk with
          complemented := true, buffer := [], polarityRun := 0, frameErrors := satUp s.trk.frameErrors } } := by
  have htwice : (content.map (~~~·)).map (~~~·) = content :=
    List.map_map.trans (List.map_id'' (fun b => BitVec.not_not) content)
  rw [event, Ev.finish_none _ rfl rfl rfl rfl, Ev.onTrk, Trk.complementedFrame, htwice, BitVec.not_not]
  rfl

/-! ### A frame of sense TRUE (R106, R109 to R111) -/

/-- The event in which a frame of sense TRUE is tested. -/
def Ev.frameRead (s : State) : Ev :=
  Ev.start { s with trk := { s.trk with complemented := false, buffer := [], polarityRun := 0 } }

theorem trackerBytes_true (s : State) {content : List Byte} {check : Byte} (hl : content.length = 17)
    (hf : s.trk.framing = .hunt) {e : Ev}
    (he : (if crc8 content = check then
        if (PoseFrame.ofContent content).good s.scp.config.qualityFloor then
          (Ev.frameRead s).goodFrame (PoseFrame.ofContent content) else (Ev.frameRead s).badFrame
      else ((Ev.frameRead s).onTrk fun t => { t with frameErrors := satUp t.frameErrors }).badFrame) = e) :
    Effect (.trackerFrame (if s.trk.inverted then ([0xD3#8, 0x2C#8] ++ content ++ [check]).map (~~~·)
      else [0xD3#8, 0x2C#8] ++ content ++ [check])) s e := by
  have hline := trackerBytes_trueLine s content check hl hf
  dsimp only at hline
  have hexec (bytes : List Byte) : exec (.trackerFrame bytes) s = .next (trackerBytes bytes s) := rfl
  rw [Effect, hexec, hline, ← he]
  rfl

theorem PoseFrame.good_iff (f : PoseFrame) (floor : Nat) :
    f.good floor = true ↔ floor ≤ f.quality ∧ -18000 ≤ f.pose.yaw ∧ f.pose.yaw ≤ 17999 := by
  simp [PoseFrame.good, and_assoc]

theorem Ev.goodFrame_locked {e : Ev} (h : e.trk.locked = true) (f : PoseFrame) : e.goodFrame f =
    (e.onTrk fun t => { t with
      windowCount := if t.expected = some f.sequence then min 255 (t.windowCount + 1) else t.windowCount
      expected := some (f.sequence + 1) }).offerFrame f := if_pos h

theorem Ev.goodFrame_unlocked {e : Ev} (h : e.trk.locked = false) (f : PoseFrame) : e.goodFrame f =
    let count := if e.trk.acquired ≠ 0 ∧ e.trk.expected = some f.sequence then e.trk.acquired + 1 else 1
    if 8 ≤ count then (e.onTrk (Trk.acquire f)).gainLock f else e.onTrk (Trk.acquire f) :=
  if_neg (ne_true_of_eq_false h)

theorem Ev.badFrame_eq (e : Ev) : e.badFrame =
    { e with trk := { e.trk with acquired := if e.trk.locked then e.trk.acquired else 0 } } := by
  rw [Ev.badFrame, Ev.onTrk]
  by_cases h : e.trk.locked = true
  · simp only [if_pos h]
  · simp only [if_neg h]

/-- An event that prompts nothing ends where its changes left it. -/
theorem Effect.next {i : Instr} {s : State} {e : Ev} (h : Effect i s e) (h1 : e.selDue = false) (h2 : e.xferDue = false)
    (h3 : e.drainDue = false) (h4 : e.retestDue = false) : exec i s = .next e.toState := by
  rw [Effect, Ev.finish_none e h1 h2 h3 h4] at h
  exact h

/-- Settles O59: the frame on the line by `trackerBytes_true`, its complement by `trackerBytes_complementLine`. -/
theorem trackerFrameIsRead : Obligations.TrackerFrameIsRead := by
  refine ⟨fun s sequence p quality hfits hf => ?_, fun s sequence p quality hfits hlow hhigh hyaw hf => ?_,
    fun s content check hl hcheck hf => ?_⟩
  · intro bytes line read next count
    let content := le 2 sequence.toNat ++ poseBytes p ++ [quality]
    have hl : content.length = 17 := frameContent_length _ _ _
    have hread : PoseFrame.ofContent content = ⟨sequence, p, quality.toNat⟩ := frameContent_read sequence p quality hfits
    have hgood : (PoseFrame.ofContent content).good s.scp.config.qualityFloor = true
        ↔ s.scp.config.qualityFloor ≤ quality.toNat := by
      obtain ⟨-, -, -, -, -, -, hlow, hhigh⟩ := hfits
      rw [PoseFrame.good_iff, hread]
      exact and_iff_left ⟨hlow, hhigh⟩
    have heffect {e : Ev} (he : (if (PoseFrame.ofContent content).good s.scp.config.qualityFloor then
        (Ev.frameRead s).goodFrame (PoseFrame.ofContent content) else (Ev.frameRead s).badFrame) = e) :
        Effect (.trackerFrame line) s e := trackerBytes_true s hl hf ((if_pos rfl).trans he)
    have hpass {e : Ev} (hq : s.scp.config.qualityFloor ≤ quality.toNat)
        (he : (Ev.frameRead s).goodFrame ⟨sequence, p, quality.toNat⟩ = e) : Effect (.trackerFrame line) s e :=
      heffect (by rw [if_pos (hgood.2 hq), hread, he])
    refine ⟨fun hq hlock => ?_, fun hq hlock hcount => ?_, fun hq hlock hcount => ?_, fun hq => ?_, fun hi => ?_⟩
    · exact hpass hq (Ev.goodFrame_locked (e := Ev.frameRead s) hlock _)
    · have hacquired := (Ev.goodFrame_unlocked (e := Ev.frameRead s) hlock ⟨sequence, p, quality.toNat⟩).trans
        (if_neg (Nat.not_le.2 hcount))
      exact (hpass hq hacquired).next rfl rfl rfl rfl
    · intro gained
      exact hpass hq ((Ev.goodFrame_unlocked (e := Ev.frameRead s) hlock _).trans (if_pos hcount))
    · have hbad : Effect (.trackerFrame line) s (Ev.frameRead s).badFrame :=
        heffect (if_neg fun k => Nat.not_le.2 hq (hgood.1 k))
      rw [Ev.badFrame_eq] at hbad
      exact hbad.next rfl rfl rfl rfl
    · have hline := trackerBytes_complementLine s content (crc8 content) hl hf hi
      rw [event_complementedFrame, if_pos rfl] at hline
      refine congrArg Host.Outcome.next (hline.trans ?_)
      by_cases hrun : s.trk.polarityRun + 1 < 3
      · rw [if_pos hrun, if_pos hrun, decide_eq_false (Nat.not_le.2 hrun), ← hi]
      · rw [if_neg hrun, if_neg hrun, decide_eq_true (Nat.not_lt.1 hrun)]
  · intro bytes
    let content := le 2 sequence.toNat ++ poseBytes p ++ [quality]
    have hread : PoseFrame.ofContent content = ⟨sequence, p, quality.toNat⟩ :=
      frameContent_read_field sequence p quality hfits hlow hhigh
    have hbad : ¬(PoseFrame.ofContent content).good s.scp.config.qualityFloor = true := by
      rw [PoseFrame.good_iff, hread]
      dsimp only
      omega
    have heffect := trackerBytes_true s (frameContent_length sequence p quality) hf ((if_pos rfl).trans (if_neg hbad))
    rw [Ev.badFrame_eq] at heffect
    exact heffect.next rfl rfl rfl rfl
  · intro bytes errors
    refine ⟨?_, fun hi => ?_⟩
    · have heffect := trackerBytes_true s hl hf (if_neg hcheck)
      rw [Ev.badFrame_eq] at heffect
      exact heffect.next rfl rfl rfl rfl
    · have hline := trackerBytes_complementLine s content check hl hf hi
      rw [event_complementedFrame, if_neg hcheck] at hline
      exact congrArg Host.Outcome.next hline

end Sys2Proof.Machine
end

section
/-! PROOFS. One byte at the framer and the end of a hold window (05_tracker_link.md, R100, R103 to R105, R112, R114). -/

namespace Sys2Proof.Machine

/-! ### One byte (R100, R103 to R105) -/

theorem Trk.isIdle_iff (t : Trk) (b : Byte) :
    t.isIdle b = true ↔ b = 0x55 ∨ (t.inverted = false ∧ b = 0xAA) := by
  simp [Trk.isIdle]

theorem Trk.huntByte_idle {t : Trk} {b : Byte} (h : t.isIdle b = true) : t.huntByte b = t := if_pos h

theorem Trk.huntByte_true (t : Trk) :
    t.huntByte 0xD3 = { t with framing := .collect, complemented := false, buffer := [0xD3] } := by
  have hidle : ¬t.isIdle 0xD3 = true := by
    rw [Trk.isIdle_iff]
    exact fun k => k.elim (by decide) fun h => absurd h.2 (by decide)
  rw [Trk.huntByte, if_neg hidle, if_pos rfl]

theorem Trk.huntByte_complemented {t : Trk} (h : t.inverted = false) :
    t.huntByte 0x2C = { t with framing := .collect, complemented := true, buffer := [0x2C] } := by
  have hidle : ¬t.isIdle 0x2C = true := by
    rw [Trk.isIdle_iff]
    exact fun k => k.elim (by decide) fun h => absurd h.2 (by decide)
  rw [Trk.huntByte, if_neg hidle, if_neg (by decide), if_pos ⟨rfl, h⟩]

theorem Trk.discardByte_other {t : Trk} {b : Byte} (h : ¬t.isIdle b = true) :
    t.discardByte b = { t with idleRun := 0 } := if_neg h

theorem Trk.discardByte_first {t : Trk} {b : Byte} (h : t.isIdle b = true) (hr : t.idleRun = 0) :
    t.discardByte b = { t with idleRun := 1 } := by
  rw [Trk.discardByte, if_pos h, hr]
  rfl

theorem Trk.discardByte_second {t : Trk} {b : Byte} (h : t.isIdle b = true) (hr : 1 ≤ t.idleRun) :
    t.discardByte b = { t with idleRun := 2, framing := .hunt } := by
  rw [Trk.discardByte, if_pos h, if_neg (by omega)]

/-- A bad start: the byte is the first one taken in DISCARD (R103). -/
theorem Trk.badStart_eq (t : Trk) (b : Byte) : t.badStart b = { t with
    framing := .discard, buffer := [], idleRun := if t.isIdle b = true then 1 else 0
    falseStarts := satUp t.falseStarts } := by
  let opened : Trk := { t with falseStarts := satUp t.falseStarts, framing := .discard, idleRun := 0, buffer := [] }
  have hsame : opened.isIdle b = t.isIdle b := rfl
  show opened.discardByte b = _
  by_cases h : t.isIdle b = true
  · rw [Trk.discardByte_first (hsame.trans h) rfl, if_pos h]
  · rw [Trk.discardByte_other (hsame ▸ h), if_neg h]

/-- A byte that completes no frame changes the receiver alone. -/
theorem trackerByte_becomes {s : State} {raw : Byte} {u : Trk}
    (h : (Ev.start s).trackerByte raw = { Ev.start s with trk := u }) :
    exec (.trackerByte raw) s = .next { s with trk := u } := by
  have hexec : exec (.trackerByte raw) s = .next (event (Ev.trackerByte raw) s) := rfl
  rw [hexec, event, h, Ev.finish_none _ rfl rfl rfl rfl]
  rfl

theorem Ev.trackerByte_hunt {e : Ev} (h : e.trk.framing = .hunt) (raw : Byte) :
    e.trackerByte raw = e.onTrk (Trk.huntByte (e.trk.decode raw)) := by
  simp only [Ev.trackerByte, h]

theorem Ev.trackerByte_discard {e : Ev} (h : e.trk.framing = .discard) (raw : Byte) :
    e.trackerByte raw = e.onTrk (Trk.discardByte (e.trk.decode raw)) := by
  simp only [Ev.trackerByte, h]

theorem Ev.trackerByte_collect {e : Ev} (h : e.trk.framing = .collect) (raw : Byte) :
    e.trackerByte raw = e.collectByte (e.trk.decode raw) := by
  simp only [Ev.trackerByte, h]

/-! ### The hold window (R112, R114) -/

theorem Ev.raiseHold_dfu (e : Ev) (r : Hold) (slot : Option Nat) : (e.raiseHold r slot).dfu = e.dfu := by
  unfold Ev.raiseHold
  split <;> rfl

theorem Ev.crossEffect_dfu (e : Ev) (a : Attr) : (e.crossEffect a).dfu = e.dfu := by
  cases a with
  | glueFaults | pressCutoffs => exact Ev.raiseHold_dfu _ _ _
  | gripCycles | sawCuts | jams | lockLosses | rejects => rfl

theorem Ev.uncrossEffect_dfu (e : Ev) (a : Attr) : (e.uncrossEffect a).dfu = e.dfu := by
  cases a <;> rfl

theorem Ev.evaluate_dfu (e : Ev) (a : Attr) (cause : HealthCause) : (e.evaluate a cause).dfu = e.dfu := by
  unfold Ev.evaluate
  dsimp only
  split
  · exact Ev.crossEffect_dfu _ a
  · exact Ev.uncrossEffect_dfu _ a
  · rfl
  · rfl

theorem Ev.countWear_dfu (e : Ev) (a : Attr) : (e.countWear a).dfu = e.dfu := by
  unfold Ev.countWear
  split
  · exact Ev.evaluate_dfu _ a .count
  · rfl

theorem Ev.headLockLost_dfu (e : Ev) : e.headLockLost.dfu = e.dfu := by
  unfold Ev.headLockLost
  split
  · split <;> rfl
  · split <;> rfl
  · split <;> rfl
  all_goals rfl

/-- Settles O60: the byte by the framer's state; the window's end by its count, a loss by the notices in their order. -/
theorem framerBytesAndHoldWindow : Obligations.FramerBytesAndHoldWindow := by
  refine ⟨fun s raw => ?_, fun s began hw => ?_⟩
  · intro t b idle other becomes falseStarts
    have hidle : t.isIdle b = true ↔ idle := Trk.isIdle_iff t b
    refine ⟨fun hf => ?_, fun hf => ?_, fun hf => ?_⟩
    · have hbecomes {u : Trk} (hu : t.huntByte b = u) : becomes u :=
        trackerByte_becomes ((Ev.trackerByte_hunt (e := Ev.start s) hf raw).trans (by rw [← hu]; rfl))
      refine ⟨fun hi => hbecomes (Trk.huntByte_idle (hidle.2 hi)), fun hb => hbecomes ?_, fun hb hinv => hbecomes ?_,
        fun hi hb hc => hbecomes ?_⟩
      · rw [hb]
        exact Trk.huntByte_true t
      · rw [hb]
        exact Trk.huntByte_complemented hinv
      · have hother : ¬t.isIdle b = true := fun k => hi (hidle.1 k)
        rw [Trk.huntByte, if_neg hother, if_neg hb, if_neg hc, Trk.badStart_eq, if_neg hother]
        rfl
    · have hbecomes {u : Trk} (hu : (Ev.start s).collectByte b = { Ev.start s with trk := u }) : becomes u :=
        trackerByte_becomes ((Ev.trackerByte_collect (e := Ev.start s) hf raw).trans hu)
      refine ⟨fun first hbuf hb => hbecomes ?_, fun first hbuf hb => hbecomes ?_, fun hlow hhigh => hbecomes ?_⟩
      · have hlength : ((Ev.start s).trk.buffer ++ [b]).length = 2 := by rw [show (Ev.start s).trk.buffer = [first] from hbuf]; rfl
        rw [Ev.collectByte, if_pos ⟨hlength, hb⟩, Ev.onTrk, Trk.badStart_eq]
        simp only [← hidle]
        rfl
      · have hframe : (Ev.start s).trk.buffer ++ [b] = [first, b] := by rw [show (Ev.start s).trk.buffer = [first] from hbuf]; rfl
        rw [Ev.collectByte, hframe, if_neg fun k => k.2 hb, if_pos (show [first, b].length < 20 by simp)]
        rfl
      · have hlength : ((Ev.start s).trk.buffer ++ [b]).length = t.buffer.length + 1 := List.length_append
        rw [Ev.collectByte, hlength, if_neg (by omega), if_pos (by omega)]
        rfl
    · have hbecomes {u : Trk} (hu : t.discardByte b = u) : becomes u :=
        trackerByte_becomes ((Ev.trackerByte_discard (e := Ev.start s) hf raw).trans (by rw [← hu]; rfl))
      exact ⟨fun hi => hbecomes (Trk.discardByte_other fun k => hi (hidle.1 k)),
        fun hi hr => hbecomes (Trk.discardByte_first (hidle.2 hi) hr),
        fun hi hr => hbecomes (Trk.discardByte_second (hidle.2 hi) hr)⟩
  · intro later
    have hend {e : Ev} (he : (Ev.start later).windowOut = e) : Effect .holdWindowEnd s e :=
      fireAt_effect (moment := s.windowEnd) (t := began + 20) rfl (by rw [State.windowEnd, hw]; rfl) he
    refine ⟨fun hc => ?_, fun hc => ?_⟩
    · have hkeep : (Ev.start later).windowOut = { Ev.start later with trk :=
          { s.trk with windowCount := 0, window := some (began + 20) } } := by
        refine (if_pos hc).trans ?_
        rw [Ev.onTrk, show (Ev.start later).trk = s.trk from rfl, hw]
        rfl
      exact (hend hkeep).next rfl rfl rfl rfl
    · intro lost stopped
      have hlose : (Ev.start later).windowOut = lost.failSampling .lockLost := if_neg (Nat.not_le.2 hc)
      have hdfu : lost.dfu = s.dfu := by
        rw [Ev.headLockLost_dfu, Ev.countWear_dfu]
        rfl
      refine ⟨fun h => hend (hlose.trans (Ev.failSampling_other _ (hdfu.symm ▸ h))), fun k hk hp => ?_⟩
      have hfail : (Ev.start later).windowOut = if s.dfu.attempt < 3 then
          { lost with dfu := { stopped with attempt := s.dfu.attempt + 1, phase := .due } }.calSlew
          else { lost with dfu := { stopped with pendingPoints := [], cal := .failed } }.report
            (.calFailed k (some .lockLost)) := by
        rw [hlose, Ev.failSampling_running (k := k) .lockLost (hdfu.symm ▸ hk) (hdfu.symm ▸ hp), Ev.failAttempt_eq, hdfu]
      exact ⟨fun ha => hend (hfail.trans (if_pos ha)), fun ha => hend (hfail.trans (if_neg (Nat.not_lt.2 ha)))⟩

end Sys2Proof.Machine
end
